-- ==== Sys2Proof/Word.lean ====
section
/-! DEFINITION. Words and the numbered objects of the reducer (spec/00_scope.md section 5). -/

namespace Sys2Proof

/-- A byte of a frame, a record, a pixel row or the buffer memory. -/
abbrev Byte := BitVec 8
/-- A supervisor register, and every two-byte field of a record. -/
abbrev Word := BitVec 16
/-- A four-byte field: bundle number, arrival stamp. -/
abbrev Long := BitVec 32

/-- Lanes 0 to 3; scan port SPl serves lane l. -/
abbrev Lane := Fin 4
/-- Item table slots 0 to 255. -/
abbrev Slot := Fin 256
/-- Exchange ports XP0 and XP1. -/
abbrev Port := Fin 2
/-- Coding units CU0 and CU1. -/
abbrev UnitNo := Fin 2
/-- Profile blocks 0 to 7. -/
abbrev BlockNo := Fin 8

end Sys2Proof
end

