-- ==== Sys2Proof/Syntax.lean ====
section
/-! DEFINITION. The commands of the reducer: one constructor for each row of spec/opcode_table.json.
Frame commands carry the contents of the frame as it arrives (spec/10_message_and_record_layouts.md, Tables 10.4
and 10.5); supervisor commands are the write of their code to the command register and read operands A and B from
the operand registers (R176). -/

namespace Sys2Proof

/-- A command: one event of the reducer, taken whole. -/
inductive Instr where
  -- frames on a scan link, as the port judges them at their last byte (R30)
  | itemOpen (lane : Lane) (bundle : Long) (position : Word) (faces : Byte)
  | faceOpen (lane : Lane) (kind : Byte) (width : Word)
  | row (lane : Lane) (pixels : List Byte)
  | faceClose (lane : Lane)
  | itemClose (lane : Lane)
  | itemAbandon (lane : Lane) (reason : Byte)
  | scanFailedFrame (lane : Lane)
  -- scan link detector and pocket timer
  | scanLinkUp (lane : Lane)
  | scanLinkLost (lane : Lane)
  | pocketTimerExpiry (lane : Lane)
  -- buffer memory; `upsets` are the places in the burst whose byte the memory finds against its parity (log 6)
  | memoryGrant
  | burstComplete (upsets : List Nat)
  -- exchange links
  | segmentBoundary (port : Port)
  | claim (port : Port) (mask : Byte)
  | cancel (port : Port)
  | hold (port : Port)
  | go (port : Port)
  | delivered (port : Port)
  | returnItem (port : Port)
  | exchangeFailedFrame (port : Port)
  | stallTimerExpiry (port : Port)
  | exchangeLinkUp (port : Port)
  | exchangeLinkLost (port : Port)
  -- supervisor commands; `pinHigh` is the level of STORE_WE when the command is taken (log 9)
  | storeEditOn (pinHigh : Bool)
  | storeEditOff
  | load
  | validate
  | program
  | erase
  | bind
  | laneClose
  | laneOpen
  | laneReset
  | setQuota
  | purge
  | xportReset
  | setMask
  | setStall
  | setReserve
  | softReset
  | unknownCommandCode (code : Word)
  -- other accesses of the register window
  | stagingDataWrite (value : Word)
  | stagingDataRead
  | stagingAddressWrite (value : Word)
  | itemSelectWrite (value : Word)
  | itemDataRead
  | interruptCausesWrite (value : Word)
  | interruptEnablesWrite (value : Word)
  | interruptControlWrite (value : Word)
  | resetCauseWrite (value : Word)
  | registerWrite (register : Fin 32) (value : Word)
  -- pins, power and the store's own events
  | storeWeFall
  | powerOn
  | pinReset
  | resetNRelease
  | startUpScanEnd
  | erasingComplete
  | programmingComplete
  -- `lost` are the bytes of the busy block that did not keep what was written, as (offset, byte read) (log 12)
  | verifyEnd (lost : List (Nat × Byte))
  deriving DecidableEq, Repr

end Sys2Proof
end

