-- ==== Sys2Proof/WellFormed.lean ====
section
/-! DEFINITION. Which commands are written as the spec's frames and registers allow. The machine gives a meaning to
the others too: a frame with contents out of range is a failed frame (R30, R127), and a REGISTER_WRITE of a register
that has a row of its own acts as that row (log 20). -/

namespace Sys2Proof

/-- A ROW carries 1 to 2,048 pixels (R30, Table 10.4). -/
def rowLengthOk (pixels : List Byte) : Bool := 1 ≤ pixels.length && pixels.length ≤ 2048

/-- An ITEM OPEN carries a position other than 0 and one or two faces (R30). -/
def itemOpenOk (position : Word) (faces : Byte) : Bool := position ≠ 0 && (faces = 1 || faces = 2)

/-- A FACE OPEN carries face kind 0, FRONT, or 1, REAR (R30, Table 10.1). -/
def faceKindOk (kind : Byte) : Bool := kind = 0 || kind = 1

/-- A CLAIM's lane mask marks one lane or more of lanes 0 to 3 and nothing else (R127). -/
def claimMaskOk (mask : Byte) : Bool := 1 ≤ mask.toNat && mask.toNat ≤ 15

/-- The codes 0001h to 0011h name the commands of Table 9.2 (Table 10.11). -/
def commandCodeKnown (code : Word) : Bool := 1 ≤ code.toNat && code.toNat ≤ 17

/-- Registers whose write has a row of its own: command, causes, enables, control, reset cause, staging address,
staging data and item select (Table 10.10). -/
def registerHasOwnRow (register : Fin 32) : Bool :=
  [0x00, 0x04, 0x05, 0x06, 0x07, 0x1C, 0x1D, 0x1E].contains register.val

/-- Places of a burst are 0 to 255 (R71). -/
def upsetsOk (upsets : List Nat) : Bool := upsets.all (· < 256)

/-- Offsets of a block are 0 to 511 (section 8.1). -/
def lostOk (lost : List (Nat × Byte)) : Bool := lost.all (·.1 < 512)

/-- A command is well formed. -/
def Instr.wellFormed : Instr → Bool
  | .itemOpen _ _ position faces => itemOpenOk position faces
  | .faceOpen _ kind _ => faceKindOk kind
  | .row _ pixels => rowLengthOk pixels
  | .claim _ mask => claimMaskOk mask
  | .burstComplete upsets => upsetsOk upsets
  | .unknownCommandCode code => !commandCodeKnown code
  | .registerWrite register _ => !registerHasOwnRow register
  | .verifyEnd lost => lostOk lost
  | .faceClose _ | .itemClose _ | .itemAbandon _ _ | .scanFailedFrame _ | .scanLinkUp _ | .scanLinkLost _
  | .pocketTimerExpiry _ | .memoryGrant | .segmentBoundary _ | .cancel _ | .hold _ | .go _ | .delivered _
  | .returnItem _ | .exchangeFailedFrame _ | .stallTimerExpiry _ | .exchangeLinkUp _ | .exchangeLinkLost _
  | .storeEditOn _ | .storeEditOff | .load | .validate | .program | .erase | .bind | .laneClose | .laneOpen
  | .laneReset | .setQuota | .purge | .xportReset | .setMask | .setStall | .setReserve | .softReset
  | .stagingDataWrite _ | .stagingDataRead | .stagingAddressWrite _ | .itemSelectWrite _ | .itemDataRead
  | .interruptCausesWrite _ | .interruptEnablesWrite _ | .interruptControlWrite _ | .resetCauseWrite _
  | .storeWeFall | .powerOn | .pinReset | .resetNRelease | .startUpScanEnd | .erasingComplete
  | .programmingComplete => true

end Sys2Proof
end

