-- ==== Sys2Proof/Decode.lean ====
section
/-! DEFINITION. Byte order, the frame check, and the link frames of spec/10_message_and_record_layouts.md read into
commands and written from them. The rows of spec/opcode_table.json give no bits, so `decodeTableWord` knows no
word. -/

namespace Sys2Proof

/-! Byte order: most significant byte first (R191). -/

def hiByte (w : Word) : Byte := w.extractLsb' 8 8
def loByte (w : Word) : Byte := w.extractLsb' 0 8
def wordOf (hi lo : Byte) : Word := hi ++ lo
def wordBytes (w : Word) : List Byte := [hiByte w, loByte w]
def longOf (a b c d : Byte) : Long := (a ++ b) ++ (c ++ d)
def longBytes (v : Long) : List Byte :=
  [v.extractLsb' 24 8, v.extractLsb' 16 8, v.extractLsb' 8 8, v.extractLsb' 0 8]

/-! The CRC of R192, also that of R125 and R152. -/

/-- One data bit: compare with the register's top bit, shift left, and fold in 1021h where they differed (R192). -/
def crcBit (r : Word) (bit : Bool) : Word :=
  if bit != r.msb then (r <<< 1) ^^^ 0x1021#16 else r <<< 1

/-- One byte, its bits from the most significant to the least (R192). -/
def crcByte (r : Word) (b : Byte) : Word :=
  [7, 6, 5, 4, 3, 2, 1, 0].foldl (fun r i => crcBit r (b.getLsbD i)) r

/-- The register after the bytes, starting at FFFFh, with no inversion at the end (R192). -/
def crc16 (bytes : List Byte) : Word := bytes.foldl crcByte 0xFFFF#16

/-! Frames (Table 10.3): type, content length, contents, frame check. -/

/-- The frame of a type and contents, its length and check computed (R192). -/
def frameOf (type : Byte) (contents : List Byte) : List Byte :=
  let body := type :: wordBytes (BitVec.ofNat 16 contents.length) ++ contents
  body ++ wordBytes (crc16 body)

/-- The type and contents of a frame that passes the tests common to all types: at least 5 bytes, no more than the
port gathers, the length field, and the check over all but its last two bytes (R192). -/
def openFrame (most : Nat) (bytes : List Byte) : Option (Byte × List Byte) :=
  match bytes with
  | type :: l1 :: l0 :: rest =>
    let n := (wordOf l1 l0).toNat
    let contents := rest.take n
    if most < bytes.length then none
    else if n + 2 ≠ rest.length then none
    else if rest.drop n ≠ wordBytes (crc16 (type :: l1 :: l0 :: contents)) then none
    else some (type, contents)
  | _ => none

/-- A scan port gathers at most 2,053 bytes of a frame (R192). -/
def scanFrameMost : Nat := 2053
/-- An exchange port gathers at most 6 bytes of a frame (R192). -/
def exchangeFrameMost : Nat := 6

/-- The contents of a scan link frame, by its type (Table 10.4). -/
def scanContents (lane : Lane) (type : Byte) (contents : List Byte) : Option Instr :=
  match type.toNat, contents with
  | 0x01, [b3, b2, b1, b0, p1, p0, f] => some (.itemOpen lane (longOf b3 b2 b1 b0) (wordOf p1 p0) f)
  | 0x02, [k, w1, w0] => some (.faceOpen lane k (wordOf w1 w0))
  | 0x03, pixels => some (.row lane pixels)
  | 0x04, [] => some (.faceClose lane)
  | 0x05, [] => some (.itemClose lane)
  | 0x06, [r] => some (.itemAbandon lane r)
  | _, _ => none

/-- The command that a whole frame on a scan link is: a message, or a failed frame (R30, R192, R193). -/
def judgeScanFrame (lane : Lane) (bytes : List Byte) : Instr :=
  match openFrame scanFrameMost bytes with
  | none => .scanFailedFrame lane
  | some (type, contents) =>
    match scanContents lane type contents with
    | none => .scanFailedFrame lane
    | some c => if c.wellFormed then c else .scanFailedFrame lane

/-- The contents of an exchange link frame, by its type (Table 10.5). -/
def exchangeContents (port : Port) (type : Byte) (contents : List Byte) : Option Instr :=
  match type.toNat, contents with
  | 0x11, [m] => some (.claim port m)
  | 0x12, [] => some (.cancel port)
  | 0x13, [] => some (.hold port)
  | 0x14, [] => some (.go port)
  | 0x15, [] => some (.delivered port)
  | 0x16, [] => some (.returnItem port)
  | _, _ => none

/-- The command that a whole frame on an exchange link is: a message, or a failed frame (R127, R192, R193). -/
def judgeExchangeFrame (port : Port) (bytes : List Byte) : Instr :=
  match openFrame exchangeFrameMost bytes with
  | none => .exchangeFailedFrame port
  | some (type, contents) =>
    match exchangeContents port type contents with
    | none => .exchangeFailedFrame port
    | some c => if c.wellFormed then c else .exchangeFailedFrame port

/-- The frame a capture controller or exchange processor sends for a message (Tables 10.4 and 10.5); none for a
command that is no message. -/
def messageFrame : Instr → Option (List Byte)
  | .itemOpen _ bundle position faces =>
    some (frameOf 0x01 (longBytes bundle ++ wordBytes position ++ [faces]))
  | .faceOpen _ kind width => some (frameOf 0x02 (kind :: wordBytes width))
  | .row _ pixels => some (frameOf 0x03 pixels)
  | .faceClose _ => some (frameOf 0x04 [])
  | .itemClose _ => some (frameOf 0x05 [])
  | .itemAbandon _ reason => some (frameOf 0x06 [reason])
  | .claim _ mask => some (frameOf 0x11 [mask])
  | .cancel _ => some (frameOf 0x12 [])
  | .hold _ => some (frameOf 0x13 [])
  | .go _ => some (frameOf 0x14 [])
  | .delivered _ => some (frameOf 0x15 [])
  | .returnItem _ => some (frameOf 0x16 [])
  | _ => none

/-- No row of spec/opcode_table.json gives its command any bits, so no word spells one. -/
def decodeTableWord (_nbits _w : Nat) : Option Instr := none

end Sys2Proof
end

