-- ==== Sys2Proof/Config.lean ====
section
/-! DEFINITION. What the part fixes once (sizes and reset settings of the spec), and the free values the spec
leaves open. -/

namespace Sys2Proof.Config

/-- Strips of the strip area (R70, Table 4.1). -/
def strips : Nat := 2048
/-- Pages of the page area (R70, Table 4.1). -/
def pages : Nat := 8192
/-- Bytes of a strip: 16 rows of 2,048 byte positions (R70). -/
def stripBytes : Nat := 32768
/-- Bytes of one row of a strip (R70). -/
def stripRowBytes : Nat := 2048
/-- Bytes of a page: 16 burst places of 256 bytes (R70). -/
def pageBytes : Nat := 4096
/-- First byte of the page area (R70). -/
def pageBase : Nat := 67108864
/-- Bytes of the buffer memory (R70). -/
def memoryBytes : Nat := 100663296
/-- The largest burst (R71). -/
def burstBytes : Nat := 256
/-- Rows a face can land (R48). -/
def maxRows : Nat := 1024
/-- Findings an item record stores (R61). -/
def maxFindings : Nat := 8
/-- Bytes of a profile record (section 8.1). -/
def recordBytes : Nat := 512
/-- Bytes of a profile record that its check covers (R152). -/
def checkedBytes : Nat := 510
/-- Lane quota after power-on and pin reset (R28). -/
def resetQuota : Nat := 64
/-- Head reserve after power-on and pin reset (R84). -/
def resetHeadReserve : Nat := 256
/-- Stall limit after power-on and pin reset, in ms (R142). -/
def resetStallLimit : Nat := 2000
/-- Upper bounds of the store's phases in ms (Table 8.4). -/
def startUpMs : Nat := 10
def eraseMs : Nat := 120
def programMs : Nat := 40
def verifyMs : Nat := 5

/-- FREE VALUE (log 8): whether a port had begun to send the produced frame at the head of its list when a reset, a
DELIVERED or a RETURN is taken. R52, R128, R143, R144, R147 and R149 make the outcome depend on it, and no rule says when
sending begins. -/
opaque sendingBegun : Nat → Bool

/-- FREE VALUE (log 13): the bytes of the busy block that did not keep what was written, as (offset, byte read),
when the time bound of VERIFYING (Table 8.4) is reached with no VERIFY_END command given. -/
opaque bytesNotKept : Nat → List (Nat × Byte)

end Sys2Proof.Config
end

