-- ==== Sys2Proof/Machine/State.lean ====
section
/-! DEFINITION. The state of the reducer: every register, record, list, pool, timer and pin the spec names, as plain
data, and `State.reset`, the machine right after power-on (R189). -/

namespace Sys2Proof.Machine

/-! ## Names (Table 10.1, Table 10.2) -/

inductive FaceKind where
  | front | rear
  deriving DecidableEq, Repr

/-- The face of a finding: FRONT, REAR or ITEM (R61). -/
inductive FindingFace where
  | front | rear | item
  deriving DecidableEq, Repr

inductive RenditionKind where
  | bitonal | gray
  deriving DecidableEq, Repr

inductive Severity where
  | note | reject
  deriving DecidableEq, Repr

/-- Table 3.3. -/
inductive FindingKind where
  | short | long | narrow | wide | truncated | dark | light | streak
  | faceMissing | abandoned | protocol | linkError | linkLost | laneReset | late | purged
  deriving DecidableEq, Repr

inductive Pocket where
  | pending | accept | reject
  deriving DecidableEq, Repr

inductive Disposition where
  | accepted | rejected | unfit
  deriving DecidableEq, Repr

inductive ItemState where
  | free | landing | settling | ready | claimed
  deriving DecidableEq, Repr

inductive FaceState where
  | landing | landed | cut
  deriving DecidableEq, Repr

inductive RenditionState where
  | waiting | queued | coding | done | oversize | fault | cancelled
  deriving DecidableEq, Repr

/-- A profile source: a block or the staging area (R3, R151). -/
inductive Source where
  | block (b : BlockNo)
  | staging
  deriving DecidableEq, Repr

/-- Table 1.4. -/
inductive SlotRefusal where
  | laneClosed | noProfile | quota | tableFull
  deriving DecidableEq, Repr

/-- The result register's answers (R177); `none` is NONE. -/
inductive Answer where
  | none | ok | invalidArg | notInUse | claimed | busy | notEnabled | protectedStore | badState | inUse
  | stagingNotValid | duplicate | storeBusy
  deriving DecidableEq, Repr

/-! ## The item table (chapter 1) -/

/-- A face checker's accumulators, kept with the face while it is LANDING (R4, R53). -/
structure Accumulators where
  darkLevel : Nat
  darkCount : Nat
  columns   : List Nat
  deriving DecidableEq, Repr

/-- A face record (R4, R35). -/
structure Face where
  kind       : FaceKind
  width      : Nat
  state      : FaceState
  rowsLanded : Nat
  rowsLost   : Nat
  strips     : List Nat
  accum      : Option Accumulators
  deriving DecidableEq, Repr

/-- A finding record (R61). -/
structure Finding where
  kind     : FindingKind
  face     : FindingFace
  severity : Severity
  value    : Nat
  deriving DecidableEq, Repr

/-- The output fields a rendition has while it is DONE (R7). -/
structure Output where
  width  : Nat
  rows   : Nat
  length : Nat
  deriving DecidableEq, Repr

/-- A rendition record (R7). -/
structure Rendition where
  face   : FaceKind
  kind   : RenditionKind
  state  : RenditionState
  rung   : Nat
  budget : Nat
  chain  : List Nat
  output : Option Output
  deriving DecidableEq, Repr

/-- An item record (Table 1.1). -/
structure Item where
  state         : ItemState
  lane          : Lane
  stamp         : Long
  bundle        : Long
  position      : Word
  facesExpected : Byte
  source        : Option Source
  name          : List Byte
  edition       : Word
  trial         : Bool
  faces         : List Face
  findings      : List Finding
  overflow      : Bool
  purged        : Bool
  pocket        : Pocket
  reason        : Option FindingKind
  delivered     : Bool
  latency       : Option Nat
  renditions    : List Rendition
  holder        : Option Port
  disposition   : Option Disposition
  retries       : Nat
  deriving DecidableEq, Repr

/-- A FREE slot's record: every field emptied (R1). -/
def Item.empty : Item where
  state := .free
  lane := 0
  stamp := 0
  bundle := 0
  position := 0
  facesExpected := 0
  source := none
  name := List.replicate 8 0
  edition := 0
  trial := false
  faces := []
  findings := []
  overflow := false
  purged := false
  pocket := .pending
  reason := none
  delivered := false
  latency := none
  renditions := []
  holder := none
  disposition := none
  retries := 0

/-- A lane's queue of slots, oldest first, its admission state and its quota (R16, R19, R21). -/
structure LaneRec where
  queue  : List Slot
  closed : Bool
  quota  : Nat
  deriving DecidableEq, Repr

def LaneRec.reset : LaneRec where
  queue := []
  closed := false
  quota := Config.resetQuota

/-! ## Scan ports (chapters 2 and 3) -/

/-- Table 2.2. -/
inductive ScanState where
  | down | idle | item | face | discard
  deriving DecidableEq, Repr

/-- A judged frame, waiting to be taken or being taken (R30, R33). -/
inductive ScanFrame where
  | itemOpen (bundle : Long) (position : Word) (faces : Byte)
  | faceOpen (kind : FaceKind) (width : Nat)
  | row (pixels : List Byte)
  | faceClose
  | itemClose
  | itemAbandon (reason : Byte)
  | failed
  deriving DecidableEq, Repr

/-- A message a scan port produces (Table 2.1). -/
inductive ScanMsg where
  | slotGiven (position : Word) (slot : Slot)
  | slotRefused (position : Word) (reason : SlotRefusal)
  | pocket (position : Word) (pocket : Pocket) (reason : Option FindingKind) (latency : Nat)
  deriving DecidableEq, Repr

/-- The held row: its position, its pixels, and how many of its bursts are written (R48, R49). -/
structure HeldRow where
  position : Nat
  pixels   : List Byte
  written  : Nat
  deriving DecidableEq, Repr

/-- A RUNNING pocket timer (R65): the deadline it started with and the ms that remain. -/
structure PocketTimer where
  deadline  : Nat
  remaining : Nat
  deriving DecidableEq, Repr

/-- A scan port (R32). `begun` is the model's own (log 8): the sending of the first produced frame is known to have
begun. -/
structure ScanPort where
  link      : Bool
  state     : ScanState
  attached  : Option Slot
  current   : Option FaceKind
  gathering : List Byte
  waiting   : List ScanFrame
  held      : Option HeldRow
  timer     : Option PocketTimer
  produced  : List ScanMsg
  begun     : Bool
  deriving DecidableEq, Repr

/-- A scan port after a reset, by its link (R52). -/
def ScanPort.fresh (link : Bool) : ScanPort where
  link := link
  state := if link then .idle else .down
  attached := none
  current := none
  gathering := []
  waiting := []
  held := none
  timer := none
  produced := []
  begun := false

/-! ## Buffer memory and its arbiter (chapter 4) -/

/-- The buffer memory: the bytes written (R70), and the addresses whose byte disagrees with its parity (R71). -/
structure Memory where
  cells : List Host.Cell
  upset : List Nat
  deriving DecidableEq, Repr

/-- Nothing listed: contents unspecified (R70, log 4). -/
def Memory.empty : Memory where
  cells := []
  upset := []

/-- The eight requesters (Table 4.2). -/
inductive Requester where
  | w (lane : Lane)
  | cu (unit : UnitNo)
  | xr (port : Port)
  deriving DecidableEq, Repr

/-- A burst under way (R71). `live` is clear when the operation it serves has been given up, so that its result is
discarded (R74). -/
structure Burst where
  who   : Requester
  write : Bool
  addr  : Nat
  count : Nat
  data  : List Byte
  live  : Bool
  deriving DecidableEq, Repr

/-- The memory arbiter: waiting requests and rotation position of class A (W0 to W3) and of class B (CU0, CU1, XR0,
XR1 as 0 to 3), and the burst under way (R72, R73). -/
structure Arbiter where
  classA : Vector Bool 4
  classB : Vector Bool 4
  lastA  : Fin 4
  lastB  : Fin 4
  burst  : Option Burst
  deriving DecidableEq, Repr

/-- The arbiter after a reset, with a burst still under way or none (R73, R87). -/
def Arbiter.fresh (burst : Option Burst) : Arbiter where
  classA := Vector.replicate 4 false
  classB := Vector.replicate 4 false
  lastA := 3
  lastB := 3
  burst := burst

/-- The page pool (Table 4.5). -/
structure PagePool where
  free        : List Nat
  freeCount   : Nat
  reserved    : Nat
  headReserve : Nat
  deriving DecidableEq, Repr

/-- The page pool after a reset, with the head reserve it keeps or takes (R78). -/
def PagePool.fresh (headReserve : Nat) : PagePool where
  free := List.range Config.pages
  freeCount := Config.pages
  reserved := 0
  headReserve := headReserve

/-! ## Jobs and coding units (chapters 5 and 6) -/

/-- A coding job (R88). -/
structure Job where
  slot : Slot
  face : FaceKind
  kind : RenditionKind
  deriving DecidableEq, Repr

/-- The coder of a unit (Table 6.1). In `prev` true is black; `sums` are the row sums with their pixel counts. -/
structure Coder where
  prev   : List Bool
  bits   : List Bool
  sums   : List (Nat × Nat)
  rowsIn : Nat
  check  : Word
  deriving DecidableEq, Repr

/-- A coder while its unit is IDLE and after every reset. R113 has it cleared and gives the cleared data check no value;
FFFFh is the model's choice (DESIGN CHOICE, log 29), and no rule reads it before the next rung starts it afresh. -/
def Coder.cleared : Coder where
  prev := []
  bits := []
  sums := []
  rowsIn := 0
  check := 0xFFFF

/-- What the unit's one memory request is for: the next burst of a row (R97), a full output burst (R99), the last
short output burst, or the first burst place with the header (R103). The model's own (log 14). -/
inductive UnitPhase where
  | read | write | flush | header
  deriving DecidableEq, Repr

/-- A coding unit (Table 5.2); it is IDLE while it has no job. `rowSoFar` and `unplaced` are the model's own
(log 14): the pixels of the current row read so far, and coded bytes not yet placed. -/
structure CodingUnit where
  job         : Option Job
  rung        : Nat
  length      : Nat
  readRow     : Nat
  undrawn     : Nat
  firstPlace  : List Byte
  outputBurst : List Byte
  coder       : Coder
  phase       : UnitPhase
  rowSoFar    : List Byte
  unplaced    : List Byte
  deriving DecidableEq, Repr

/-- An IDLE unit: no job, no reservation, empty burst stores (R90). No rule gives its rung, length and read position a
value; 0 is the model's choice, as are `phase`, `rowSoFar` and `unplaced` (DESIGN CHOICE, log 31), and the start of a
job sets them all afresh (R96). -/
def CodingUnit.idle : CodingUnit where
  job := none
  rung := 0
  length := 0
  readRow := 0
  undrawn := 0
  firstPlace := []
  outputBurst := []
  coder := Coder.cleared
  phase := .read
  rowSoFar := []
  unplaced := []

/-! ## Exchange ports (chapter 7) -/

/-- Table 7.3. -/
inductive ExchangeState where
  | down | idle | waiting | sending | held | await
  deriving DecidableEq, Repr

/-- The acknowledgement a STALE names (Table 10.5). -/
inductive Ack where
  | delivered | returned
  deriving DecidableEq, Repr

inductive ClaimRefusal where
  | busy | noLanes
  deriving DecidableEq, Repr

/-- A frame an exchange port produces (Table 7.1). -/
inductive ExchangeMsg where
  | grant (record : List Byte)
  | segment (rendition number : Nat) (bytes : List Byte)
  | endOfStream (count : Nat)
  | broken (rendition number : Nat)
  | cancelled
  | revoked (slot : Slot) (stamp : Long)
  | stale (ack : Ack)
  | claimRefused (reason : ClaimRefusal)
  deriving DecidableEq, Repr

/-- A stream position: rendition index and segment number (R131). -/
structure StreamPos where
  rendition : Nat
  number    : Nat
  deriving DecidableEq, Repr

/-- An exchange port (R131). `position` is none when every SEGMENT has been sent, `segments` counts the SEGMENTs of
this stream (R138), `stall` is the remaining time of a RUNNING stall timer (R141), `begun` is as in ScanPort (log 8). -/
structure ExchangePort where
  link        : Bool
  state       : ExchangeState
  gathering   : List Byte
  slot        : Option Slot
  position    : Option StreamPos
  segments    : Nat
  store       : List Byte
  holdPending : Bool
  stall       : Option Nat
  mask        : BitVec 4
  produced    : List ExchangeMsg
  begun       : Bool
  deriving DecidableEq, Repr

/-- An exchange port after a reset, by its link, with the permitted lane mask it keeps or takes (R149). R131 and R149
give a port that holds no claim no stream position; that it stands at the mark that every SEGMENT has been sent, with
no SEGMENT counted, is the model's choice (DESIGN CHOICE, log 30), and entering SENDING sets both afresh (R131). -/
def ExchangePort.fresh (link : Bool) (mask : BitVec 4) : ExchangePort where
  link := link
  state := if link then .idle else .down
  gathering := []
  slot := none
  position := none
  segments := 0
  store := []
  holdPending := false
  stall := none
  mask := mask
  produced := []
  begun := false

/-- A claim waiting in the release arbiter (R133). -/
structure Claim where
  port : Port
  mask : BitVec 4
  deriving DecidableEq, Repr

/-! ## The profile store (chapter 8) -/

/-- Table 8.1. -/
inductive BlockState where
  | empty | valid | invalid | busy
  deriving DecidableEq, Repr

/-- A profile block: its bytes, whether its operation mark is OPEN, and its state (section 8.1). -/
structure Block where
  bytes : List Byte
  opened : Bool
  state : BlockState
  deriving DecidableEq, Repr

/-- Table 8.3. -/
inductive StagingState where
  | empty | editing | validated
  deriving DecidableEq, Repr

/-- The staging area (R153). -/
structure Staging where
  bytes   : List Byte
  state   : StagingState
  address : BitVec 8
  deriving DecidableEq, Repr

/-- Every byte FFh: an erased block, and the staging area after a reset (section 8.1, R153). -/
def erasedBytes : List Byte := List.replicate Config.recordBytes 0xFF#8

def Staging.reset : Staging where
  bytes := erasedBytes
  state := .empty
  address := 0

/-- Table 8.4. -/
inductive StorePhase where
  | starting | idle | erasing | programming | verifying
  deriving DecidableEq, Repr

inductive StoreOp where
  | erase | program
  deriving DecidableEq, Repr

/-- The last ERASE or PROGRAM to reach the end of its verify (R162). -/
structure StoreOutcome where
  op     : StoreOp
  block  : BlockNo
  failed : Bool
  deriving DecidableEq, Repr

/-- The profile store (R162), with the bindings (R159), the pin counts (R160), and the ms left until the bound of its
present phase (Table 8.4, log 13). -/
structure Store where
  blocks      : Vector Block 8
  staging     : Staging
  bindings    : Vector (Option Source) 4
  pins        : Vector Nat 8
  stagingPins : Nat
  editEnable  : Bool
  phase       : StorePhase
  operation   : Option (StoreOp × BlockNo)
  latch       : Bool
  last        : Option StoreOutcome
  phaseLeft   : Nat
  deriving DecidableEq, Repr

/-- The store as power-on and pin reset leave it: every block BUSY with its bytes and mark kept, everything else at
its reset value but the latch (Table 8.8, R171). -/
def Store.started (blocks : Vector Block 8) (latch : Bool) : Store where
  blocks := #v[{ blocks[0] with state := .busy }, { blocks[1] with state := .busy }, { blocks[2] with state := .busy },
    { blocks[3] with state := .busy }, { blocks[4] with state := .busy }, { blocks[5] with state := .busy },
    { blocks[6] with state := .busy }, { blocks[7] with state := .busy }]
  staging := Staging.reset
  bindings := Vector.replicate 4 none
  pins := Vector.replicate 8 0
  stagingPins := 0
  editEnable := false
  phase := .starting
  operation := none
  latch := latch
  last := none
  phaseLeft := Config.startUpMs

/-! ## The supervisor port (chapter 9) -/

/-- Its own registers: command mechanism, interrupts (bits as in Table 10.11), reset cause, item window. -/
structure Supervisor where
  command    : Word
  operandA   : Word
  operandB   : Word
  result     : Answer
  causes     : BitVec 7
  enables    : BitVec 7
  master     : Bool
  resetCause : BitVec 3
  selected   : Slot
  snapshot   : List Byte
  readIndex  : Nat
  deriving DecidableEq, Repr

/-- The snapshot image of a FREE slot 0: profile source FFh and 0 in every other byte (R178, R197). -/
def freeSnapshot : List Byte := List.replicate 22 0 ++ 0xFF#8 :: List.replicate 129 0

/-- The supervisor port as power-on and pin reset leave it, with its reset cause (R177, R178, R185, R186). -/
def Supervisor.fresh (resetCause : BitVec 3) : Supervisor where
  command := 0
  operandA := 0
  operandB := 0
  result := .none
  causes := 0
  enables := 0
  master := false
  resetCause := resetCause
  selected := 0
  snapshot := freeSnapshot
  readIndex := 0

/-- The pins that hold a level: RESET_N held low (R190), STORE_WE as last seen (R161, log 9), and the word a read last
drove onto SD0 to SD15 (log 11). INT is computed (R184). -/
structure Pins where
  resetLow : Bool
  storeWe  : Bool
  busData  : Word
  deriving DecidableEq, Repr

/-! ## The whole machine -/

structure State where
  pending    : List Instr
  pins       : Pins
  scan       : Vector ScanPort 4
  items      : Vector Item 256
  lanes      : Vector LaneRec 4
  stamp      : Long
  mem        : Memory
  arbiter    : Arbiter
  strips     : List Nat
  pages      : PagePool
  jobs       : List Job
  units      : Vector CodingUnit 2
  exchange   : Vector ExchangePort 2
  claims     : List Claim
  stallLimit : Nat
  store      : Store
  sup        : Supervisor
  free       : Nat
  deriving DecidableEq, Repr

/-- What stops the machine. -/
inductive Fault where
  /-- Raised by BURST_COMPLETE when a read burst whose result is wanted covers a byte nothing has written. R71 says
  that no reader reads such a byte; the stop is safe. -/
  | unwrittenByte
  /-- Raised by BURST_COMPLETE when a burst runs past the 100,663,296 bytes of the buffer memory (R70); no strip or
  page of the part does. Safe. -/
  | noSuchAddress
  deriving DecidableEq, Repr

/-- Why a command has no meaning. -/
inductive Refusal where
  /-- Raised by `exec` for a command that has no meaning yet; safe. -/
  | notModelled (mnemonic : String)
  deriving DecidableEq, Repr

/-- A block as it leaves manufacture: all bytes FFh, its mark CLOSED (section 8.1). -/
def Block.manufactured : Block where
  bytes := erasedBytes
  opened := false
  state := .busy

/-- POWER alone in the reset cause (R186). -/
def powerCause : BitVec 3 := 1

/-- The machine right after power-on (R28, R52, R73, R75, R78, R111, R149, R172, R185, R186, R189), with links down
(log 10), STORE_WE low (log 9), and blocks as manufactured (log 24). -/
def State.reset : State where
  pending := []
  pins := { resetLow := false, storeWe := false, busData := 0 }
  scan := Vector.replicate 4 (ScanPort.fresh false)
  items := Vector.replicate 256 Item.empty
  lanes := Vector.replicate 4 LaneRec.reset
  stamp := 0
  mem := Memory.empty
  arbiter := Arbiter.fresh none
  strips := List.range Config.strips
  pages := PagePool.fresh Config.resetHeadReserve
  jobs := []
  units := Vector.replicate 2 CodingUnit.idle
  exchange := Vector.replicate 2 (ExchangePort.fresh false 0xF)
  claims := []
  stallLimit := Config.resetStallLimit
  store := Store.started (Vector.replicate 8 Block.manufactured) false
  sup := Supervisor.fresh powerCause
  free := 0

end Sys2Proof.Machine
end

