-- ==== Sys2Proof/Machine/Ops.lean ====
section
/-! DEFINITION. The named operations that read and change single pieces of state: one home for each field, the buffer
memory, the memory arbiter's requests, the strip pool and the page pool (chapter 4). -/

namespace Sys2Proof.Machine

/-! ## One update for each field of State -/

/-- `v` with place `i` set. -/
def put {α : Type} {n : Nat} (v : Vector α n) (i : Fin n) (x : α) : Vector α n := v.set i.val x i.isLt

def State.withPending (s : State) (q : List Instr) : State := { s with pending := q }
def State.modPins (s : State) (f : Pins → Pins) : State := { s with pins := f s.pins }
def State.modScan (s : State) (l : Lane) (f : ScanPort → ScanPort) : State :=
  { s with scan := put s.scan l (f (s.scan.get l)) }
def State.modItem (s : State) (k : Slot) (f : Item → Item) : State :=
  { s with items := put s.items k (f (s.items.get k)) }
def State.modLane (s : State) (l : Lane) (f : LaneRec → LaneRec) : State :=
  { s with lanes := put s.lanes l (f (s.lanes.get l)) }
def State.withStamp (s : State) (v : Long) : State := { s with stamp := v }
def State.withMem (s : State) (m : Memory) : State := { s with mem := m }
def State.modArbiter (s : State) (f : Arbiter → Arbiter) : State := { s with arbiter := f s.arbiter }
def State.withStrips (s : State) (l : List Nat) : State := { s with strips := l }
def State.modPages (s : State) (f : PagePool → PagePool) : State := { s with pages := f s.pages }
def State.withJobs (s : State) (l : List Job) : State := { s with jobs := l }
def State.modUnit (s : State) (u : UnitNo) (f : CodingUnit → CodingUnit) : State :=
  { s with units := put s.units u (f (s.units.get u)) }
def State.modExchange (s : State) (p : Port) (f : ExchangePort → ExchangePort) : State :=
  { s with exchange := put s.exchange p (f (s.exchange.get p)) }
def State.withClaims (s : State) (l : List Claim) : State := { s with claims := l }
def State.withStallLimit (s : State) (n : Nat) : State := { s with stallLimit := n }
def State.modStore (s : State) (f : Store → Store) : State := { s with store := f s.store }
def State.modSup (s : State) (f : Supervisor → Supervisor) : State := { s with sup := f s.sup }
def State.withFree (s : State) (n : Nat) : State := { s with free := n }

/-! ## The buffer memory (R70, R71) -/

/-- The byte at an address; none where nothing has been written (log 4). -/
def Memory.read (m : Memory) (a : Nat) : Option Byte := (m.cells.find? (·.1 = a)).map (·.2)

/-- `count` consecutive bytes; none if any of them was never written. -/
def Memory.readBytes (m : Memory) (a : Nat) : Nat → Option (List Byte)
  | 0 => some []
  | n + 1 => do
    let b ← m.read a
    let rest ← m.readBytes (a + 1) n
    pure (b :: rest)

/-- A cell list in rising order of address with one cell set. -/
def insertCell (a : Nat) (b : Byte) : List Host.Cell → List Host.Cell
  | [] => [(a, b)]
  | c :: t => if a < c.1 then (a, b) :: c :: t else if a = c.1 then (a, b) :: t else c :: insertCell a b t

/-- A rising list of addresses with one address put in. -/
def insertAddr (a : Nat) : List Nat → List Nat
  | [] => [a]
  | x :: t => if a < x then a :: x :: t else if a = x then x :: t else x :: insertAddr a t

/-- A byte written with fresh parity (R71). -/
def Memory.writeByte (m : Memory) (a : Nat) (b : Byte) : Memory where
  cells := insertCell a b m.cells
  upset := m.upset.filter (· ≠ a)

/-- Consecutive bytes written with fresh parity (R71). -/
def Memory.writeBytes (m : Memory) (a : Nat) : List Byte → Memory
  | [] => m
  | b :: bs => (m.writeByte a b).writeBytes (a + 1) bs

/-- Bytes that now disagree with their parity: the places of a burst at `a` named in `upsets` (log 6). -/
def Memory.upsetAt (m : Memory) (a count : Nat) (upsets : List Nat) : Memory :=
  { m with upset := ((upsets.filter (· < count)).map (a + ·)).foldr insertAddr m.upset }

/-- A read burst is a parity fault when any of its bytes disagrees with its parity (R71). -/
def Memory.parityFault (m : Memory) (a count : Nat) : Bool := m.upset.any (fun x => a ≤ x && x < a + count)

/-- The canonical form: addresses strictly rising and inside the memory. An unlisted address reads as no value, so no
listed cell can equal it. -/
def Memory.wf (m : Memory) : Bool :=
  decide (m.cells.Pairwise (·.1 < ·.1)) && decide (m.upset.Pairwise (· < ·)) &&
    m.cells.all (·.1 < Config.memoryBytes) && m.upset.all (· < Config.memoryBytes)

/-- Where a byte of a strip stands (R70). -/
def stripAddr (strip row column : Nat) : Nat := strip * Config.stripBytes + row * Config.stripRowBytes + column

/-- Where a byte of a page stands (R70). -/
def pageAddr (page offset : Nat) : Nat := Config.pageBase + page * Config.pageBytes + offset

/-! ## The memory arbiter's requests (R72, R74) -/

/-- The place of a class B requester in its rotation order (Table 4.2). -/
def cuPlace (u : UnitNo) : Fin 4 := ⟨u.val, by omega⟩
def xrPlace (p : Port) : Fin 4 := ⟨p.val + 2, by omega⟩

/-- Set or clear a requester's waiting request. -/
def Arbiter.mark (a : Arbiter) (r : Requester) (b : Bool) : Arbiter :=
  match r with
  | .w l => { a with classA := put a.classA l b }
  | .cu u => { a with classB := put a.classB (cuPlace u) b }
  | .xr p => { a with classB := put a.classB (xrPlace p) b }

/-- Whether a requester's request waits. -/
def Arbiter.waits (a : Arbiter) (r : Requester) : Bool :=
  match r with
  | .w l => a.classA.get l
  | .cu u => a.classB.get (cuPlace u)
  | .xr p => a.classB.get (xrPlace p)

/-- A requester places its request for its next burst (R72). -/
def State.request (s : State) (r : Requester) : State := s.modArbiter (·.mark r true)

/-- The burst under way, its result no longer wanted if it is `r`'s (R74). -/
def Arbiter.forsake (a : Arbiter) (r : Requester) : Arbiter :=
  { a with burst := a.burst.map fun b => if b.who = r then { b with live := false } else b }

/-- A requester's operation is given up: its waiting request is withdrawn, and the result of a burst of its own under
way will be discarded (R74). -/
def State.withdraw (s : State) (r : Requester) : State := s.modArbiter fun a => (a.mark r false).forsake r

/-- The first of the four places after `last`, going round, that waits (R73). -/
def nextWaiting (v : Vector Bool 4) (last : Fin 4) : Option (Fin 4) :=
  [last + 1, last + 2, last + 3, last].find? (fun i => v.get i)

/-! ## The strip pool (R75 to R77) -/

/-- Strips of a chain placed on the free list one by one, the last on top (R77). -/
def stack (free chain : List Nat) : List Nat := chain.reverse ++ free

/-! ## The page pool (R79 to R83) -/

/-- The need of a job in pages (R79). -/
def need (budget : Nat) : Nat := (budget + 3) / 4

/-- The reservation at a job's start (R79). -/
def PagePool.reserve (p : PagePool) (n : Nat) : PagePool :=
  { p with freeCount := p.freeCount - n, reserved := p.reserved + n }

/-- A page drawn from a reservation leaves the top of the free list (R80). -/
def PagePool.draw (p : PagePool) : PagePool := { p with free := p.free.tail, reserved := p.reserved - 1 }

/-- A chain given back to the unit's own reservation at a step-down (R81). -/
def PagePool.unstack (p : PagePool) (chain : List Nat) : PagePool :=
  { p with free := stack p.free chain, reserved := p.reserved + chain.length }

/-- A DONE job's undrawn reservation becomes free (R82). -/
def PagePool.unreserve (p : PagePool) (undrawn : Nat) : PagePool :=
  { p with freeCount := p.freeCount + undrawn, reserved := p.reserved - undrawn }

/-- A chain returned as free pages (R82, R83). -/
def PagePool.giveBack (p : PagePool) (chain : List Nat) : PagePool :=
  { p with free := stack p.free chain, freeCount := p.freeCount + chain.length }

/-! ## Records inside an item -/

/-- The face record of a kind in an item (R4: at most one of each kind). -/
def Item.face? (i : Item) (k : FaceKind) : Option Face := i.faces.find? (·.kind = k)

/-- Change the face record of a kind. -/
def Item.modFace (i : Item) (k : FaceKind) (f : Face → Face) : Item :=
  { i with faces := i.faces.map fun x => if x.kind = k then f x else x }

/-- The rendition record of a face and kind (R7). -/
def Item.rendition? (i : Item) (face : FaceKind) (kind : RenditionKind) : Option Rendition :=
  i.renditions.find? (fun r => r.face = face && r.kind = kind)

/-- Change the rendition record of a face and kind. -/
def Item.modRendition (i : Item) (face : FaceKind) (kind : RenditionKind) (f : Rendition → Rendition) : Item :=
  { i with renditions := i.renditions.map fun r => if r.face = face ∧ r.kind = kind then f r else r }

/-- A count that stops at 65,535 (R40, R48, R57). -/
def cap16 (n : Nat) : Nat := min n 65535

/-- One more row lost (R48). -/
def Face.loseRow (f : Face) : Face := { f with rowsLost := cap16 (f.rowsLost + 1) }

/-- Whether a slot is the head of a lane's queue (R16). -/
def State.isLaneHead (s : State) (k : Slot) : Bool := (s.lanes.get (s.items.get k).lane).queue.head? = some k

/-! ## Frames produced (R31, R128): only while the link is up -/

/-- Whether a port has begun to send its first produced frame: it has where its state knows so, and otherwise that is
the free value of log 8. -/
def hasBegun (known : Bool) (n : Nat) : Bool := known || Config.sendingBegun n

/-- The produced frames a reset leaves: the first, if its sending has begun, completes; the others are discarded
(R52, R147, R149). -/
def keepBegun {α : Type} (begun : Bool) (produced : List α) : List α := if begun then produced.take 1 else []

def State.scanProduce (s : State) (l : Lane) (m : ScanMsg) : State :=
  s.modScan l fun p => if p.link then { p with produced := p.produced ++ [m] } else p

def State.exchangeProduce (s : State) (p : Port) (m : ExchangeMsg) : State :=
  s.modExchange p fun x => if x.link then { x with produced := x.produced ++ [m] } else x

/-- No event is taken but those R190 allows while RESET_N is held low. -/
def State.whileRunning (s : State) (f : State → State) : State := if s.pins.resetLow then s else f s

end Sys2Proof.Machine
end

