-- ==== Sys2Proof/Machine/Operands.lean ====
section
/-! DEFINITION. The forms operands take: the fields of a profile record (Table 10.9), the codes of Table 10.1 read and
written, and the ranges of command operands (Table 9.2). -/

namespace Sys2Proof.Machine

/-! ## Fields of a record -/

/-- The byte at an offset of a record. -/
def byteAt (r : List Byte) (o : Nat) : Byte := r.getD o 0

/-- The two-byte field at an offset of a record (R191). -/
def wordAt (r : List Byte) (o : Nat) : Word := wordOf (byteAt r o) (byteAt r (o + 1))

def numAt (r : List Byte) (o : Nat) : Nat := (byteAt r o).toNat
def num16At (r : List Byte) (o : Nat) : Nat := (wordAt r o).toNat

/-! ## The profile record (Table 10.9) -/

def profileName (r : List Byte) : List Byte := r.take 8
def profileEdition (r : List Byte) : Word := wordAt r 8
/-- Name and edition together identify a profile (R152). -/
def profileIdentity (r : List Byte) : List Byte := r.take 10
def profileDarkLevel (r : List Byte) : Nat := numAt r 11
def profileMinWidth (r : List Byte) : Nat := num16At r 34
def profileMaxWidth (r : List Byte) : Nat := num16At r 36
def profileMinRows (r : List Byte) : Nat := num16At r 38
def profileMaxRows (r : List Byte) : Nat := num16At r 40
def profileLightLimit (r : List Byte) : Nat := num16At r 42
def profileDarkLimit (r : List Byte) : Nat := num16At r 44
def profileStreakLimit (r : List Byte) : Nat := num16At r 46
def profileTolerance (r : List Byte) : Nat := numAt r 48
def profileDeadline (r : List Byte) : Nat := num16At r 56

/-- Whether the record selects a rendition kind for a face kind (offset 10). -/
def profileSelects (r : List Byte) (face : FaceKind) (kind : RenditionKind) : Bool :=
  (byteAt r 10).getLsbD (match face, kind with
    | .front, .bitonal => 0
    | .front, .gray => 1
    | .rear, .bitonal => 2
    | .rear, .gray => 3)

/-- The budget of a rendition kind in KiB. -/
def profileBudget (r : List Byte) : RenditionKind → Nat
  | .bitonal => num16At r 12
  | .gray => num16At r 14

/-- The rung count of a ladder. -/
def profileRungs (r : List Byte) : RenditionKind → Nat
  | .bitonal => numAt r 16
  | .gray => numAt r 25

/-- The first setting of a rung: threshold T or reduction F. -/
def rungFirst (r : List Byte) (kind : RenditionKind) (rung : Nat) : Nat :=
  match kind with
  | .bitonal => numAt r (17 + 2 * rung)
  | .gray => numAt r (26 + 2 * rung)

/-- The second setting of a rung: speckle S or levels L. -/
def rungSecond (r : List Byte) (kind : RenditionKind) (rung : Nat) : Nat :=
  match kind with
  | .bitonal => numAt r (18 + 2 * rung)
  | .gray => numAt r (27 + 2 * rung)

/-- The severity the profile gives a kind; only the seven kinds of offsets 49 to 55 have one. -/
def profileSeverity (r : List Byte) (k : FindingKind) : Severity :=
  let place : Nat := match k with
    | .short => 0
    | .long => 1
    | .narrow => 2
    | .wide => 3
    | .dark => 4
    | .light => 5
    | _ => 6
  if numAt r (49 + place) = 1 then .reject else .note

/-- Length and pattern of a code table entry (R195). -/
def codeLength (r : List Byte) (e : Nat) : Nat := numAt r (58 + 3 * e)
def codePattern (r : List Byte) (e : Nat) : Nat := num16At r (59 + 3 * e)

/-! ## Codes (Tables 10.1 and 10.2) -/

def FaceKind.code : FaceKind → Byte
  | .front => 0
  | .rear => 1

/-- Any byte but 0 is read as REAR here; a FACE OPEN of another code is a failed frame first (R30). -/
def FaceKind.ofCode (b : Byte) : FaceKind := if b = 0 then .front else .rear

def FindingFace.ofKind : FaceKind → FindingFace
  | .front => .front
  | .rear => .rear

def FindingFace.code : FindingFace → Byte
  | .front => 0
  | .rear => 1
  | .item => 2

def RenditionKind.code : RenditionKind → Byte
  | .bitonal => 0
  | .gray => 1

def Severity.code : Severity → Byte
  | .note => 0
  | .reject => 1

def FindingKind.code : FindingKind → Byte
  | .short => 0x01
  | .long => 0x02
  | .narrow => 0x03
  | .wide => 0x04
  | .truncated => 0x05
  | .dark => 0x06
  | .light => 0x07
  | .streak => 0x08
  | .faceMissing => 0x09
  | .abandoned => 0x0A
  | .protocol => 0x0B
  | .linkError => 0x0C
  | .linkLost => 0x0D
  | .laneReset => 0x0E
  | .late => 0x0F
  | .purged => 0x10

/-- A pocket reason: the finding kind's code, 0 when absent (Table 10.2). -/
def reasonCode : Option FindingKind → Byte
  | none => 0
  | some k => k.code

def Pocket.code : Pocket → Byte
  | .pending => 0
  | .accept => 1
  | .reject => 2

def dispositionCode : Option Disposition → Byte
  | none => 0
  | some .accepted => 1
  | some .rejected => 2
  | some .unfit => 3

def ItemState.code : ItemState → Byte
  | .free => 0
  | .landing => 1
  | .settling => 2
  | .ready => 3
  | .claimed => 4

def FaceState.code : FaceState → Byte
  | .landing => 1
  | .landed => 2
  | .cut => 3

def RenditionState.code : RenditionState → Byte
  | .waiting => 1
  | .queued => 2
  | .coding => 3
  | .done => 4
  | .oversize => 5
  | .fault => 6
  | .cancelled => 7

/-- DONE, OVERSIZE, FAULT and CANCELLED are final (R7). -/
def RenditionState.final : RenditionState → Bool
  | .done | .oversize | .fault | .cancelled => true
  | .waiting | .queued | .coding => false

def Source.code : Source → Byte
  | .block b => BitVec.ofNat 8 b.val
  | .staging => 8

/-- The source byte of the snapshot image: FFh when absent (Table 10.1). -/
def snapshotSourceCode : Option Source → Byte
  | none => 0xFF
  | some x => x.code

/-- A lane's binding in its status register: 9 is NONE (Table 10.1). -/
def bindingCode : Option Source → Nat
  | none => 9
  | some x => x.code.toNat

def SlotRefusal.code : SlotRefusal → Byte
  | .laneClosed => 1
  | .noProfile => 2
  | .quota => 3
  | .tableFull => 4

def ClaimRefusal.code : ClaimRefusal → Byte
  | .busy => 1
  | .noLanes => 2

def Ack.code : Ack → Byte
  | .delivered => 0x15
  | .returned => 0x16

def Answer.code : Answer → Nat
  | .none => 0
  | .ok => 1
  | .invalidArg => 2
  | .notInUse => 3
  | .claimed => 4
  | .busy => 5
  | .protectedStore => 6
  | .notEnabled => 7
  | .badState => 8
  | .inUse => 9
  | .stagingNotValid => 10
  | .duplicate => 11
  | .storeBusy => 12

def ScanState.code : ScanState → Nat
  | .down => 0
  | .idle => 1
  | .item => 2
  | .face => 3
  | .discard => 4

def ExchangeState.code : ExchangeState → Nat
  | .down => 0
  | .idle => 1
  | .waiting => 2
  | .sending => 3
  | .held => 4
  | .await => 5

def BlockState.code : BlockState → Nat
  | .empty => 0
  | .valid => 1
  | .invalid => 2
  | .busy => 3

def StagingState.code : StagingState → Nat
  | .empty => 0
  | .editing => 1
  | .validated => 2

def StorePhase.code : StorePhase → Nat
  | .starting => 0
  | .idle => 1
  | .erasing => 2
  | .programming => 3
  | .verifying => 4

/-! ## Ranges of command operands (Table 9.2, R196) -/

/-- A number below `n`, or none when the operand is out of range. -/
def numberedObject (n : Nat) (v : Word) : Option (Fin n) := if h : v.toNat < n then some ⟨v.toNat, h⟩ else none

def laneOperand (v : Word) : Option Lane := numberedObject 4 v
def slotOperand (v : Word) : Option Slot := numberedObject 256 v
def portOperand (v : Word) : Option Port := numberedObject 2 v
def blockOperand (v : Word) : Option BlockNo := numberedObject 8 v

/-- A number in a range, both ends included. -/
def rangeOperand (low high : Nat) (v : Word) : Option Nat :=
  if low ≤ v.toNat ∧ v.toNat ≤ high then some v.toNat else none

def quotaOperand (v : Word) : Option Nat := rangeOperand 1 256 v
def stallOperand (v : Word) : Option Nat := rangeOperand 10 60000 v
def reserveOperand (v : Word) : Option Nat := rangeOperand 0 2048 v

/-- SET MASK reads its mask as the whole of operand B (R196). -/
def maskOperand (v : Word) : Option (BitVec 4) := if v.toNat ≤ 15 then some (v.setWidth 4) else none

/-- BIND's target code: 0 to 7 a block, 8 STAGING, 9 NONE (R196, Table 10.1). -/
def targetOperand (v : Word) : Option (Option Source) :=
  match blockOperand v with
  | some b => some (some (.block b))
  | none => if v = 8 then some (some .staging) else if v = 9 then some none else none

end Sys2Proof.Machine
end

