-- ==== Sys2Proof/Machine/Coder.lean ====
section
/-! DEFINITION. Rendition coding: the bytes a coder makes of the rows of a face (spec/06_rendition_coding.md). In rows
of a BITONAL rendition true is black. `record` is the 512-byte record of the latched profile. -/

namespace Sys2Proof.Machine

/-! ## Runs -/

/-- The maximal runs of equal values of a row, with their lengths. -/
def runs {α : Type} [DecidableEq α] : List α → List (α × Nat)
  | [] => []
  | a :: t =>
    match runs t with
    | (b, n) :: r => if a = b then (b, n + 1) :: r else (a, 1) :: (b, n) :: r
    | [] => [(a, 1)]

/-! ## BITONAL (section 6.2) -/

/-- A pixel is black when its value is below the threshold (R115). -/
def thresholdRow (t : Nat) (pixels : List Byte) : List Bool := pixels.map fun p => decide (p.toNat < t)

/-- Every black run of length S or less becomes white (R115). -/
def despeckle (speckle : Nat) (row : List Bool) : List Bool :=
  (runs row).flatMap fun r => List.replicate r.2 (r.1 && decide (speckle < r.2))

/-- The alternating run lengths of a row, white first: a row that starts black starts with a white run of 0 (R116). -/
def runLengths (row : List Bool) : List Nat :=
  match runs row with
  | [] => []
  | (black, n) :: r => if black then 0 :: n :: r.map (·.2) else n :: r.map (·.2)

/-- The bits of a code table entry, most significant first (R118, R123). -/
def codeBits (record : List Byte) (entry : Nat) : List Bool :=
  (List.range (codeLength record entry)).map fun i =>
    (codePattern record entry).testBit (codeLength record entry - 1 - i)

def shortEntry (n : Nat) : Nat := n
def longEntry (m : Nat) : Nat := 63 + m
def repeatEntry : Nat := 96
def endEntry : Nat := 97

/-- The codes of one run length (R117). -/
def lengthBits (record : List Byte) (n : Nat) : List Bool :=
  if n < 64 then codeBits record (shortEntry n)
  else codeBits record (longEntry (n / 64)) ++ codeBits record (shortEntry (n % 64))

/-- The codes of a despeckled row after the row before it: REPEAT, or its runs (R116). -/
def rowBits (record : List Byte) (prev row : List Bool) : List Bool :=
  if row = prev then codeBits record repeatEntry else (runLengths row).flatMap (lengthBits record)

/-- A byte of eight bits, the earliest most significant (R118). -/
def byteOfBits (l : List Bool) : Byte := BitVec.ofNat 8 (l.foldl (fun a b => 2 * a + b.toNat) 0)

/-- Whole bytes of a bit stream, and the 0 to 7 bits left (R118). -/
def packBits : List Bool → List Byte × List Bool
  | a :: b :: c :: d :: e :: f :: g :: h :: t =>
    let (bytes, rest) := packBits t
    (byteOfBits [a, b, c, d, e, f, g, h] :: bytes, rest)
  | rest => ([], rest)

/-- The last bits filled with zeros to a byte; no byte when none is left (R118). -/
def padBits (bits : List Bool) : List Byte :=
  if bits = [] then [] else [byteOfBits ((bits ++ List.replicate 8 false).take 8)]

/-! ## GRAY (section 6.3) -/

/-- The number of blocks of `f` columns, or rows, that cover `n` (R120). -/
def ceilDiv (n f : Nat) : Nat := (n + (f - 1)) / f

/-- Sum and count of the source pixels of each of `n` output columns (R120). -/
def blockSums (f : Nat) : Nat → List Byte → List (Nat × Nat)
  | 0, _ => []
  | n + 1, pixels =>
    (((pixels.take f).map BitVec.toNat).sum, (pixels.take f).length) :: blockSums f n (pixels.drop f)

/-- A source row added into the row sums (R121). -/
def addRow (f : Nat) (sums : List (Nat × Nat)) (pixels : List Byte) : List (Nat × Nat) :=
  List.zipWith (fun a b => (a.1 + b.1, a.2 + b.2)) sums (blockSums f sums.length pixels)

/-- The level of an output pixel: its block's mean, rounded down, quantised to L levels (R120, R121). -/
def levelOf (levels : Nat) (sum : Nat × Nat) : Nat := sum.1 / sum.2 * levels / 256

/-- The pairs of one run of a level (R122). -/
def runPairs (level n : Nat) : List Byte :=
  (List.replicate (n / 255) [BitVec.ofNat 8 level, 255#8]).flatten ++
    if n % 255 = 0 then [] else [BitVec.ofNat 8 level, BitVec.ofNat 8 (n % 255)]

/-- The bytes of an output row of levels (R122). -/
def levelBytes (row : List Nat) : List Byte := (runs row).flatMap fun r => runPairs r.1 r.2

/-! ## The coder -/

/-- The coder at the start of a rung for a face of width `w` (R113). -/
def Coder.fresh (record : List Byte) (kind : RenditionKind) (rung w : Nat) : Coder where
  prev := match kind with
    | .bitonal => List.replicate w false
    | .gray => []
  bits := []
  sums := match kind with
    | .bitonal => []
    | .gray => List.replicate (ceilDiv w (rungFirst record .gray rung)) (0, 0)
  rowsIn := 0
  check := 0xFFFF

/-- A row coded: the coder after it and the bytes it completes (R115 to R118, R121, R122). `last` says that it is the
face's last row. -/
def Coder.codeRow (c : Coder) (record : List Byte) (kind : RenditionKind) (rung : Nat) (last : Bool)
    (pixels : List Byte) : Coder × List Byte :=
  match kind with
  | .bitonal =>
    let row := despeckle (rungSecond record .bitonal rung) (thresholdRow (rungFirst record .bitonal rung) pixels)
    let (bytes, rest) := packBits (c.bits ++ rowBits record c.prev row)
    ({ c with prev := row, bits := rest }, bytes)
  | .gray =>
    let f := rungFirst record .gray rung
    let sums := addRow f c.sums pixels
    if last || c.rowsIn + 1 = f then
      ({ c with sums := sums.map fun _ => (0, 0), rowsIn := 0 },
        levelBytes (sums.map (levelOf (rungSecond record .gray rung))))
    else ({ c with sums := sums, rowsIn := c.rowsIn + 1 }, [])

/-- The bytes after the last row: END and its padding for a BITONAL rendition, nothing for a GRAY one (R118, R122). -/
def Coder.finish (c : Coder) (record : List Byte) : RenditionKind → List Byte
  | .bitonal =>
    let (bytes, rest) := packBits (c.bits ++ codeBits record endEntry)
    bytes ++ padBits rest
  | .gray => []

/-- Output width and rows of a rendition of a face of width `w` with `h` rows landed (R119, R120). -/
def outputSize (record : List Byte) (kind : RenditionKind) (rung w h : Nat) : Nat × Nat :=
  match kind with
  | .bitonal => (w, h)
  | .gray => (ceilDiv w (rungFirst record .gray rung), ceilDiv h (rungFirst record .gray rung))

/-- The data bytes of a whole face at one rung, rows in row position order: what the coder makes of it when no budget
cuts it (R113: a function of the landed face, the kind and rung, and the latched profile alone). -/
def Coder.codeRows (record : List Byte) (kind : RenditionKind) (rung : Nat) : Coder → List (List Byte) → List Byte
  | c, [] => c.finish record kind
  | c, [r] =>
    let (c', bytes) := c.codeRow record kind rung true r
    bytes ++ c'.finish record kind
  | c, r :: r' :: t =>
    let (c', bytes) := c.codeRow record kind rung false r
    bytes ++ Coder.codeRows record kind rung c' (r' :: t)

/-- The data bytes of a face of width `w` at a rung. -/
def codedFace (record : List Byte) (kind : RenditionKind) (rung w : Nat) (rows : List (List Byte)) : List Byte :=
  Coder.codeRows record kind rung (Coder.fresh record kind rung w) rows

end Sys2Proof.Machine
end

