-- ==== Sys2Proof/Machine/Flags.lean ====
section
/-! DEFINITION. The interrupt causes, the INT pin and the reset cause flags (spec/09_supervisor_port.md sections 9.5
and 9.6, Table 10.11). -/

namespace Sys2Proof.Machine

/-- The seven interrupt causes (Table 9.5). -/
inductive Cause where
  | storeDone | storeFault | link | revoke | drained | stripFamine | memFault
  deriving DecidableEq, Repr

/-- A cause's bit in the causes and enables registers (Table 10.11). -/
def Cause.bit : Cause → BitVec 7
  | .storeDone => 1
  | .storeFault => 2
  | .link => 4
  | .revoke => 8
  | .drained => 16
  | .stripFamine => 32
  | .memFault => 64

/-- A cause's event sets it, whether clear or set, enabled or not (R182). -/
def State.setCause (s : State) (c : Cause) : State := s.modSup fun p => { p with causes := p.causes ||| c.bit }

/-- Whether a cause is set. -/
def State.causeSet (s : State) (c : Cause) : Bool := s.sup.causes &&& c.bit ≠ 0

/-- A write of the causes register clears each cause for which it carries a one (R183). -/
def Supervisor.clearCauses (p : Supervisor) (v : Word) : Supervisor :=
  { p with causes := p.causes &&& ~~~(v.setWidth 7) }

/-- A write of the enables register replaces all seven (R184). -/
def Supervisor.writeEnables (p : Supervisor) (v : Word) : Supervisor := { p with enables := v.setWidth 7 }

/-- A write of the control register sets or clears the master enable by bit 0 (R184). -/
def Supervisor.writeControl (p : Supervisor) (v : Word) : Supervisor := { p with master := v.getLsbD 0 }

/-- INT is asserted while the master enable is set and a set cause is enabled (R184). -/
def State.intPin (s : State) : Bool := s.sup.master && s.sup.causes &&& s.sup.enables ≠ 0

/-- The reset cause flags' bits (Table 10.11). -/
def pinCause : BitVec 3 := 2
def softCause : BitVec 3 := 4

/-- A write of the reset cause register clears each flag for which it carries a one (R186). -/
def Supervisor.clearResetCause (p : Supervisor) (v : Word) : Supervisor :=
  { p with resetCause := p.resetCause &&& ~~~(v.setWidth 3) }

end Sys2Proof.Machine
end

