-- ==== Sys2Proof/Machine/Layout.lean ====
section
/-! DEFINITION. The bytes of the records and frames the reducer produces: release record, rendition header, item
snapshot image, and the frames of both links (spec/10_message_and_record_layouts.md). -/

namespace Sys2Proof.Machine

/-- A number as a two-byte field (R191). -/
def num16Bytes (n : Nat) : List Byte := wordBytes (BitVec.ofNat 16 n)
/-- A number as a four-byte field (R191). -/
def num32Bytes (n : Nat) : List Byte := longBytes (BitVec.ofNat 32 n)
/-- A number as a one-byte field. -/
def numByte (n : Nat) : Byte := BitVec.ofNat 8 n

/-- Bit 0 delivered, bit 1 trial, bit 2 purged, bit 3 overflow (Table 10.1). -/
def itemFlags (i : Item) : Byte :=
  (if i.delivered then 1 else 0) ||| (if i.trial then 2 else 0) ||| (if i.purged then 4 else 0) |||
    (if i.overflow then 8 else 0)

/-- A face entry of 8 bytes (Table 10.7). -/
def faceEntry (f : Face) : List Byte :=
  [f.kind.code, f.state.code] ++ num16Bytes f.width ++ num16Bytes f.rowsLanded ++ num16Bytes f.rowsLost

/-- A finding entry of 5 bytes (Table 10.7). -/
def findingEntry (f : Finding) : List Byte := [f.kind.code, f.face.code, f.severity.code] ++ num16Bytes f.value

/-- The output fields of a rendition: 0 unless it is DONE (R194, R197). -/
def outputBytes : Option Output → List Byte
  | none => List.replicate 8 0
  | some o => num16Bytes o.width ++ num16Bytes o.rows ++ num32Bytes o.length

/-- A rendition entry of 12 bytes (Table 10.7). -/
def renditionEntry (r : Rendition) : List Byte :=
  [r.face.code, r.kind.code, r.state.code, numByte r.rung] ++ outputBytes r.output

/-- The release record of an item in a slot (Table 10.6, R194). -/
def releaseRecord (k : Slot) (i : Item) : List Byte :=
  [numByte k.val, numByte i.lane.val] ++ longBytes i.bundle ++ wordBytes i.position ++ longBytes i.stamp ++
    [i.facesExpected, dispositionCode i.disposition, i.pocket.code, reasonCode i.reason, itemFlags i,
      numByte i.retries] ++ num16Bytes (i.latency.getD 0) ++ [snapshotSourceCode i.source] ++ i.name ++
    wordBytes i.edition ++
    [numByte i.faces.length, numByte i.findings.length, numByte i.renditions.length] ++
    i.faces.flatMap faceEntry ++ i.findings.flatMap findingEntry ++ i.renditions.flatMap renditionEntry

/-- The first `n` bytes of a list filled up with zeros: places beyond a list's count read 0 (R197). -/
def padTo (n : Nat) (l : List Byte) : List Byte := (l ++ List.replicate n 0).take n

/-- The claim holder's code in the snapshot image (Table 10.12). -/
def holderCode : Option Port → Byte
  | none => 0
  | some p => numByte (p.val + 1)

/-- The item snapshot image of 152 bytes (Table 10.12, R197). -/
def snapshotImage (k : Slot) (i : Item) : List Byte :=
  [numByte k.val, i.state.code, holderCode i.holder, numByte i.lane.val] ++ longBytes i.bundle ++
    wordBytes i.position ++ longBytes i.stamp ++
    [i.facesExpected, dispositionCode i.disposition, i.pocket.code, reasonCode i.reason, itemFlags i,
      numByte i.retries] ++ num16Bytes (i.latency.getD 0) ++ [snapshotSourceCode i.source] ++ padTo 8 i.name ++
    wordBytes i.edition ++
    [numByte i.faces.length, numByte i.findings.length, numByte i.renditions.length] ++
    padTo 20 (i.faces.flatMap fun f => faceEntry f ++ num16Bytes f.strips.length) ++
    padTo 40 (i.findings.flatMap findingEntry) ++
    padTo 56 (i.renditions.flatMap fun r => renditionEntry r ++ num16Bytes r.chain.length)

/-- The fields of a rendition header (Table 6.5). -/
structure Header where
  kind       : RenditionKind
  face       : FaceKind
  rung       : Nat
  source     : Option Source
  width      : Nat
  rows       : Nat
  dataLength : Nat
  edition    : Word
  check      : Word
  deriving DecidableEq, Repr

/-- The 16 bytes of a rendition header (Table 10.8). -/
def headerBytes (h : Header) : List Byte :=
  [h.kind.code, h.face.code, numByte h.rung, snapshotSourceCode h.source] ++ num16Bytes h.width ++
    num16Bytes h.rows ++ num32Bytes h.dataLength ++ wordBytes h.edition ++ wordBytes h.check

/-- The frame of a message a scan port sends (Table 10.4). -/
def scanMsgFrame : ScanMsg → List Byte
  | .slotGiven position slot => frameOf 0x81 (wordBytes position ++ [numByte slot.val])
  | .slotRefused position reason => frameOf 0x82 (wordBytes position ++ [reason.code])
  | .pocket position pocket reason latency =>
    frameOf 0x83 (wordBytes position ++ [pocket.code, reasonCode reason] ++ num16Bytes latency)

/-- The frame of a message an exchange port sends (Table 10.5). -/
def exchangeMsgFrame : ExchangeMsg → List Byte
  | .grant record => frameOf 0x91 record
  | .segment rendition number bytes => frameOf 0x92 (numByte rendition :: numByte number :: bytes)
  | .endOfStream count => frameOf 0x93 (num16Bytes count)
  | .broken rendition number => frameOf 0x94 [numByte rendition, numByte number]
  | .cancelled => frameOf 0x95 []
  | .revoked slot stamp => frameOf 0x96 (numByte slot.val :: longBytes stamp)
  | .stale ack => frameOf 0x97 [ack.code]
  | .claimRefused reason => frameOf 0x98 [reason.code]

end Sys2Proof.Machine
end

