-- ==== Sys2Proof/Machine/Items.lean ====
section
/-! DEFINITION. Shared operations of the item table and the release arbiter: profile sources, findings and the pocket
decision (sections 3.3 and 3.4), strip return (R77), the settling test and disposition (R11, R12), and grants
(R134, R135). -/

namespace Sys2Proof.Machine

/-! ## Profile sources (R151) -/

/-- The record of a profile source as it stands. -/
def Store.record (st : Store) : Source → List Byte
  | .block b => (st.blocks.get b).bytes
  | .staging => st.staging.bytes

/-- The record of an item's latched profile (R3, R151). -/
def State.itemRecord (s : State) (k : Slot) : List Byte :=
  match (s.items.get k).source with
  | some src => s.store.record src
  | none => []

/-- A source can be latched: a VALID block, or VALIDATED staging (R17, R151). -/
def Store.usable (st : Store) : Source → Bool
  | .block b => (st.blocks.get b).state = .valid
  | .staging => st.staging.state = .validated

/-- The pin count of a source changed (R3, R160). -/
def Store.modPins (st : Store) (src : Source) (f : Nat → Nat) : Store :=
  match src with
  | .block b => { st with pins := put st.pins b (f (st.pins.get b)) }
  | .staging => { st with stagingPins := f st.stagingPins }

/-! ## Findings and the pocket decision -/

/-- A finding joins the list, or sets the overflow flag when eight are stored (R61). -/
def Item.addFinding (i : Item) (f : Finding) : Item :=
  if i.findings.length < Config.maxFindings then { i with findings := i.findings ++ [f] }
  else { i with overflow := true }

/-- Whole ms since the pocket timer started (R66). -/
def elapsed : Option PocketTimer → Nat
  | none => 0
  | some t => t.deadline - t.remaining

/-- The pocket decision: pocket, reason and latency recorded, the lane's pocket timer stopped (R62, R66). -/
def State.decidePocket (s : State) (k : Slot) (pocket : Pocket) (reason : Option FindingKind) : State :=
  let l := (s.items.get k).lane
  let latency := elapsed (s.scan.get l).timer
  (s.modItem k fun i => { i with pocket := pocket, reason := reason, latency := some latency }).modScan l
    fun p => { p with timer := none }

/-- A finding added by R61; of REJECT severity while the pocket is PENDING, it decides REJECT (R63). -/
def State.addFinding (s : State) (k : Slot) (f : Finding) : State :=
  let s := s.modItem k (·.addFinding f)
  if f.severity = .reject ∧ (s.items.get k).pocket = .pending then s.decidePocket k .reject (some f.kind) else s

/-- A finding about the whole item, always of REJECT severity (Table 3.3). -/
def itemFinding (kind : FindingKind) (value : Nat) : Finding where
  kind := kind
  face := .item
  severity := .reject
  value := value

/-! ## Strip return (R77) -/

/-- None of a face's renditions is QUEUED or CODING. -/
def Item.faceIdle (i : Item) (face : FaceKind) : Bool :=
  i.renditions.all fun r => r.face ≠ face || (r.state ≠ .queued && r.state ≠ .coding)

/-- The strip return test of one face: when it is met, the chain goes back strip by strip, the last on top (R77). -/
def State.returnStrips (s : State) (k : Slot) (face : FaceKind) : State :=
  match (s.items.get k).face? face with
  | none => s
  | some f =>
    if f.state ≠ .landing ∧ (s.items.get k).faceIdle face then
      (s.withStrips (stack s.strips f.strips)).modItem k (·.modFace face fun x => { x with strips := [] })
    else s

/-- The strip return test of each face of an item, in the order of the faces list (R108). -/
def State.returnAllStrips (s : State) (k : Slot) : State :=
  ((s.items.get k).faces.map (·.kind)).foldl (fun t face => t.returnStrips k face) s

/-! ## Streams (R130) -/

/-- Pages, and so SEGMENTs, of a rendition of a length (R82, R130). -/
def pageCount (length : Nat) : Nat := (length + 4095) / 4096

/-- The length of the rendition at an index, 0 unless it is DONE. -/
def Item.lengthAt (i : Item) (index : Nat) : Nat :=
  match i.renditions[index]? with
  | some r => (r.output.map (·.length)).getD 0
  | none => 0

/-- Whether the rendition at an index is DONE. -/
def Item.doneAt (i : Item) (index : Nat) : Bool :=
  match i.renditions[index]? with
  | some r => r.state = .done
  | none => false

/-- The first SEGMENT of the first DONE rendition from an index on. -/
def Item.segmentFrom (i : Item) (index : Nat) : Option StreamPos :=
  ((List.range i.renditions.length).find? fun n => index ≤ n && i.doneAt n).map fun n => ⟨n, 0⟩

/-- Where a stream starts: nowhere for a REJECTED item (R130, R131). -/
def Item.streamStart (i : Item) : Option StreamPos :=
  if i.disposition = some .rejected then none else i.segmentFrom 0

/-- The SEGMENT after one (R130). -/
def Item.segmentAfter (i : Item) (p : StreamPos) : Option StreamPos :=
  if p.number + 1 < pageCount (i.lengthAt p.rendition) then some ⟨p.rendition, p.number + 1⟩
  else i.segmentFrom (p.rendition + 1)

/-- The byte count of a SEGMENT (R130). -/
def Item.segmentBytes (i : Item) (p : StreamPos) : Nat := min 4096 (i.lengthAt p.rendition - p.number * 4096)

/-! ## The release arbiter (R134, R135) -/

/-- Serial comparison of arrival stamps: `a` is older than `b` (R2). -/
def older (a b : Long) : Bool :=
  let d := (b - a).toNat
  (1 ≤ d && d ≤ 2 ^ 31 - 1) || (d = 2 ^ 31 && a.toNat < b.toNat)

/-- A lane mask marks a lane. -/
def marks (mask : BitVec 4) (l : Lane) : Bool := mask.getLsbD l.val

/-- The head of a lane if it is READY. -/
def State.readyHead (s : State) (l : Lane) : Option Slot :=
  (s.lanes.get l).queue.head?.filter fun k => (s.items.get k).state = .ready

/-- READY lane heads that a waiting claim covers, by lane number (R134). -/
def State.coveredHeads (s : State) : List Slot :=
  [(0 : Lane), 1, 2, 3].filterMap fun l => if s.claims.any (fun c => marks c.mask l) then s.readyHead l else none

/-- The oldest of them; the lowest-numbered lane's if no one is older than all the others (R134). -/
def State.chooseHead (s : State) : Option Slot :=
  let heads := s.coveredHeads
  match heads.find? fun a => heads.all fun b => a = b || older (s.items.get a).stamp (s.items.get b).stamp with
  | some a => some a
  | none => heads.head?

/-- The earliest claim that covers an item's lane (R134). -/
def State.chooseClaim (s : State) (k : Slot) : Option Claim :=
  s.claims.find? fun c => marks c.mask (s.items.get k).lane

/-- The item table takes the GRANT: CLAIMED, with its claim holder (R13). -/
def Item.claimBy (i : Item) (p : Port) : Item := { i with state := .claimed, holder := some p }

/-- A grant, one event over the arbiter, the item table and the port (R135). -/
def State.grant (s : State) (c : Claim) (k : Slot) : State :=
  let s := s.withClaims (s.claims.filter (· ≠ c))
  let s := s.modItem k (·.claimBy c.port)
  let i := s.items.get k
  let s := s.modExchange c.port fun x =>
    { x with state := .sending, slot := some k, position := i.streamStart, segments := 0, store := [],
             holdPending := false }
  s.exchangeProduce c.port (.grant (releaseRecord k i))

/-- Grants until no READY lane head is covered or no claim waits; each grant takes a claim (R134). -/
def State.grantUpTo : Nat → State → State
  | 0, s => s
  | n + 1, s =>
    match s.chooseHead with
    | none => s
    | some k =>
      match s.chooseClaim k with
      | none => s
      | some c => State.grantUpTo n (s.grant c k)

/-- An act of the release arbiter (R134). -/
def State.releaseAct (s : State) : State := State.grantUpTo s.claims.length s

/-! ## Settling and disposition -/

/-- REJECTED, UNFIT or ACCEPTED (R12). -/
def Item.judge (i : Item) : Disposition :=
  if i.pocket = .reject ∨ i.purged then .rejected
  else if i.renditions.any fun r => r.state = .oversize || r.state = .fault then .unfit
  else .accepted

/-- The settling test's condition (R11). -/
def Item.settled (i : Item) : Bool :=
  i.state = .settling && i.pocket ≠ .pending && i.renditions.all fun r => r.state.final

/-- The settling test: when it is met, the item becomes READY with its disposition, and as lane head it is presented
to the release arbiter (R11). -/
def State.settle (s : State) (k : Slot) : State :=
  if (s.items.get k).settled then
    let s := s.modItem k fun i => { i with state := .ready, disposition := some i.judge }
    if s.isLaneHead k then s.releaseAct else s
  else s

end Sys2Proof.Machine
end

