-- ==== Sys2Proof/Machine/Jobs.lean ====
section
/-! DEFINITION. Shared operations of the dispatcher and the coding units: starting a job, placing coded bytes, the
budget and step-down, the ends of a job, cancellation and abort (spec/05_coding_jobs.md). -/

namespace Sys2Proof.Machine

/-! ## What a job reads (R91, R97) -/

def State.jobRecord (s : State) (j : Job) : List Byte := s.itemRecord j.slot
def State.jobWidth (s : State) (j : Job) : Nat := (((s.items.get j.slot).face? j.face).map (·.width)).getD 0
def State.jobRows (s : State) (j : Job) : Nat := (((s.items.get j.slot).face? j.face).map (·.rowsLanded)).getD 0
def State.jobStrips (s : State) (j : Job) : List Nat := (((s.items.get j.slot).face? j.face).map (·.strips)).getD []
def State.jobBudget (s : State) (j : Job) : Nat :=
  (((s.items.get j.slot).rendition? j.face j.kind).map (·.budget)).getD 0
def State.jobChain (s : State) (j : Job) : List Nat :=
  (((s.items.get j.slot).rendition? j.face j.kind).map (·.chain)).getD []

/-- Change the rendition record of a job. -/
def State.modRendition (s : State) (j : Job) (f : Rendition → Rendition) : State :=
  s.modItem j.slot (·.modRendition j.face j.kind f)

/-! ## Pages of a job (R80 to R82) -/

/-- The unit draws the page on top of the free list for its rendition (R80). -/
def State.drawPage (s : State) (u : UnitNo) (j : Job) : State :=
  match s.pages.free with
  | [] => s
  | g :: _ =>
    ((s.modPages (·.draw)).modRendition j fun r => { r with chain := r.chain ++ [g] }).modUnit u
      fun x => { x with undrawn := x.undrawn - 1 }

/-- Chain and undrawn reservation given up as free pages (R82). -/
def State.giveUpPages (s : State) (u : UnitNo) (j : Job) : State :=
  ((s.modPages fun p => (p.giveBack (s.jobChain j)).unreserve (s.units.get u).undrawn).modRendition j
    fun r => { r with chain := [] }).modUnit u fun x => { x with undrawn := 0 }

/-- The undrawn reservation of a DONE rendition becomes free (R82). -/
def State.freeUndrawn (s : State) (u : UnitNo) : State :=
  (s.modPages (·.unreserve (s.units.get u).undrawn)).modUnit u fun x => { x with undrawn := 0 }

/-- The unit becomes IDLE, its stores cleared and its request withdrawn (R74, R90, R107). -/
def State.idleUnit (s : State) (u : UnitNo) : State := (s.withdraw (.cu u)).modUnit u fun _ => CodingUnit.idle

/-! ## The end of a job (R105) -/

/-- Stages 3 and 4 of the end of a job: strip return, then settling. -/
def State.afterJob (s : State) (j : Job) : State := (s.returnStrips j.slot j.face).settle j.slot

/-- OVERSIZE or FAULT: stages 1 to 4 of R105 (R85, R102, R104). -/
def State.failJob (s : State) (u : UnitNo) (j : Job) (final : RenditionState) : State :=
  (((s.giveUpPages u j).modRendition j fun r => { r with state := final }).idleUnit u).afterJob j

/-- DONE: stages 1 to 4 of R105 (R103). -/
def State.doneJob (s : State) (u : UnitNo) (j : Job) : State :=
  let x := s.units.get u
  let size := outputSize (s.jobRecord j) j.kind x.rung (s.jobWidth j) (s.jobRows j)
  (((s.freeUndrawn u).modRendition j fun r =>
    { r with state := .done, output := some ⟨size.1, size.2, x.length⟩ }).idleUnit u).afterJob j

/-! ## Placing coded bytes (R99, R100) -/

/-- One data byte: none when it would exceed the budget; otherwise placed, a page drawn first at each multiple of
4,096, and passed through the data check (R99, R100, R125). -/
def State.placeByte (s : State) (u : UnitNo) (j : Job) (b : Byte) : Option State :=
  let k := (s.units.get u).length
  if s.jobBudget j * 1024 < k + 1 then none
  else
    let s := if k % 4096 = 0 then s.drawPage u j else s
    some (s.modUnit u fun x =>
      { x with
        length := k + 1
        firstPlace := if k < 256 then x.firstPlace ++ [b] else x.firstPlace
        outputBurst := if k < 256 then x.outputBurst else x.outputBurst ++ [b]
        coder := { x.coder with check := crcByte x.coder.check b } })

/-- What became of the bytes handed to a unit. -/
inductive Placed where
  | fitted (s : State)
  | overBudget (s : State)

/-- Bytes placed in order until the output burst is full, the bytes are used up, or the budget is exceeded. -/
def State.placeBytes (u : UnitNo) (j : Job) : List Byte → State → Placed
  | [], s => .fitted (s.modUnit u fun x => { x with unplaced := [] })
  | b :: bs, s =>
    if (s.units.get u).outputBurst.length = 256 then .fitted (s.modUnit u fun x => { x with unplaced := b :: bs })
    else
      match s.placeByte u j b with
      | none => .overBudget s
      | some t => State.placeBytes u j bs t

/-- What the unit asks the memory for next (R97, R99, R103). -/
def State.nextRequest (s : State) (u : UnitNo) (j : Job) : State :=
  let x := s.units.get u
  let phase : UnitPhase :=
    if x.outputBurst.length = 256 then .write
    else if x.readRow < s.jobRows j then .read
    else if x.outputBurst ≠ [] then .flush
    else .header
  (s.modUnit u fun x => { x with phase := phase }).request (.cu u)

/-- A rung begins: length 16, row 0, stores empty, a fresh coder, the first page drawn; a face with no landed row is
coded at once (R96, R98, R101, R113). -/
def State.startRung (s : State) (u : UnitNo) (j : Job) (rung : Nat) : State :=
  let c := Coder.fresh (s.jobRecord j) j.kind rung (s.jobWidth j)
  let s := s.modUnit u fun x =>
    { x with
      rung := rung
      length := 16
      readRow := 0
      firstPlace := []
      outputBurst := []
      coder := c
      rowSoFar := []
      unplaced := if s.jobRows j = 0 then c.finish (s.jobRecord j) j.kind else [] }
  s.drawPage u j

/-- Step-down to the next rung: the request withdrawn, the chain back to the unit's own reservation, and the face
coded again from its first row (R81, R101). -/
def State.stepDown (s : State) (u : UnitNo) (j : Job) : State :=
  let chain := s.jobChain j
  let rung := (s.units.get u).rung + 1
  let s := (s.withdraw (.cu u)).modPages (·.unstack chain)
  let s := s.modRendition j fun r => { r with chain := [], rung := rung }
  let s := s.modUnit u fun x => { x with undrawn := x.undrawn + chain.length }
  s.startRung u j rung

/-- The unit goes on with its coded bytes: a request, a step-down, or OVERSIZE on the last rung (R100 to R102). The
number bounds the step-downs; a ladder has at most three. -/
def State.runUnit : Nat → State → UnitNo → Job → State
  | 0, s, u, j =>
    match State.placeBytes u j (s.units.get u).unplaced s with
    | .fitted t => t.nextRequest u j
    | .overBudget t => t.failJob u j .oversize
  | n + 1, s, u, j =>
    match State.placeBytes u j (s.units.get u).unplaced s with
    | .fitted t => t.nextRequest u j
    | .overBudget t =>
      if (t.units.get u).rung + 1 < profileRungs (t.jobRecord j) j.kind then State.runUnit n (t.stepDown u j) u j
      else t.failJob u j .oversize

def maxStepDowns : Nat := 3

/-! ## The dispatcher (section 5.4) -/

/-- The unit a job goes to: CU0 when both are IDLE (R95). -/
def State.idleUnit? (s : State) : Option UnitNo :=
  if (s.units.get 0).job = none then some 0 else if (s.units.get 1).job = none then some 1 else none

/-- The head-job rule (R93), else the lane-head bypass (R94). -/
def State.pickJob (s : State) : Option Job :=
  match s.jobs with
  | [] => none
  | head :: _ =>
    if need (s.jobBudget head) + s.pages.headReserve ≤ s.pages.freeCount then some head
    else s.jobs.find? fun j => s.isLaneHead j.slot && need (s.jobBudget j) ≤ s.pages.freeCount

/-- The start of a job, one event at the dispatcher (R96). -/
def State.startJob (s : State) (u : UnitNo) (j : Job) : State :=
  let n := need (s.jobBudget j)
  let s := s.withJobs (s.jobs.filter (· ≠ j))
  let s := s.modPages (·.reserve n)
  let s := s.modRendition j fun r => { r with state := .coding, rung := 0, chain := [] }
  let s := s.modUnit u fun _ => { CodingUnit.idle with job := some j, undrawn := n }
  State.runUnit maxStepDowns (s.startRung u j 0) u j

/-- Starts until no unit is IDLE or no job may start; each start takes an entry of the queue (R92). -/
def State.startUpTo : Nat → State → State
  | 0, s => s
  | n + 1, s =>
    match s.idleUnit?, s.pickJob with
    | some u, some j => State.startUpTo n (s.startJob u j)
    | _, _ => s

/-- An act of the dispatcher (R92). -/
def State.dispatchAct (s : State) : State := State.startUpTo s.jobs.length s

/-! ## Cancellation and abort (section 5.7) -/

/-- The unit that codes a job (R90). -/
def State.unitOf (s : State) (j : Job) : Option UnitNo :=
  if (s.units.get 0).job = some j then some 0 else if (s.units.get 1).job = some j then some 1 else none

/-- One rendition of an item dealt with by a REJECT or PURGE: WAITING and QUEUED are cancelled (R106), CODING is
aborted (R107), final ones are left. -/
def State.cancelRendition (s : State) (j : Job) : State :=
  match (s.items.get j.slot).rendition? j.face j.kind with
  | none => s
  | some r =>
    match r.state with
    | .waiting => s.modRendition j fun r => { r with state := .cancelled }
    | .queued => (s.withJobs (s.jobs.filter (· ≠ j))).modRendition j fun r => { r with state := .cancelled }
    | .coding =>
      match s.unitOf j with
      | some u => ((s.giveUpPages u j).modRendition j fun r => { r with state := .cancelled }).idleUnit u
      | none => s.modRendition j fun r => { r with state := .cancelled }
    | .done | .oversize | .fault | .cancelled => s

/-- The jobs that name the renditions of an item, in the order of its list. -/
def Item.jobs (i : Item) (k : Slot) : List Job := i.renditions.map fun r => ⟨k, r.face, r.kind⟩

/-- Every rendition of an item dealt with in the order of its list (R108). -/
def State.cancelRenditions (s : State) (k : Slot) : State :=
  ((s.items.get k).jobs k).foldl State.cancelRendition s

/-- The cancellations of one REJECT or PURGE, then strip return for each face, the settling test, and one act of the
dispatcher (R108). -/
def State.rejectRenditions (s : State) (k : Slot) : State :=
  (((s.cancelRenditions k).returnAllStrips k).settle k).dispatchAct

end Sys2Proof.Machine
end

