-- ==== Sys2Proof/Machine/Exchange.lean ====
section
/-! DEFINITION. Exchange ports: claims, streaming, holds, the stall timer, acknowledgements and link changes
(spec/07_exchange_links_and_release.md), the freeing and return of items (R14, R15), and the meaning of the exchange
link commands. -/

namespace Sys2Proof.Machine

/-! ## The claim of a port -/

/-- The claim and stream of a port end where they stand: the reader's request withdrawn, its burst's result
discarded, the store emptied, the hold mark cleared, the stall timer stopped (R74, R143, R146). The stream position goes to
the mark that every SEGMENT has been sent, and the count of SEGMENTs to 0 (DESIGN CHOICE, log 30). -/
def State.endClaim (s : State) (p : Port) (next : ExchangeState) : State :=
  (s.withdraw (.xr p)).modExchange p fun x =>
    { x with state := next, slot := none, position := none, segments := 0, store := [], holdPending := false,
             stall := none }

/-- The port's claim leaves the arbiter's list (R133). -/
def State.dropClaim (s : State) (p : Port) : State := s.withClaims (s.claims.filter fun c => c.port ≠ p)

/-- A CLAIMED item is READY again at its lane head; `counted` raises its retries, which stop at 255 (R8, R14). -/
def State.returnItem (s : State) (k : Slot) (counted : Bool) : State :=
  (s.modItem k fun i =>
    { i with state := .ready, holder := none, retries := if counted then min 255 (i.retries + 1) else i.retries }).releaseAct

/-- The drained test of a lane (R22). -/
def State.drainedTest (s : State) (l : Lane) : State :=
  if (s.lanes.get l).closed ∧ (s.lanes.get l).queue = [] then s.setCause .drained else s

/-- The page chains of an item's renditions go back as free pages, in the order of its list (R83). -/
def State.givePagesBack (s : State) (k : Slot) : State :=
  let s := s.modPages fun p => ((s.items.get k).renditions.map (·.chain)).foldl PagePool.giveBack p
  s.modItem k fun i => { i with renditions := i.renditions.map fun r => { r with chain := [] } }

/-- The item is freed (R1, R15): pages, pin count, lane queue, record; then the drained test, the dispatcher, and the
release arbiter if the new head is READY. -/
def State.freeItem (s : State) (k : Slot) : State :=
  let i := s.items.get k
  let s := s.givePagesBack k
  let s := match i.source with
    | some src => s.modStore fun st => st.modPins src (· - 1)
    | none => s
  let s := s.modLane i.lane fun r => { r with queue := r.queue.filter (· ≠ k) }
  let s := s.modItem k fun _ => Item.empty
  let s := (s.drainedTest i.lane).dispatchAct
  if (s.readyHead i.lane).isSome then s.releaseAct else s

/-! ## Streaming -/

/-- The stall timer starts RUNNING with the stall limit as the port enters HELD or AWAIT (R141). -/
def State.enterStalled (s : State) (p : Port) (next : ExchangeState) : State :=
  s.modExchange p fun x => { x with state := next, holdPending := false, stall := some s.stallLimit }

/-- The stream goes on from a segment boundary: the next SEGMENT is read, or END is produced (R137, R138). -/
def State.streamOn (s : State) (p : Port) : State :=
  let x := s.exchange.get p
  match x.position with
  | some _ => s.request (.xr p)
  | none => (s.exchangeProduce p (.endOfStream x.segments)).enterStalled p .await

/-- GRANT and SEGMENT are the frames whose last byte leaving is a segment boundary (R137). -/
def ExchangeMsg.inStream : ExchangeMsg → Bool
  | .grant _ | .segment _ _ _ => true
  | .endOfStream _ | .broken _ _ | .cancelled | .revoked _ _ | .stale _ | .claimRefused _ => false

/-- The produced frames after the first GRANT or SEGMENT of a list has left with all before it; none if there is no
such frame (R128). -/
def afterStreamFrame : List ExchangeMsg → Option (List ExchangeMsg)
  | [] => none
  | m :: t => if m.inStream then some t else afterStreamFrame t

/-- The produced frames a port keeps when its stream ends early: every frame but a GRANT or SEGMENT whose sending has not
begun, which can have begun only as the first (R128, R143). -/
def keepOfStream (begun : Bool) (produced : List ExchangeMsg) : List ExchangeMsg :=
  (produced.take 1).filter (fun m => !m.inStream || begun) ++ produced.tail.filter fun m => !m.inStream

/-- The rest of a port's stream is not sent: a frame whose sending has begun completes, and no later GRANT or SEGMENT
leaves (R128, R143, R144; log 8). -/
def State.cutStream (s : State) (p : Port) : State :=
  let begun := hasBegun (s.exchange.get p).begun s.free
  let kept := keepOfStream begun (s.exchange.get p).produced
  (s.withFree (s.free + 1)).modExchange p fun x => { x with produced := kept, begun := begun && !kept.isEmpty }

/-- The last byte of a GRANT or SEGMENT leaves the port. It is a boundary of the present stream when the port is
SENDING and no other GRANT or SEGMENT is still to leave: HELD if a hold is pending, otherwise the stream goes on
(R137, R140). -/
def State.segmentLeaves (s : State) (p : Port) : State :=
  match afterStreamFrame (s.exchange.get p).produced with
  | none => s
  | some rest =>
    let s := s.modExchange p fun x => { x with produced := rest, begun := false }
    if (s.exchange.get p).state = .sending ∧ rest.all (fun m => !m.inStream) then
      let s := s.modExchange p fun x => { x with store := [] }
      if (s.exchange.get p).holdPending then s.enterStalled p .held else s.streamOn p
    else s

/-- Bytes read for the SEGMENT at the stream position join the store; when it is whole, SEGMENT is produced and the
position advances (R137). -/
def State.segmentRead (s : State) (p : Port) (data : List Byte) : State :=
  let x := s.exchange.get p
  match x.slot, x.position with
  | some k, some pos =>
    let i := s.items.get k
    let store := x.store ++ data
    if i.segmentBytes pos ≤ store.length then
      (s.modExchange p fun x =>
        { x with store := store, position := i.segmentAfter pos, segments := x.segments + 1 }).exchangeProduce p
        (.segment pos.rendition pos.number store)
    else (s.modExchange p fun x => { x with store := store }).request (.xr p)
  | _, _ => s

/-- A parity fault of the reader ends the stream BROKEN (R86, R139). -/
def State.breakStream (s : State) (p : Port) : State :=
  let x := s.exchange.get p
  match x.position with
  | none => s
  | some pos =>
    let s := (s.withdraw (.xr p)).setCause .memFault
    let s := s.modExchange p fun x => { x with store := [] }
    (s.exchangeProduce p (.broken pos.rendition pos.number)).enterStalled p .await

/-! ## Taking messages (Table 7.8) -/

/-- A CLAIM (R132). -/
def State.takeClaim (s : State) (p : Port) (mask : Byte) : State :=
  let x := s.exchange.get p
  match x.state with
  | .down => s
  | .idle =>
    let effective := mask.setWidth 4 &&& x.mask
    if effective = 0 then s.exchangeProduce p (.claimRefused .noLanes)
    else
      ((s.withClaims (s.claims ++ [⟨p, effective⟩])).modExchange p fun x => { x with state := .waiting }).releaseAct
  | .waiting | .sending | .held | .await => s.exchangeProduce p (.claimRefused .busy)

/-- A DELIVERED; in SENDING and HELD the rest of the stream is not sent (R143). -/
def State.takeDelivered (s : State) (p : Port) : State :=
  let x := s.exchange.get p
  match x.state, x.slot with
  | .idle, _ => s.exchangeProduce p (.stale .delivered)
  | .waiting, _ => s.exchangeProduce p (.stale .delivered)
  | .sending, some k => ((s.cutStream p).endClaim p .idle).freeItem k
  | .held, some k => ((s.cutStream p).endClaim p .idle).freeItem k
  | .await, some k => (s.endClaim p .idle).freeItem k
  | _, _ => s

/-- A RETURN; in SENDING and HELD the rest of the stream is not sent (R144). -/
def State.takeReturn (s : State) (p : Port) : State :=
  let x := s.exchange.get p
  match x.state, x.slot with
  | .idle, _ => s.exchangeProduce p (.stale .returned)
  | .waiting, _ => s.exchangeProduce p (.stale .returned)
  | .sending, some k => ((s.cutStream p).endClaim p .idle).returnItem k true
  | .held, some k => ((s.cutStream p).endClaim p .idle).returnItem k true
  | .await, some k => (s.endClaim p .idle).returnItem k true
  | _, _ => s

/-- The stall timer of a port expires and revokes its claim; STOPPED, it does not (R141). -/
def State.expireStall (s : State) (p : Port) : State :=
  let x := s.exchange.get p
  match x.stall, x.slot with
  | some _, some k =>
    let s := s.exchangeProduce p (.revoked k (s.items.get k).stamp)
    ((s.endClaim p .idle).setCause .revoke).returnItem k true
  | _, _ => s

/-- What link loss and XPORT RESET do to the claim of a port: a waiting claim leaves the list, a CLAIMED item returns
to READY with its retries unchanged (R14, R146, R147). -/
def State.releaseClaim (s : State) (p : Port) (next : ExchangeState) : State :=
  let k := (s.exchange.get p).slot
  let s := (s.dropClaim p).endClaim p next
  match k with
  | some k => s.returnItem k false
  | none => s

/-! ## The meanings -/

/-- The last byte of a GRANT or SEGMENT leaves the port (R137, R138, R140). -/
def execSegmentBoundary (p : Port) (s : State) : Host.Outcome State Fault Refusal :=
  .next (s.whileRunning (·.segmentLeaves p))

/-- CLAIM; one whose mask is out of range is a failed frame (R127, R132). -/
def execClaim (p : Port) (mask : Byte) (s : State) : Host.Outcome State Fault Refusal :=
  .next (s.whileRunning fun s => if claimMaskOk mask then s.takeClaim p mask else s)

/-- CANCEL (R136). -/
def execCancel (p : Port) (s : State) : Host.Outcome State Fault Refusal :=
  .next (s.whileRunning fun s =>
    if (s.exchange.get p).state = .waiting then
      ((s.dropClaim p).exchangeProduce p .cancelled).modExchange p fun x => { x with state := .idle }
    else s)

/-- HOLD (R140). -/
def execHold (p : Port) (s : State) : Host.Outcome State Fault Refusal :=
  .next (s.whileRunning fun s =>
    if (s.exchange.get p).state = .sending then s.modExchange p fun x => { x with holdPending := true } else s)

/-- GO (R140). -/
def execGo (p : Port) (s : State) : Host.Outcome State Fault Refusal :=
  .next (s.whileRunning fun s =>
    if (s.exchange.get p).state = .held then
      (s.modExchange p fun x => { x with state := .sending, stall := none }).streamOn p
    else s)

/-- DELIVERED (R143). -/
def execDelivered (p : Port) (s : State) : Host.Outcome State Fault Refusal :=
  .next (s.whileRunning (·.takeDelivered p))

/-- RETURN (R144). -/
def execReturnItem (p : Port) (s : State) : Host.Outcome State Fault Refusal :=
  .next (s.whileRunning (·.takeReturn p))

/-- A failed frame is discarded in every state, with no answer (R127, R193). -/
def execExchangeFailedFrame (_p : Port) (s : State) : Host.Outcome State Fault Refusal := .next s

/-- The stall timer reaches 0 (R141). -/
def execStallTimerExpiry (p : Port) (s : State) : Host.Outcome State Fault Refusal :=
  .next (s.whileRunning (·.expireStall p))

/-- The link comes up: from DOWN to IDLE with empty stores and no claim, LINK set; while RESET_N is low only the
detector's level changes (R146, R190). -/
def execExchangeLinkUp (p : Port) (s : State) : Host.Outcome State Fault Refusal :=
  .next (
    if s.pins.resetLow then s.modExchange p fun x => { x with link := true }
    else if (s.exchange.get p).state = .down then
      (s.modExchange p fun x =>
        { x with link := true, state := .idle, gathering := [], store := [], produced := [], begun := false }).setCause
        .link
    else s)

/-- The link is lost (R128, R146). -/
def State.loseExchangeLink (s : State) (p : Port) : State :=
  let s := s.modExchange p fun x => { x with link := false, gathering := [], produced := [], begun := false }
  (s.setCause .link).releaseClaim p .down

def execExchangeLinkLost (p : Port) (s : State) : Host.Outcome State Fault Refusal :=
  .next (
    if s.pins.resetLow then s.modExchange p fun x => { x with link := false }
    else if (s.exchange.get p).state = .down then s
    else s.loseExchangeLink p)

end Sys2Proof.Machine
end

