-- ==== Sys2Proof/Machine/Scan.lean ====
section
/-! DEFINITION. Scan ports: admission (section 1.4), the taking of frames in each port state (sections 2.3 and 2.6),
row landing (section 2.5), the evaluation at FACE CLOSE (section 3.2), the end of landing (Table 2.4), and the meaning
of the scan link commands. -/

namespace Sys2Proof.Machine

/-! ## The end of landing -/

/-- A face still LANDING becomes CUT, and its accumulators end (R4, R53, R55). -/
def Face.cutIfLanding (f : Face) : Face := if f.state = .landing then { f with state := .cut, accum := none } else f

/-- A held row still being written is abandoned: counted lost, its request withdrawn (R51, R74). -/
def State.abandonRow (s : State) (l : Lane) (k : Slot) : State :=
  let p := s.scan.get l
  match p.held with
  | none => s
  | some _ =>
    let s := match p.current with
      | some face => s.modItem k (·.modFace face Face.loseRow)
      | none => s
    (s.withdraw (.w l)).modScan l fun p => { p with held := none }

/-- The port leaves the item, whose landing has ended: SETTLING, open faces CUT, the timer stopped (R10, R42). -/
def State.detach (s : State) (l : Lane) (k : Slot) (next : ScanState) : State :=
  let s := s.abandonRow l k
  let s := s.modItem k fun i => { i with state := .settling, faces := i.faces.map Face.cutIfLanding }
  s.modScan l fun p => { p with attached := none, current := none, timer := none, state := next }

/-- POCKET produced and the delivered flag set, while the link is up (R31, R67). -/
def State.producePocket (s : State) (l : Lane) (k : Slot) : State :=
  if (s.scan.get l).link then
    let i := s.items.get k
    (s.scanProduce l (.pocket i.position i.pocket i.reason (i.latency.getD 0))).modItem k
      fun i => { i with delivered := true }
  else s

/-- A REJECT for the attached item whose finding or decision stands: detach, then renditions, strips, settling and
dispatch (R42, R108). -/
def State.endRejected (s : State) (l : Lane) (k : Slot) (next : ScanState) : State :=
  (s.detach l k next).rejectRenditions k

/-- An item finding rejects the attached item, with POCKET (R37, R39, R44, R65, R24). -/
def State.rejectSent (s : State) (l : Lane) (k : Slot) (f : Finding) (next : ScanState) : State :=
  ((s.addFinding k f).producePocket l k).endRejected l k next

/-- An item finding rejects the attached item, without POCKET (R45, R46). -/
def State.rejectUnsent (s : State) (l : Lane) (k : Slot) (f : Finding) (next : ScanState) : State :=
  (s.addFinding k f).endRejected l k next

/-- A protocol fault (R39). -/
def State.protocolFault (s : State) (l : Lane) (k : Slot) : State :=
  s.rejectSent l k (itemFinding .protocol 0) .idle

/-! ## Admission (R9, R17) -/

/-- The lowest-numbered FREE slot. -/
def State.freeSlot (s : State) : Option Slot :=
  match s.items.toList.findIdx? (fun i => i.state = .free) with
  | some n => if h : n < 256 then some ⟨n, h⟩ else none
  | none => none

/-- The first refusal reason of Table 1.4 that applies (R17). -/
def State.slotRefusal (s : State) (l : Lane) : Option SlotRefusal :=
  let r := s.lanes.get l
  if r.closed then some .laneClosed
  else if !((s.store.bindings.get l).any s.store.usable) then some .noProfile
  else if r.quota ≤ r.queue.length then some .quota
  else if s.freeSlot = none then some .tableFull
  else none

/-- The record of a newly admitted item (R3, R6, R9). -/
def newItem (s : State) (l : Lane) (src : Source) (bundle : Long) (position : Word) (faces : Byte) : Item :=
  { Item.empty with
    state := .landing
    lane := l
    stamp := s.stamp
    bundle := bundle
    position := position
    facesExpected := faces
    source := some src
    name := profileName (s.store.record src)
    edition := profileEdition (s.store.record src)
    trial := src = .staging }

/-- A slot given: record, stamp, queue, pin, attachment, timer, SLOT GIVEN; a change of lane head is told to the
dispatcher (R2, R3, R9, R16, R65). -/
def State.giveSlot (s : State) (l : Lane) (k : Slot) (src : Source) (bundle : Long) (position : Word)
    (faces : Byte) : State :=
  let deadline := profileDeadline (s.store.record src)
  let newHead := (s.lanes.get l).queue.isEmpty
  let s := s.modItem k fun _ => newItem s l src bundle position faces
  let s := s.withStamp (s.stamp + 1)
  let s := s.modLane l fun r => { r with queue := r.queue ++ [k] }
  let s := s.modStore fun st => st.modPins src (· + 1)
  let s := s.scanProduce l (.slotGiven position k)
  let s := s.modScan l fun p =>
    { p with attached := some k, state := .item, current := none, timer := some ⟨deadline, deadline⟩ }
  if newHead then s.dispatchAct else s

/-- An ITEM OPEN taken as new (R34). -/
def State.takeAsNew (s : State) (l : Lane) (bundle : Long) (position : Word) (faces : Byte) : State :=
  match s.slotRefusal l, s.freeSlot, s.store.bindings.get l with
  | none, some k, some src => s.giveSlot l k src bundle position faces
  | some why, _, _ => (s.scanProduce l (.slotRefused position why)).modScan l fun p => { p with state := .idle }
  | none, _, _ => s

/-! ## FACE OPEN (R35) -/

/-- The three conditions of R35. -/
def faceOpenAccepted (i : Item) (kind : FaceKind) (width : Nat) : Bool :=
  64 ≤ width && width ≤ 2048 && (i.face? kind).isNone && i.faces.length < i.facesExpected.toNat

/-- A new face record with its accumulators (R35, R53). -/
def newFace (record : List Byte) (kind : FaceKind) (width : Nat) : Face where
  kind := kind
  width := width
  state := .landing
  rowsLanded := 0
  rowsLost := 0
  strips := []
  accum := some { darkLevel := profileDarkLevel record, darkCount := 0, columns := List.replicate width 0 }

/-- The rendition records a face gets: BITONAL then GRAY, as the profile selects them (R7, R35). -/
def newRenditions (record : List Byte) (face : FaceKind) : List Rendition :=
  ([RenditionKind.bitonal, .gray].filter (profileSelects record face)).map fun kind =>
    { face := face, kind := kind, state := .waiting, rung := 0, budget := profileBudget record kind, chain := [],
      output := none }

/-- A FACE OPEN accepted (R35). -/
def State.openFace (s : State) (l : Lane) (k : Slot) (kind : FaceKind) (width : Nat) : State :=
  let record := s.itemRecord k
  let s := s.modItem k fun i =>
    { i with
      faces := i.faces ++ [newFace record kind width]
      renditions := i.renditions ++ newRenditions record kind }
  s.modScan l fun p => { p with state := .face, current := some kind }

/-! ## ROW (R40, R48, R50) -/

/-- A row of the attached item's current face is lost (R40, R48). -/
def State.loseRow (s : State) (k : Slot) (face : FaceKind) : State := s.modItem k (·.modFace face Face.loseRow)

/-- A row becomes the held row, and the writer asks for its first burst (R48, R49). -/
def State.holdRow (s : State) (l : Lane) (position : Nat) (pixels : List Byte) : State :=
  (s.modScan l fun p => { p with held := some ⟨position, pixels, 0⟩ }).request (.w l)

/-- A row of the right width reaches the landing writer (R48). -/
def State.landRow (s : State) (l : Lane) (k : Slot) (face : FaceKind) (f : Face) (pixels : List Byte) : State :=
  match (s.scan.get l).held with
  | some h =>
    -- overwrite: the older row is lost, the writer begins again at the same position (R50, R74)
    ((s.loseRow k face).modArbiter (·.forsake (.w l))).holdRow l h.position pixels
  | none =>
    if Config.maxRows ≤ f.rowsLanded then s.loseRow k face
    else if f.rowsLanded % 16 = 0 then
      match s.strips with
      | [] => (s.loseRow k face).setCause .stripFamine
      | strip :: rest =>
        ((s.withStrips rest).modItem k (·.modFace face fun x => { x with strips := x.strips ++ [strip] })).holdRow l
          f.rowsLanded pixels
    else s.holdRow l f.rowsLanded pixels

/-- A ROW in FACE (R40). -/
def State.takeRow (s : State) (l : Lane) (k : Slot) (face : FaceKind) (pixels : List Byte) : State :=
  match (s.items.get k).face? face with
  | none => s
  | some f => if pixels.length = f.width then s.landRow l k face f pixels else s.loseRow k face

/-! ## FACE CLOSE (R41, R56 to R60) -/

def severityIf (b : Bool) : Severity := if b then .reject else .note

/-- The dark per-mille (R59). -/
def darkPerMille (f : Face) (a : Accumulators) : Nat := a.darkCount * 1000 / (f.rowsLanded * f.width)

/-- The number of streaked columns (R60). -/
def streakedColumns (record : List Byte) (f : Face) (a : Accumulators) : Nat :=
  (a.columns.filter fun n => profileStreakLimit record * f.rowsLanded ≤ n * 1000).length

/-- The eight tests of Table 3.2, in order: which finding each adds, if it is met (R56 to R60). -/
def evaluate (record : List Byte) (f : Face) (a : Accumulators) : List Finding :=
  let presented := f.rowsLanded + f.rowsLost
  let make (met : Bool) (kind : FindingKind) (severity : Severity) (value : Nat) : List Finding :=
    if met then [⟨kind, FindingFace.ofKind f.kind, severity, value⟩] else []
  let plain (met : Bool) (kind : FindingKind) (value : Nat) := make met kind (profileSeverity record kind) value
  let measured := decide (0 < f.rowsLanded)
  plain (presented < profileMinRows record) .short (cap16 presented) ++
  plain (profileMaxRows record < presented) .long (cap16 presented) ++
  plain (f.width < profileMinWidth record) .narrow f.width ++
  plain (profileMaxWidth record < f.width) .wide f.width ++
  make (0 < f.rowsLost) .truncated (severityIf (profileTolerance record < f.rowsLost)) f.rowsLost ++
  plain (measured && decide (profileDarkLimit record < darkPerMille f a)) .dark (darkPerMille f a) ++
  plain (measured && decide (darkPerMille f a < profileLightLimit record)) .light (darkPerMille f a) ++
  plain (measured && decide (0 < streakedColumns record f a)) .streak (streakedColumns record f a)

def noAccumulators : Accumulators := { darkLevel := 0, darkCount := 0, columns := [] }

/-- The WAITING renditions of a closed face become QUEUED and join the job queue in list order (R89). -/
def State.queueRenditions (s : State) (k : Slot) (face : FaceKind) : State :=
  let js := ((s.items.get k).renditions.filter fun r => r.face = face && r.state = .waiting).map
    fun r => Job.mk k r.face r.kind
  (s.withJobs (s.jobs ++ js)).modItem k fun i =>
    { i with renditions := i.renditions.map fun r =>
        if r.face = face ∧ r.state = .waiting then { r with state := .queued } else r }

/-- A FACE CLOSE in FACE (R41). -/
def State.closeFace (s : State) (l : Lane) (k : Slot) (face : FaceKind) : State :=
  match (s.items.get k).face? face with
  | none => s
  | some f =>
    let findings := evaluate (s.itemRecord k) f (f.accum.getD noAccumulators)
    let s := s.modItem k (·.modFace face fun x => { x with state := .landed, accum := none })
    let s := s.modScan l fun p => { p with current := none }
    let s := findings.foldl (fun t f => t.addFinding k f) s
    if (s.items.get k).pocket = .pending then
      (((s.queueRenditions k face).modScan l fun p => { p with state := .item }).returnStrips k face).dispatchAct
    else (s.producePocket l k).endRejected l k .discard

/-! ## ITEM CLOSE (R36, R64) -/

/-- The number of faces missing at ITEM CLOSE (R36). -/
def Item.missing (i : Item) : Nat :=
  i.facesExpected.toNat - (i.faces.filter fun f => f.state = .landed).length

/-- An ITEM CLOSE in ITEM: FACE_MISSING rejects, otherwise the pocket is ACCEPT (R36, R64). -/
def State.closeItem (s : State) (l : Lane) (k : Slot) : State :=
  let n := (s.items.get k).missing
  if 0 < n then s.rejectSent l k (itemFinding .faceMissing n) .idle
  else
    let s := if (s.items.get k).pocket = .pending then s.decidePocket k .accept none else s
    (((s.producePocket l k).detach l k .idle).returnAllStrips k).settle k

/-! ## Taking a frame, by port state (Table 2.7) -/

def State.takeInItem (s : State) (l : Lane) (k : Slot) : ScanFrame → State
  | .itemOpen bundle position faces => (s.protocolFault l k).takeAsNew l bundle position faces
  | .faceOpen kind width =>
    if faceOpenAccepted (s.items.get k) kind width then s.openFace l k kind width else s.protocolFault l k
  | .row _ => s.protocolFault l k
  | .faceClose => s.protocolFault l k
  | .itemClose => s.closeItem l k
  | .itemAbandon reason => s.rejectSent l k (itemFinding .abandoned reason.toNat) .idle
  | .failed => s.rejectSent l k (itemFinding .linkError 0) .discard

def State.takeInFace (s : State) (l : Lane) (k : Slot) (face : FaceKind) : ScanFrame → State
  | .itemOpen bundle position faces => (s.protocolFault l k).takeAsNew l bundle position faces
  | .faceOpen _ _ => s.protocolFault l k
  | .row pixels => s.takeRow l k face pixels
  | .faceClose => s.closeFace l k face
  | .itemClose => s.protocolFault l k
  | .itemAbandon reason => s.rejectSent l k (itemFinding .abandoned reason.toNat) .idle
  | .failed => s.rejectSent l k (itemFinding .linkError 0) .discard

/-- In IDLE only an ITEM OPEN does anything (R34). -/
def State.takeInIdle (s : State) (l : Lane) : ScanFrame → State
  | .itemOpen bundle position faces => s.takeAsNew l bundle position faces
  | .faceOpen _ _ | .row _ | .faceClose | .itemClose | .itemAbandon _ | .failed => s

/-- DISCARD passes over the frames of the item last served (R43). -/
def State.takeInDiscard (s : State) (l : Lane) : ScanFrame → State
  | .itemOpen bundle position faces => s.takeAsNew l bundle position faces
  | .itemClose | .itemAbandon _ => s.modScan l fun p => { p with state := .idle }
  | .faceOpen _ _ | .row _ | .faceClose | .failed => s

/-- A frame taken by the port as it stands (Table 2.7). In ITEM and FACE a port has an attached item, in FACE a
current face (Table 2.2); without them nothing is taken. -/
def State.takeFrame (s : State) (l : Lane) (f : ScanFrame) : State :=
  let p := s.scan.get l
  match p.state, p.attached, p.current with
  | .idle, _, _ => s.takeInIdle l f
  | .discard, _, _ => s.takeInDiscard l f
  | .item, some k, _ => s.takeInItem l k f
  | .face, some k, some face => s.takeInFace l k face f
  | _, _, _ => s

def ScanFrame.isRow : ScanFrame → Bool
  | .row _ => true
  | .itemOpen _ _ _ | .faceOpen _ _ | .faceClose | .itemClose | .itemAbandon _ | .failed => false

/-- Waiting frames taken in order of arrival, as far as the held row allows: a frame other than a ROW waits while a
held row is being written, and what is behind it waits with it (R33). -/
def State.takeWaiting (l : Lane) : List ScanFrame → State → State
  | [], s => s.modScan l fun p => { p with waiting := [] }
  | f :: rest, s =>
    if f.isRow || (s.scan.get l).held.isNone then
      State.takeWaiting l rest ((s.modScan l fun p => { p with waiting := rest }).takeFrame l f)
    else s.modScan l fun p => { p with waiting := f :: rest }

/-- The frames that wait at a port, taken as far as they may be. -/
def State.drainWaiting (s : State) (l : Lane) : State := State.takeWaiting l (s.scan.get l).waiting s

/-- A whole frame arrives and is judged: none is received in DOWN (Table 2.2); otherwise it is taken or waits
(R33). -/
def State.frameArrives (s : State) (l : Lane) (f : ScanFrame) : State :=
  s.whileRunning fun s =>
    let p := s.scan.get l
    if p.state = .down then s
    else
      let s := s.modScan l fun p => { p with gathering := [] }
      if p.waiting ≠ [] ∨ (f.isRow = false ∧ p.held.isSome) then
        s.modScan l fun p => { p with waiting := p.waiting ++ [f] }
      else s.takeFrame l f

/-! ## The pocket timer (R65) -/

/-- The pocket timer of a lane expires; STOPPED, it does not (R65, R66). -/
def State.expirePocket (s : State) (l : Lane) : State :=
  match (s.scan.get l).timer, (s.scan.get l).attached with
  | some t, some k =>
    let s := s.modScan l fun p => { p with timer := some { t with remaining := 0 } }
    (s.rejectSent l k (itemFinding .late t.deadline) .discard).drainWaiting l
  | _, _ => s

/-! ## The meanings -/

/-- ITEM OPEN (R30, R34, R39). -/
def execItemOpen (l : Lane) (bundle : Long) (position : Word) (faces : Byte) (s : State) :
    Host.Outcome State Fault Refusal :=
  .next (s.frameArrives l (if itemOpenOk position faces then .itemOpen bundle position faces else .failed))

/-- FACE OPEN (R30, R35). -/
def execFaceOpen (l : Lane) (kind : Byte) (width : Word) (s : State) : Host.Outcome State Fault Refusal :=
  .next (s.frameArrives l (if faceKindOk kind then .faceOpen (FaceKind.ofCode kind) width.toNat else .failed))

/-- ROW (R30, R40). -/
def execRow (l : Lane) (pixels : List Byte) (s : State) : Host.Outcome State Fault Refusal :=
  .next (s.frameArrives l (if rowLengthOk pixels then .row pixels else .failed))

/-- FACE CLOSE (R41). -/
def execFaceClose (l : Lane) (s : State) : Host.Outcome State Fault Refusal := .next (s.frameArrives l .faceClose)

/-- ITEM CLOSE (R36). -/
def execItemClose (l : Lane) (s : State) : Host.Outcome State Fault Refusal := .next (s.frameArrives l .itemClose)

/-- ITEM ABANDON (R37). -/
def execItemAbandon (l : Lane) (reason : Byte) (s : State) : Host.Outcome State Fault Refusal :=
  .next (s.frameArrives l (.itemAbandon reason))

/-- A failed frame (R44, R193). -/
def execScanFailedFrame (l : Lane) (s : State) : Host.Outcome State Fault Refusal :=
  .next (s.frameArrives l .failed)

/-- The link comes up: from DOWN to IDLE with empty buffers and LINK set; while RESET_N is low only the detector's
level changes (R45, R190). -/
def execScanLinkUp (l : Lane) (s : State) : Host.Outcome State Fault Refusal :=
  .next (
    if s.pins.resetLow then s.modScan l fun p => { p with link := true }
    else if (s.scan.get l).state = .down then
      (s.modScan l fun p =>
        { p with link := true, state := .idle, gathering := [], waiting := [], held := none,
                 produced := [], begun := false }).setCause .link
    else s)

/-- The link is lost: the port goes DOWN, LINK is set, frames and unsent messages are discarded, and an attached item
is cut with LINK_LOST and no POCKET (R31, R45). -/
def State.loseScanLink (s : State) (l : Lane) : State :=
  let s := match (s.scan.get l).attached with
    | some k => s.rejectUnsent l k (itemFinding .linkLost 0) .down
    | none => s
  (s.modScan l fun p =>
    { p with link := false, state := .down, gathering := [], waiting := [], held := none, produced := [],
             begun := false }).setCause
    .link

def execScanLinkLost (l : Lane) (s : State) : Host.Outcome State Fault Refusal :=
  .next (
    if s.pins.resetLow then s.modScan l fun p => { p with link := false }
    else if (s.scan.get l).state = .down then s
    else s.loseScanLink l)

/-- The pocket timer reaches 0 (R65). -/
def execPocketTimerExpiry (l : Lane) (s : State) : Host.Outcome State Fault Refusal :=
  .next (s.whileRunning (·.expirePocket l))

end Sys2Proof.Machine
end

