-- ==== Sys2Proof/Machine/Memory.lean ====
section
/-! DEFINITION. The memory arbiter's grants and the bursts (sections 4.1 and 4.2): which burst each requester performs,
what it does with the result, parity faults (section 4.5), with the meanings of MEMORY_GRANT and BURST_COMPLETE. -/

namespace Sys2Proof.Machine

/-! ## The burst a requester performs -/

/-- The next burst of a held row: 256 pixels of it, or those that remain (R49). -/
def State.writerBurst (s : State) (l : Lane) : Option Burst :=
  let p := s.scan.get l
  match p.held, p.attached, p.current with
  | some h, some k, some face =>
    match (s.items.get k).face? face with
    | none => none
    | some f =>
      let data := (h.pixels.drop (h.written * 256)).take 256
      some ⟨.w l, true, stripAddr (f.strips.getD (h.position / 16) 0) (h.position % 16) (h.written * 256),
        data.length, data, true⟩
  | _, _, _ => none

/-- The 16 bytes of a finished rendition's header (R103, R126). -/
def State.jobHeader (s : State) (u : UnitNo) (j : Job) : List Byte :=
  let x := s.units.get u
  let i := s.items.get j.slot
  let size := outputSize (s.jobRecord j) j.kind x.rung (s.jobWidth j) (s.jobRows j)
  headerBytes
    { kind := j.kind, face := j.face, rung := x.rung, source := i.source, width := size.1, rows := size.2,
      dataLength := x.length - 16, edition := i.edition, check := x.coder.check }

/-- The next burst of a coding unit: of the row it reads (R97), of its output (R99), or the first burst place with
the header (R103). -/
def State.unitBurst (s : State) (u : UnitNo) : Option Burst :=
  let x := s.units.get u
  match x.job with
  | none => none
  | some j =>
    match x.phase with
    | .read =>
      let column := x.rowSoFar.length
      some ⟨.cu u, false, stripAddr ((s.jobStrips j).getD (x.readRow / 16) 0) (x.readRow % 16) column,
        min 256 (s.jobWidth j - column), [], true⟩
    | .write | .flush =>
      let base := x.length - x.outputBurst.length
      some ⟨.cu u, true, pageAddr ((s.jobChain j).getD (base / 4096) 0) (base % 4096), x.outputBurst.length,
        x.outputBurst, true⟩
    | .header =>
      let data := s.jobHeader u j ++ x.firstPlace
      some ⟨.cu u, true, pageAddr ((s.jobChain j).getD 0 0) 0, data.length, data, true⟩

/-- The next burst of an exchange reader: of the SEGMENT at its stream position (R137). -/
def State.readerBurst (s : State) (p : Port) : Option Burst :=
  let x := s.exchange.get p
  match x.slot, x.position with
  | some k, some pos =>
    let i := s.items.get k
    let chain := ((i.renditions[pos.rendition]?).map (·.chain)).getD []
    some ⟨.xr p, false, pageAddr (chain.getD pos.number 0) x.store.length,
      min 256 (i.segmentBytes pos - x.store.length), [], true⟩
  | _, _ => none

def State.burstOf (s : State) : Requester → Option Burst
  | .w l => s.writerBurst l
  | .cu u => s.unitBurst u
  | .xr p => s.readerBurst p

/-! ## Grants (R72, R73) -/

/-- The class B requester at a place of the rotation (Table 4.2). -/
def classBRequester (i : Fin 4) : Requester :=
  if h : i.val < 2 then .cu ⟨i.val, h⟩ else .xr ⟨i.val - 2, by omega⟩

/-- Who is granted next, and the arbiter with the rotation position moved (R72, R73). -/
def Arbiter.choose (a : Arbiter) : Option (Requester × Arbiter) :=
  match nextWaiting a.classA a.lastA with
  | some i => some (.w i, { a with lastA := i })
  | none =>
    match nextWaiting a.classB a.lastB with
    | some i => some (classBRequester i, { a with lastB := i })
    | none => none

/-- A grant while no burst is under way: the request leaves and the burst begins (R71, R72). -/
def State.memoryGrant (s : State) : State :=
  match s.arbiter.burst with
  | some _ => s
  | none =>
    match s.arbiter.choose with
    | none => s
    | some (r, a) => s.modArbiter fun _ => { a.mark r false with burst := s.burstOf r }

/-! ## Results -/

/-- The face checker takes the pixels of a landed row (R54). -/
def Accumulators.takeRow (a : Accumulators) (pixels : List Byte) : Accumulators :=
  { a with
    darkCount := a.darkCount + (pixels.filter fun p => p.toNat < a.darkLevel).length
    columns := List.zipWith (fun n (p : Byte) => if p.toNat < a.darkLevel then n + 1 else n) a.columns pixels }

/-- A row landed: counted and measured (R49, R54). -/
def Face.landRow (f : Face) (pixels : List Byte) : Face :=
  { f with rowsLanded := f.rowsLanded + 1, accum := f.accum.map (·.takeRow pixels) }

/-- A landing writer's burst is written: the next burst of the row, or the row is landed and waiting frames are taken
(R33, R49). -/
def State.writerWrote (s : State) (l : Lane) : State :=
  let p := s.scan.get l
  match p.held, p.attached, p.current with
  | some h, some k, some face =>
    if h.pixels.length ≤ (h.written + 1) * 256 then
      ((s.modItem k (·.modFace face fun f => f.landRow h.pixels)).modScan l fun p =>
        { p with held := none }).drainWaiting l
    else
      (s.modScan l fun p => { p with held := some { h with written := h.written + 1 } }).request (.w l)
  | _, _, _ => s

/-- The dispatcher acts when the unit's job has ended (R105 stage 5). -/
def State.ifIdleDispatch (s : State) (u : UnitNo) : State :=
  if (s.units.get u).job = none then s.dispatchAct else s

/-- A row read whole is coded; after the last row the coder's end follows, which empties the bit store (R97,
R118). -/
def State.codeRow (s : State) (u : UnitNo) (j : Job) (pixels : List Byte) : State :=
  let x := s.units.get u
  let last : Bool := x.readRow + 1 = s.jobRows j
  let coded := x.coder.codeRow (s.jobRecord j) j.kind x.rung last pixels
  let bytes := coded.2 ++ if last then coded.1.finish (s.jobRecord j) j.kind else []
  let coder := if last then { coded.1 with bits := [] } else coded.1
  s.modUnit u fun x =>
    { x with coder := coder, readRow := x.readRow + 1, rowSoFar := [], unplaced := bytes }

/-- A coding unit's strip read completes with its data (R97). -/
def State.unitRead (s : State) (u : UnitNo) (data : List Byte) : State :=
  match (s.units.get u).job with
  | none => s
  | some j =>
    let pixels := (s.units.get u).rowSoFar ++ data
    if s.jobWidth j ≤ pixels.length then
      (State.runUnit maxStepDowns (s.codeRow u j pixels) u j).ifIdleDispatch u
    else (s.modUnit u fun x => { x with rowSoFar := pixels }).request (.cu u)

/-- A coding unit's page write completes: it goes on with its output, or the rendition is DONE (R99, R103). -/
def State.unitWrote (s : State) (u : UnitNo) : State :=
  match (s.units.get u).job with
  | none => s
  | some j =>
    match (s.units.get u).phase with
    | .header => (s.doneJob u j).ifIdleDispatch u
    | .read | .write | .flush =>
      (State.runUnit maxStepDowns (s.modUnit u fun x => { x with outputBurst := [] }) u j).ifIdleDispatch u

/-- A parity fault of a coding unit's read: MEMFAULT, and the job ends FAULT at whatever rung (R85, R104). -/
def State.unitFault (s : State) (u : UnitNo) : State :=
  match (s.units.get u).job with
  | none => s
  | some j => ((s.setCause .memFault).failJob u j .fault).ifIdleDispatch u

/-- The result of a write burst reaches its requester. -/
def State.wrote (s : State) : Requester → State
  | .w l => s.writerWrote l
  | .cu u => s.unitWrote u
  | .xr _ => s

/-- The data of a read burst reaches its requester. -/
def State.readDone (s : State) (data : List Byte) : Requester → State
  | .w _ => s
  | .cu u => s.unitRead u data
  | .xr p => s.segmentRead p data

/-- A parity fault of a read burst reaches its requester (R85, R86). -/
def State.readFault (s : State) : Requester → State
  | .w _ => s
  | .cu u => s.unitFault u
  | .xr p => s.breakStream p

/-! ## The meanings -/

/-- A grant of the memory arbiter (R72). -/
def execMemoryGrant (s : State) : Host.Outcome State Fault Refusal := .next (s.whileRunning State.memoryGrant)

/-- The burst under way completes (R71, R72). `upsets` are the places of the burst whose byte is found against its
parity; a write gives every byte fresh parity. The result of a burst whose operation was given up is discarded (R74),
and that completion comes also while RESET_N is low (R87, R190). -/
def execBurstComplete (upsets : List Nat) (s : State) : Host.Outcome State Fault Refusal :=
  match s.arbiter.burst with
  | none => .next s
  | some b =>
    if Config.memoryBytes < b.addr + b.count then .fault .noSuchAddress
    else
      let done := s.modArbiter fun a => { a with burst := none }
      if b.write then
        let t := done.withMem (s.mem.writeBytes b.addr (b.data.take b.count))
        .next (if b.live then t.wrote b.who else t)
      else
        let mem := s.mem.upsetAt b.addr b.count upsets
        let t := done.withMem mem
        if !b.live then .next t
        else if mem.parityFault b.addr b.count then .next (t.readFault b.who)
        else
          match mem.readBytes b.addr b.count with
          | none => .fault .unwrittenByte
          | some data => .next (t.readDone data b.who)

end Sys2Proof.Machine
end

