-- ==== Sys2Proof/Machine/Store.lean ====
section
/-! DEFINITION. The command mechanism (R176, R177) and the profile store: staging area, record checks, bindings and
user sets, edit enable, ERASE and PROGRAM, the phases of an operation and the start-up scan
(spec/08_the_profile_store.md), with the meaning of the store's commands and events. -/

namespace Sys2Proof.Machine

/-! ## The command mechanism -/

/-- A write of the command register: the code is kept, the command taken within the same access, and its answer placed
in the result register; no write is taken while RESET_N is low (R176, R177, R190). -/
def State.giveCommand (s : State) (code : Word) (f : State → Answer × State) : State :=
  s.whileRunning fun s =>
    let r := f (s.modSup fun p => { p with command := code })
    r.2.modSup fun p => { p with result := r.1 }

/-! ## Blocks -/

/-- Change one block. -/
def Store.modBlock (st : Store) (b : BlockNo) (f : Block → Block) : Store :=
  { st with blocks := put st.blocks b (f (st.blocks.get b)) }

/-- Change every block. -/
def Store.mapBlocks (st : Store) (f : Block → Block) : Store :=
  { st with blocks := #v[f st.blocks[0], f st.blocks[1], f st.blocks[2], f st.blocks[3], f st.blocks[4],
      f st.blocks[5], f st.blocks[6], f st.blocks[7]] }

/-- The record check of a record: the CRC of its first 510 bytes (R152). -/
def recordCheck (bytes : List Byte) : Word := crc16 (bytes.take Config.checkedBytes)

/-- A record with its check computed afresh, as PROGRAM writes it (R152, R165). -/
def programmed (bytes : List Byte) : List Byte := bytes.take Config.checkedBytes ++ wordBytes (recordCheck bytes)

/-- The classification of a block by the start-up scan (R171). -/
def Block.classify (b : Block) : BlockState :=
  if b.opened then .invalid
  else if b.bytes = erasedBytes then .empty
  else if recordCheck b.bytes = wordAt b.bytes Config.checkedBytes then .valid
  else .invalid

/-! ## Record checks (R124, R157) -/

def inRange (low high n : Nat) : Bool := low ≤ n && n ≤ high

/-- One code is the other's first bits, or the same (R124). -/
def codeClash (a b : Nat × Nat) : Bool :=
  if a.1 ≤ b.1 then b.2 / 2 ^ (b.1 - a.1) = a.2 else a.2 / 2 ^ (a.1 - b.1) = b.2

/-- No code of the list begins another (R124). -/
def clashFree : List (Nat × Nat) → Bool
  | [] => true
  | a :: t => t.all (fun b => !codeClash a b) && clashFree t

/-- The 98 entries of a code table as (length, pattern) (R123). -/
def codeTable (r : List Byte) : List (Nat × Nat) :=
  (List.range 98).map fun e => (codeLength r e, codePattern r e)

/-- A code table is valid (R124). -/
def codeTableValid (r : List Byte) : Bool :=
  (codeTable r).all (fun c => inRange 1 16 c.1 && c.2 < 2 ^ c.1) && clashFree (codeTable r)

/-- A ladder's rung count and the settings of its counted rungs (Table 8.2). -/
def ladderValid (r : List Byte) (kind : RenditionKind) : Bool :=
  inRange 1 4 (profileRungs r kind) &&
    (List.range (profileRungs r kind)).all fun k =>
      match kind with
      | .bitonal => inRange 1 254 (rungFirst r kind k) && inRange 0 15 (rungSecond r kind k)
      | .gray => [1, 2, 4].contains (rungFirst r kind k) && [4, 8, 16].contains (rungSecond r kind k)

/-- The record checks of VALIDATE (R157, R195). -/
def recordValid (r : List Byte) : Bool :=
  (profileName r).all (fun c => inRange 0x20 0x7E c.toNat) &&
  profileEdition r ≠ 0 &&
  (profileSelects r .front .bitonal || profileSelects r .front .gray) &&
  (profileSelects r .rear .bitonal || profileSelects r .rear .gray) &&
  inRange 1 512 (profileBudget r .bitonal) && inRange 1 512 (profileBudget r .gray) &&
  ladderValid r .bitonal && ladderValid r .gray &&
  inRange 64 2048 (profileMinWidth r) && inRange 64 2048 (profileMaxWidth r) &&
  inRange 1 1024 (profileMinRows r) && inRange 1 1024 (profileMaxRows r) &&
  inRange 0 1000 (profileLightLimit r) && inRange 0 1000 (profileDarkLimit r) &&
  inRange 0 1000 (profileStreakLimit r) &&
  inRange 0 15 (profileTolerance r) &&
  (List.range 7).all (fun k => numAt r (49 + k) ≤ 1) &&
  inRange 1 2000 (profileDeadline r) &&
  codeTableValid r

/-! ## User sets (R160) -/

/-- The pin count of a source. -/
def Store.pinCount (st : Store) : Source → Nat
  | .block b => st.pins.get b
  | .staging => st.stagingPins

/-- The user set of a source is not empty: an item is pinned to it or a lane is bound to it (R160). -/
def Store.inUse (st : Store) (src : Source) : Bool :=
  0 < st.pinCount src || st.bindings.toList.any fun b => b = some src

/-- A PROGRAM is reading the staging area (R154, R165). -/
def Store.readingStaging (st : Store) : Bool :=
  match st.operation with
  | some (.program, _) => st.phase = .programming || st.phase = .verifying
  | _ => false

/-! ## Staging window -/

/-- The record with the word at an address written (R154, R191). -/
def writeStagingWord (bytes : List Byte) (address : BitVec 8) (v : Word) : List Byte :=
  (bytes.set (2 * address.toNat) (hiByte v)).set (2 * address.toNat + 1) (loByte v)

/-- A staging write: IN_USE, STORE_BUSY, or written with the address advanced (R154). -/
def Store.stagingWrite (st : Store) (v : Word) : Answer × Store :=
  if st.inUse .staging then (.inUse, st)
  else if st.readingStaging then (.storeBusy, st)
  else
    (.ok, { st with staging :=
      { bytes := writeStagingWord st.staging.bytes st.staging.address v
        state := .editing
        address := st.staging.address + 1 } })

/-- The word at the staging address (R155). -/
def Store.stagingWord (st : Store) : Word := wordAt st.staging.bytes (2 * st.staging.address.toNat)

/-- A staging data write with its answer in the result register (R154, R177). -/
def State.writeStagingData (s : State) (v : Word) : State :=
  let r := s.store.stagingWrite v
  (s.modStore fun _ => r.2).modSup fun p => { p with result := r.1 }

/-- A staging address write takes the value modulo 256 (R154). -/
def State.writeStagingAddress (s : State) (v : Word) : State :=
  s.modStore fun st => { st with staging := { st.staging with address := v.setWidth 8 } }

/-! ## Commands of the store -/

/-- STORE EDIT ON (R161). -/
def commandStoreEditOn (s : State) : Answer × State :=
  if s.pins.storeWe then (.ok, s.modStore fun st => { st with editEnable := true })
  else (.notEnabled, s.modStore fun st => { st with editEnable := false })

/-- STORE EDIT OFF (R161). -/
def commandStoreEditOff (s : State) : Answer × State :=
  (.ok, s.modStore fun st => { st with editEnable := false })

/-- LOAD (R158). -/
def commandLoad (s : State) : Answer × State :=
  match blockOperand s.sup.operandA with
  | none => (.invalidArg, s)
  | some b =>
    if (s.store.blocks.get b).state ≠ .valid then (.badState, s)
    else if s.store.inUse .staging then (.inUse, s)
    else if s.store.readingStaging then (.storeBusy, s)
    else
      (.ok, s.modStore fun st =>
        { st with staging := { st.staging with bytes := (st.blocks.get b).bytes, state := .validated } })

/-- VALIDATE (R156). -/
def commandValidate (s : State) : Answer × State :=
  if s.store.staging.state = .empty then (.badState, s)
  else if recordValid s.store.staging.bytes then
    (.ok, s.modStore fun st => { st with staging := { st.staging with state := .validated } })
  else (.invalidArg, s)

/-- A VALID block holds the staging area's name and edition (R152, Table 8.5). -/
def Store.duplicate (st : Store) : Bool :=
  st.blocks.toList.any fun b => b.state = .valid && profileIdentity b.bytes = profileIdentity st.staging.bytes

/-- The refusals ERASE and PROGRAM share: BUSY, PROTECTED, NOT_ENABLED (Table 8.5). -/
def Store.editRefusal (st : Store) : Option Answer :=
  if st.phase ≠ .idle then some .busy
  else if st.latch then some .protectedStore
  else if !st.editEnable then some .notEnabled
  else none

/-- The first refusal of ERASE (Table 8.5). -/
def Store.eraseRefusal (st : Store) (b : BlockNo) : Option Answer :=
  match st.editRefusal with
  | some a => some a
  | none => if st.inUse (.block b) then some .inUse else none

/-- The first refusal of PROGRAM (Table 8.5). -/
def Store.programRefusal (st : Store) (b : BlockNo) : Option Answer :=
  match st.editRefusal with
  | some a => some a
  | none =>
    if (st.blocks.get b).state ≠ .empty then some .badState
    else if st.inUse (.block b) then some .inUse
    else if st.staging.state ≠ .validated then some .stagingNotValid
    else if st.duplicate then some .duplicate
    else none

/-- An ERASE or PROGRAM of a block starts: BUSY, mark OPEN, the store in its phase (R164, R165). -/
def Store.start (st : Store) (op : StoreOp) (b : BlockNo) : Store :=
  { st.modBlock b fun x => { x with state := .busy, opened := true } with
    phase := match op with
      | .erase => .erasing
      | .program => .programming
    operation := some (op, b)
    phaseLeft := match op with
      | .erase => Config.eraseMs
      | .program => Config.programMs }

/-- ERASE (R163, R164). -/
def commandErase (s : State) : Answer × State :=
  match blockOperand s.sup.operandA with
  | none => (.invalidArg, s)
  | some b =>
    match s.store.eraseRefusal b with
    | some a => (a, s)
    | none => (.ok, s.modStore fun st => st.start .erase b)

/-- PROGRAM (R163, R165). -/
def commandProgram (s : State) : Answer × State :=
  match blockOperand s.sup.operandA with
  | none => (.invalidArg, s)
  | some b =>
    match s.store.programRefusal b with
    | some a => (a, s)
    | none => (.ok, s.modStore fun st => st.start .program b)

/-- The refusal of a binding target (R159). -/
def Store.bindRefusal (st : Store) : Option Source → Option Answer
  | none => none
  | some (.block b) => if (st.blocks.get b).state = .valid then none else some .badState
  | some .staging => if st.staging.state = .validated then none else some .stagingNotValid

/-- BIND (R159). -/
def commandBind (s : State) : Answer × State :=
  match laneOperand s.sup.operandA, targetOperand s.sup.operandB with
  | some l, some target =>
    match s.store.bindRefusal target with
    | some a => (a, s)
    | none => (.ok, s.modStore fun st => { st with bindings := put st.bindings l target })
  | _, _ => (.invalidArg, s)

/-! ## The store's own events -/

/-- The start-up scan ends (R171). -/
def Store.endScan (st : Store) : Store :=
  { st.mapBlocks fun b => { b with state := b.classify } with phase := .idle, phaseLeft := 0 }

/-- The bytes of the busy block that the operation writes, given the staging area (R164, R165). -/
def Store.written (st : Store) : StoreOp → List Byte
  | .erase => erasedBytes
  | .program => programmed st.staging.bytes

/-- The write phase completes: the block holds what was written, and the verify begins (R162, R164, R165). -/
def Store.endWrite (st : Store) : Store :=
  match st.operation with
  | none => st
  | some (op, b) =>
    { st.modBlock b fun x => { x with bytes := st.written op } with
      phase := .verifying
      phaseLeft := Config.verifyMs }

/-- The bytes of a block after some of them did not keep what was written (log 12). -/
def lose (bytes : List Byte) (lost : List (Nat × Byte)) : List Byte := lost.foldl (fun b x => b.set x.1 x.2) bytes

/-- The end of a verify, one event at the store (R166): the bytes read back against those written. -/
def State.endVerify (s : State) (lost : List (Nat × Byte)) : State :=
  match s.store.operation with
  | none => s
  | some (op, b) =>
    let read := lose (s.store.blocks.get b).bytes lost
    let passed : Bool := read = s.store.written op
    let state : BlockState := if passed then (match op with
      | .erase => .empty
      | .program => .valid) else .invalid
    let s := s.modStore fun st =>
      { st.modBlock b fun x => { bytes := read, opened := if passed then false else x.opened, state := state } with
        latch := st.latch || !passed
        last := some ⟨op, b, !passed⟩
        operation := none
        phase := .idle
        phaseLeft := 0 }
    let s := s.setCause .storeDone
    if passed then s else s.setCause .storeFault

/-! ## The meanings -/

/-- STORE EDIT ON, with the level of STORE_WE as the command is taken (R161, log 9). -/
def execStoreEditOn (pinHigh : Bool) (s : State) : Host.Outcome State Fault Refusal :=
  .next (s.whileRunning fun s =>
    (s.modPins fun x => { x with storeWe := pinHigh }).giveCommand 0x0001 commandStoreEditOn)

/-- STORE EDIT OFF (R161). -/
def execStoreEditOff (s : State) : Host.Outcome State Fault Refusal :=
  .next (s.giveCommand 0x0002 commandStoreEditOff)

/-- LOAD (R158). -/
def execLoad (s : State) : Host.Outcome State Fault Refusal := .next (s.giveCommand 0x0003 commandLoad)

/-- VALIDATE (R156). -/
def execValidate (s : State) : Host.Outcome State Fault Refusal := .next (s.giveCommand 0x0004 commandValidate)

/-- PROGRAM (R165). -/
def execProgram (s : State) : Host.Outcome State Fault Refusal := .next (s.giveCommand 0x0005 commandProgram)

/-- ERASE (R164). -/
def execErase (s : State) : Host.Outcome State Fault Refusal := .next (s.giveCommand 0x0006 commandErase)

/-- BIND (R159). -/
def execBind (s : State) : Host.Outcome State Fault Refusal := .next (s.giveCommand 0x0007 commandBind)

/-- A write of the staging data register (R154). -/
def execStagingDataWrite (v : Word) (s : State) : Host.Outcome State Fault Refusal :=
  .next (s.whileRunning (·.writeStagingData v))

/-- A read of the staging data register: the word at the staging address on the bus, the address advanced; while
RESET_N is low nothing advances (R155, R190). -/
def execStagingDataRead (s : State) : Host.Outcome State Fault Refusal :=
  let t := s.modPins fun x => { x with busData := s.store.stagingWord }
  .next (
    if s.pins.resetLow then t
    else t.modStore fun st => { st with staging := { st.staging with address := st.staging.address + 1 } })

/-- A write of the staging address register (R154). -/
def execStagingAddressWrite (v : Word) (s : State) : Host.Outcome State Fault Refusal :=
  .next (s.whileRunning (·.writeStagingAddress v))

/-- STORE_WE falls: edit enable clear (R161). -/
def execStoreWeFall (s : State) : Host.Outcome State Fault Refusal :=
  .next ((s.modPins fun x => { x with storeWe := false }).modStore fun st => { st with editEnable := false })

/-- The start-up scan completes (R171); it runs only while the store is STARTING with RESET_N high (R190). -/
def execStartUpScanEnd (s : State) : Host.Outcome State Fault Refusal :=
  .next (s.whileRunning fun s => if s.store.phase = .starting then s.modStore Store.endScan else s)

/-- The erase of the busy block completes (R164). -/
def execErasingComplete (s : State) : Host.Outcome State Fault Refusal :=
  .next (s.whileRunning fun s => if s.store.phase = .erasing then s.modStore Store.endWrite else s)

/-- The writing of the busy block completes (R165). -/
def execProgrammingComplete (s : State) : Host.Outcome State Fault Refusal :=
  .next (s.whileRunning fun s => if s.store.phase = .programming then s.modStore Store.endWrite else s)

/-- The verify completes (R166). -/
def execVerifyEnd (lost : List (Nat × Byte)) (s : State) : Host.Outcome State Fault Refusal :=
  .next (s.whileRunning fun s => if s.store.phase = .verifying then s.endVerify lost else s)

end Sys2Proof.Machine
end

