-- ==== Sys2Proof/Machine/Commands.lean ====
section
/-! DEFINITION. The supervisor's commands on lanes, items, exchange ports and pools: LANE CLOSE, LANE OPEN, LANE RESET,
SET QUOTA, PURGE, XPORT RESET, SET MASK, SET STALL and SET RESERVE (Table 9.2). -/

namespace Sys2Proof.Machine

/-! ## Lanes (section 1.5) -/

/-- LANE CLOSE (R19, R22). -/
def commandLaneClose (s : State) : Answer × State :=
  match laneOperand s.sup.operandA with
  | none => (.invalidArg, s)
  | some l => (.ok, (s.modLane l fun r => { r with closed := true }).drainedTest l)

/-- LANE OPEN (R20). -/
def commandLaneOpen (s : State) : Answer × State :=
  match laneOperand s.sup.operandA with
  | none => (.invalidArg, s)
  | some l => (.ok, s.modLane l fun r => { r with closed := false })

/-- SET QUOTA (R21). -/
def commandSetQuota (s : State) : Answer × State :=
  match laneOperand s.sup.operandA, quotaOperand s.sup.operandB with
  | some l, some n => (.ok, s.modLane l fun r => { r with quota := n })
  | _, _ => (.invalidArg, s)

/-- The reset of a scan port: its attached item cut with LANE_RESET and no POCKET, its frames and held row discarded,
IDLE or DOWN by its link (R46). -/
def State.resetLane (s : State) (l : Lane) : State :=
  let next : ScanState := if (s.scan.get l).link then .idle else .down
  let s := s.modScan l fun p => { p with gathering := [], waiting := [] }
  let s := match (s.scan.get l).attached with
    | some k => s.rejectUnsent l k (itemFinding .laneReset 0) next
    | none => s
  (s.withdraw (.w l)).modScan l fun p => { p with held := none, state := next }

/-- LANE RESET (R46). -/
def commandLaneReset (s : State) : Answer × State :=
  match laneOperand s.sup.operandA with
  | none => (.invalidArg, s)
  | some l => (.ok, s.resetLane l)

/-! ## PURGE (section 1.6) -/

def Item.markPurged (i : Item) : Item := { i with purged := true }

/-- PURGE of a LANDING item; the frames waiting at its port are then taken in DISCARD (R24, R42). -/
def State.purgeLanding (s : State) (k : Slot) : State :=
  let l := (s.items.get k).lane
  ((s.modItem k Item.markPurged).rejectSent l k (itemFinding .purged 0) .discard).drainWaiting l

/-- PURGE of a SETTLING item (R25). -/
def State.purgeSettling (s : State) (k : Slot) : State :=
  ((s.modItem k Item.markPurged).addFinding k (itemFinding .purged 0)).rejectRenditions k

/-- The DONE renditions of a purged READY item become CANCELLED and lose their output (R7, R26). -/
def Rendition.cancelDone (r : Rendition) : Rendition :=
  if r.state = .done then { r with state := .cancelled, output := none } else r

/-- PURGE of a READY item (R26). -/
def State.purgeReady (s : State) (k : Slot) : State :=
  let s := (s.modItem k Item.markPurged).addFinding k (itemFinding .purged 0)
  let s := s.givePagesBack k
  let s := s.modItem k fun i => { i with renditions := i.renditions.map Rendition.cancelDone }
  (s.modItem k fun i => { i with disposition := some i.judge }).dispatchAct

/-- PURGE (R23). -/
def commandPurge (s : State) : Answer × State :=
  match slotOperand s.sup.operandA with
  | none => (.invalidArg, s)
  | some k =>
    let i := s.items.get k
    match i.state with
    | .free => (.notInUse, s)
    | .claimed => (.claimed, s)
    | .landing => if i.purged then (.ok, s) else (.ok, s.purgeLanding k)
    | .settling => if i.purged then (.ok, s) else (.ok, s.purgeSettling k)
    | .ready => if i.purged then (.ok, s) else (.ok, s.purgeReady k)

/-! ## Exchange ports and pools -/

/-- The reset of an exchange port (R147). -/
def State.resetExchange (s : State) (p : Port) : State :=
  let kept := keepBegun (hasBegun (s.exchange.get p).begun s.free) (s.exchange.get p).produced
  let next : ExchangeState := if (s.exchange.get p).link then .idle else .down
  let s := (s.withFree (s.free + 1)).modExchange p fun x =>
    { x with gathering := [], produced := kept, begun := !kept.isEmpty }
  s.releaseClaim p next

/-- XPORT RESET (R147). -/
def commandXportReset (s : State) : Answer × State :=
  match portOperand s.sup.operandA with
  | none => (.invalidArg, s)
  | some p => (.ok, s.resetExchange p)

/-- SET MASK (R148). -/
def commandSetMask (s : State) : Answer × State :=
  match portOperand s.sup.operandA, maskOperand s.sup.operandB with
  | some p, some m => (.ok, s.modExchange p fun x => { x with mask := m })
  | _, _ => (.invalidArg, s)

/-- SET STALL (R142). -/
def commandSetStall (s : State) : Answer × State :=
  match stallOperand s.sup.operandA with
  | none => (.invalidArg, s)
  | some n => (.ok, s.withStallLimit n)

/-- SET RESERVE, which brings a dispatch act (R84, R92). -/
def commandSetReserve (s : State) : Answer × State :=
  match reserveOperand s.sup.operandA with
  | none => (.invalidArg, s)
  | some n => (.ok, (s.modPages fun p => { p with headReserve := n }).dispatchAct)

/-! ## The meanings -/

/-- LANE CLOSE (R19). -/
def execLaneClose (s : State) : Host.Outcome State Fault Refusal := .next (s.giveCommand 0x0008 commandLaneClose)

/-- LANE OPEN (R20). -/
def execLaneOpen (s : State) : Host.Outcome State Fault Refusal := .next (s.giveCommand 0x0009 commandLaneOpen)

/-- LANE RESET (R46). -/
def execLaneReset (s : State) : Host.Outcome State Fault Refusal := .next (s.giveCommand 0x000A commandLaneReset)

/-- SET QUOTA (R21). -/
def execSetQuota (s : State) : Host.Outcome State Fault Refusal := .next (s.giveCommand 0x000B commandSetQuota)

/-- PURGE (R23). -/
def execPurge (s : State) : Host.Outcome State Fault Refusal := .next (s.giveCommand 0x000C commandPurge)

/-- XPORT RESET (R147). -/
def execXportReset (s : State) : Host.Outcome State Fault Refusal := .next (s.giveCommand 0x000D commandXportReset)

/-- SET MASK (R148). -/
def execSetMask (s : State) : Host.Outcome State Fault Refusal := .next (s.giveCommand 0x000E commandSetMask)

/-- SET STALL (R142). -/
def execSetStall (s : State) : Host.Outcome State Fault Refusal := .next (s.giveCommand 0x000F commandSetStall)

/-- SET RESERVE (R84). -/
def execSetReserve (s : State) : Host.Outcome State Fault Refusal := .next (s.giveCommand 0x0010 commandSetReserve)

end Sys2Proof.Machine
end

