-- ==== Sys2Proof/Machine/Reset.lean ====
section
/-! DEFINITION. SOFT RESET (section 9.7), power-on and pin reset (section 9.8), with their meanings. -/

namespace Sys2Proof.Machine

/-! ## What the three resets share -/

/-- A burst under way completes, its result discarded (R87). -/
def Arbiter.orphan (a : Arbiter) : Option Burst := a.burst.map fun b => { b with live := false }

/-- A scan port after a reset that keeps produced frames whose sending had begun (R52). -/
def ScanPort.keeping (link : Bool) (kept : List ScanMsg) : ScanPort :=
  { ScanPort.fresh link with produced := kept, begun := !kept.isEmpty }

/-- An exchange port after a reset that keeps produced frames whose sending had begun (R149). -/
def ExchangePort.keeping (link : Bool) (mask : BitVec 4) (kept : List ExchangeMsg) : ExchangePort :=
  { ExchangePort.fresh link mask with produced := kept, begun := !kept.isEmpty }

/-- Items, ports, pools, jobs and arbiters rebuilt, settings and store kept: what SOFT RESET does to those blocks, and
the resets of R189 and R190 as well (R29, R52, R87, R111, R149). The produced frames are those given, begun
where there are any. -/
def State.rebuild (s : State) (scanProduced : Lane → List ScanMsg) (exchangeProduced : Port → List ExchangeMsg) :
    State :=
  { s with
    scan := #v[ScanPort.keeping s.scan[0].link (scanProduced 0), ScanPort.keeping s.scan[1].link (scanProduced 1),
      ScanPort.keeping s.scan[2].link (scanProduced 2), ScanPort.keeping s.scan[3].link (scanProduced 3)]
    items := Vector.replicate 256 Item.empty
    lanes := #v[{ s.lanes[0] with queue := [] }, { s.lanes[1] with queue := [] }, { s.lanes[2] with queue := [] },
      { s.lanes[3] with queue := [] }]
    stamp := 0
    arbiter := Arbiter.fresh s.arbiter.orphan
    strips := List.range Config.strips
    pages := PagePool.fresh s.pages.headReserve
    jobs := []
    units := Vector.replicate 2 CodingUnit.idle
    exchange := #v[ExchangePort.keeping s.exchange[0].link s.exchange[0].mask (exchangeProduced 0),
      ExchangePort.keeping s.exchange[1].link s.exchange[1].mask (exchangeProduced 1)]
    claims := [] }

/-! ## SOFT RESET (R187) -/

/-- SOFT RESET: the blocks rebuilt, frames whose sending had begun kept, pin counts 0, edit enable clear, SOFT set;
settings, store, causes, enables, operands and item window kept (R187). -/
def State.softReset (s : State) : State :=
  let r := s.rebuild (fun l => keepBegun (hasBegun (s.scan.get l).begun (s.free + l.val)) (s.scan.get l).produced)
    (fun p => keepBegun (hasBegun (s.exchange.get p).begun (s.free + 4 + p.val)) (s.exchange.get p).produced)
  { r with
    store := { s.store with pins := Vector.replicate 8 0, stagingPins := 0, editEnable := false }
    sup := { s.sup with resetCause := s.sup.resetCause ||| softCause }
    free := s.free + 6 }

def commandSoftReset (s : State) : Answer × State := (.ok, s.softReset)

/-! ## Power-on and pin reset (R189, R190) -/

/-- The values power-on and pin reset share: everything rebuilt and every setting at its reset value; the blocks'
bytes and marks kept, every block BUSY (R28, R84, R142, R148, R171 to R173, R185). -/
def State.coldReset (s : State) (latch : Bool) (resetCause : BitVec 3) : State :=
  let r := s.rebuild (fun _ => []) (fun _ => [])
  { r with
    lanes := Vector.replicate 4 LaneRec.reset
    pages := PagePool.fresh Config.resetHeadReserve
    exchange := #v[ExchangePort.fresh s.exchange[0].link 0xF, ExchangePort.fresh s.exchange[1].link 0xF]
    stallLimit := Config.resetStallLimit
    store := Store.started s.store.blocks latch
    sup := Supervisor.fresh resetCause }

/-- Power-on: the latch clear and POWER alone; the buffer memory is left as it is, and a burst under way completes with
its result discarded (R87, R111, R172, R186, R189, log 5, log 16). -/
def State.powerOn (s : State) : State :=
  { s.coldReset false powerCause with pins := { s.pins with resetLow := false } }

/-- RESET_N goes low: as power-on, but the latch and the POWER and SOFT flags kept and PIN set; the buffer memory is
left as it is (R87, R173, R190). -/
def State.pinReset (s : State) : State :=
  { s.coldReset s.store.latch (s.sup.resetCause ||| pinCause) with pins := { s.pins with resetLow := true } }

/-- RESET_N returns high: each port IDLE or DOWN by its link without LINK, and the start-up scan starts (R171,
R190). -/
def State.releaseReset (s : State) : State :=
  { s with
    pins := { s.pins with resetLow := false }
    scan := #v[ScanPort.fresh s.scan[0].link, ScanPort.fresh s.scan[1].link, ScanPort.fresh s.scan[2].link,
      ScanPort.fresh s.scan[3].link]
    exchange := #v[ExchangePort.fresh s.exchange[0].link s.exchange[0].mask,
      ExchangePort.fresh s.exchange[1].link s.exchange[1].mask]
    store := { (s.store.mapBlocks fun b => { b with state := .busy }) with
      phase := .starting
      phaseLeft := Config.startUpMs } }

/-! ## The meanings -/

/-- SOFT RESET (R187). -/
def execSoftReset (s : State) : Host.Outcome State Fault Refusal := .next (s.giveCommand 0x0011 commandSoftReset)

/-- Power reaches the reducer (R189). -/
def execPowerOn (s : State) : Host.Outcome State Fault Refusal := .next s.powerOn

/-- RESET_N goes low; while it is low it cannot go low again (R190). -/
def execPinReset (s : State) : Host.Outcome State Fault Refusal := .next (if s.pins.resetLow then s else s.pinReset)

/-- RESET_N returns high (R190). -/
def execResetNRelease (s : State) : Host.Outcome State Fault Refusal :=
  .next (if s.pins.resetLow then s.releaseReset else s)

end Sys2Proof.Machine
end

