-- ==== Sys2Proof/Machine/Supervisor.lean ====
section
/-! DEFINITION. The supervisor port: the register window read and written whole, the item window, the interrupt and
reset cause registers (spec/09_supervisor_port.md, Tables 10.10 and 10.11), with the meanings of their accesses. -/

namespace Sys2Proof.Machine

/-! ## The item window (R178, R179) -/

/-- A write of the item select register: INVALID_ARG, or a snapshot of the slot's record (R178). -/
def State.selectItem (s : State) (v : Word) : State :=
  match slotOperand v with
  | none => s.modSup fun p => { p with result := .invalidArg }
  | some k =>
    s.modSup fun p =>
      { p with selected := k, snapshot := snapshotImage k (s.items.get k), readIndex := 0, result := .ok }

/-- The word of the snapshot image at the read index (R179). -/
def Supervisor.snapshotWord (p : Supervisor) : Word := wordAt p.snapshot (2 * p.readIndex)

/-- The read index goes from 75 back to 0 (R197). -/
def Supervisor.advance (p : Supervisor) : Supervisor :=
  { p with readIndex := if 75 ≤ p.readIndex then 0 else p.readIndex + 1 }

/-! ## Reading a register (R175, R180, Table 10.11) -/

def num (n : Nat) : Word := BitVec.ofNat 16 n

/-- The store status register (R196: bits 3 to 6 read 0 with no operation). -/
def Store.status (st : Store) : Word :=
  let operation := match st.operation with
    | none => 0
    | some (.erase, b) => b.val * 8
    | some (.program, b) => b.val * 8 + 64
  num (st.phase.code + operation + st.latch.toNat * 128 + st.editEnable.toNat * 256 + st.staging.state.code * 512)

/-- The last outcome register. -/
def outcomeCode : Option StoreOutcome → Word
  | none => 0
  | some o =>
    num ((match o.op with
      | .erase => 1
      | .program => 2) + o.block.val * 4 + o.failed.toNat * 32)

/-- The block states register: two bits for each block. -/
def Store.blockStates (st : Store) : Word :=
  num (st.blocks.toList.foldr (fun b n => b.state.code + 4 * n) 0)

/-- Four bits for a port: its state and its link. -/
def portBits (state : Nat) (link : Bool) : Nat := state + link.toNat * 8

/-- The link a port's status shows: as its detector reports it (R180). While RESET_N is low a read returns the reset
value, in which a port is DOWN exactly when its link was down at the fall (R52, R149, R190, log 15). -/
def shownLink (resetLow down link : Bool) : Bool := if resetLow then !down else link

/-- The four status bits of a scan port. -/
def ScanPort.statusBits (resetLow : Bool) (p : ScanPort) : Nat :=
  portBits p.state.code (shownLink resetLow (p.state = .down) p.link)

/-- The four status bits of an exchange port. -/
def ExchangePort.statusBits (resetLow : Bool) (x : ExchangePort) : Nat :=
  portBits x.state.code (shownLink resetLow (x.state = .down) x.link)

/-- A lane's status register. -/
def State.laneStatus (s : State) (l : Lane) : Word :=
  let r := s.lanes.get l
  num (r.queue.length + r.closed.toNat * 512 + bindingCode (s.store.bindings.get l) * 4096)

/-- The value a read of a register returns at the moment it is taken (R175, R180); while RESET_N is low, every register
holds its reset value (R190). The reads of staging data and item data also advance, as their own commands say. -/
def State.readRegister (s : State) (register : Fin 32) : Word :=
  match register.val with
  | 0x00 => s.sup.command
  | 0x01 => s.sup.operandA
  | 0x02 => s.sup.operandB
  | 0x03 => num s.sup.result.code
  | 0x04 => s.sup.causes.setWidth 16
  | 0x05 => s.sup.enables.setWidth 16
  | 0x06 => num s.sup.master.toNat
  | 0x07 => s.sup.resetCause.setWidth 16
  | 0x08 => s.store.status
  | 0x09 => outcomeCode s.store.last
  | 0x0A => s.store.blockStates
  | 0x0B => num (s.scan.toList.foldr (fun p n => p.statusBits s.pins.resetLow + 16 * n) 0)
  | 0x0C => num (s.exchange.toList.foldr (fun p n => p.statusBits s.pins.resetLow + 16 * n) 0)
  | 0x0D => num s.strips.length
  | 0x0E => num s.pages.freeCount
  | 0x0F => num s.pages.reserved
  | 0x10 => num s.pages.headReserve
  | 0x11 => num (s.jobs.length + (s.units.get 0).job.isSome.toNat * 16384 + (s.units.get 1).job.isSome.toNat * 32768)
  | 0x12 => s.laneStatus 0
  | 0x13 => s.laneStatus 1
  | 0x14 => s.laneStatus 2
  | 0x15 => s.laneStatus 3
  | 0x16 => num (s.lanes.get 0).quota
  | 0x17 => num (s.lanes.get 1).quota
  | 0x18 => num (s.lanes.get 2).quota
  | 0x19 => num (s.lanes.get 3).quota
  | 0x1A => num s.stallLimit
  | 0x1B => num ((s.exchange.get 0).mask.toNat + (s.exchange.get 1).mask.toNat * 16)
  | 0x1C => s.store.staging.address.setWidth 16
  | 0x1D => s.store.stagingWord
  | 0x1E => num s.sup.selected.val
  | _ => s.sup.snapshotWord

/-! ## Writing a register (R175) -/

/-- What a command code does; a code that names no command is INVALID_ARG (R176, Table 10.11). -/
def commandOf (code : Word) : State → Answer × State :=
  match code.toNat with
  | 0x01 => commandStoreEditOn
  | 0x02 => commandStoreEditOff
  | 0x03 => commandLoad
  | 0x04 => commandValidate
  | 0x05 => commandProgram
  | 0x06 => commandErase
  | 0x07 => commandBind
  | 0x08 => commandLaneClose
  | 0x09 => commandLaneOpen
  | 0x0A => commandLaneReset
  | 0x0B => commandSetQuota
  | 0x0C => commandPurge
  | 0x0D => commandXportReset
  | 0x0E => commandSetMask
  | 0x0F => commandSetStall
  | 0x10 => commandSetReserve
  | 0x11 => commandSoftReset
  | _ => fun s => (.invalidArg, s)

/-- A write of any register, as its access allows: read-only registers take nothing (R175). -/
def State.writeRegister (s : State) (register : Fin 32) (v : Word) : State :=
  match register.val with
  | 0x00 => s.giveCommand v (commandOf v)
  | 0x01 => s.modSup fun p => { p with operandA := v }
  | 0x02 => s.modSup fun p => { p with operandB := v }
  | 0x04 => s.modSup (·.clearCauses v)
  | 0x05 => s.modSup (·.writeEnables v)
  | 0x06 => s.modSup (·.writeControl v)
  | 0x07 => s.modSup (·.clearResetCause v)
  | 0x1C => s.writeStagingAddress v
  | 0x1D => s.writeStagingData v
  | 0x1E => s.selectItem v
  | _ => s

/-! ## The meanings -/

/-- A command register write whose code names no command (R176). -/
def execUnknownCommandCode (code : Word) (s : State) : Host.Outcome State Fault Refusal :=
  .next (s.giveCommand code (commandOf code))

/-- A write of the item select register (R178). -/
def execItemSelectWrite (v : Word) (s : State) : Host.Outcome State Fault Refusal :=
  .next (s.whileRunning (·.selectItem v))

/-- A read of the item data register: the snapshot word on the bus, the index advanced; while RESET_N is low nothing
advances (R179, R190). -/
def execItemDataRead (s : State) : Host.Outcome State Fault Refusal :=
  let t := s.modPins fun x => { x with busData := s.sup.snapshotWord }
  .next (if s.pins.resetLow then t else t.modSup Supervisor.advance)

/-- A write of the interrupt causes register (R183). -/
def execInterruptCausesWrite (v : Word) (s : State) : Host.Outcome State Fault Refusal :=
  .next (s.whileRunning (·.modSup (·.clearCauses v)))

/-- A write of the interrupt enable register (R184). -/
def execInterruptEnablesWrite (v : Word) (s : State) : Host.Outcome State Fault Refusal :=
  .next (s.whileRunning (·.modSup (·.writeEnables v)))

/-- A write of the interrupt control register (R184). -/
def execInterruptControlWrite (v : Word) (s : State) : Host.Outcome State Fault Refusal :=
  .next (s.whileRunning (·.modSup (·.writeControl v)))

/-- A write of the reset cause register (R186). -/
def execResetCauseWrite (v : Word) (s : State) : Host.Outcome State Fault Refusal :=
  .next (s.whileRunning (·.modSup (·.clearResetCause v)))

/-- A write of another register, such as an operand (R175, R196). -/
def execRegisterWrite (register : Fin 32) (v : Word) (s : State) : Host.Outcome State Fault Refusal :=
  .next (s.whileRunning (·.writeRegister register v))

end Sys2Proof.Machine
end

