-- ==== Sys2Proof/Machine/Dispatch.lean ====
section
/-! DEFINITION. Which meaning each command has: one arm for each row of spec/opcode_table.json. -/

namespace Sys2Proof.Machine

def exec (i : Instr) (s : State) : Host.Outcome State Fault Refusal :=
  match i with
  | .itemOpen lane bundle position faces => Sys2Proof.Machine.execItemOpen lane bundle position faces s
  | .faceOpen lane kind width => Sys2Proof.Machine.execFaceOpen lane kind width s
  | .row lane pixels => Sys2Proof.Machine.execRow lane pixels s
  | .faceClose lane => Sys2Proof.Machine.execFaceClose lane s
  | .itemClose lane => Sys2Proof.Machine.execItemClose lane s
  | .itemAbandon lane reason => Sys2Proof.Machine.execItemAbandon lane reason s
  | .scanFailedFrame lane => Sys2Proof.Machine.execScanFailedFrame lane s
  | .scanLinkUp lane => Sys2Proof.Machine.execScanLinkUp lane s
  | .scanLinkLost lane => Sys2Proof.Machine.execScanLinkLost lane s
  | .pocketTimerExpiry lane => Sys2Proof.Machine.execPocketTimerExpiry lane s
  | .memoryGrant => Sys2Proof.Machine.execMemoryGrant s
  | .burstComplete upsets => Sys2Proof.Machine.execBurstComplete upsets s
  | .segmentBoundary port => Sys2Proof.Machine.execSegmentBoundary port s
  | .claim port mask => Sys2Proof.Machine.execClaim port mask s
  | .cancel port => Sys2Proof.Machine.execCancel port s
  | .hold port => Sys2Proof.Machine.execHold port s
  | .go port => Sys2Proof.Machine.execGo port s
  | .delivered port => Sys2Proof.Machine.execDelivered port s
  | .returnItem port => Sys2Proof.Machine.execReturnItem port s
  | .exchangeFailedFrame port => Sys2Proof.Machine.execExchangeFailedFrame port s
  | .stallTimerExpiry port => Sys2Proof.Machine.execStallTimerExpiry port s
  | .exchangeLinkUp port => Sys2Proof.Machine.execExchangeLinkUp port s
  | .exchangeLinkLost port => Sys2Proof.Machine.execExchangeLinkLost port s
  | .storeEditOn pinHigh => Sys2Proof.Machine.execStoreEditOn pinHigh s
  | .storeEditOff => Sys2Proof.Machine.execStoreEditOff s
  | .load => Sys2Proof.Machine.execLoad s
  | .validate => Sys2Proof.Machine.execValidate s
  | .program => Sys2Proof.Machine.execProgram s
  | .erase => Sys2Proof.Machine.execErase s
  | .bind => Sys2Proof.Machine.execBind s
  | .laneClose => Sys2Proof.Machine.execLaneClose s
  | .laneOpen => Sys2Proof.Machine.execLaneOpen s
  | .laneReset => Sys2Proof.Machine.execLaneReset s
  | .setQuota => Sys2Proof.Machine.execSetQuota s
  | .purge => Sys2Proof.Machine.execPurge s
  | .xportReset => Sys2Proof.Machine.execXportReset s
  | .setMask => Sys2Proof.Machine.execSetMask s
  | .setStall => Sys2Proof.Machine.execSetStall s
  | .setReserve => Sys2Proof.Machine.execSetReserve s
  | .softReset => Sys2Proof.Machine.execSoftReset s
  | .unknownCommandCode code => Sys2Proof.Machine.execUnknownCommandCode code s
  | .stagingDataWrite value => Sys2Proof.Machine.execStagingDataWrite value s
  | .stagingDataRead => Sys2Proof.Machine.execStagingDataRead s
  | .stagingAddressWrite value => Sys2Proof.Machine.execStagingAddressWrite value s
  | .itemSelectWrite value => Sys2Proof.Machine.execItemSelectWrite value s
  | .itemDataRead => Sys2Proof.Machine.execItemDataRead s
  | .interruptCausesWrite value => Sys2Proof.Machine.execInterruptCausesWrite value s
  | .interruptEnablesWrite value => Sys2Proof.Machine.execInterruptEnablesWrite value s
  | .interruptControlWrite value => Sys2Proof.Machine.execInterruptControlWrite value s
  | .resetCauseWrite value => Sys2Proof.Machine.execResetCauseWrite value s
  | .registerWrite register value => Sys2Proof.Machine.execRegisterWrite register value s
  | .storeWeFall => Sys2Proof.Machine.execStoreWeFall s
  | .powerOn => Sys2Proof.Machine.execPowerOn s
  | .pinReset => Sys2Proof.Machine.execPinReset s
  | .resetNRelease => Sys2Proof.Machine.execResetNRelease s
  | .startUpScanEnd => Sys2Proof.Machine.execStartUpScanEnd s
  | .erasingComplete => Sys2Proof.Machine.execErasingComplete s
  | .programmingComplete => Sys2Proof.Machine.execProgrammingComplete s
  | .verifyEnd lost => Sys2Proof.Machine.execVerifyEnd lost s

end Sys2Proof.Machine
end

