-- ==== Sys2Proof/Machine/Time.lean ====
section
/-! DEFINITION. One millisecond of time with no command waiting (log 2): frames are sent, the pocket timers, the stall
timers and the bounds of the store's phases count down. -/

namespace Sys2Proof.Machine

/-- The scan port's frame being sent leaves (R31, log 8). -/
def State.sendScan (s : State) (l : Lane) : State := s.modScan l fun p => { p with produced := p.produced.tail, begun := false }

/-- The exchange port's frame being sent leaves, unless it is a GRANT or SEGMENT, which leaves at SEGMENT_BOUNDARY
(R128, R137, log 8). -/
def State.sendExchange (s : State) (p : Port) : State :=
  match (s.exchange.get p).produced with
  | [] => s
  | m :: rest => if m.inStream then s else s.modExchange p fun x => { x with produced := rest, begun := false }

/-- A RUNNING pocket timer falls by one ms, and expires when it reaches 0 (R65). -/
def State.tickPocket (s : State) (l : Lane) : State :=
  match (s.scan.get l).timer with
  | none => s
  | some t =>
    if t.remaining ≤ 1 then s.expirePocket l
    else s.modScan l fun p => { p with timer := some { t with remaining := t.remaining - 1 } }

/-- A RUNNING stall timer falls by one ms, and expires when it reaches 0 (R141). -/
def State.tickStall (s : State) (p : Port) : State :=
  match (s.exchange.get p).stall with
  | none => s
  | some n => if n ≤ 1 then s.expireStall p else s.modExchange p fun x => { x with stall := some (n - 1) }

/-- A phase of the store that no completion has ended by its bound ends at the bound (Table 8.4, log 13). -/
def State.endPhase (s : State) : State :=
  match s.store.phase with
  | .idle => s
  | .starting => s.modStore Store.endScan
  | .erasing | .programming => s.modStore Store.endWrite
  | .verifying => (s.endVerify (Config.bytesNotKept s.free)).withFree (s.free + 1)

/-- The time left to the bound of the store's phase falls by one ms (Table 8.4). -/
def State.tickStore (s : State) : State :=
  if s.store.phase = .idle then s
  else if s.store.phaseLeft ≤ 1 then s.endPhase
  else s.modStore fun st => { st with phaseLeft := st.phaseLeft - 1 }

/-- One millisecond with no command waiting; nothing runs while RESET_N is low (R190). -/
def State.tick (s : State) : State :=
  s.whileRunning fun s =>
    let s := ((((s.sendScan 0).sendScan 1).sendScan 2).sendScan 3)
    let s := (s.sendExchange 0).sendExchange 1
    let s := (((s.tickPocket 0).tickPocket 1).tickPocket 2).tickPocket 3
    let s := (s.tickStall 0).tickStall 1
    s.tickStore

end Sys2Proof.Machine
end

