-- ==== Sys2Proof/Machine/Step.lean ====
section
/-! DEFINITION. One step of the reducer: the command at the front of the queue, or a millisecond of time when no
command waits (log 1, log 2). -/

namespace Sys2Proof.Machine

/-- The front command taken with the queue's rest; with no command waiting, a millisecond passes. -/
def step (s : State) : Host.Outcome State Fault Refusal :=
  match s.pending with
  | [] => .next s.tick
  | c :: rest => exec c (s.withPending rest)

/-- The command a word spells put at the front of the queue; no row of the table has bits, so no word spells one. -/
def State.withFetchWord (s : State) (nbits w : Nat) : State :=
  match decodeTableWord nbits w with
  | some c => s.withPending (c :: s.pending)
  | none => s

end Sys2Proof.Machine
end

