-- ==== Sys2Proof/Safety.lean ====
section
/-! DEFINITION. The words the statements are made with: conditions on a state, what the end of an item's landing and
the end of a claim leave, and the invariants of the reducer. -/

namespace Sys2Proof.Safety
open Sys2Proof.Machine

/-! ## Conditions on a state -/

/-- RESET_N is high (R190). -/
def Running (s : State) : Prop := s.pins.resetLow = false

/-- A scan port with no frame being gathered or waiting and no held row: a frame is taken when it is judged (R33). -/
def PortClear (s : State) (l : Lane) : Prop :=
  (s.scan.get l).gathering = [] ∧ (s.scan.get l).waiting = [] ∧ (s.scan.get l).held = none

/-- Item `k` is attached to scan port `l`, LANDING with its pocket PENDING (R9, R10, R32). -/
def Attached (s : State) (l : Lane) (k : Slot) : Prop :=
  (s.scan.get l).attached = some k ∧ (s.items.get k).lane = l ∧ (s.items.get k).state = .landing ∧
    (s.items.get k).pocket = .pending

/-- Slot `k` is the lowest-numbered FREE slot (R9). -/
def LowestFree (s : State) (k : Slot) : Prop :=
  (s.items.get k).state = .free ∧ ∀ j : Slot, j < k → (s.items.get j).state ≠ .free

/-- The events that RESET_N held low does not keep out: the reset's own, the completion of a burst, link detector
changes, reads, and the fall of STORE_WE (R87, R190). -/
def takenInReset : Instr → Bool
  | .powerOn | .resetNRelease | .burstComplete _ | .scanLinkUp _ | .scanLinkLost _ | .exchangeLinkUp _
  | .exchangeLinkLost _ | .stagingDataRead | .itemDataRead | .storeWeFall => true
  | _ => false

/-! ## Commands -/

/-- The command register and the result register after a command of a code answered `a` (R176, R177). -/
def answered (s : State) (code : Word) (a : Answer) : State := { s with sup := { s.sup with command := code, result := a } }

/-- The command register while a command of a code is taken (R176). -/
def given (s : State) (code : Word) : State := { s with sup := { s.sup with command := code } }

/-- The answer placed in the result register (R177). -/
def withAnswer (s : State) (a : Answer) : State := { s with sup := { s.sup with result := a } }

/-! ## Words and records -/

/-- The bits of a register from bit `low` on, `width` of them, as a number (Table 10.11). -/
def bitsOf (v : Word) (low width : Nat) : Nat := v.toNat / 2 ^ low % 2 ^ width

/-- The bytes of a record at an offset (R191). -/
def part (r : List Byte) (offset size : Nat) : List Byte := (r.drop offset).take size

/-- The fields a release record and a snapshot image have in common, from the bundle number to the rendition count,
the bundle number at offset `o` (Tables 10.6 and 10.12). -/
def ItemFieldsAt (r : List Byte) (o : Nat) (i : Item) : Prop :=
  part r o 4 = longBytes i.bundle ∧ part r (o + 4) 2 = wordBytes i.position ∧ part r (o + 6) 4 = longBytes i.stamp ∧
  part r (o + 10) 1 = [i.facesExpected] ∧
  part r (o + 11) 1 = [match i.disposition with
    | none => 0
    | some .accepted => 1
    | some .rejected => 2
    | some .unfit => 3] ∧
  part r (o + 12) 1 = [match i.pocket with
    | .pending => 0
    | .accept => 1
    | .reject => 2] ∧
  part r (o + 13) 1 = [match i.reason with
    | none => 0
    | some kind => kind.code] ∧
  (∀ n, n < 8 → ((part r (o + 14) 1).getD 0 0).getLsbD n =
    ((n = 0 && i.delivered) || (n = 1 && i.trial) || (n = 2 && i.purged) || (n = 3 && i.overflow))) ∧
  part r (o + 15) 1 = [BitVec.ofNat 8 i.retries] ∧
  part r (o + 16) 2 = wordBytes (BitVec.ofNat 16 (i.latency.getD 0)) ∧
  part r (o + 18) 1 = [match i.source with
    | none => 0xFF
    | some (.block b) => BitVec.ofNat 8 b.val
    | some .staging => 8] ∧
  part r (o + 19) 8 = i.name ∧ part r (o + 27) 2 = wordBytes i.edition ∧
  part r (o + 29) 3 =
    [BitVec.ofNat 8 i.faces.length, BitVec.ofNat 8 i.findings.length, BitVec.ofNat 8 i.renditions.length]

/-- The 8 bytes of a face entry (Table 10.7). -/
def faceFields (f : Face) : List Byte :=
  ([match f.kind with
    | .front => 0
    | .rear => 1,
   match f.state with
    | .landing => 1
    | .landed => 2
    | .cut => 3] : List Byte) ++
  wordBytes (BitVec.ofNat 16 f.width) ++ wordBytes (BitVec.ofNat 16 f.rowsLanded) ++
  wordBytes (BitVec.ofNat 16 f.rowsLost)

/-- The 5 bytes of a finding entry (Table 10.7). -/
def findingFields (f : Finding) : List Byte :=
  ([f.kind.code,
   match f.face with
    | .front => 0
    | .rear => 1
    | .item => 2,
   match f.severity with
    | .note => 0
    | .reject => 1] : List Byte) ++
  wordBytes (BitVec.ofNat 16 f.value)

/-- The 12 bytes of a rendition entry; the output fields read 0 when absent (Table 10.7, R194). -/
def renditionFields (r : Rendition) : List Byte :=
  ([match r.face with
    | .front => 0
    | .rear => 1,
   match r.kind with
    | .bitonal => 0
    | .gray => 1,
   match r.state with
    | .waiting => 1
    | .queued => 2
    | .coding => 3
    | .done => 4
    | .oversize => 5
    | .fault => 6
    | .cancelled => 7,
   BitVec.ofNat 8 r.rung] : List Byte) ++
  (match r.output with
  | none => List.replicate 8 0
  | some o => wordBytes (BitVec.ofNat 16 o.width) ++ wordBytes (BitVec.ofNat 16 o.rows) ++
      longBytes (BitVec.ofNat 32 o.length))

/-! ## Frames -/

/-- The scan port and the judged frame of a message on a scan link (R30). -/
def scanFrameOf : Instr → Option (Lane × ScanFrame)
  | .itemOpen l bundle position faces =>
    some (l, if position ≠ 0 ∧ (faces = 1 ∨ faces = 2) then .itemOpen bundle position faces else .failed)
  | .faceOpen l kind width =>
    some (l, if kind = 0 then .faceOpen .front width.toNat else if kind = 1 then .faceOpen .rear width.toNat else .failed)
  | .row l pixels => some (l, if 1 ≤ pixels.length ∧ pixels.length ≤ 2048 then .row pixels else .failed)
  | .faceClose l => some (l, .faceClose)
  | .itemClose l => some (l, .itemClose)
  | .itemAbandon l reason => some (l, .itemAbandon reason)
  | .scanFailedFrame l => some (l, .failed)
  | _ => none

/-- Messages a port has produced, with one more while its link is up (R31, R128). -/
def sentOn {α : Type} (link : Bool) (produced : List α) (m : α) : List α := if link then produced ++ [m] else produced

/-- An exchange port whose stream has ended early, by whether its first produced frame had begun: of the GRANTs and
SEGMENTs in its list only a first one that had begun is still sent (R128, R143, R144). -/
def streamCut (x : ExchangePort) (begun : Bool) : ExchangePort :=
  let kept := (x.produced.take 1).filter (fun m => !m.inStream || begun) ++ x.produced.tail.filter fun m => !m.inStream
  { x with produced := kept, begun := begun && !kept.isEmpty }

/-! ## The end of landing (R4, R10, R42, R51, R61 to R67) -/

/-- A face as the end of landing leaves it: a row of it still being written is lost, and while LANDING it becomes CUT
with no accumulators. -/
def faceEnded (p : ScanPort) (f : Face) : Face :=
  let lost := if p.held.isSome ∧ p.current = some f.kind then min (f.rowsLost + 1) 65535 else f.rowsLost
  if f.state = .landing then { f with rowsLost := lost, state := .cut, accum := none } else { f with rowsLost := lost }

/-- The findings list and overflow flag after a finding (R61). -/
def findingAdded (i : Item) (f : Finding) : Item :=
  if i.findings.length < 8 then { i with findings := i.findings ++ [f] } else { i with overflow := true }

/-- A finding added by R61 and R63: of REJECT severity while the pocket is PENDING, it decides REJECT with its kind as
the reason, after `ms` whole ms. -/
def findingJudged (ms : Nat) (i : Item) (f : Finding) : Item :=
  if f.severity = .reject ∧ i.pocket = .pending then
    { findingAdded i f with pocket := .reject, reason := some f.kind, latency := some ms }
  else findingAdded i f

/-- The port after the attached item's landing has ended: nothing attached, no face, no held row, timer STOPPED. -/
def portLeft (p : ScanPort) (next : ScanState) (produced : List ScanMsg) : ScanPort :=
  { p with attached := none, current := none, held := none, timer := none, state := next, produced := produced }

/-- Landing of item `k` ended with the record `i` its decision has left: SETTLING, faces CUT, the port detached, POCKET
produced and the delivered flag set where the cause of the decision sends it and the link is up, and the held row's
request withdrawn. -/
def landingEnded (s : State) (l : Lane) (k : Slot) (i : Item) (sent : Bool) (next : ScanState) : State :=
  let p := s.scan.get l
  let pocket := ScanMsg.pocket i.position i.pocket i.reason (i.latency.getD 0)
  { s with
    items := put s.items k
      { i with state := .settling, faces := i.faces.map (faceEnded p), delivered := i.delivered || (sent && p.link) }
    scan := put s.scan l (portLeft p next (if sent then sentOn p.link p.produced pocket else p.produced))
    arbiter := if p.held.isSome then (s.arbiter.mark (.w l) false).forsake (.w l) else s.arbiter }

/-- Landing of item `k` ended by an item finding that rejects it, up to the stage at which its renditions are dealt
with (R108). -/
def rejected (s : State) (l : Lane) (k : Slot) (kind : FindingKind) (value : Nat) (sent : Bool) (next : ScanState) :
    State :=
  landingEnded s l k (findingJudged (elapsed (s.scan.get l).timer) (s.items.get k) ⟨kind, .item, .reject, value⟩) sent next

/-! ## Behind reception -/

/-- Nothing has changed but what grants, coding jobs, strip returns and the settling test work on: an item's state, faces,
renditions, holder and disposition, the pools, the job queue, the units, the exchange ports, the claims and the
requests. -/
def OnlyBehind (s t : State) : Prop :=
  t = { s with
    items := t.items, arbiter := t.arbiter, strips := t.strips, pages := t.pages, jobs := t.jobs, units := t.units
    exchange := t.exchange, claims := t.claims } ∧
  ∀ k, t.items.get k = { s.items.get k with
    state := (t.items.get k).state, faces := (t.items.get k).faces, renditions := (t.items.get k).renditions
    holder := (t.items.get k).holder, disposition := (t.items.get k).disposition }

/-- The page pool with chains returned to it as free pages, in order, the last page on top (R82, R83). -/
def pagesReturned (p : PagePool) (chains : List Nat) : PagePool :=
  { p with free := chains.reverse ++ p.free, freeCount := p.freeCount + chains.length }

/-! ## Exchange ports (R14, R143, R146) -/

/-- A port whose claim and stream have ended; its stream position and count of SEGMENTs are the model's choice (log 30). -/
def claimEnded (x : ExchangePort) (next : ExchangeState) : ExchangePort :=
  { x with state := next, slot := none, position := none, segments := 0, store := [], holdPending := false,
           stall := none }

/-- The reader's waiting request withdrawn and the result of its burst under way discarded (R74). -/
def readerWithdrawn (a : Arbiter) (p : Port) : Arbiter := (a.mark (.xr p) false).forsake (.xr p)

/-! ## Invariants -/

/-- What an item keeps from its SLOT GIVEN to its freeing: lane, stamp, tag, faces expected and profile identity (R2,
R3, R9), the findings added so far and the overflow flag (R61), the purged mark (R5), the delivered flag (R67), the
pocket once decided with its reason and latency (R6), and a retries count that does not fall (R8). -/
structure Continues (i j : Item) : Prop where
  lane : j.lane = i.lane
  stamp : j.stamp = i.stamp
  bundle : j.bundle = i.bundle
  position : j.position = i.position
  facesExpected : j.facesExpected = i.facesExpected
  source : j.source = i.source
  name : j.name = i.name
  edition : j.edition = i.edition
  trial : j.trial = i.trial
  findings : i.findings <+: j.findings
  overflow : i.overflow = true → j.overflow = true
  purged : i.purged = true → j.purged = true
  delivered : i.delivered = true → j.delivered = true
  pocket : i.pocket ≠ .pending → j.pocket = i.pocket ∧ j.reason = i.reason ∧ j.latency = i.latency
  retries : min i.retries 255 ≤ j.retries

/-- Settings and lists of fixed size hold values of their ranges (R21, R84, R142, R153, R178, R197, section 8.1). -/
structure InRange (s : State) : Prop where
  quota : ∀ l, 1 ≤ (s.lanes.get l).quota ∧ (s.lanes.get l).quota ≤ 256
  headReserve : s.pages.headReserve ≤ 2048
  stallLimit : 10 ≤ s.stallLimit ∧ s.stallLimit ≤ 60000
  staging : s.store.staging.bytes.length = 512
  stagingEmpty : s.store.staging.state = .empty → s.store.staging.bytes = erasedBytes
  block : ∀ b, (s.store.blocks.get b).bytes.length = 512
  readIndex : s.sup.readIndex ≤ 75

/-- The store's protection of its sources (R150, R160, R162, R171, R190): a source with a user is usable, the block of
the operation in progress is BUSY, every block is BUSY with no operation while the start-up scan runs, and while RESET_N
is low the store waits for that scan. -/
structure SourcesGuarded (s : State) : Prop where
  used : ∀ src, s.store.inUse src = true → s.store.usable src = true
  operating : ∀ op b, s.store.operation = some (op, b) → (s.store.blocks.get b).state = .busy
  scanning : s.store.phase = .starting → s.store.operation = none ∧ ∀ b, (s.store.blocks.get b).state = .busy
  inReset : s.pins.resetLow = true → s.store.phase = .starting

/-- Ports and items agree (R9, R10, R13, R16, R131, R133, R190, Tables 2.2 and 7.3). A scan port's attached item is
the LANDING item of its lane, PENDING, and no other item is LANDING; an exchange port's slot is CLAIMED by it; each
port holds what its state says it holds; a claim waits for each WAITING port and no other; a frame known to be begun
is there; a port that runs is DOWN exactly while its link is; while RESET_N is low no item lives. That a port with no slot
has no stream position (`streaming`) is the model's choice (log 30). -/
structure PortsAgree (s : State) : Prop where
  attached : ∀ l k, (s.scan.get l).attached = some k ↔ ((s.items.get k).state = .landing ∧ (s.items.get k).lane = l)
  undecided : ∀ k, (s.items.get k).state = .landing → (s.items.get k).pocket = .pending
  decided : ∀ k, (s.items.get k).state ≠ .landing → (s.items.get k).state ≠ .free → (s.items.get k).pocket ≠ .pending
  serving : ∀ l, (s.scan.get l).attached.isSome ↔ ((s.scan.get l).state = .item ∨ (s.scan.get l).state = .face)
  facing : ∀ l, (s.scan.get l).current.isSome ↔ (s.scan.get l).state = .face
  timing : ∀ l, (s.scan.get l).timer.isSome ↔ (s.scan.get l).attached.isSome
  claimed : ∀ p k, (s.exchange.get p).slot = some k →
    (s.items.get k).state = .claimed ∧ (s.items.get k).holder = some p
  holding : ∀ p, (s.exchange.get p).slot.isSome ↔
    ((s.exchange.get p).state = .sending ∨ (s.exchange.get p).state = .held ∨ (s.exchange.get p).state = .await)
  stalling : ∀ p, (s.exchange.get p).stall.isSome ↔
    ((s.exchange.get p).state = .held ∨ (s.exchange.get p).state = .await)
  streaming : ∀ p, (s.exchange.get p).position.isSome → (s.exchange.get p).slot.isSome
  waiting : ∀ p, (s.exchange.get p).state = .waiting ↔ ∃ c ∈ s.claims, c.port = p
  oneClaim : s.claims.Pairwise (fun a b => a.port ≠ b.port)
  inReset : s.pins.resetLow = true → (∀ k, (s.items.get k).state = .free) ∧ s.claims = []
  scanLink : Running s → ∀ l, (s.scan.get l).link = true ↔ (s.scan.get l).state ≠ .down
  scanBegun : ∀ l, (s.scan.get l).begun = true → (s.scan.get l).produced ≠ []
  exchangeBegun : ∀ p, (s.exchange.get p).begun = true → (s.exchange.get p).produced ≠ []
  exchangeLink : Running s → ∀ p, (s.exchange.get p).link = true ↔ (s.exchange.get p).state ≠ .down

/-- Every live item stands once in the queue of its own lane, and nothing else does (R16). -/
structure QueuesAgree (s : State) : Prop where
  live : ∀ l k, k ∈ (s.lanes.get l).queue ↔ ((s.items.get k).state ≠ .free ∧ (s.items.get k).lane = l)
  once : ∀ l, (s.lanes.get l).queue.Nodup

/-- What frees a slot: DELIVERED at the port that holds its item, or a reset (R15); SOFT RESET may be given as any write
of its code to the command register (log 20). -/
def frees (s : State) (k : Slot) : Instr → Prop
  | .delivered p => (s.exchange.get p).slot = some k
  | .powerOn | .pinReset | .softReset => True
  | .unknownCommandCode code => code = 0x0011
  | .registerWrite register v => register = 0x00 ∧ v = 0x0011
  | _ => False

/-- The latched profiles (R3, R150, R156 to R160, R165, R171): a pin count counts the live items of its source, a live
item has a source, a usable source holds a record that passes its checks, a block with its mark CLOSED is erased or holds
such a record, the busy block's mark is OPEN, and a PROGRAM has a VALIDATED staging area. -/
structure ProfilesLatched (s : State) : Prop where
  pins : ∀ b, s.store.pins.get b = (s.items.toList.filter fun i => i.source = some (.block b)).length
  stagingPins : s.store.stagingPins = (s.items.toList.filter fun i => i.source = some .staging).length
  latched : ∀ k, (s.items.get k).state ≠ .free → (s.items.get k).source.isSome = true
  emptied : ∀ k, (s.items.get k).state = .free → s.items.get k = Item.empty
  checked : ∀ src, s.store.usable src = true → recordValid (s.store.record src) = true
  closed : ∀ b, (s.store.blocks.get b).opened = false →
    (s.store.blocks.get b).bytes = erasedBytes ∨ recordValid (s.store.blocks.get b).bytes = true
  opened : ∀ op b, s.store.operation = some (op, b) → (s.store.blocks.get b).opened = true
  programming : ∀ b, s.store.operation = some (.program, b) →
    (s.store.phase = .programming ∨ s.store.phase = .verifying) ∧ s.store.staging.state = .validated

/-- The records inside an item record (R4, R7, R11, R41, R77 to R82): one face of a kind and one rendition of a face and
kind, each rendition's face among the faces; a face LANDING only while its item is; a QUEUED or CODING rendition of a
LANDED face; a strip chain only while its face is LANDING or has such a rendition; a page chain only for a CODING or DONE
rendition, and for a DONE one as many pages as its length fills; budgets of at least 1 KiB; every rendition final once the
item is READY; none of them in a FREE slot. -/
structure Shaped (i : Item) : Prop where
  faces : i.faces.Pairwise fun f g => f.kind ≠ g.kind
  renditions : i.renditions.Pairwise fun r q => r.face ≠ q.face ∨ r.kind ≠ q.kind
  faced : ∀ r ∈ i.renditions, ∃ f ∈ i.faces, f.kind = r.face
  landing : ∀ f ∈ i.faces, f.state = .landing → i.state = .landing
  landed : ∀ r ∈ i.renditions, r.state = .queued ∨ r.state = .coding →
    ∀ f ∈ i.faces, f.kind = r.face → f.state = .landed
  strips : ∀ f ∈ i.faces, f.strips ≠ [] →
    f.state = .landing ∨ ∃ r ∈ i.renditions, r.face = f.kind ∧ (r.state = .queued ∨ r.state = .coding)
  chains : ∀ r ∈ i.renditions, r.chain ≠ [] → r.state = .coding ∨ r.state = .done
  done : ∀ r ∈ i.renditions, r.state = .done →
    ∃ o, r.output = some o ∧ r.chain.length = (o.length + 4095) / 4096
  budgets : ∀ r ∈ i.renditions, 1 ≤ r.budget
  final : i.state = .ready ∨ i.state = .claimed → ∀ r ∈ i.renditions, r.state.final = true
  free : i.state = .free → i.faces = [] ∧ i.renditions = []

/-- Every strip in a strip chain. -/
def stripsHeld (s : State) : List Nat := s.items.toList.flatMap fun i => i.faces.flatMap fun f => f.strips

/-- Every page in a page chain. -/
def pagesHeld (s : State) : List Nat := s.items.toList.flatMap fun i => i.renditions.flatMap fun r => r.chain

/-- The rendition record a job names. -/
def jobRendition (s : State) (j : Job) : Option Rendition := (s.items.get j.slot).rendition? j.face j.kind

/-- Strips, pages, jobs and coding units (R35, R75, R78 to R82, R88, R90, R99, R100). The face a port receives is
LANDING; each strip and each page is on its free list or in one chain, and the page counts add up; the queue names
each QUEUED rendition once and the units each CODING rendition once; a running job's drawn and undrawn pages make up
its need, it has drawn the pages its length fills, its length stays within its budget, and its rung is its
rendition's. -/
structure PoolsAgree (s : State) : Prop where
  shaped : ∀ k, Shaped (s.items.get k)
  landing : ∀ l k kind, (s.scan.get l).attached = some k → (s.scan.get l).current = some kind →
    ∃ f, (s.items.get k).face? kind = some f ∧ f.state = .landing
  strips : (s.strips ++ stripsHeld s).Perm (List.range 2048)
  pages : (s.pages.free ++ pagesHeld s).Perm (List.range 8192)
  counts : s.pages.freeCount + s.pages.reserved = s.pages.free.length
  reserved : s.pages.reserved = (s.units.get 0).undrawn + (s.units.get 1).undrawn
  queued : ∀ j, j ∈ s.jobs ↔ ∃ r, jobRendition s j = some r ∧ r.state = .queued
  once : s.jobs.Nodup
  coding : ∀ j, (∃ u, (s.units.get u).job = some j) ↔ ∃ r, jobRendition s j = some r ∧ r.state = .coding
  apart : ∀ j, (s.units.get 0).job = some j → (s.units.get 1).job ≠ some j
  idle : ∀ u, (s.units.get u).job = none → (s.units.get u).undrawn = 0
  drawn : ∀ u j r, (s.units.get u).job = some j → jobRendition s j = some r →
    r.chain.length + (s.units.get u).undrawn = (r.budget + 3) / 4 ∧
      r.chain.length = ((s.units.get u).length + 4095) / 4096 ∧
      1 ≤ (s.units.get u).length ∧ (s.units.get u).length ≤ r.budget * 1024 ∧ r.rung = (s.units.get u).rung

end Sys2Proof.Safety
end

