-- ==== Sys2Proof/Certificates/Slice0/Obligations.lean ====
section
/-! DEFINITION. The statements about the reducer, for the provers. -/

open Sys2Proof Sys2Proof.Machine Sys2Proof.Safety

/-! ## The queue and time -/

/-- A step takes the command at the front of the queue: it is `exec` of that command on the state with the queue's
rest. -/
def Obligations.StepTakesFrontCommand : Prop :=
  ∀ (c : Instr) (rest : List Instr) (s : State), s.pending = c :: rest → step s = exec c { s with pending := rest }

/-- The model's choice (log 2): with no command waiting a step is one ms. In it the frame at the head of each port's list
leaves, but for a GRANT or SEGMENT (log 8), then the pocket timers 0 to 3, the stall timers 0 and 1 and the bound of the
store's phase fall by one; a timer at its last ms expires as its command says (R65, R141), and a phase at its bound ends
(Table 8.4, log 13). While RESET_N is low nothing happens (R190). -/
def Obligations.IdleStepIsOneMillisecond : Prop :=
  (∀ s : State, s.pending = [] →
     (s.pins.resetLow = true → step s = .next s) ∧
     (Running s →
       let left : State := { s with
         scan := s.scan.map fun p => { p with produced := p.produced.tail, begun := false }
         exchange := s.exchange.map fun x => match x.produced with
           | [] => x
           | m :: rest => if m.inStream then x else { x with produced := rest, begun := false } }
       step s = .next
         ((((((left.tickPocket 0).tickPocket 1).tickPocket 2).tickPocket 3).tickStall 0).tickStall 1).tickStore)) ∧
  (∀ s : State, Running s →
     (∀ l,
       ((s.scan.get l).timer = none → s.tickPocket l = s) ∧
       (∀ t, (s.scan.get l).timer = some t →
         (2 ≤ t.remaining → s.tickPocket l = { s with
           scan := put s.scan l { s.scan.get l with timer := some { t with remaining := t.remaining - 1 } } }) ∧
         (t.remaining ≤ 1 → exec (.pocketTimerExpiry l) s = .next (s.tickPocket l)))) ∧
     (∀ p,
       ((s.exchange.get p).stall = none → s.tickStall p = s) ∧
       (∀ n, (s.exchange.get p).stall = some n →
         (2 ≤ n → s.tickStall p = { s with
           exchange := put s.exchange p { s.exchange.get p with stall := some (n - 1) } }) ∧
         (n ≤ 1 → exec (.stallTimerExpiry p) s = .next (s.tickStall p)))) ∧
     (s.store.phase = .idle → s.tickStore = s) ∧
     (s.store.phase ≠ .idle → 2 ≤ s.store.phaseLeft →
       s.tickStore = { s with store := { s.store with phaseLeft := s.store.phaseLeft - 1 } }) ∧
     (s.store.phaseLeft ≤ 1 →
       (s.store.phase = .starting → exec .startUpScanEnd s = .next s.tickStore) ∧
       (s.store.phase = .erasing → exec .erasingComplete s = .next s.tickStore) ∧
       (s.store.phase = .programming → exec .programmingComplete s = .next s.tickStore) ∧
       (s.store.phase = .verifying →
         ∃ lost n, exec (.verifyEnd lost) s = .next { s.tickStore with free := n })))

/-! ## Resets -/

/-- The values the spec gives for power-on (R28, R73, R75, R78, R84, R90, R111, R133, R142, R148, R153, R159 to R162, R168,
R171, R177, R178, R182, R184, R186). -/
def Obligations.ResetLeavesSpecValues : Prop :=
  (∀ k, State.reset.items.get k = Item.empty) ∧
  (∀ l, (State.reset.lanes.get l).queue = [] ∧ (State.reset.lanes.get l).closed = false ∧
    (State.reset.lanes.get l).quota = 64) ∧
  State.reset.stamp = 0 ∧
  (∀ l, (State.reset.scan.get l).waiting = [] ∧ (State.reset.scan.get l).held = none ∧
    (State.reset.scan.get l).attached = none ∧ (State.reset.scan.get l).timer = none ∧
    (State.reset.scan.get l).produced = []) ∧
  (∀ r, State.reset.arbiter.waits r = false) ∧ State.reset.arbiter.lastA = 3 ∧ State.reset.arbiter.lastB = 3 ∧
  State.reset.strips = List.range 2048 ∧
  State.reset.pages.free = List.range 8192 ∧ State.reset.pages.freeCount = 8192 ∧ State.reset.pages.reserved = 0 ∧
  State.reset.pages.headReserve = 256 ∧
  State.reset.jobs = [] ∧ (∀ u, (State.reset.units.get u).job = none) ∧
  (∀ p, (State.reset.exchange.get p).slot = none ∧ (State.reset.exchange.get p).stall = none ∧
    (State.reset.exchange.get p).holdPending = false ∧ (State.reset.exchange.get p).store = [] ∧
    (State.reset.exchange.get p).produced = [] ∧ (State.reset.exchange.get p).mask = 0xF) ∧
  State.reset.claims = [] ∧ State.reset.stallLimit = 2000 ∧
  (∀ b, (State.reset.store.blocks.get b).state = .busy) ∧
  (∀ n, n < 512 → State.reset.store.staging.bytes[n]? = some 0xFF) ∧ State.reset.store.staging.state = .empty ∧
  State.reset.store.staging.address = 0 ∧ (∀ l, State.reset.store.bindings.get l = none) ∧
  (∀ b, State.reset.store.pins.get b = 0) ∧ State.reset.store.stagingPins = 0 ∧
  State.reset.store.editEnable = false ∧ State.reset.store.phase = .starting ∧ State.reset.store.operation = none ∧
  State.reset.store.latch = false ∧ State.reset.store.last = none ∧
  State.reset.sup.command = 0 ∧ State.reset.sup.operandA = 0 ∧ State.reset.sup.operandB = 0 ∧
  State.reset.sup.result = .none ∧ State.reset.sup.causes = 0 ∧ State.reset.sup.enables = 0 ∧
  State.reset.sup.master = false ∧ State.reset.intPin = false ∧ State.reset.sup.resetCause = 1 ∧
  State.reset.sup.selected = 0 ∧ State.reset.sup.readIndex = 0 ∧
  State.reset.sup.snapshot = snapshotImage 0 Item.empty

/-- Power-on gives every piece of state its power-on value; what stays is the level of the links and pins, the bytes and
operation marks of the blocks, and the buffer memory, and a burst under way completes with its result discarded (R87, R172,
R189, Table 8.8; log 5, log 16). What an IDLE coding unit and a port with no claim hold beyond the rules is the model's
choice (log 29, log 30, log 31). -/
def Obligations.PowerOnResult : Prop :=
  ∀ s : State, exec .powerOn s = .next { State.reset with
    pending := s.pending
    pins := { s.pins with resetLow := false }
    scan := s.scan.map fun p => ScanPort.fresh p.link
    mem := s.mem
    arbiter := Arbiter.fresh (s.arbiter.burst.map fun b => { b with live := false })
    exchange := s.exchange.map fun x => ExchangePort.fresh x.link 0xF
    store := { State.reset.store with blocks := s.store.blocks.map fun b => { b with state := .busy } }
    free := s.free }

/-- A pin reset gives the power-on values but keeps the protection latch and the POWER and SOFT flags, sets PIN, leaves the
buffer memory as it is, and lets a burst under way complete with its result discarded. RESET_N returning high: each port
enters IDLE or DOWN by its link, LINK is not set, and the start-up scan starts with its 10 ms (R52, R87, R149, R171, R173,
R190). What an IDLE coding unit and a port with no claim hold beyond the rules is the model's choice (log 29, log 30, log
31). -/
def Obligations.PinResetAndRelease : Prop :=
  (∀ s : State, Running s → exec .pinReset s = .next { State.reset with
     pending := s.pending
     pins := { s.pins with resetLow := true }
     scan := s.scan.map fun p => ScanPort.fresh p.link
     mem := s.mem
     arbiter := Arbiter.fresh (s.arbiter.burst.map fun b => { b with live := false })
     exchange := s.exchange.map fun x => ExchangePort.fresh x.link 0xF
     store := { State.reset.store with
       blocks := s.store.blocks.map fun b => { b with state := .busy }
       latch := s.store.latch }
     sup := { State.reset.sup with resetCause := s.sup.resetCause ||| 2 }
     free := s.free }) ∧
  (∀ s : State, s.pins.resetLow = true → exec .resetNRelease s = .next { s with
     pins := { s.pins with resetLow := false }
     scan := s.scan.map fun p => ScanPort.fresh p.link
     exchange := s.exchange.map fun x => ExchangePort.fresh x.link x.mask
     store := { s.store with
       blocks := s.store.blocks.map fun b => { b with state := .busy }
       phase := .starting
       phaseLeft := 10 } })

/-- SOFT RESET drops every item, job, claim and produced frame not begun, rebuilds the pools and the arbiter, clears the
pin counts and edit enable, sets SOFT, answers OK, and keeps settings, store, causes, enables, operands and item window
(R29, R52, R87, R111, R149, R174, R177, R185 to R187). Whether the first produced frame of a port had begun is open
where its state does not know it (log 8), and what an IDLE coding unit and a port with no claim hold beyond the rules
is the model's choice (log 29, log 30, log 31). -/
def Obligations.SoftResetResult : Prop :=
  ∀ s : State, Running s → ∃ (scanBegun : Lane → Bool) (exchangeBegun : Port → Bool) (n : Nat),
    (∀ l, (s.scan.get l).begun = true → scanBegun l = true) ∧
    (∀ p, (s.exchange.get p).begun = true → exchangeBegun p = true) ∧
    exec .softReset s = .next { s with
      scan := Vector.ofFn fun l => { ScanPort.fresh (s.scan.get l).link with
        produced := if scanBegun l then (s.scan.get l).produced.take 1 else []
        begun := scanBegun l && !(s.scan.get l).produced.isEmpty }
      items := Vector.replicate 256 Item.empty
      lanes := s.lanes.map fun r => { r with queue := [] }
      stamp := 0
      arbiter := Arbiter.fresh (s.arbiter.burst.map fun b => { b with live := false })
      strips := List.range 2048
      pages := { free := List.range 8192, freeCount := 8192, reserved := 0, headReserve := s.pages.headReserve }
      jobs := []
      units := Vector.replicate 2 CodingUnit.idle
      exchange := Vector.ofFn fun p => { ExchangePort.fresh (s.exchange.get p).link (s.exchange.get p).mask with
        produced := if exchangeBegun p then (s.exchange.get p).produced.take 1 else []
        begun := exchangeBegun p && !(s.exchange.get p).produced.isEmpty }
      claims := []
      store := { s.store with pins := Vector.replicate 8 0, stagingPins := 0, editEnable := false }
      sup := { s.sup with command := 0x0011, result := .ok, resetCause := s.sup.resetCause ||| 4 }
      free := n }

/-- While RESET_N is low no frame, timer, register write or store event changes anything; links change their level alone
and set no cause, no register reads otherwise for it (log 15), and reads advance nothing (R175, R190). -/
def Obligations.ResetHoldsEverything : Prop :=
  ∀ s : State, s.pins.resetLow = true →
    (∀ c : Instr, takenInReset c = false → exec c s = .next s) ∧
    (∀ l, exec (.scanLinkUp l) s = .next { s with scan := put s.scan l { s.scan.get l with link := true } } ∧
      exec (.scanLinkLost l) s = .next { s with scan := put s.scan l { s.scan.get l with link := false } }) ∧
    (∀ p, exec (.exchangeLinkUp p) s = .next { s with exchange := put s.exchange p { s.exchange.get p with link := true } } ∧
      exec (.exchangeLinkLost p) s =
        .next { s with exchange := put s.exchange p { s.exchange.get p with link := false } }) ∧
    exec .stagingDataRead s = .next { s with pins := { s.pins with busData := s.readRegister 0x1D } } ∧
    exec .itemDataRead s = .next { s with pins := { s.pins with busData := s.readRegister 0x1F } } ∧
    (∀ (r : Fin 32) (level : Bool),
      (∀ l, ({ s with scan := put s.scan l { s.scan.get l with link := level } } : State).readRegister r =
        s.readRegister r) ∧
      ∀ p, ({ s with exchange := put s.exchange p { s.exchange.get p with link := level } } : State).readRegister r =
        s.readRegister r)

/-! ## The supervisor's registers -/

/-- A write of the causes register clears each cause whose bit it carries as a one, leaves the others, and sets none (R183). A
write of the enables register replaces all seven, a write of the control register sets the master enable by bit 0, and INT
is asserted exactly while the master enable is set and some set cause is enabled (R184). -/
def Obligations.InterruptRegisters : Prop :=
  (∀ (s : State) (v : Word), Running s → ∃ causes : BitVec 7,
     exec (.interruptCausesWrite v) s = .next { s with sup := { s.sup with causes := causes } } ∧
     (∀ i, i < 7 → causes.getLsbD i = (s.sup.causes.getLsbD i && !v.getLsbD i)) ∧
     (∀ c : Cause, ({ s with sup := { s.sup with causes := causes } }.setCause c).causeSet c = true)) ∧
  (∀ (s : State) (v : Word), Running s →
     (∃ enables : BitVec 7,
       exec (.interruptEnablesWrite v) s = .next { s with sup := { s.sup with enables := enables } } ∧
       ∀ i, i < 7 → enables.getLsbD i = v.getLsbD i) ∧
     exec (.interruptControlWrite v) s = .next { s with sup := { s.sup with master := v.getLsbD 0 } } ∧
     (s.intPin = true ↔
       s.sup.master = true ∧ ∃ i, i < 7 ∧ s.sup.causes.getLsbD i = true ∧ s.sup.enables.getLsbD i = true))

/-- The reset cause flags: power-on leaves POWER alone, a pin reset adds PIN, SOFT RESET adds SOFT, and a write clears the
flags it carries as ones and sets none (R186). -/
def Obligations.ResetCauseFlags : Prop :=
  ∀ (s : State),
    (∃ t, exec .powerOn s = .next t ∧ t.sup.resetCause.getLsbD 0 = true ∧ t.sup.resetCause.getLsbD 1 = false ∧
      t.sup.resetCause.getLsbD 2 = false) ∧
    (Running s → ∃ t, exec .pinReset s = .next t ∧ t.sup.resetCause.getLsbD 1 = true ∧
      t.sup.resetCause.getLsbD 0 = s.sup.resetCause.getLsbD 0 ∧
      t.sup.resetCause.getLsbD 2 = s.sup.resetCause.getLsbD 2) ∧
    (Running s → ∃ t, exec .softReset s = .next t ∧ t.sup.resetCause.getLsbD 2 = true ∧
      t.sup.resetCause.getLsbD 0 = s.sup.resetCause.getLsbD 0 ∧
      t.sup.resetCause.getLsbD 1 = s.sup.resetCause.getLsbD 1) ∧
    (∀ v : Word, Running s → ∃ flags : BitVec 3,
      exec (.resetCauseWrite v) s = .next { s with sup := { s.sup with resetCause := flags } } ∧
      ∀ i, i < 3 → flags.getLsbD i = (s.sup.resetCause.getLsbD i && !v.getLsbD i))

/-- A write of operand A or B sets it, a write of a register whose access is read only changes nothing, and a write of a
register that has a command of its own is that command (R175, log 20). A read returns what the register's owner holds, laid
out as Table 10.11 says (R175 to R181, R196): the port status shows the link as its detector reports it, down for a port in
DOWN, and while RESET_N is low the level the port was reset by (R180, R190, log 15). -/
def Obligations.RegisterAccess : Prop :=
  (∀ (s : State) (v : Word), Running s →
    exec (.registerWrite 0x01 v) s = .next { s with sup := { s.sup with operandA := v } } ∧
    exec (.registerWrite 0x02 v) s = .next { s with sup := { s.sup with operandB := v } } ∧
    (∀ r : Fin 32, registerHasOwnRow r = false → r ≠ 0x01 → r ≠ 0x02 → exec (.registerWrite r v) s = .next s) ∧
    exec (.registerWrite 0x00 v) s = exec (.unknownCommandCode v) s ∧
    exec (.registerWrite 0x04 v) s = exec (.interruptCausesWrite v) s ∧
    exec (.registerWrite 0x05 v) s = exec (.interruptEnablesWrite v) s ∧
    exec (.registerWrite 0x06 v) s = exec (.interruptControlWrite v) s ∧
    exec (.registerWrite 0x07 v) s = exec (.resetCauseWrite v) s ∧
    exec (.registerWrite 0x1C v) s = exec (.stagingAddressWrite v) s ∧
    exec (.registerWrite 0x1D v) s = exec (.stagingDataWrite v) s ∧
    exec (.registerWrite 0x1E v) s = exec (.itemSelectWrite v) s) ∧
  (∀ s : State,
    let read := s.readRegister
    read 0x00 = s.sup.command ∧ read 0x01 = s.sup.operandA ∧ read 0x02 = s.sup.operandB ∧
    read 0x03 = (match s.sup.result with
      | .none => 0
      | .ok => 1
      | .invalidArg => 2
      | .notInUse => 3
      | .claimed => 4
      | .busy => 5
      | .protectedStore => 6
      | .notEnabled => 7
      | .badState => 8
      | .inUse => 9
      | .stagingNotValid => 10
      | .duplicate => 11
      | .storeBusy => 12) ∧
    read 0x04 = s.sup.causes.setWidth 16 ∧ read 0x05 = s.sup.enables.setWidth 16 ∧
    read 0x06 = (if s.sup.master then 1 else 0) ∧ read 0x07 = s.sup.resetCause.setWidth 16 ∧
    bitsOf (read 0x08) 0 3 = (match s.store.phase with
      | .starting => 0
      | .idle => 1
      | .erasing => 2
      | .programming => 3
      | .verifying => 4) ∧
    bitsOf (read 0x08) 3 4 = (match s.store.operation with
      | none => 0
      | some (.erase, b) => b.val
      | some (.program, b) => b.val + 8) ∧
    bitsOf (read 0x08) 7 1 = s.store.latch.toNat ∧ bitsOf (read 0x08) 8 1 = s.store.editEnable.toNat ∧
    bitsOf (read 0x08) 9 2 = (match s.store.staging.state with
      | .empty => 0
      | .editing => 1
      | .validated => 2) ∧
    bitsOf (read 0x08) 11 5 = 0 ∧
    (s.store.last = none → read 0x09 = 0) ∧
    (∀ o, s.store.last = some o →
      bitsOf (read 0x09) 0 2 = (match o.op with
        | .erase => 1
        | .program => 2) ∧
      bitsOf (read 0x09) 2 3 = o.block.val ∧ bitsOf (read 0x09) 5 1 = o.failed.toNat ∧ bitsOf (read 0x09) 6 10 = 0) ∧
    (∀ b : BlockNo, bitsOf (read 0x0A) (2 * b.val) 2 = (match (s.store.blocks.get b).state with
      | .empty => 0
      | .valid => 1
      | .invalid => 2
      | .busy => 3)) ∧
    (∀ l : Lane,
      bitsOf (read 0x0B) (4 * l.val) 3 = (match (s.scan.get l).state with
        | .down => 0
        | .idle => 1
        | .item => 2
        | .face => 3
        | .discard => 4) ∧
      (Running s → bitsOf (read 0x0B) (4 * l.val + 3) 1 = (s.scan.get l).link.toNat) ∧
      (s.pins.resetLow = true ∨ PortsAgree s →
        bitsOf (read 0x0B) (4 * l.val + 3) 1 = if (s.scan.get l).state = .down then 0 else 1)) ∧
    (∀ p : Port,
      bitsOf (read 0x0C) (4 * p.val) 3 = (match (s.exchange.get p).state with
        | .down => 0
        | .idle => 1
        | .waiting => 2
        | .sending => 3
        | .held => 4
        | .await => 5) ∧
      (Running s → bitsOf (read 0x0C) (4 * p.val + 3) 1 = (s.exchange.get p).link.toNat) ∧
      (s.pins.resetLow = true ∨ PortsAgree s →
        bitsOf (read 0x0C) (4 * p.val + 3) 1 = if (s.exchange.get p).state = .down then 0 else 1)) ∧
    bitsOf (read 0x0C) 8 8 = 0 ∧
    read 0x0D = BitVec.ofNat 16 s.strips.length ∧ read 0x0E = BitVec.ofNat 16 s.pages.freeCount ∧
    read 0x0F = BitVec.ofNat 16 s.pages.reserved ∧ read 0x10 = BitVec.ofNat 16 s.pages.headReserve ∧
    (s.jobs.length < 2048 → bitsOf (read 0x11) 0 11 = s.jobs.length ∧ bitsOf (read 0x11) 11 3 = 0 ∧
      ∀ u : UnitNo, bitsOf (read 0x11) (14 + u.val) 1 = if (s.units.get u).job = none then 0 else 1) ∧
    (∀ (l : Lane) (r : Fin 32), r.val = 0x12 + l.val → (s.lanes.get l).queue.length < 512 →
      bitsOf (read r) 0 9 = (s.lanes.get l).queue.length ∧
      bitsOf (read r) 9 1 = (s.lanes.get l).closed.toNat ∧ bitsOf (read r) 10 2 = 0 ∧
      bitsOf (read r) 12 4 = (match s.store.bindings.get l with
        | none => 9
        | some .staging => 8
        | some (.block b) => b.val)) ∧
    (∀ (l : Lane) (r : Fin 32), r.val = 0x16 + l.val → read r = BitVec.ofNat 16 (s.lanes.get l).quota) ∧
    read 0x1A = BitVec.ofNat 16 s.stallLimit ∧
    (∀ p : Port, bitsOf (read 0x1B) (4 * p.val) 4 = (s.exchange.get p).mask.toNat) ∧ bitsOf (read 0x1B) 8 8 = 0 ∧
    read 0x1C = s.store.staging.address.setWidth 16 ∧
    read 0x1D = s.store.staging.bytes.getD (2 * s.store.staging.address.toNat) 0 ++
      s.store.staging.bytes.getD (2 * s.store.staging.address.toNat + 1) 0 ∧
    read 0x1E = BitVec.ofNat 16 s.sup.selected.val ∧
    read 0x1F = s.sup.snapshot.getD (2 * s.sup.readIndex) 0 ++ s.sup.snapshot.getD (2 * s.sup.readIndex + 1) 0)

/-- A code that names no command is answered INVALID_ARG and changes nothing else, and so is a command with a lane, slot,
port, block, target, quota, mask, limit or reserve outside its range (R176, R196, Table 9.2). -/
def Obligations.BadCodeOrOperandChangesNothing : Prop :=
  ∀ s : State, Running s →
    (∀ code : Word, (code.toNat = 0 ∨ 17 < code.toNat) →
      exec (.unknownCommandCode code) s = .next (answered s code .invalidArg)) ∧
    (8 ≤ s.sup.operandA.toNat →
      exec .load s = .next (answered s 0x0003 .invalidArg) ∧ exec .program s = .next (answered s 0x0005 .invalidArg) ∧
      exec .erase s = .next (answered s 0x0006 .invalidArg)) ∧
    (4 ≤ s.sup.operandA.toNat →
      exec .laneClose s = .next (answered s 0x0008 .invalidArg) ∧
      exec .laneOpen s = .next (answered s 0x0009 .invalidArg) ∧
      exec .laneReset s = .next (answered s 0x000A .invalidArg)) ∧
    (4 ≤ s.sup.operandA.toNat ∨ 9 < s.sup.operandB.toNat → exec .bind s = .next (answered s 0x0007 .invalidArg)) ∧
    (4 ≤ s.sup.operandA.toNat ∨ s.sup.operandB.toNat = 0 ∨ 256 < s.sup.operandB.toNat →
      exec .setQuota s = .next (answered s 0x000B .invalidArg)) ∧
    (256 ≤ s.sup.operandA.toNat → exec .purge s = .next (answered s 0x000C .invalidArg)) ∧
    (2 ≤ s.sup.operandA.toNat → exec .xportReset s = .next (answered s 0x000D .invalidArg)) ∧
    (2 ≤ s.sup.operandA.toNat ∨ 15 < s.sup.operandB.toNat → exec .setMask s = .next (answered s 0x000E .invalidArg)) ∧
    (s.sup.operandA.toNat < 10 ∨ 60000 < s.sup.operandA.toNat →
      exec .setStall s = .next (answered s 0x000F .invalidArg)) ∧
    (2048 < s.sup.operandA.toNat → exec .setReserve s = .next (answered s 0x0010 .invalidArg))

/-- The item window: a select of a slot takes its snapshot and sets the index to 0, a select outside 0 to 255 changes only
the answer, and a read drives the word of the image at the index onto the bus and advances the index from 75 back to 0
(R178, R179, R197). -/
def Obligations.ItemWindow : Prop :=
  ∀ s : State, Running s →
    (∀ (v : Word) (k : Slot), v.toNat = k.val → exec (.itemSelectWrite v) s = .next { s with sup := { s.sup with
      selected := k, snapshot := snapshotImage k (s.items.get k), readIndex := 0, result := .ok } }) ∧
    (∀ v : Word, 256 ≤ v.toNat → exec (.itemSelectWrite v) s = .next (withAnswer s .invalidArg)) ∧
    exec .itemDataRead s = .next { s with
      pins := { s.pins with
        busData := s.sup.snapshot.getD (2 * s.sup.readIndex) 0 ++ s.sup.snapshot.getD (2 * s.sup.readIndex + 1) 0 }
      sup := { s.sup with readIndex := if 75 ≤ s.sup.readIndex then 0 else s.sup.readIndex + 1 } }

/-- Lengths and places of the records. A release record is 34 bytes with 8 for each face, 5 for each finding and 12 for each
rendition, with the fields of Tables 10.6 and 10.7 at their offsets (R194). A snapshot image is 152 bytes, with the fields of
Table 10.12 at their offsets, each list in its places and zeros beyond it; that of a FREE slot holds its number, FFh as its
profile source and zeros (R197). A rendition header is 16 bytes, with the fields of Table 10.8 (R126). -/
def Obligations.RecordLayouts : Prop :=
  (∀ (k : Slot) (i : Item), i.name.length = 8 →
    let r := releaseRecord k i
    let f := i.faces.length
    let n := i.findings.length
    r.length = 34 + 8 * f + 5 * n + 12 * i.renditions.length ∧
    part r 0 2 = [BitVec.ofNat 8 k.val, BitVec.ofNat 8 i.lane.val] ∧ ItemFieldsAt r 2 i ∧
    (∀ m x, i.faces[m]? = some x → part r (34 + 8 * m) 8 = faceFields x) ∧
    (∀ m x, i.findings[m]? = some x → part r (34 + 8 * f + 5 * m) 5 = findingFields x) ∧
    (∀ m x, i.renditions[m]? = some x → part r (34 + 8 * f + 5 * n + 12 * m) 12 = renditionFields x)) ∧
  (∀ (k : Slot) (i : Item), (snapshotImage k i).length = 152) ∧
  (∀ (k : Slot) (i : Item), i.name.length = 8 →
    let r := snapshotImage k i
    part r 0 4 = [BitVec.ofNat 8 k.val,
      (match i.state with
        | .free => 0
        | .landing => 1
        | .settling => 2
        | .ready => 3
        | .claimed => 4),
      (match i.holder with
        | none => 0
        | some p => BitVec.ofNat 8 (p.val + 1)),
      BitVec.ofNat 8 i.lane.val] ∧ ItemFieldsAt r 4 i ∧
    (∀ m, m < 2 →
      (∀ x, i.faces[m]? = some x →
        part r (36 + 10 * m) 10 = faceFields x ++ wordBytes (BitVec.ofNat 16 x.strips.length)) ∧
      (i.faces[m]? = none → part r (36 + 10 * m) 10 = List.replicate 10 0)) ∧
    (∀ m, m < 8 →
      (∀ x, i.findings[m]? = some x → part r (56 + 5 * m) 5 = findingFields x) ∧
      (i.findings[m]? = none → part r (56 + 5 * m) 5 = List.replicate 5 0)) ∧
    (∀ m, m < 4 →
      (∀ x, i.renditions[m]? = some x →
        part r (96 + 14 * m) 14 = renditionFields x ++ wordBytes (BitVec.ofNat 16 x.chain.length)) ∧
      (i.renditions[m]? = none → part r (96 + 14 * m) 14 = List.replicate 14 0))) ∧
  (∀ k : Slot, snapshotImage k Item.empty =
    BitVec.ofNat 8 k.val :: (List.replicate 21 0 ++ 0xFF#8 :: List.replicate 129 0)) ∧
  (∀ h : Header,
    let r := headerBytes h
    r.length = 16 ∧
    part r 0 4 = [(match h.kind with
        | .bitonal => 0
        | .gray => 1),
      (match h.face with
        | .front => 0
        | .rear => 1),
      BitVec.ofNat 8 h.rung,
      (match h.source with
        | none => 0xFF
        | some (.block b) => BitVec.ofNat 8 b.val
        | some .staging => 8)] ∧
    part r 4 2 = wordBytes (BitVec.ofNat 16 h.width) ∧ part r 6 2 = wordBytes (BitVec.ofNat 16 h.rows) ∧
    part r 8 4 = longBytes (BitVec.ofNat 32 h.dataLength) ∧ part r 12 2 = wordBytes h.edition ∧
    part r 14 2 = wordBytes h.check)

/-! ## The profile store -/

/-- A staging write: IN_USE first, then STORE_BUSY while a PROGRAM reads the staging area, else the two bytes are written most
significant first, the address advances modulo 256 and the state becomes EDITING; the address register takes the low eight
bits (R154, R191, R196). A read of the staging data register drives the word at the staging address onto the bus and
advances the address modulo 256; it changes neither bytes nor state (R155). -/
def Obligations.StagingWindow : Prop :=
  (∀ (s : State) (v : Word), Running s →
     (s.store.inUse .staging = true → exec (.stagingDataWrite v) s = .next (withAnswer s .inUse)) ∧
     (s.store.inUse .staging = false → (∃ b, s.store.operation = some (.program, b)) →
       (s.store.phase = .programming ∨ s.store.phase = .verifying) →
       exec (.stagingDataWrite v) s = .next (withAnswer s .storeBusy)) ∧
     (s.store.inUse .staging = false →
       ((∀ b, s.store.operation ≠ some (.program, b)) ∨
         (s.store.phase ≠ .programming ∧ s.store.phase ≠ .verifying)) →
       exec (.stagingDataWrite v) s = .next (withAnswer { s with store := { s.store with staging :=
         { bytes := (s.store.staging.bytes.set (2 * s.store.staging.address.toNat) (v.extractLsb' 8 8)).set
             (2 * s.store.staging.address.toNat + 1) (v.extractLsb' 0 8)
           state := .editing
           address := s.store.staging.address + 1 } } } .ok)) ∧
     exec (.stagingAddressWrite v) s = .next { s with store := { s.store with staging :=
       { s.store.staging with address := BitVec.ofNat 8 v.toNat } } }) ∧
  (∀ s : State, Running s → exec .stagingDataRead s = .next { s with
     pins := { s.pins with
       busData := s.store.staging.bytes.getD (2 * s.store.staging.address.toNat) 0 ++
         s.store.staging.bytes.getD (2 * s.store.staging.address.toNat + 1) 0 }
     store := { s.store with staging := { s.store.staging with address := s.store.staging.address + 1 } } })

/-- LOAD: BAD_STATE unless the block is VALID, then IN_USE, then STORE_BUSY, else the block's 512 bytes stand in the staging
area, VALIDATED, the address as it was (R158). VALIDATE: BAD_STATE while the staging area is EMPTY, else VALIDATED with OK when
the record passes its checks and INVALID_ARG with the state as it was when it does not (R156). -/
def Obligations.LoadAndValidate : Prop :=
  (∀ (s : State) (b : BlockNo), Running s → s.sup.operandA.toNat = b.val →
      ((s.store.blocks.get b).state ≠ .valid → exec .load s = .next (answered s 0x0003 .badState)) ∧
      ((s.store.blocks.get b).state = .valid →
        (s.store.inUse .staging = true → exec .load s = .next (answered s 0x0003 .inUse)) ∧
        (s.store.inUse .staging = false →
          (s.store.readingStaging = true → exec .load s = .next (answered s 0x0003 .storeBusy)) ∧
          (s.store.readingStaging = false → exec .load s = .next (answered { s with store := { s.store with staging :=
            { s.store.staging with bytes := (s.store.blocks.get b).bytes, state := .validated } } } 0x0003 .ok))))) ∧
  (∀ s : State, Running s →
      (s.store.staging.state = .empty → exec .validate s = .next (answered s 0x0004 .badState)) ∧
      (s.store.staging.state ≠ .empty → recordValid s.store.staging.bytes = true →
        exec .validate s = .next (answered { s with store := { s.store with staging :=
          { s.store.staging with state := .validated } } } 0x0004 .ok)) ∧
      (s.store.staging.state ≠ .empty → recordValid s.store.staging.bytes = false →
        exec .validate s = .next (answered s 0x0004 .invalidArg)))

/-- The record checks: every field of Table 10.9 in the values of Table 8.2, rungs beyond the count unchecked, and a valid
code table (R157, R195). -/
def Obligations.RecordChecks : Prop :=
  ∀ r : List Byte, recordValid r = true ↔
    (∀ n, n < 8 → n < r.length → 0x20 ≤ (r.getD n 0).toNat ∧ (r.getD n 0).toNat ≤ 0x7E) ∧
    wordAt r 8 ≠ 0 ∧
    ((byteAt r 10).getLsbD 0 = true ∨ (byteAt r 10).getLsbD 1 = true) ∧
    ((byteAt r 10).getLsbD 2 = true ∨ (byteAt r 10).getLsbD 3 = true) ∧
    (1 ≤ num16At r 12 ∧ num16At r 12 ≤ 512) ∧ (1 ≤ num16At r 14 ∧ num16At r 14 ≤ 512) ∧
    (1 ≤ numAt r 16 ∧ numAt r 16 ≤ 4) ∧
    (∀ k, k < numAt r 16 → (1 ≤ numAt r (17 + 2 * k) ∧ numAt r (17 + 2 * k) ≤ 254) ∧ numAt r (18 + 2 * k) ≤ 15) ∧
    (1 ≤ numAt r 25 ∧ numAt r 25 ≤ 4) ∧
    (∀ k, k < numAt r 25 →
      (numAt r (26 + 2 * k) = 1 ∨ numAt r (26 + 2 * k) = 2 ∨ numAt r (26 + 2 * k) = 4) ∧
      (numAt r (27 + 2 * k) = 4 ∨ numAt r (27 + 2 * k) = 8 ∨ numAt r (27 + 2 * k) = 16)) ∧
    (64 ≤ num16At r 34 ∧ num16At r 34 ≤ 2048) ∧ (64 ≤ num16At r 36 ∧ num16At r 36 ≤ 2048) ∧
    (1 ≤ num16At r 38 ∧ num16At r 38 ≤ 1024) ∧ (1 ≤ num16At r 40 ∧ num16At r 40 ≤ 1024) ∧
    num16At r 42 ≤ 1000 ∧ num16At r 44 ≤ 1000 ∧ num16At r 46 ≤ 1000 ∧
    numAt r 48 ≤ 15 ∧ (∀ k, k < 7 → numAt r (49 + k) ≤ 1) ∧
    (1 ≤ num16At r 56 ∧ num16At r 56 ≤ 2000) ∧
    codeTableValid r = true

/-- A code table is valid exactly when every length lies in 1 to 16 with its pattern below 2 to that length, and no entry's
bits, most significant first, begin another entry's (R124). -/
def Obligations.CodeTableValidIffPrefixFree : Prop :=
  ∀ r : List Byte, codeTableValid r = true ↔
    (∀ e, e < 98 → 1 ≤ numAt r (58 + 3 * e) ∧ numAt r (58 + 3 * e) ≤ 16 ∧
      num16At r (59 + 3 * e) < 2 ^ numAt r (58 + 3 * e)) ∧
    (∀ d e, d < 98 → e < 98 → d ≠ e → ¬ (codeBits r d <+: codeBits r e))

/-- BIND: to a block BAD_STATE unless it is VALID, to STAGING STAGING_NOT_VALID unless it is VALIDATED, to NONE always taken; a
taken BIND replaces the lane's binding and nothing else (R159). A source has a user: an item pinned to it or a lane bound to
it (R160). -/
def Obligations.BindingsAndUsers : Prop :=
  (∀ (s : State) (l : Lane), Running s → s.sup.operandA.toNat = l.val →
     (∀ b : BlockNo, s.sup.operandB.toNat = b.val →
       ((s.store.blocks.get b).state ≠ .valid → exec .bind s = .next (answered s 0x0007 .badState)) ∧
       ((s.store.blocks.get b).state = .valid → exec .bind s = .next (answered { s with store := { s.store with
         bindings := put s.store.bindings l (some (.block b)) } } 0x0007 .ok))) ∧
     (s.sup.operandB.toNat = 8 →
       (s.store.staging.state ≠ .validated → exec .bind s = .next (answered s 0x0007 .stagingNotValid)) ∧
       (s.store.staging.state = .validated → exec .bind s = .next (answered { s with store := { s.store with
         bindings := put s.store.bindings l (some .staging) } } 0x0007 .ok))) ∧
     (s.sup.operandB.toNat = 9 → exec .bind s = .next (answered { s with store := { s.store with
       bindings := put s.store.bindings l none } } 0x0007 .ok))) ∧
  (∀ (st : Store) (b : BlockNo),
     (st.inUse (.block b) = true ↔ 0 < st.pins.get b ∨ ∃ l, st.bindings.get l = some (.block b)) ∧
     (st.inUse .staging = true ↔ 0 < st.stagingPins ∨ ∃ l, st.bindings.get l = some .staging))

/-- Edit enable: set by STORE EDIT ON with STORE_WE high, left clear with NOT_ENABLED while it is low, cleared by STORE EDIT
OFF and by the fall of STORE_WE (R161; the pin's level is the command's operand, log 9). ERASE and PROGRAM answer the first
refusal of Table 8.5 that applies and change nothing else; with none, the block is BUSY with its mark OPEN and the store is in
the operation's phase, answered OK (R163 to R165). -/
def Obligations.EditEnableEraseProgram : Prop :=
  (∀ s : State,
      (Running s →
        exec (.storeEditOn true) s = .next (answered { s with
          pins := { s.pins with storeWe := true }, store := { s.store with editEnable := true } } 0x0001 .ok) ∧
        exec (.storeEditOn false) s = .next (answered { s with
          pins := { s.pins with storeWe := false }, store := { s.store with editEnable := false } } 0x0001 .notEnabled) ∧
        exec .storeEditOff s = .next (answered { s with store := { s.store with editEnable := false } } 0x0002 .ok)) ∧
      exec .storeWeFall s = .next { s with
        pins := { s.pins with storeWe := false }, store := { s.store with editEnable := false } }) ∧
  (∀ (s : State) (b : BlockNo), Running s → s.sup.operandA.toNat = b.val →
      (s.store.phase ≠ .idle →
        exec .erase s = .next (answered s 0x0006 .busy) ∧ exec .program s = .next (answered s 0x0005 .busy)) ∧
      (s.store.phase = .idle →
        (s.store.latch = true →
          exec .erase s = .next (answered s 0x0006 .protectedStore) ∧
          exec .program s = .next (answered s 0x0005 .protectedStore)) ∧
        (s.store.latch = false →
          (s.store.editEnable = false →
            exec .erase s = .next (answered s 0x0006 .notEnabled) ∧
            exec .program s = .next (answered s 0x0005 .notEnabled)) ∧
          (s.store.editEnable = true →
            (s.store.inUse (.block b) = true → exec .erase s = .next (answered s 0x0006 .inUse)) ∧
            (s.store.inUse (.block b) = false →
              exec .erase s = .next (answered { s with store := { s.store with
                blocks := put s.store.blocks b { s.store.blocks.get b with state := .busy, opened := true }
                phase := .erasing
                operation := some (.erase, b)
                phaseLeft := 120 } } 0x0006 .ok)) ∧
            ((s.store.blocks.get b).state ≠ .empty → exec .program s = .next (answered s 0x0005 .badState)) ∧
            ((s.store.blocks.get b).state = .empty →
              (s.store.inUse (.block b) = true → exec .program s = .next (answered s 0x0005 .inUse)) ∧
              (s.store.inUse (.block b) = false →
                (s.store.staging.state ≠ .validated →
                  exec .program s = .next (answered s 0x0005 .stagingNotValid)) ∧
                (s.store.staging.state = .validated →
                  ((∃ c, (s.store.blocks.get c).state = .valid ∧
                      (s.store.blocks.get c).bytes.take 10 = s.store.staging.bytes.take 10) →
                    exec .program s = .next (answered s 0x0005 .duplicate)) ∧
                  ((∀ c, (s.store.blocks.get c).state = .valid →
                      (s.store.blocks.get c).bytes.take 10 ≠ s.store.staging.bytes.take 10) →
                    exec .program s = .next (answered { s with store := { s.store with
                      blocks := put s.store.blocks b { s.store.blocks.get b with state := .busy, opened := true }
                      phase := .programming
                      operation := some (.program, b)
                      phaseLeft := 40 } } 0x0005 .ok)))))))))

/-- The write phase ends: an erased block reads FFh in every byte, a programmed one holds staging bytes 0 to 509 and the CRC
of them; the store enters VERIFYING (R162, R164, R165). A completion outside its phase changes nothing (the model's choice,
log 1). -/
def Obligations.WriteCompletes : Prop :=
  ∀ (s : State) (b : BlockNo), Running s →
    (s.store.phase = .erasing → s.store.operation = some (.erase, b) →
      exec .erasingComplete s = .next { s with store := { s.store with
        blocks := put s.store.blocks b { s.store.blocks.get b with bytes := List.replicate 512 0xFF }
        phase := .verifying
        phaseLeft := 5 } }) ∧
    (s.store.phase = .programming → s.store.operation = some (.program, b) →
      exec .programmingComplete s = .next { s with store := { s.store with
        blocks := put s.store.blocks b { s.store.blocks.get b with
          bytes := s.store.staging.bytes.take 510 ++ wordBytes (crc16 (s.store.staging.bytes.take 510)) }
        phase := .verifying
        phaseLeft := 5 } }) ∧
    (s.store.phase ≠ .erasing → exec .erasingComplete s = .next s) ∧
    (s.store.phase ≠ .programming → exec .programmingComplete s = .next s)

/-- The end of a verify with every byte as written passes: mark CLOSED, EMPTY or VALID, PASSED, STORE_DONE. With a byte that
differs it fails: INVALID with the mark as it was, the latch set, FAILED, STORE_DONE and STORE_FAULT. Either way the
store is IDLE with no operation (R166, R167; which bytes differ is the command's operand, log 12). -/
def Obligations.VerifyEndResult : Prop :=
  ∀ (s : State) (op : StoreOp) (b : BlockNo) (lost : List (Nat × Byte)), Running s → s.store.phase = .verifying →
    s.store.operation = some (op, b) →
    let written := match op with
      | .erase => List.replicate 512 0xFF#8
      | .program => s.store.staging.bytes.take 510 ++ wordBytes (crc16 (s.store.staging.bytes.take 510))
    let read := lost.foldl (fun bytes x => bytes.set x.1 x.2) (s.store.blocks.get b).bytes
    (read = written → exec (.verifyEnd lost) s = .next { s with
      store := { s.store with
        blocks := put s.store.blocks b { bytes := read, opened := false, state := match op with
          | .erase => .empty
          | .program => .valid }
        last := some ⟨op, b, false⟩, operation := none, phase := .idle, phaseLeft := 0 }
      sup := { s.sup with causes := s.sup.causes ||| 1 } }) ∧
    (read ≠ written → exec (.verifyEnd lost) s = .next { s with
      store := { s.store with
        blocks := put s.store.blocks b { s.store.blocks.get b with bytes := read, state := .invalid }
        latch := true, last := some ⟨op, b, true⟩, operation := none, phase := .idle, phaseLeft := 0 }
      sup := { s.sup with causes := s.sup.causes ||| 3 } })

/-- The start-up scan ends: each block is INVALID with its mark OPEN, else EMPTY when all its bytes are FFh, else VALID when
the CRC of its first 510 bytes is its last two, else INVALID; bytes and marks stay, the store is IDLE, and no cause is
set (R171). An end of the scan outside STARTING changes nothing (the model's choice, log 1). -/
def Obligations.StartUpScanResult : Prop :=
  ∀ s : State, Running s →
    (s.store.phase = .starting → exec .startUpScanEnd s = .next { s with store := { s.store with
      blocks := s.store.blocks.map fun b => { b with
        state :=
          if b.opened = true then .invalid
          else if b.bytes = List.replicate 512 0xFF#8 then .empty
          else if crc16 (b.bytes.take 510) = b.bytes.getD 510 0 ++ b.bytes.getD 511 0 then .valid
          else .invalid }
      phase := .idle
      phaseLeft := 0 } }) ∧
    (s.store.phase ≠ .starting → exec .startUpScanEnd s = .next s)

/-! ## Lanes and settings -/

/-- LANE CLOSE makes the lane CLOSED and sets DRAINED when its queue is empty; LANE OPEN makes it ADMITTING and clears nothing
(R19, R20, R22). SET QUOTA, SET MASK and SET STALL set their one setting and answer OK (R21, R142, R148). SET RESERVE sets
the head reserve, the dispatcher acts once, and the command is answered OK (R84, R92). -/
def Obligations.LaneAndSettingsCommands : Prop :=
  (∀ (s : State) (l : Lane), Running s → s.sup.operandA.toNat = l.val →
     exec .laneOpen s = .next (answered { s with
       lanes := put s.lanes l { s.lanes.get l with closed := false } } 0x0009 .ok) ∧
     ((s.lanes.get l).queue ≠ [] → exec .laneClose s = .next (answered { s with
       lanes := put s.lanes l { s.lanes.get l with closed := true } } 0x0008 .ok)) ∧
     ((s.lanes.get l).queue = [] → exec .laneClose s = .next (answered { s with
       lanes := put s.lanes l { s.lanes.get l with closed := true }
       sup := { s.sup with causes := s.sup.causes ||| 16 } } 0x0008 .ok))) ∧
  (∀ s : State, Running s →
     (∀ l : Lane, s.sup.operandA.toNat = l.val → 1 ≤ s.sup.operandB.toNat → s.sup.operandB.toNat ≤ 256 →
       exec .setQuota s = .next (answered { s with
         lanes := put s.lanes l { s.lanes.get l with quota := s.sup.operandB.toNat } } 0x000B .ok)) ∧
     (∀ (p : Port) (mask : BitVec 4), s.sup.operandA.toNat = p.val → s.sup.operandB.toNat = mask.toNat →
       exec .setMask s = .next (answered { s with
         exchange := put s.exchange p { s.exchange.get p with mask := mask } } 0x000E .ok)) ∧
     (10 ≤ s.sup.operandA.toNat → s.sup.operandA.toNat ≤ 60000 →
       exec .setStall s = .next (answered { s with stallLimit := s.sup.operandA.toNat } 0x000F .ok))) ∧
  (∀ s : State, Running s → s.sup.operandA.toNat ≤ 2048 →
     exec .setReserve s = .next (withAnswer
       { given s 0x0010 with pages := { s.pages with headReserve := s.sup.operandA.toNat } }.dispatchAct .ok))

/-! ## Scan ports -/

/-- A frame that arrives while frames wait, or one other than a ROW while the held row is being written, waits in order of
arrival; in DOWN no frame is received; any other frame is taken as it arrives. Waiting frames are taken from the first on: a
ROW at once, any other once the held row is empty, and what stands behind a frame that waits waits with it. A frame is taken
in one way, `takeFrame`, whenever it is taken, so what the results of the frames say of a frame that arrives at a clear port
holds of a waiting frame too; and the frames that stand behind it make no difference but that they still stand there (R33,
R42). -/
def Obligations.FramesWaitInOrder : Prop :=
  (∀ (s : State) (c : Instr) (l : Lane) (f : ScanFrame), Running s → scanFrameOf c = some (l, f) →
     ((s.scan.get l).state = .down → exec c s = .next s) ∧
     ((s.scan.get l).state ≠ .down →
       ((s.scan.get l).waiting ≠ [] ∨ ((∀ pixels, f ≠ .row pixels) ∧ (s.scan.get l).held.isSome = true) →
         exec c s = .next { s with
           scan := put s.scan l { s.scan.get l with gathering := [], waiting := (s.scan.get l).waiting ++ [f] } }) ∧
       ((s.scan.get l).waiting = [] → ((∃ pixels, f = .row pixels) ∨ (s.scan.get l).held = none) →
         exec c s = .next (({ s with scan := put s.scan l { s.scan.get l with gathering := [] } } : State).takeFrame l f) ∧
         ((s.scan.get l).gathering = [] → exec c s = .next (s.takeFrame l f))))) ∧
  (∀ (s : State) (l : Lane),
     ((s.scan.get l).waiting = [] → s.drainWaiting l = s) ∧
     (∀ f rest, (s.scan.get l).waiting = f :: rest →
       ((∃ pixels, f = .row pixels) ∨ (s.scan.get l).held = none →
         s.drainWaiting l =
           (({ s with scan := put s.scan l { s.scan.get l with waiting := rest } } : State).takeFrame l f).drainWaiting l) ∧
       ((∀ pixels, f ≠ .row pixels) → (s.scan.get l).held.isSome = true → s.drainWaiting l = s))) ∧
  (∀ (s : State) (l : Lane) (f : ScanFrame) (behind : List ScanFrame),
     let standing (u : State) : State := { u with scan := put u.scan l { u.scan.get l with waiting := behind } }
     (standing s).takeFrame l f = standing (s.takeFrame l f))

/-- In IDLE every frame but ITEM OPEN is discarded; in DISCARD a ROW, FACE OPEN, FACE CLOSE and failed frame are, and ITEM
CLOSE and ITEM ABANDON take the port to IDLE and change nothing else (R34, R43, R44). -/
def Obligations.FramesPassedOver : Prop :=
  ∀ (s : State) (c : Instr) (l : Lane) (f : ScanFrame), Running s → PortClear s l → scanFrameOf c = some (l, f) →
    (∀ bundle position faces, f ≠ .itemOpen bundle position faces) →
    ((s.scan.get l).state = .idle → exec c s = .next s) ∧
    ((s.scan.get l).state = .discard →
      ((f = .itemClose ∨ ∃ reason, f = .itemAbandon reason) →
        exec c s = .next { s with scan := put s.scan l { s.scan.get l with state := .idle } }) ∧
      (f ≠ .itemClose → (∀ reason, f ≠ .itemAbandon reason) → exec c s = .next s))

/-- An ITEM OPEN in IDLE or DISCARD that no reason of Table 1.4 refuses: the lowest FREE slot becomes LANDING with the record of
R9, the stamp counter advances, the slot joins its lane's queue, the source's pin count rises, SLOT GIVEN is produced, the
pocket timer starts with the profile's deadline, and the dispatcher acts when the lane's head has changed (R2, R3, R6, R9,
R16, R34, R65). -/
def Obligations.ItemOpenAdmitted : Prop :=
  ∀ (s : State) (l : Lane) (bundle : Long) (position : Word) (faces : Byte) (k : Slot) (src : Source),
    Running s → PortClear s l → ((s.scan.get l).state = .idle ∨ (s.scan.get l).state = .discard) →
    position ≠ 0 → (faces = 1 ∨ faces = 2) →
    (s.lanes.get l).closed = false → s.store.bindings.get l = some src → s.store.usable src = true →
    (s.lanes.get l).queue.length < (s.lanes.get l).quota → LowestFree s k →
    let p := s.scan.get l
    let record := s.store.record src
    let t : State := { s with
      items := put s.items k { Item.empty with
        state := .landing, lane := l, stamp := s.stamp, bundle := bundle, position := position, facesExpected := faces
        source := some src, name := record.take 8, edition := wordAt record 8, trial := decide (src = .staging) }
      stamp := s.stamp + 1
      lanes := put s.lanes l { s.lanes.get l with queue := (s.lanes.get l).queue ++ [k] }
      store := match src with
        | .block b => { s.store with pins := put s.store.pins b (s.store.pins.get b + 1) }
        | .staging => { s.store with stagingPins := s.store.stagingPins + 1 }
      scan := put s.scan l { p with
        attached := some k, state := .item, current := none
        timer := some ⟨num16At record 56, num16At record 56⟩
        produced := sentOn p.link p.produced (.slotGiven position k) } }
    exec (.itemOpen l bundle position faces) s = .next (if (s.lanes.get l).queue = [] then t.dispatchAct else t)

/-- An ITEM OPEN in IDLE or DISCARD is refused with the first reason of Table 1.4 that applies: SLOT REFUSED is produced, the
port is IDLE, and nothing else changes (R17, R34, R43). -/
def Obligations.ItemOpenRefused : Prop :=
  ∀ (s : State) (l : Lane) (bundle : Long) (position : Word) (faces : Byte),
    Running s → PortClear s l → ((s.scan.get l).state = .idle ∨ (s.scan.get l).state = .discard) →
    position ≠ 0 → (faces = 1 ∨ faces = 2) →
    let refused (why : SlotRefusal) : State := { s with scan := put s.scan l { s.scan.get l with
      state := .idle
      produced := sentOn (s.scan.get l).link (s.scan.get l).produced (.slotRefused position why) } }
    let unbound := ∀ src, s.store.bindings.get l = some src → s.store.usable src = false
    ((s.lanes.get l).closed = true → exec (.itemOpen l bundle position faces) s = .next (refused .laneClosed)) ∧
    ((s.lanes.get l).closed = false →
      (unbound → exec (.itemOpen l bundle position faces) s = .next (refused .noProfile)) ∧
      (¬ unbound →
        ((s.lanes.get l).quota ≤ (s.lanes.get l).queue.length →
          exec (.itemOpen l bundle position faces) s = .next (refused .quota)) ∧
        ((s.lanes.get l).queue.length < (s.lanes.get l).quota →
          (∀ k, (s.items.get k).state ≠ .free) →
          exec (.itemOpen l bundle position faces) s = .next (refused .tableFull))))

/-- A FACE OPEN in ITEM is accepted when its width lies in 64 to 2,048, its kind is new to the item and a face is still expected:
a LANDING face with fresh accumulators, its WAITING renditions BITONAL before GRAY as the profile selects, and the port in
FACE. Otherwise it is a protocol fault (R7, R35, R39, R53). -/
def Obligations.FaceOpenResult : Prop :=
  ∀ (s : State) (l : Lane) (k : Slot) (code : Byte) (kind : FaceKind) (width : Word),
    Running s → PortClear s l → Attached s l k → (s.scan.get l).state = .item → code = kind.code →
    let i := s.items.get k
    let record := s.itemRecord k
    let made (rendition : RenditionKind) (budget : Nat) : Rendition :=
      { face := kind, kind := rendition, state := .waiting, rung := 0, budget := budget, chain := [], output := none }
    let accepted := 64 ≤ width.toNat ∧ width.toNat ≤ 2048 ∧ (∀ f ∈ i.faces, f.kind ≠ kind) ∧
      i.faces.length < i.facesExpected.toNat
    (accepted → exec (.faceOpen l code width) s = .next { s with
      items := put s.items k { i with
        faces := i.faces ++ [⟨kind, width.toNat, .landing, 0, 0, [],
          some { darkLevel := numAt record 11, darkCount := 0, columns := List.replicate width.toNat 0 }⟩]
        renditions := i.renditions ++
          (if (byteAt record 10).getLsbD (match kind with | .front => 0 | .rear => 2) then
            [made .bitonal (num16At record 12)] else []) ++
          (if (byteAt record 10).getLsbD (match kind with | .front => 1 | .rear => 3) then
            [made .gray (num16At record 14)] else []) }
      scan := put s.scan l { s.scan.get l with state := .face, current := some kind } }) ∧
    (¬ accepted → exec (.faceOpen l code width) s =
      .next ((rejected s l k .protocol 0 true .idle).rejectRenditions k))

/-- A ROW in FACE: of another width it is lost; while the held row is being written it replaces it at the same position, the
older row lost; else it is lost past 1,024 rows or when it needs a strip and none is free, STRIP_FAMINE being set; else it
becomes the held row at the next position, with a strip taken at each sixteenth (R40, R48, R50, R76). -/
def Obligations.RowResult : Prop :=
  ∀ (s : State) (l : Lane) (k : Slot) (kind : FaceKind) (f : Face) (pixels : List Byte),
    Running s → (s.scan.get l).gathering = [] → (s.scan.get l).waiting = [] → (s.scan.get l).state = .face →
    (s.scan.get l).attached = some k → (s.scan.get l).current = some kind → (s.items.get k).face? kind = some f →
    1 ≤ pixels.length → pixels.length ≤ 2048 →
    let i := s.items.get k
    let lost : Item := i.modFace kind fun x => { x with rowsLost := min (x.rowsLost + 1) 65535 }
    let holding (position : Nat) : Vector ScanPort 4 :=
      put s.scan l { s.scan.get l with held := some ⟨position, pixels, 0⟩ }
    (pixels.length ≠ f.width → exec (.row l pixels) s = .next { s with items := put s.items k lost }) ∧
    (pixels.length = f.width →
      (∀ h, (s.scan.get l).held = some h → exec (.row l pixels) s = .next { s with
        items := put s.items k lost
        scan := holding h.position
        arbiter := (s.arbiter.forsake (.w l)).mark (.w l) true }) ∧
      ((s.scan.get l).held = none →
        (1024 ≤ f.rowsLanded → exec (.row l pixels) s = .next { s with items := put s.items k lost }) ∧
        (f.rowsLanded < 1024 → f.rowsLanded % 16 = 0 → s.strips = [] →
          exec (.row l pixels) s = .next { s with
            items := put s.items k lost, sup := { s.sup with causes := s.sup.causes ||| 32 } }) ∧
        (∀ strip rest, f.rowsLanded < 1024 → f.rowsLanded % 16 = 0 → s.strips = strip :: rest →
          exec (.row l pixels) s = .next { s with
            strips := rest
            items := put s.items k (i.modFace kind fun x => { x with strips := x.strips ++ [strip] })
            scan := holding f.rowsLanded
            arbiter := s.arbiter.mark (.w l) true }) ∧
        (f.rowsLanded < 1024 → f.rowsLanded % 16 ≠ 0 → exec (.row l pixels) s = .next { s with
          scan := holding f.rowsLanded
          arbiter := s.arbiter.mark (.w l) true })))

/-- The findings of an evaluation, in the order of Table 3.2, with their tests, values and severities (R56 to R60). -/
def Obligations.EvaluationFindings : Prop :=
  ∀ (record : List Byte) (f : Face) (a : Accumulators),
    let presented := f.rowsLanded + f.rowsLost
    let perMille := a.darkCount * 1000 / (f.rowsLanded * f.width)
    let streaked := (a.columns.filter fun n => num16At record 46 * f.rowsLanded ≤ n * 1000).length
    let severity (place : Nat) : Severity := if numAt record (49 + place) = 1 then .reject else .note
    let when (test : Prop) [Decidable test] (kind : FindingKind) (grade : Severity) (value : Nat) : List Finding :=
      if test then [⟨kind, FindingFace.ofKind f.kind, grade, value⟩] else []
    evaluate record f a =
      when (presented < num16At record 38) .short (severity 0) (min presented 65535) ++
      when (num16At record 40 < presented) .long (severity 1) (min presented 65535) ++
      when (f.width < num16At record 34) .narrow (severity 2) f.width ++
      when (num16At record 36 < f.width) .wide (severity 3) f.width ++
      when (0 < f.rowsLost) .truncated (if numAt record 48 < f.rowsLost then .reject else .note) f.rowsLost ++
      when (0 < f.rowsLanded ∧ num16At record 44 < perMille) .dark (severity 4) perMille ++
      when (0 < f.rowsLanded ∧ perMille < num16At record 42) .light (severity 5) perMille ++
      when (0 < f.rowsLanded ∧ 0 < streaked) .streak (severity 6) streaked

/-- A FACE CLOSE in FACE: the face is LANDED, the evaluation's findings are added and judged. With the pocket still PENDING the
face's WAITING renditions are QUEUED and their jobs appended in list order, the port returns to ITEM and the dispatcher
acts. With a REJECT the pocket is decided, POCKET produced, landing ends, the port is in DISCARD, and the renditions are
dealt with (R41, R42, R56, R61, R63, R67, R89). -/
def Obligations.FaceCloseResult : Prop :=
  ∀ (s : State) (l : Lane) (k : Slot) (kind : FaceKind) (f : Face) (a : Accumulators),
    Running s → PortClear s l → Attached s l k → (s.scan.get l).state = .face → (s.scan.get l).current = some kind →
    (s.items.get k).face? kind = some f → f.accum = some a →
    let closed : Item := (s.items.get k).modFace kind fun x => { x with state := .landed, accum := none }
    let judged : Item :=
      (evaluate (s.itemRecord k) f a).foldl (findingJudged (elapsed (s.scan.get l).timer)) closed
    let waits (r : Rendition) : Bool := decide (r.face = kind) && decide (r.state = .waiting)
    (judged.pocket = .pending →
      let t : State := { s with
        items := put s.items k { judged with
          renditions := judged.renditions.map fun r => if waits r then { r with state := .queued } else r }
        jobs := s.jobs ++ (judged.renditions.filter waits).map fun r => Job.mk k r.face r.kind
        scan := put s.scan l { s.scan.get l with state := .item, current := none } }
      exec (.faceClose l) s = .next (t.returnStrips k kind).dispatchAct) ∧
    (judged.pocket ≠ .pending →
      exec (.faceClose l) s = .next ((landingEnded s l k judged true .discard).rejectRenditions k))

/-- An ITEM CLOSE in ITEM: with a face missing it is rejected with FACE_MISSING and the number missing; else the pocket is ACCEPT
with the latency. POCKET is produced, landing ends, the port is IDLE, strips go back and the settling test is applied
(R36, R64, R67). -/
def Obligations.ItemCloseResult : Prop :=
  ∀ (s : State) (l : Lane) (k : Slot),
    Running s → PortClear s l → Attached s l k → (s.scan.get l).state = .item →
    let i := s.items.get k
    let landed := (i.faces.filter fun f => f.state = .landed).length
    (landed < i.facesExpected.toNat → exec (.itemClose l) s =
      .next ((rejected s l k .faceMissing (i.facesExpected.toNat - landed) true .idle).rejectRenditions k)) ∧
    (i.facesExpected.toNat ≤ landed → exec (.itemClose l) s = .next
      (((landingEnded s l k
        { i with pocket := .accept, reason := none, latency := some (elapsed (s.scan.get l).timer) }
        true .idle).returnAllStrips k).settle k))

/-- What rejects the attached item by a frame: ITEM ABANDON with its reason code, the port to IDLE; a failed frame with
LINK_ERROR, the port to DISCARD; and the protocol faults of Table 2.3, the port to IDLE (R37, R38, R39, R44). An ITEM OPEN is
such a fault too, and is then taken as new by the port, IDLE and clear (R39). -/
def Obligations.FramesThatReject : Prop :=
  ∀ (s : State) (l : Lane) (k : Slot), Running s → PortClear s l → Attached s l k →
    ((s.scan.get l).state = .item ∨ ((s.scan.get l).state = .face ∧ (s.scan.get l).current.isSome = true)) →
    (∀ reason : Byte, exec (.itemAbandon l reason) s =
      .next ((rejected s l k .abandoned reason.toNat true .idle).rejectRenditions k)) ∧
    exec (.scanFailedFrame l) s = .next ((rejected s l k .linkError 0 true .discard).rejectRenditions k) ∧
    (∀ c f, scanFrameOf c = some (l, f) → (∀ bundle position faces, f ≠ .itemOpen bundle position faces) →
      (∀ reason, f ≠ .itemAbandon reason) → f ≠ .failed →
      ((s.scan.get l).state = .item → (∀ kind width, f ≠ .faceOpen kind width) → f ≠ .itemClose →
        exec c s = .next ((rejected s l k .protocol 0 true .idle).rejectRenditions k)) ∧
      ((s.scan.get l).state = .face → (∀ pixels, f ≠ .row pixels) → f ≠ .faceClose →
        exec c s = .next ((rejected s l k .protocol 0 true .idle).rejectRenditions k))) ∧
    (∀ (bundle : Long) (position : Word) (faces : Byte), position ≠ 0 → (faces = 1 ∨ faces = 2) →
      let t := (rejected s l k .protocol 0 true .idle).rejectRenditions k
      exec (.itemOpen l bundle position faces) s = exec (.itemOpen l bundle position faces) t ∧
        (t.scan.get l).state = .idle ∧ PortClear t l)

/-- A frame whose contents are out of range is a failed frame (R30, R127). -/
def Obligations.OutOfRangeContentsFail : Prop :=
  ∀ s : State,
    (∀ l bundle position faces, (position = 0 ∨ (faces ≠ 1 ∧ faces ≠ 2)) →
      exec (.itemOpen l bundle position faces) s = exec (.scanFailedFrame l) s) ∧
    (∀ l code width, code ≠ 0 → code ≠ 1 → exec (.faceOpen l code width) s = exec (.scanFailedFrame l) s) ∧
    (∀ l pixels, (pixels = [] ∨ 2048 < pixels.length) → exec (.row l pixels) s = exec (.scanFailedFrame l) s) ∧
    (∀ p mask, (mask = 0 ∨ 15 < mask.toNat) → exec (.claim p mask) s = exec (.exchangeFailedFrame p) s) ∧
    (∀ p, exec (.exchangeFailedFrame p) s = .next s)

/-- The pocket timer's expiry rejects the attached item with LATE and the deadline, its latency the deadline; a row being written
is abandoned, the port is in DISCARD and takes its waiting frames. A STOPPED timer does not expire (R42, R51, R65, R66). -/
def Obligations.PocketTimerExpiry : Prop :=
  ∀ (s : State) (l : Lane), Running s →
    (∀ k t, Attached s l k → (s.scan.get l).timer = some t →
      exec (.pocketTimerExpiry l) s = .next (((landingEnded s l k
        (findingJudged t.deadline (s.items.get k) ⟨.late, .item, .reject, t.deadline⟩) true .discard).rejectRenditions
          k).drainWaiting l)) ∧
    ((s.scan.get l).timer = none → exec (.pocketTimerExpiry l) s = .next s)

/-- A scan link coming up takes a DOWN port to IDLE with empty buffers and sets LINK; a link lost takes the port to DOWN, sets
LINK, discards frames and unsent messages, and rejects an attached item with LINK_LOST and no POCKET (R31, R45). A link that
comes up at a port not DOWN, or is lost at a port that is DOWN, changes nothing (the model's choice, log 1). -/
def Obligations.ScanLinkChanges : Prop :=
  ∀ (s : State) (l : Lane), Running s →
    let emptied (t : State) (link : Bool) (state : ScanState) : State := { t with
      scan := put t.scan l { t.scan.get l with
        link := link, state := state, gathering := [], waiting := [], held := none, produced := [], begun := false }
      sup := { t.sup with causes := t.sup.causes ||| 4 } }
    ((s.scan.get l).state = .down →
      exec (.scanLinkUp l) s = .next (emptied s true .idle) ∧ exec (.scanLinkLost l) s = .next s) ∧
    ((s.scan.get l).state ≠ .down →
      exec (.scanLinkUp l) s = .next s ∧
      ((s.scan.get l).attached = none → exec (.scanLinkLost l) s = .next (emptied s false .down)) ∧
      (∀ k, Attached s l k → exec (.scanLinkLost l) s =
        .next (emptied ((rejected s l k .linkLost 0 false .down).rejectRenditions k) false .down)))

/-- LANE RESET discards the port's frames and held row, rejects an attached item with LANE_RESET and no POCKET, withdraws the
writer's request, takes the port to IDLE or DOWN by its link, and answers OK (R46, R87). -/
def Obligations.LaneResetResult : Prop :=
  ∀ (s : State) (l : Lane), Running s → s.sup.operandA.toNat = l.val →
    let next : ScanState := if (s.scan.get l).link then .idle else .down
    let cleared : State := { given s 0x000A with
      scan := put s.scan l { s.scan.get l with gathering := [], waiting := [] } }
    let reset (t : State) : State := withAnswer { t with
      arbiter := (t.arbiter.mark (.w l) false).forsake (.w l)
      scan := put t.scan l { t.scan.get l with held := none, state := next } } .ok
    ((s.scan.get l).attached = none → exec .laneReset s = .next (reset cleared)) ∧
    (∀ k, Attached s l k → exec .laneReset s =
      .next (reset ((rejected cleared l k .laneReset 0 false next).rejectRenditions k)))

/-- PURGE: a FREE slot NOT_IN_USE, a CLAIMED item CLAIMED, a purged item OK with no change. A LANDING item is rejected with
PURGED and its port goes to DISCARD; a SETTLING item has its renditions dealt with; a READY item loses its DONE renditions
and their pages and is REJECTED, and the dispatcher acts (R23 to R26, R83). -/
def Obligations.PurgeResult : Prop :=
  ∀ (s : State) (k : Slot), Running s → s.sup.operandA.toNat = k.val →
    let i := s.items.get k
    let finding : Finding := ⟨.purged, .item, .reject, 0⟩
    let marked : Item := { i with purged := true }
    (i.state = .free → exec .purge s = .next (answered s 0x000C .notInUse)) ∧
    (i.state = .claimed → exec .purge s = .next (answered s 0x000C .claimed)) ∧
    (i.purged = true → (i.state = .landing ∨ i.state = .settling ∨ i.state = .ready) →
      exec .purge s = .next (answered s 0x000C .ok)) ∧
    (i.purged = false →
      (∀ l, Attached s l k → exec .purge s = .next (withAnswer (((landingEnded (given s 0x000C) l k
        (findingJudged (elapsed (s.scan.get l).timer) marked finding) true .discard).rejectRenditions k).drainWaiting l)
          .ok)) ∧
      (i.state = .settling → i.pocket ≠ .pending →
        let t : State := { given s 0x000C with items := put s.items k (findingAdded marked finding) }
        exec .purge s = .next (withAnswer (t.rejectRenditions k) .ok)) ∧
      (i.state = .ready → i.pocket ≠ .pending →
        let chains := (i.renditions.map fun r => r.chain).flatten
        let t : State := { given s 0x000C with
          pages := { s.pages with
            free := chains.reverse ++ s.pages.free
            freeCount := s.pages.freeCount + chains.length }
          items := put s.items k { findingAdded marked finding with
            disposition := some .rejected
            renditions := i.renditions.map fun r =>
              if r.state = .done then { r with state := .cancelled, output := none, chain := [] }
              else { r with chain := [] } } }
        exec .purge s = .next (withAnswer t.dispatchAct .ok)))

/-! ## Behind reception -/

/-- The settling test: a SETTLING item whose pocket is decided and whose renditions are all final becomes READY, REJECTED when
its pocket is REJECT or it is purged, else UNFIT with an OVERSIZE or FAULT rendition, else ACCEPTED, and as lane head it
brings an act of the release arbiter; the strip return test; and what a REJECT or PURGE does to each rendition and in what
order (R11, R12, R77, R106 to R108). What the unit of an aborted job holds beyond the rules is the model's choice (log 29,
log 31). -/
def Obligations.SettlingStages : Prop :=
  ∀ (s : State) (k : Slot),
    let i := s.items.get k
    let final (r : Rendition) : Prop :=
      r.state = .done ∨ r.state = .oversize ∨ r.state = .fault ∨ r.state = .cancelled
    let settles := i.state = .settling ∧ i.pocket ≠ .pending ∧ ∀ r ∈ i.renditions, final r
    let disposed (d : Disposition) : State :=
      { s with items := put s.items k { i with state := .ready, disposition := some d } }
    let settled (d : Disposition) : State :=
      if (s.lanes.get i.lane).queue.head? = some k then (disposed d).releaseAct else disposed d
    let spoilt := ∃ r ∈ i.renditions, r.state = .oversize ∨ r.state = .fault
    (¬ settles → s.settle k = s) ∧
    (settles →
      (i.pocket = .reject ∨ i.purged = true → s.settle k = settled .rejected) ∧
      (i.pocket ≠ .reject → i.purged = false → spoilt → s.settle k = settled .unfit) ∧
      (i.pocket ≠ .reject → i.purged = false → ¬ spoilt → s.settle k = settled .accepted)) ∧
    (∀ kind f, i.face? kind = some f →
      let busy := ∃ r ∈ i.renditions, r.face = kind ∧ (r.state = .queued ∨ r.state = .coding)
      (f.state = .landing ∨ busy → s.returnStrips k kind = s) ∧
      (f.state ≠ .landing → ¬ busy → s.returnStrips k kind = { s with
        strips := f.strips.reverse ++ s.strips
        items := put s.items k (i.modFace kind fun x => { x with strips := [] }) })) ∧
    (∀ kind rendition r, i.rendition? kind rendition = some r →
      let j : Job := ⟨k, kind, rendition⟩
      let cancelled : Item := i.modRendition kind rendition fun x => { x with state := .cancelled }
      (r.state = .waiting → s.cancelRendition j = { s with items := put s.items k cancelled }) ∧
      (r.state = .queued → s.cancelRendition j = { s with
        items := put s.items k cancelled, jobs := s.jobs.filter (· ≠ j) }) ∧
      (∀ u, r.state = .coding → s.unitOf j = some u → s.cancelRendition j = { s with
        items := put s.items k (i.modRendition kind rendition fun x => { x with state := .cancelled, chain := [] })
        pages :=
          { pagesReturned s.pages r.chain with
            freeCount := s.pages.freeCount + r.chain.length + (s.units.get u).undrawn
            reserved := s.pages.reserved - (s.units.get u).undrawn }
        units := put s.units u CodingUnit.idle
        arbiter := (s.arbiter.mark (.cu u) false).forsake (.cu u) }) ∧
      (final r → s.cancelRendition j = s)) ∧
    s.rejectRenditions k =
      ((((i.renditions.map fun r => Job.mk k r.face r.kind).foldl State.cancelRendition s).returnAllStrips k).settle
        k).dispatchAct ∧
    OnlyBehind s (s.settle k) ∧ OnlyBehind s (s.rejectRenditions k)

/-- Stamps compare as serial numbers: a is older than b when b - a, modulo 2^32, lies in 1 to 2^31 - 1, or is 2^31 and a is
the smaller number; of two different stamps exactly one is older. An act of the release arbiter grants, while some waiting
claim covers a READY lane head, the covered head that is older than every other, or where there is none that of the
lowest-numbered covered lane, to the earliest claim that covers its lane: the claim leaves the list, the item is CLAIMED, the
port is SENDING at the start of the item's stream, and GRANT is produced with the release record. With no such head it does
nothing (R2, R13, R129, R134, R135). -/
def Obligations.GrantRule : Prop :=
  let precedes (a b : Long) : Prop :=
    (1 ≤ (b - a).toNat ∧ (b - a).toNat ≤ 2 ^ 31 - 1) ∨ ((b - a).toNat = 2 ^ 31 ∧ a.toNat < b.toNat)
  (∀ a b : Long, older a b = true ↔ precedes a b) ∧
  (∀ a b : Long, a ≠ b → (older b a = true ↔ older a b = false)) ∧
  ∀ s : State,
    let coveredHead (l : Lane) (k : Slot) : Prop :=
      (s.lanes.get l).queue.head? = some k ∧ (s.items.get k).state = .ready ∧
        ∃ c ∈ s.claims, c.mask.getLsbD l.val = true
    let covered (k : Slot) : Prop := ∃ l, coveredHead l k
    let oldest (k : Slot) : Prop := ∀ j, covered j → j ≠ k → precedes (s.items.get k).stamp (s.items.get j).stamp
    ((∀ k, ¬ covered k) → s.releaseAct = s) ∧
    (∀ (k : Slot) (before : List Claim) (c : Claim) (after : List Claim),
      let l := (s.items.get k).lane
      (s.lanes.get l).queue.head? = some k → (s.items.get k).state = .ready →
      (oldest k ∨ ((∀ j, covered j → ¬ oldest j) ∧ ∀ m j, m < l → ¬ coveredHead m j)) →
      s.claims = before ++ c :: after → s.claims.Pairwise (fun a b => a.port ≠ b.port) →
      c.mask.getLsbD l.val = true → (∀ d ∈ before, d.mask.getLsbD l.val = false) →
      let i : Item := { s.items.get k with state := .claimed, holder := some c.port }
      let x := s.exchange.get c.port
      let granted : State := { s with
        claims := before ++ after
        items := put s.items k i
        exchange := put s.exchange c.port { x with
          state := .sending, slot := some k, position := i.streamStart, segments := 0, store := []
          holdPending := false, produced := sentOn x.link x.produced (.grant (releaseRecord k i)) } }
      s.releaseAct = granted.releaseAct) ∧
    OnlyBehind s s.releaseAct

/-- An act of the dispatcher: with a unit IDLE, the first entry of the queue starts when its need leaves the head reserve free;
else the first entry of a lane head whose need is free; else none. A start takes the entry from the queue, reserves its need,
makes the rendition CODING at rung 0, goes to CU0 when both units are IDLE, and draws the first page; then the act goes on
(R79, R80, R92 to R96, R113). -/
def Obligations.DispatchRule : Prop :=
  ∀ s : State,
    let pages (j : Job) : Nat := (s.jobBudget j + 3) / 4
    let leads (j : Job) : Prop := (s.lanes.get (s.items.get j.slot).lane).queue.head? = some j.slot
    let ordinary (j : Job) : Prop := s.pages.headReserve + pages j ≤ s.pages.freeCount
    ((∀ u, (s.units.get u).job ≠ none) → s.dispatchAct = s) ∧
    (s.jobs = [] → s.dispatchAct = s) ∧
    (∀ head rest, s.jobs = head :: rest → ¬ ordinary head →
      (∀ j ∈ s.jobs, leads j → s.pages.freeCount < pages j) → s.dispatchAct = s) ∧
    (∀ (before : List Job) (j : Job) (after : List Job) (u : UnitNo) (page : Nat) (rest : List Nat),
      s.jobs = before ++ j :: after → s.jobs.Nodup →
      ((before = [] ∧ ordinary j) ∨
        ((∀ head, s.jobs.head? = some head → ¬ ordinary head) ∧ leads j ∧ pages j ≤ s.pages.freeCount ∧
          ∀ e ∈ before, leads e → s.pages.freeCount < pages e)) →
      (s.units.get u).job = none → (∀ v, v < u → (s.units.get v).job ≠ none) → s.pages.free = page :: rest →
      let i := s.items.get j.slot
      let record := s.itemRecord j.slot
      let c := Coder.fresh record j.kind 0 (s.jobWidth j)
      let started : State := { s with
        jobs := before ++ after
        pages := { s.pages with
          free := rest
          freeCount := s.pages.freeCount - pages j
          reserved := s.pages.reserved + pages j - 1 }
        items := put s.items j.slot (i.modRendition j.face j.kind fun r =>
          { r with state := .coding, rung := 0, chain := [page] })
        units := put s.units u { CodingUnit.idle with
          job := some j, undrawn := pages j - 1, length := 16, coder := c
          unplaced := if s.jobRows j = 0 then c.finish record j.kind else [] } }
      s.dispatchAct = (State.runUnit maxStepDowns started u j).dispatchAct ∧
        (0 < s.jobRows j → State.runUnit maxStepDowns started u j =
          { started with arbiter := s.arbiter.mark (.cu u) true })) ∧
    OnlyBehind s s.dispatchAct

/-- A coded byte is placed while the length with it stays within the budget, a page drawn first at each multiple of 4,096: the
first 240 go to the first burst place, the others to the output burst, and each passes the data check. Bytes are placed in
order until none is left or the output burst holds 256 bytes, the rest kept (log 14); the unit then asks for a write of a full
output burst, else for the next row while rows remain, else for a write of a short output burst, else for the write of the
header. Past the budget the unit steps down while the ladder has a rung, its pages back in its own reservation and the face
coded afresh, and on the last rung the rendition is OVERSIZE with all its pages free. A finished rendition is DONE with its
output fields, its undrawn pages free (R80 to R82, R97, R99 to R103, R105, R125). What the unit, IDLE then, holds beyond
the rules is the model's choice (log 29, log 31). -/
def Obligations.CodedBytesPlaced : Prop :=
  ∀ (s : State) (u : UnitNo) (j : Job),
    let x := s.units.get u
    let i := s.items.get j.slot
    let within (b : Byte) (s : State) : State := { s with units := put s.units u { s.units.get u with
      length := x.length + 1
      firstPlace := if x.length < 256 then x.firstPlace ++ [b] else x.firstPlace
      outputBurst := if x.length < 256 then x.outputBurst else x.outputBurst ++ [b]
      coder := { x.coder with check := crcByte x.coder.check b } } }
    (∀ b, s.jobBudget j * 1024 < x.length + 1 → s.placeByte u j b = none) ∧
    (∀ b, x.length + 1 ≤ s.jobBudget j * 1024 →
      (x.length % 4096 ≠ 0 → s.placeByte u j b = some (within b s)) ∧
      (∀ page rest, x.length % 4096 = 0 → s.pages.free = page :: rest →
        s.placeByte u j b = some (within b { s with
          pages := { s.pages with free := rest, reserved := s.pages.reserved - 1 }
          items := put s.items j.slot (i.modRendition j.face j.kind fun r => { r with chain := r.chain ++ [page] })
          units := put s.units u { x with undrawn := x.undrawn - 1 } }))) ∧
    (∀ bytes : List Byte,
      let kept : State := { s with units := put s.units u { x with unplaced := bytes } }
      (bytes = [] ∨ x.outputBurst.length = 256 → State.placeBytes u j bytes s = .fitted kept) ∧
      (∀ b rest, bytes = b :: rest → x.outputBurst.length ≠ 256 →
        (s.placeByte u j b = none → State.placeBytes u j bytes s = .overBudget s) ∧
        (∀ t, s.placeByte u j b = some t → State.placeBytes u j bytes s = State.placeBytes u j rest t))) ∧
    (∀ n t, State.placeBytes u j x.unplaced s = .fitted t →
      let y := t.units.get u
      let asks (phase : UnitPhase) : State := { t with
        units := put t.units u { y with phase := phase }
        arbiter := t.arbiter.mark (.cu u) true }
      (y.outputBurst.length = 256 → State.runUnit n s u j = asks .write) ∧
      (y.outputBurst.length ≠ 256 →
        (y.readRow < t.jobRows j → State.runUnit n s u j = asks .read) ∧
        (t.jobRows j ≤ y.readRow →
          (y.outputBurst ≠ [] → State.runUnit n s u j = asks .flush) ∧
          (y.outputBurst = [] → State.runUnit n s u j = asks .header)))) ∧
    (∀ n t, State.placeBytes u j x.unplaced s = .overBudget t →
      ((t.units.get u).rung + 1 < profileRungs (t.jobRecord j) j.kind →
        State.runUnit (n + 1) s u j = State.runUnit n (t.stepDown u j) u j) ∧
      (profileRungs (t.jobRecord j) j.kind ≤ (t.units.get u).rung + 1 →
        State.runUnit (n + 1) s u j = t.failJob u j .oversize)) ∧
    (∀ r, i.rendition? j.face j.kind = some r →
      let ended (r' : Rendition → Rendition) (pages : PagePool) : State := { s with
        pages := pages
        items := put s.items j.slot (i.modRendition j.face j.kind r')
        units := put s.units u CodingUnit.idle
        arbiter := (s.arbiter.mark (.cu u) false).forsake (.cu u) }
      (∀ last, s.failJob u j last =
        ((ended (fun r => { r with state := last, chain := [] })
          { pagesReturned s.pages r.chain with
            freeCount := s.pages.freeCount + r.chain.length + x.undrawn
            reserved := s.pages.reserved - x.undrawn }).returnStrips j.slot j.face).settle j.slot) ∧
      (s.doneJob u j =
        ((ended (fun r => { r with
            state := .done
            output := some ⟨(outputSize (s.jobRecord j) j.kind x.rung (s.jobWidth j) (s.jobRows j)).1,
              (outputSize (s.jobRecord j) j.kind x.rung (s.jobWidth j) (s.jobRows j)).2, x.length⟩ })
          { s.pages with
            freeCount := s.pages.freeCount + x.undrawn
            reserved := s.pages.reserved - x.undrawn }).returnStrips j.slot j.face).settle j.slot) ∧
      (∀ page rest, r.chain.reverse ++ s.pages.free = page :: rest →
        let rung := x.rung + 1
        let c := Coder.fresh (s.jobRecord j) j.kind rung (s.jobWidth j)
        s.stepDown u j = { s with
          pages := { s.pages with free := rest, reserved := s.pages.reserved + r.chain.length - 1 }
          items := put s.items j.slot (i.modRendition j.face j.kind fun r => { r with chain := [page], rung := rung })
          units := put s.units u { x with
            rung := rung, length := 16, readRow := 0, undrawn := x.undrawn + r.chain.length - 1
            firstPlace := [], outputBurst := [], coder := c, rowSoFar := []
            unplaced := if s.jobRows j = 0 then c.finish (s.jobRecord j) j.kind else [] }
          arbiter := (s.arbiter.mark (.cu u) false).forsake (.cu u) }))

/-- What a coder makes of a row. It starts a rung afresh. A BITONAL row is thresholded and despeckled, which keeps exactly the
black pixels of black runs longer than the speckle; it is coded as REPEAT when it equals the row before, else by the table's
codes of its alternating run lengths, white first, which spell the row; the bytes produced with the bits left spell the bit
stream, and END, filled with zeros to a byte, closes it. A GRAY row is added into its blocks' sums; after the rung's rows, or
the face's last, each block's mean is quantised, and each maximal run of a level gives its pairs with count 255 and one with
the rest, which spell the levels. The output sizes follow (R113, R115 to R123, R195). -/
def Obligations.CodedRowsSpellTheRow : Prop :=
  (∀ (speckle : Nat) (row : List Bool) (n : Nat), (despeckle speckle row)[n]? = some true ↔
    ∃ a b, a ≤ n ∧ n < b ∧ speckle < b - a ∧ (∀ m, a ≤ m → m < b → row[m]? = some true)) ∧
  (∀ row : List Bool,
    (runLengths row).sum = row.length ∧
    ((runLengths row).zipIdx.flatMap fun x => List.replicate x.1 (decide (x.2 % 2 = 1))) = row ∧
    ∀ n ∈ (runLengths row).tail, 0 < n) ∧
  (∀ bits : List Bool,
    ((packBits bits).1.flatMap fun b => (List.range 8).map fun n => b.getLsbD (7 - n)) ++ (packBits bits).2 = bits ∧
    (packBits bits).2.length < 8) ∧
  (∀ row : List Nat, (∀ q ∈ row, q < 256) →
    ∃ pairs : List (Byte × Byte), levelBytes row = pairs.flatMap (fun x => [x.1, x.2]) ∧
      (∀ x ∈ pairs, 1 ≤ x.2.toNat) ∧
      (pairs.flatMap fun x => List.replicate x.2.toNat x.1.toNat) = row) ∧
  (∀ row : List Nat, ∃ runs : List (Nat × Nat),
    (runs.flatMap fun x => List.replicate x.2 x.1) = row ∧ (∀ x ∈ runs, 0 < x.2) ∧
    (∀ n a b, runs[n]? = some a → runs[n + 1]? = some b → a.1 ≠ b.1) ∧
    levelBytes row = runs.flatMap fun x =>
      (List.replicate (x.2 / 255) [BitVec.ofNat 8 x.1, 255#8]).flatten ++
        if x.2 % 255 = 0 then [] else [BitVec.ofNat 8 x.1, BitVec.ofNat 8 (x.2 % 255)]) ∧
  (∀ r : List Byte,
    (∀ e, (codeBits r e).length = numAt r (58 + 3 * e) ∧ ∀ n, n < numAt r (58 + 3 * e) →
      (codeBits r e)[n]? = some ((num16At r (59 + 3 * e)).testBit (numAt r (58 + 3 * e) - 1 - n))) ∧
    (∀ n, (n < 64 → lengthBits r n = codeBits r n) ∧
      (64 ≤ n → lengthBits r n = codeBits r (63 + n / 64) ++ codeBits r (n % 64))) ∧
    (∀ rung w h,
      let f := numAt r (26 + 2 * rung)
      Coder.fresh r .bitonal rung w =
        { prev := List.replicate w false, bits := [], sums := [], rowsIn := 0, check := 0xFFFF } ∧
      Coder.fresh r .gray rung w =
        { prev := [], bits := [], sums := List.replicate ((w + (f - 1)) / f) (0, 0), rowsIn := 0, check := 0xFFFF } ∧
      outputSize r .bitonal rung w h = (w, h) ∧
      outputSize r .gray rung w h = ((w + (f - 1)) / f, (h + (f - 1)) / f)) ∧
    (∀ (c : Coder) (rung : Nat) (last : Bool) (pixels : List Byte),
      let row := despeckle (numAt r (18 + 2 * rung)) (pixels.map fun p => decide (p.toNat < numAt r (17 + 2 * rung)))
      let packed := packBits (c.bits ++ if row = c.prev then codeBits r 96 else (runLengths row).flatMap (lengthBits r))
      c.codeRow r .bitonal rung last pixels = ({ c with prev := row, bits := packed.2 }, packed.1)) ∧
    (∀ c : Coder, c.finish r .gray = [] ∧ ∃ fill, fill < 8 ∧
      ((c.finish r .bitonal).flatMap fun b => (List.range 8).map fun n => b.getLsbD (7 - n)) =
        c.bits ++ codeBits r 97 ++ List.replicate fill false) ∧
    (∀ (c : Coder) (rung : Nat) (last : Bool) (pixels : List Byte),
      let f := numAt r (26 + 2 * rung)
      let block (n : Nat) : List Byte := (pixels.drop (f * n)).take f
      ∃ sums : List (Nat × Nat), sums.length = c.sums.length ∧
        (∀ n a, c.sums[n]? = some a →
          sums[n]? = some (a.1 + ((block n).map fun p => p.toNat).sum, a.2 + (block n).length)) ∧
        (last = true ∨ c.rowsIn + 1 = f → c.codeRow r .gray rung last pixels =
          ({ c with sums := List.replicate c.sums.length (0, 0), rowsIn := 0 },
            levelBytes (sums.map fun a => a.1 / a.2 * numAt r (27 + 2 * rung) / 256))) ∧
        (last = false → c.rowsIn + 1 ≠ f → c.codeRow r .gray rung last pixels =
          ({ c with sums := sums, rowsIn := c.rowsIn + 1 }, []))))

/-! ## Buffer memory -/

/-- A grant takes the first waiting requester after the rotation position, class A before class B, while no burst is under way;
its request leaves, the position of its class alone moves to it, and its burst begins. The burst of each requester: the next
256 pixels of a held row at its strip and row (R49), the next 256 of the row a unit reads (R97), its output burst or the first
burst place with the header (R99, R103), the next 256 bytes of a SEGMENT's page (R137); places as R70 gives them (R71 to
R73). -/
def Obligations.MemoryGrantResult : Prop :=
  ∀ s : State,
    (Running s →
      (s.arbiter.burst ≠ none ∨ (∀ r, s.arbiter.waits r = false) → exec .memoryGrant s = .next s) ∧
      (s.arbiter.burst = none →
        (∀ (d : Fin 4), s.arbiter.classA.get (s.arbiter.lastA + 1 + d) = true →
          (∀ e, e < d → s.arbiter.classA.get (s.arbiter.lastA + 1 + e) = false) →
          let l := s.arbiter.lastA + 1 + d
          exec .memoryGrant s = .next { s with arbiter := { s.arbiter with
            classA := put s.arbiter.classA l false, lastA := l, burst := s.burstOf (.w l) } }) ∧
        (∀ (d : Fin 4), (∀ l, s.arbiter.classA.get l = false) →
          s.arbiter.classB.get (s.arbiter.lastB + 1 + d) = true →
          (∀ e, e < d → s.arbiter.classB.get (s.arbiter.lastB + 1 + e) = false) →
          let n := s.arbiter.lastB + 1 + d
          let who : Requester := match n with
            | 0 => .cu 0
            | 1 => .cu 1
            | 2 => .xr 0
            | 3 => .xr 1
          exec .memoryGrant s = .next { s with arbiter := { s.arbiter with
            classB := put s.arbiter.classB n false, lastB := n, burst := s.burstOf who } }))) ∧
    (∀ l k kind f h strip, (s.scan.get l).attached = some k → (s.scan.get l).current = some kind →
      (s.scan.get l).held = some h → (s.items.get k).face? kind = some f → f.strips[h.position / 16]? = some strip →
      s.burstOf (.w l) = some {
        who := .w l, write := true
        addr := strip * 32768 + h.position % 16 * 2048 + h.written * 256
        count := min 256 (h.pixels.length - h.written * 256)
        data := (h.pixels.drop (h.written * 256)).take 256, live := true }) ∧
    (∀ u j f r, (s.units.get u).job = some j → (s.items.get j.slot).face? j.face = some f →
      (s.items.get j.slot).rendition? j.face j.kind = some r →
      let x := s.units.get u
      (∀ strip, x.phase = .read → f.strips[x.readRow / 16]? = some strip →
        s.burstOf (.cu u) = some {
          who := .cu u, write := false
          addr := strip * 32768 + x.readRow % 16 * 2048 + x.rowSoFar.length
          count := min 256 (f.width - x.rowSoFar.length), data := [], live := true }) ∧
      (∀ page, x.phase = .write ∨ x.phase = .flush → r.chain[(x.length - x.outputBurst.length) / 4096]? = some page →
        s.burstOf (.cu u) = some {
          who := .cu u, write := true
          addr := 67108864 + page * 4096 + (x.length - x.outputBurst.length) % 4096
          count := x.outputBurst.length, data := x.outputBurst, live := true }) ∧
      (∀ page, x.phase = .header → r.chain[0]? = some page →
        let size := outputSize (s.itemRecord j.slot) j.kind x.rung f.width f.rowsLanded
        let header := headerBytes {
          kind := j.kind, face := j.face, rung := x.rung, source := (s.items.get j.slot).source
          width := size.1, rows := size.2, dataLength := x.length - 16, edition := (s.items.get j.slot).edition
          check := x.coder.check }
        s.burstOf (.cu u) = some {
          who := .cu u, write := true, addr := 67108864 + page * 4096, count := 16 + x.firstPlace.length
          data := header ++ x.firstPlace, live := true })) ∧
    (∀ p k pos r o page, (s.exchange.get p).slot = some k → (s.exchange.get p).position = some pos →
      (s.items.get k).renditions[pos.rendition]? = some r → r.output = some o → r.chain[pos.number]? = some page →
      s.burstOf (.xr p) = some {
        who := .xr p, write := false
        addr := 67108864 + page * 4096 + (s.exchange.get p).store.length
        count := min 256 (min 4096 (o.length - pos.number * 4096) - (s.exchange.get p).store.length)
        data := [], live := true })

/-- The burst under way completes. A write stores its bytes with fresh parity and changes no other byte or parity; a read
changes no byte, and only the bytes of the burst that the memory finds against their parity (the command's operand, log 6)
join those that disagree. The result goes to the requester, a parity fault when a byte of a read disagrees, and is discarded
when the operation was given up. Where no rule gives a result the machine stops: a byte that nothing has written, and a burst
past the memory's end (log 4). R71, R72 and R74 say the rest; that nothing happens with no burst under way is the model's
choice (log 1). -/
def Obligations.BurstCompleteResult : Prop :=
  ∀ (s : State) (upsets : List Nat),
    (s.arbiter.burst = none → exec (.burstComplete upsets) s = .next s) ∧
    (∀ b, s.arbiter.burst = some b →
      (100663296 < b.addr + b.count → exec (.burstComplete upsets) s = .fault .noSuchAddress) ∧
      (b.addr + b.count ≤ 100663296 →
        (b.write = true → b.data.length = b.count → ∃ mem : Memory,
          let t : State := { s with arbiter := { s.arbiter with burst := none }, mem := mem }
          exec (.burstComplete upsets) s = .next (if b.live then t.wrote b.who else t) ∧
          (∀ a, mem.read a =
            if b.addr ≤ a ∧ a < b.addr + b.count then b.data[a - b.addr]? else s.mem.read a) ∧
          (∀ a, a ∈ mem.upset ↔ a ∈ s.mem.upset ∧ ¬ (b.addr ≤ a ∧ a < b.addr + b.count))) ∧
        (b.write = false → ∃ mem : Memory,
          let t : State := { s with arbiter := { s.arbiter with burst := none }, mem := mem }
          let fails := ∃ a ∈ mem.upset, b.addr ≤ a ∧ a < b.addr + b.count
          (∀ a, mem.read a = s.mem.read a) ∧
          (∀ a, a ∈ mem.upset ↔ a ∈ s.mem.upset ∨ ∃ n ∈ upsets, n < b.count ∧ a = b.addr + n) ∧
          (b.live = false → exec (.burstComplete upsets) s = .next t) ∧
          (b.live = true → fails → exec (.burstComplete upsets) s = .next (t.readFault b.who)) ∧
          (b.live = true → ¬ fails →
            (∀ data : List Byte, data.length = b.count → (∀ n, n < b.count → s.mem.read (b.addr + n) = data[n]?) →
              exec (.burstComplete upsets) s = .next (t.readDone data b.who)) ∧
            ((∃ n, n < b.count ∧ s.mem.read (b.addr + n) = none) →
              exec (.burstComplete upsets) s = .fault .unwrittenByte)))))

/-- What a requester does with its result. A landing writer asks for the row's next burst, or the row has landed: it is
counted, measured by the accumulators while they stand, and waiting frames are taken (R33, R49, R54). A coding unit
asks for the rest of its row, or codes the whole row and goes on; its output burst written, it goes on (what it asks
for then is in CodedBytesPlaced, as `runUnit`); its header written, the rendition is DONE; a parity fault sets
MEMFAULT and ends the job FAULT; an ended job brings a dispatch act (R85, R97, R99, R103 to R105). -/
def Obligations.BurstResultsUsed : Prop :=
  ∀ s : State,
    (∀ l k kind f h, (s.scan.get l).attached = some k → (s.scan.get l).current = some kind →
      (s.scan.get l).held = some h → (s.items.get k).face? kind = some f →
      ((h.written + 1) * 256 < h.pixels.length → s.wrote (.w l) = { s with
        scan := put s.scan l { s.scan.get l with held := some { h with written := h.written + 1 } }
        arbiter := s.arbiter.mark (.w l) true }) ∧
      (h.pixels.length ≤ (h.written + 1) * 256 →
        let dark (a : Accumulators) (p : Byte) : Bool := decide (p.toNat < a.darkLevel)
        s.wrote (.w l) = ({ s with
          items := put s.items k ((s.items.get k).modFace kind fun f => { f with
            rowsLanded := f.rowsLanded + 1
            accum := f.accum.map fun a => { a with
              darkCount := a.darkCount + h.pixels.countP (dark a)
              columns := List.zipWith (fun n p => if dark a p then n + 1 else n) a.columns h.pixels } })
          scan := put s.scan l { s.scan.get l with held := none } } : State).drainWaiting l)) ∧
    (∀ u j, (s.units.get u).job = some j →
      let x := s.units.get u
      let after (t : State) : State := if (t.units.get u).job = none then t.dispatchAct else t
      (∀ data, (x.rowSoFar ++ data).length < s.jobWidth j → s.readDone data (.cu u) = { s with
        units := put s.units u { x with rowSoFar := x.rowSoFar ++ data }
        arbiter := s.arbiter.mark (.cu u) true }) ∧
      (∀ data, s.jobWidth j ≤ (x.rowSoFar ++ data).length →
        let last := decide (x.readRow + 1 = s.jobRows j)
        let coded := x.coder.codeRow (s.jobRecord j) j.kind x.rung last (x.rowSoFar ++ data)
        s.readDone data (.cu u) = after (State.runUnit maxStepDowns { s with
          units := put s.units u { x with
            coder := if last then { coded.1 with bits := [] } else coded.1
            readRow := x.readRow + 1
            rowSoFar := []
            unplaced := coded.2 ++ if last then coded.1.finish (s.jobRecord j) j.kind else [] } } u j)) ∧
      (x.phase ≠ .header → s.wrote (.cu u) = after (State.runUnit maxStepDowns { s with
        units := put s.units u { x with outputBurst := [] } } u j)) ∧
      (x.phase = .header → s.wrote (.cu u) = (s.doneJob u j).dispatchAct) ∧
      s.readFault (.cu u) = (({ s with
        sup := { s.sup with causes := s.sup.causes ||| 64 } } : State).failJob u j .fault).dispatchAct)

/-! ## Exchange ports -/

/-- CLAIM in IDLE waits with its permitted lanes and brings an act of the release arbiter, or is refused NO_LANES when none is
permitted; in a state with a claim it is refused BUSY. CANCEL takes a WAITING port to IDLE and is answered CANCELLED. HOLD is
remembered while SENDING, and GO takes HELD to SENDING with the stall timer stopped and the stream goes on. In any other state
they change nothing (R132, R133, R136, R140). -/
def Obligations.ClaimMessages : Prop :=
  ∀ (s : State) (p : Port), Running s →
    let x := s.exchange.get p
    let sent (m : ExchangeMsg) : State := { s with
      exchange := put s.exchange p { x with produced := sentOn x.link x.produced m } }
    (∀ mask : Byte, 1 ≤ mask.toNat → mask.toNat ≤ 15 →
      let lanes := mask.extractLsb' 0 4 &&& x.mask
      (x.state = .down → exec (.claim p mask) s = .next s) ∧
      (x.state ≠ .down → x.state ≠ .idle → exec (.claim p mask) s = .next (sent (.claimRefused .busy))) ∧
      (x.state = .idle → lanes = 0 → exec (.claim p mask) s = .next (sent (.claimRefused .noLanes))) ∧
      (x.state = .idle → lanes ≠ 0 → exec (.claim p mask) s = .next ({ s with
        claims := s.claims ++ [⟨p, lanes⟩]
        exchange := put s.exchange p { x with state := .waiting } } : State).releaseAct)) ∧
    (x.state = .waiting → exec (.cancel p) s = .next { s with
      claims := s.claims.filter fun c => c.port ≠ p
      exchange := put s.exchange p { x with
        state := .idle, produced := sentOn x.link x.produced .cancelled } }) ∧
    (x.state ≠ .waiting → exec (.cancel p) s = .next s) ∧
    (x.state = .sending → exec (.hold p) s = .next { s with
      exchange := put s.exchange p { x with holdPending := true } }) ∧
    (x.state ≠ .sending → exec (.hold p) s = .next s) ∧
    (x.state = .held → exec (.go p) s = .next (({ s with
      exchange := put s.exchange p { x with state := .sending, stall := none } } : State).streamOn p)) ∧
    (x.state ≠ .held → exec (.go p) s = .next s)

/-- A stream: the SEGMENTs of each DONE rendition in list order, 4,096 bytes each but the last, none for a REJECTED item. At a
segment boundary the port is HELD if a hold is pending, else the next SEGMENT is read, or END is produced with the count and
the port is in AWAIT; the stall timer starts with the stall limit. A SEGMENT read whole is produced and the position advances;
a parity fault ends the stream BROKEN with MEMFAULT (R86, R130, R137 to R141). Which leaving frame is a boundary of the present
stream (the last GRANT or SEGMENT of the list, every frame before it gone too) is the model's reading (log 8), and that a
boundary with no GRANT or SEGMENT to leave changes nothing its choice (log 1). -/
def Obligations.StreamGoesOn : Prop :=
  ∀ (s : State) (p : Port),
    let x := s.exchange.get p
    (∀ (i : Item),
      let first (from' : Nat) (pos : Option StreamPos) : Prop :=
        ((∀ n, from' ≤ n → i.doneAt n = false) → pos = none) ∧
        (∀ n, from' ≤ n → i.doneAt n = true → (∀ m, from' ≤ m → m < n → i.doneAt m = false) → pos = some ⟨n, 0⟩)
      (i.disposition = some .rejected → i.streamStart = none) ∧
      (i.disposition ≠ some .rejected → first 0 i.streamStart) ∧
      (∀ pos, (pos.number + 1) * 4096 < i.lengthAt pos.rendition →
        i.segmentAfter pos = some ⟨pos.rendition, pos.number + 1⟩) ∧
      (∀ pos, i.lengthAt pos.rendition ≤ (pos.number + 1) * 4096 → first (pos.rendition + 1) (i.segmentAfter pos))) ∧
    ((∀ m ∈ x.produced, m.inStream = false) → exec (.segmentBoundary p) s = .next s) ∧
    (∀ before m rest, Running s → x.produced = before ++ m :: rest → (∀ m ∈ before, m.inStream = false) →
      m.inStream = true →
      let left (y : ExchangePort) : State := { s with exchange := put s.exchange p y }
      let boundary := x.state = .sending ∧ ∀ m ∈ rest, m.inStream = false
      (¬ boundary → exec (.segmentBoundary p) s = .next (left { x with produced := rest, begun := false })) ∧
      (boundary →
        (x.holdPending = true → exec (.segmentBoundary p) s = .next (left { x with
          produced := rest, begun := false, store := [], state := .held, holdPending := false, stall := some s.stallLimit })) ∧
        (x.holdPending = false →
          (x.position.isSome = true → exec (.segmentBoundary p) s = .next { left { x with
            produced := rest, begun := false, store := [] } with arbiter := s.arbiter.mark (.xr p) true }) ∧
          (x.position = none → exec (.segmentBoundary p) s = .next (left { x with
            produced := sentOn x.link rest (.endOfStream x.segments), begun := false, store := [], state := .await
            holdPending := false, stall := some s.stallLimit }))))) ∧
    (∀ k pos data, x.slot = some k → x.position = some pos →
      let i := s.items.get k
      let size := min 4096 (i.lengthAt pos.rendition - pos.number * 4096)
      ((x.store ++ data).length < size → s.readDone data (.xr p) = { s with
        exchange := put s.exchange p { x with store := x.store ++ data }
        arbiter := s.arbiter.mark (.xr p) true }) ∧
      (size ≤ (x.store ++ data).length → s.readDone data (.xr p) = { s with
        exchange := put s.exchange p { x with
          store := x.store ++ data, position := i.segmentAfter pos, segments := x.segments + 1
          produced := sentOn x.link x.produced (.segment pos.rendition pos.number (x.store ++ data)) } }) ∧
      s.readFault (.xr p) = { s with
        exchange := put s.exchange p { x with
          store := [], state := .await, holdPending := false, stall := some s.stallLimit
          produced := sentOn x.link x.produced (.broken pos.rendition pos.number) }
        arbiter := readerWithdrawn s.arbiter p
        sup := { s.sup with causes := s.sup.causes ||| 64 } })

/-- DELIVERED frees the item of a port that holds one: pages, pin and slot are released, DRAINED is set when its lane is CLOSED
and now empty, the dispatcher acts, and the release arbiter acts when the new lane head is READY. RETURN and the stall timer's
expiry put it back to READY with one more retry, up to 255, and the arbiter acts; the expiry sets REVOKE and produces REVOKED.
In SENDING and HELD the rest of the stream is not sent: of the GRANTs and SEGMENTs still in the port's list only a first one
that has begun stays (whether it had is open where the state does not know it, log 8), and the answers stay. In IDLE and
WAITING the two messages are answered STALE; in DOWN nothing is received (R1, R8, R14, R15, R22, R83, R128, R141, R143,
R144). The stream position and count of a port whose claim has ended are the model's choice (log 30). -/
def Obligations.ClaimEnds : Prop :=
  ∀ (s : State) (p : Port), Running s →
    let x := s.exchange.get p
    let sent (m : ExchangeMsg) : State := { s with
      exchange := put s.exchange p { x with produced := sentOn x.link x.produced m } }
    (x.state = .down → exec (.delivered p) s = .next s ∧ exec (.returnItem p) s = .next s) ∧
    (x.state = .idle ∨ x.state = .waiting →
      exec (.delivered p) s = .next (sent (.stale .delivered)) ∧
      exec (.returnItem p) s = .next (sent (.stale .returned))) ∧
    (x.stall = none → exec (.stallTimerExpiry p) s = .next s) ∧
    (∀ k, x.slot = some k → (x.state = .sending ∨ x.state = .held ∨ x.state = .await) →
      let i := s.items.get k
      let queue := (s.lanes.get i.lane).queue.filter (· ≠ k)
      let freed (y : ExchangePort) (n : Nat) : State := { s with
        exchange := put s.exchange p (claimEnded y .idle)
        free := n
        arbiter := readerWithdrawn s.arbiter p
        pages := pagesReturned s.pages (i.renditions.map fun r => r.chain).flatten
        store := match i.source with
          | some (.block b) => { s.store with pins := put s.store.pins b (s.store.pins.get b - 1) }
          | some .staging => { s.store with stagingPins := s.store.stagingPins - 1 }
          | none => s.store
        lanes := put s.lanes i.lane { s.lanes.get i.lane with queue := queue }
        items := put s.items k Item.empty
        sup := { s.sup with causes :=
          if (s.lanes.get i.lane).closed = true ∧ queue = [] then s.sup.causes ||| 16 else s.sup.causes } }
      let ready (t : State) : Prop := ∃ h, (t.lanes.get i.lane).queue.head? = some h ∧ (t.items.get h).state = .ready
      let returned (y : ExchangePort) (n : Nat) : State := { s with
        exchange := put s.exchange p (claimEnded y .idle)
        free := n
        arbiter := readerWithdrawn s.arbiter p
        items := put s.items k { i with state := .ready, holder := none, retries := min 255 (i.retries + 1) } }
      (∃ (y : ExchangePort) (n : Nat),
        (x.state = .await → y = x ∧ n = s.free) ∧
        (x.state ≠ .await → ∃ begun : Bool, (x.begun = true → begun = true) ∧ y = streamCut x begun) ∧
        (ready (freed y n).dispatchAct → exec (.delivered p) s = .next (freed y n).dispatchAct.releaseAct) ∧
        (¬ ready (freed y n).dispatchAct → exec (.delivered p) s = .next (freed y n).dispatchAct) ∧
        exec (.returnItem p) s = .next (returned y n).releaseAct) ∧
      (x.stall.isSome = true → exec (.stallTimerExpiry p) s = .next ({ returned x s.free with
        exchange := put s.exchange p { claimEnded x .idle with
          produced := sentOn x.link x.produced (.revoked k i.stamp) }
        sup := { s.sup with causes := s.sup.causes ||| 8 } } : State).releaseAct))

/-- An exchange link coming up takes a DOWN port to IDLE with empty stores and sets LINK. A link lost, which sets
LINK, and XPORT RESET, answered OK, take the port's claim from the list, end its stream, discard produced frames and
put a claimed item back to READY with its retries as they were, with an act of the release arbiter; the port is then
DOWN, or IDLE or DOWN by its link. Whether XPORT RESET finds the first produced frame begun is open where the state
does not know it (log 8) (R14, R128, R146, R147). A link that comes up at a port not DOWN, or is lost at a port that
is DOWN, changes nothing (the model's choice, log 1), and the stream position and count of a port whose claim has ended
are its choice too (log 30). -/
def Obligations.ExchangeLinkChanges : Prop :=
  ∀ (s : State) (p : Port), Running s →
    let x := s.exchange.get p
    let released (s : State) (y : ExchangePort) (next : ExchangeState) : State :=
      let ended : State := { s with
        claims := s.claims.filter fun c => c.port ≠ p
        exchange := put s.exchange p (claimEnded y next)
        arbiter := readerWithdrawn s.arbiter p }
      match x.slot with
      | none => ended
      | some k => ({ ended with items := put s.items k { s.items.get k with state := .ready, holder := none } } :
          State).releaseAct
    let linkSet : State := { s with sup := { s.sup with causes := s.sup.causes ||| 4 } }
    (x.state = .down →
      exec (.exchangeLinkUp p) s = .next { linkSet with exchange := put s.exchange p { x with
        link := true, state := .idle, gathering := [], store := [], produced := [], begun := false } } ∧
      exec (.exchangeLinkLost p) s = .next s) ∧
    (x.state ≠ .down →
      exec (.exchangeLinkUp p) s = .next s ∧
      exec (.exchangeLinkLost p) s =
        .next (released linkSet { x with link := false, gathering := [], produced := [], begun := false } .down)) ∧
    (s.sup.operandA.toNat = p.val → ∃ (begun : Bool) (n : Nat),
      (x.begun = true → begun = true) ∧ exec .xportReset s = .next (withAnswer
      (released { given s 0x000D with free := n }
        { x with
          gathering := [], produced := if begun then x.produced.take 1 else []
          begun := begun && !x.produced.isEmpty }
        (if x.link then .idle else .down)) .ok))

/-! ## Invariants and frames -/

/-- No step breaks the canonical form of the buffer memory: addresses strictly rising and inside the 100,663,296 bytes. -/
def Obligations.MemoryCanonicalKept : Prop :=
  ∀ s t : State, s.mem.wf = true → step s = .next t → t.mem.wf = true

/-- No step takes a setting or a list of fixed length out of its range. -/
def Obligations.SettingsInRangeKept : Prop :=
  ∀ s t : State, InRange s → step s = .next t → InRange t

/-- No step takes a profile source that has a user out of use (R150, R160), changes its bytes while it has a user before and
after, or clears the protection latch unless power comes on (R168). -/
def Obligations.SourcesGuardedKept : Prop :=
  ∀ s t : State, SourcesGuarded s → step s = .next t →
    SourcesGuarded t ∧
    (∀ src, s.store.inUse src = true → t.store.inUse src = true → t.store.record src = s.store.record src) ∧
    (s.pending.head? ≠ some .powerOn → s.store.latch = true → t.store.latch = true)

/-- No step breaks the agreement of ports, claims and items; that a port with no claim has no stream position is the
model's choice (log 30). -/
def Obligations.PortsAgreeKept : Prop :=
  ∀ s t : State, PortsAgree s → step s = .next t → PortsAgree t

/-- No step breaks the agreement of lane queues and live items, and over a step a queue keeps the order of the slots that
stay and takes new ones, FREE before, at its tail (R15, R16). -/
def Obligations.QueuesAgreeKept : Prop :=
  ∀ s t : State, PortsAgree s → QueuesAgree s → step s = .next t →
    QueuesAgree t ∧
    ∀ l, ∃ (stays : Slot → Bool) (joined : List Slot),
      (t.lanes.get l).queue = (s.lanes.get l).queue.filter stays ++ joined ∧
      ∀ k ∈ joined, (s.items.get k).state = .free

/-- No step breaks the counts of pinned items, the checks of usable records, and what the marks of the blocks say (R3, R150,
R157, R160, R165, R171). -/
def Obligations.ProfilesLatchedKept : Prop :=
  ∀ s t : State, InRange s → PortsAgree s → SourcesGuarded s → ProfilesLatched s → step s = .next t → ProfilesLatched t

/-- No step loses a strip or a page, breaks the page counts, or parts the job queue and the coding units from the renditions'
states and pages, and the face a port receives stays LANDING (R35, R75, R78 to R82, R88, R90). -/
def Obligations.PoolsAgreeKept : Prop :=
  ∀ s t : State, PortsAgree s → SourcesGuarded s → ProfilesLatched s → PoolsAgree s → step s = .next t → PoolsAgree t

/-- Over a step an item that lives keeps its identity, tag, stamp and decided pocket, and its findings, marks and retries only
grow, or it is gone and its slot FREE, which only DELIVERED at the port that holds it or a reset brings about (R1 to R3, R5,
R6, R8, R15, R61, R67). -/
def Obligations.ItemsContinue : Prop :=
  ∀ (s t : State) (k : Slot), (s.items.get k).state ≠ .free → step s = .next t →
    (Continues (s.items.get k) (t.items.get k) ∧ (t.items.get k).state ≠ .free) ∨
    (t.items.get k = Item.empty ∧ ∃ c rest, s.pending = c :: rest ∧ frees s k c)

/-- The invariants hold right after power-on; that a port with no claim has no stream position is the model's choice
(log 30). -/
def Obligations.InvariantsAtReset : Prop :=
  State.reset.mem.wf = true ∧ InRange State.reset ∧ SourcesGuarded State.reset ∧ PortsAgree State.reset ∧
  QueuesAgree State.reset ∧ ProfilesLatched State.reset ∧ PoolsAgree State.reset

/-- Every well-formed message, framed with its type, length and frame check, is judged to be that message by a port of either
link, and a message of the other link's types is a failed frame (R191 to R193, Tables 10.3 to 10.5). -/
def Obligations.LinkFramesRoundTrip : Prop :=
  ∀ (c : Instr) (bytes : List Byte), c.wellFormed = true → messageFrame c = some bytes →
    (∀ l f, scanFrameOf c = some (l, f) → judgeScanFrame l bytes = c ∧
      ∀ p, judgeExchangeFrame p bytes = .exchangeFailedFrame p) ∧
    (scanFrameOf c = none → ∃ p, judgeExchangeFrame p bytes = c ∧ ∀ l, judgeScanFrame l bytes = .scanFailedFrame l)
end

