-- ==== Sys2Proof/Laws/State.lean ====
section
/-! SUPPORT. One lemma for each field of State under each of the updates of Ops.lean, and what a vector holds after
one place of it is set. -/

namespace Sys2Proof.Laws
open Sys2Proof.Machine

theorem get_eq_getElem {α : Type} {n : Nat} (v : Vector α n) (i : Fin n) : v.get i = v[i.val] := rfl

@[simp] theorem get_put_same {α : Type} {n : Nat} (v : Vector α n) (i : Fin n) (x : α) : (put v i x).get i = x := by
  simp [put, get_eq_getElem]

theorem get_put {α : Type} {n : Nat} (v : Vector α n) (i j : Fin n) (x : α) :
    (put v i x).get j = if i = j then x else v.get j := by
  simp only [put, get_eq_getElem, Vector.getElem_set, Fin.ext_iff]

theorem get_put_ne {α : Type} {n : Nat} (v : Vector α n) {i j : Fin n} (x : α) (h : i ≠ j) :
    (put v i x).get j = v.get j := by
  rw [get_put, if_neg h]

@[simp] theorem put_get_self {α : Type} {n : Nat} (v : Vector α n) (i : Fin n) : put v i (v.get i) = v := by
  simp [put, get_eq_getElem]

@[simp] theorem put_put {α : Type} {n : Nat} (v : Vector α n) (i : Fin n) (x y : α) :
    put (put v i x) i y = put v i y := by
  simp [put]

/-- Two vectors with the same entries are the same. -/
theorem vector_ext_get {α : Type} {n : Nat} {v w : Vector α n} (h : ∀ i : Fin n, v.get i = w.get i) : v = w := by
  apply Vector.ext
  intro i hi
  have := h ⟨i, hi⟩
  simpa [get_eq_getElem] using this


section
variable (s : State) (q : List Instr)

@[simp] theorem withPending_pending : (s.withPending q).pending = q := rfl
@[simp] theorem withPending_pins : (s.withPending q).pins = s.pins := rfl
@[simp] theorem withPending_scan : (s.withPending q).scan = s.scan := rfl
@[simp] theorem withPending_items : (s.withPending q).items = s.items := rfl
@[simp] theorem withPending_lanes : (s.withPending q).lanes = s.lanes := rfl
@[simp] theorem withPending_stamp : (s.withPending q).stamp = s.stamp := rfl
@[simp] theorem withPending_mem : (s.withPending q).mem = s.mem := rfl
@[simp] theorem withPending_arbiter : (s.withPending q).arbiter = s.arbiter := rfl
@[simp] theorem withPending_strips : (s.withPending q).strips = s.strips := rfl
@[simp] theorem withPending_pages : (s.withPending q).pages = s.pages := rfl
@[simp] theorem withPending_jobs : (s.withPending q).jobs = s.jobs := rfl
@[simp] theorem withPending_units : (s.withPending q).units = s.units := rfl
@[simp] theorem withPending_exchange : (s.withPending q).exchange = s.exchange := rfl
@[simp] theorem withPending_claims : (s.withPending q).claims = s.claims := rfl
@[simp] theorem withPending_stallLimit : (s.withPending q).stallLimit = s.stallLimit := rfl
@[simp] theorem withPending_store : (s.withPending q).store = s.store := rfl
@[simp] theorem withPending_sup : (s.withPending q).sup = s.sup := rfl
@[simp] theorem withPending_free : (s.withPending q).free = s.free := rfl

end

section
variable (s : State) (f : Pins → Pins)

@[simp] theorem modPins_pending : (s.modPins f).pending = s.pending := rfl
@[simp] theorem modPins_pins : (s.modPins f).pins = f s.pins := rfl
@[simp] theorem modPins_scan : (s.modPins f).scan = s.scan := rfl
@[simp] theorem modPins_items : (s.modPins f).items = s.items := rfl
@[simp] theorem modPins_lanes : (s.modPins f).lanes = s.lanes := rfl
@[simp] theorem modPins_stamp : (s.modPins f).stamp = s.stamp := rfl
@[simp] theorem modPins_mem : (s.modPins f).mem = s.mem := rfl
@[simp] theorem modPins_arbiter : (s.modPins f).arbiter = s.arbiter := rfl
@[simp] theorem modPins_strips : (s.modPins f).strips = s.strips := rfl
@[simp] theorem modPins_pages : (s.modPins f).pages = s.pages := rfl
@[simp] theorem modPins_jobs : (s.modPins f).jobs = s.jobs := rfl
@[simp] theorem modPins_units : (s.modPins f).units = s.units := rfl
@[simp] theorem modPins_exchange : (s.modPins f).exchange = s.exchange := rfl
@[simp] theorem modPins_claims : (s.modPins f).claims = s.claims := rfl
@[simp] theorem modPins_stallLimit : (s.modPins f).stallLimit = s.stallLimit := rfl
@[simp] theorem modPins_store : (s.modPins f).store = s.store := rfl
@[simp] theorem modPins_sup : (s.modPins f).sup = s.sup := rfl
@[simp] theorem modPins_free : (s.modPins f).free = s.free := rfl

end

section
variable (s : State) (l : Lane) (f : ScanPort → ScanPort)

@[simp] theorem modScan_pending : (s.modScan l f).pending = s.pending := rfl
@[simp] theorem modScan_pins : (s.modScan l f).pins = s.pins := rfl
@[simp] theorem modScan_scan : (s.modScan l f).scan = put s.scan l (f (s.scan.get l)) := rfl
@[simp] theorem modScan_items : (s.modScan l f).items = s.items := rfl
@[simp] theorem modScan_lanes : (s.modScan l f).lanes = s.lanes := rfl
@[simp] theorem modScan_stamp : (s.modScan l f).stamp = s.stamp := rfl
@[simp] theorem modScan_mem : (s.modScan l f).mem = s.mem := rfl
@[simp] theorem modScan_arbiter : (s.modScan l f).arbiter = s.arbiter := rfl
@[simp] theorem modScan_strips : (s.modScan l f).strips = s.strips := rfl
@[simp] theorem modScan_pages : (s.modScan l f).pages = s.pages := rfl
@[simp] theorem modScan_jobs : (s.modScan l f).jobs = s.jobs := rfl
@[simp] theorem modScan_units : (s.modScan l f).units = s.units := rfl
@[simp] theorem modScan_exchange : (s.modScan l f).exchange = s.exchange := rfl
@[simp] theorem modScan_claims : (s.modScan l f).claims = s.claims := rfl
@[simp] theorem modScan_stallLimit : (s.modScan l f).stallLimit = s.stallLimit := rfl
@[simp] theorem modScan_store : (s.modScan l f).store = s.store := rfl
@[simp] theorem modScan_sup : (s.modScan l f).sup = s.sup := rfl
@[simp] theorem modScan_free : (s.modScan l f).free = s.free := rfl

end

section
variable (s : State) (k : Slot) (f : Item → Item)

@[simp] theorem modItem_pending : (s.modItem k f).pending = s.pending := rfl
@[simp] theorem modItem_pins : (s.modItem k f).pins = s.pins := rfl
@[simp] theorem modItem_scan : (s.modItem k f).scan = s.scan := rfl
@[simp] theorem modItem_items : (s.modItem k f).items = put s.items k (f (s.items.get k)) := rfl
@[simp] theorem modItem_lanes : (s.modItem k f).lanes = s.lanes := rfl
@[simp] theorem modItem_stamp : (s.modItem k f).stamp = s.stamp := rfl
@[simp] theorem modItem_mem : (s.modItem k f).mem = s.mem := rfl
@[simp] theorem modItem_arbiter : (s.modItem k f).arbiter = s.arbiter := rfl
@[simp] theorem modItem_strips : (s.modItem k f).strips = s.strips := rfl
@[simp] theorem modItem_pages : (s.modItem k f).pages = s.pages := rfl
@[simp] theorem modItem_jobs : (s.modItem k f).jobs = s.jobs := rfl
@[simp] theorem modItem_units : (s.modItem k f).units = s.units := rfl
@[simp] theorem modItem_exchange : (s.modItem k f).exchange = s.exchange := rfl
@[simp] theorem modItem_claims : (s.modItem k f).claims = s.claims := rfl
@[simp] theorem modItem_stallLimit : (s.modItem k f).stallLimit = s.stallLimit := rfl
@[simp] theorem modItem_store : (s.modItem k f).store = s.store := rfl
@[simp] theorem modItem_sup : (s.modItem k f).sup = s.sup := rfl
@[simp] theorem modItem_free : (s.modItem k f).free = s.free := rfl

end

section
variable (s : State) (l : Lane) (f : LaneRec → LaneRec)

@[simp] theorem modLane_pending : (s.modLane l f).pending = s.pending := rfl
@[simp] theorem modLane_pins : (s.modLane l f).pins = s.pins := rfl
@[simp] theorem modLane_scan : (s.modLane l f).scan = s.scan := rfl
@[simp] theorem modLane_items : (s.modLane l f).items = s.items := rfl
@[simp] theorem modLane_lanes : (s.modLane l f).lanes = put s.lanes l (f (s.lanes.get l)) := rfl
@[simp] theorem modLane_stamp : (s.modLane l f).stamp = s.stamp := rfl
@[simp] theorem modLane_mem : (s.modLane l f).mem = s.mem := rfl
@[simp] theorem modLane_arbiter : (s.modLane l f).arbiter = s.arbiter := rfl
@[simp] theorem modLane_strips : (s.modLane l f).strips = s.strips := rfl
@[simp] theorem modLane_pages : (s.modLane l f).pages = s.pages := rfl
@[simp] theorem modLane_jobs : (s.modLane l f).jobs = s.jobs := rfl
@[simp] theorem modLane_units : (s.modLane l f).units = s.units := rfl
@[simp] theorem modLane_exchange : (s.modLane l f).exchange = s.exchange := rfl
@[simp] theorem modLane_claims : (s.modLane l f).claims = s.claims := rfl
@[simp] theorem modLane_stallLimit : (s.modLane l f).stallLimit = s.stallLimit := rfl
@[simp] theorem modLane_store : (s.modLane l f).store = s.store := rfl
@[simp] theorem modLane_sup : (s.modLane l f).sup = s.sup := rfl
@[simp] theorem modLane_free : (s.modLane l f).free = s.free := rfl

end

section
variable (s : State) (v : Long)

@[simp] theorem withStamp_pending : (s.withStamp v).pending = s.pending := rfl
@[simp] theorem withStamp_pins : (s.withStamp v).pins = s.pins := rfl
@[simp] theorem withStamp_scan : (s.withStamp v).scan = s.scan := rfl
@[simp] theorem withStamp_items : (s.withStamp v).items = s.items := rfl
@[simp] theorem withStamp_lanes : (s.withStamp v).lanes = s.lanes := rfl
@[simp] theorem withStamp_stamp : (s.withStamp v).stamp = v := rfl
@[simp] theorem withStamp_mem : (s.withStamp v).mem = s.mem := rfl
@[simp] theorem withStamp_arbiter : (s.withStamp v).arbiter = s.arbiter := rfl
@[simp] theorem withStamp_strips : (s.withStamp v).strips = s.strips := rfl
@[simp] theorem withStamp_pages : (s.withStamp v).pages = s.pages := rfl
@[simp] theorem withStamp_jobs : (s.withStamp v).jobs = s.jobs := rfl
@[simp] theorem withStamp_units : (s.withStamp v).units = s.units := rfl
@[simp] theorem withStamp_exchange : (s.withStamp v).exchange = s.exchange := rfl
@[simp] theorem withStamp_claims : (s.withStamp v).claims = s.claims := rfl
@[simp] theorem withStamp_stallLimit : (s.withStamp v).stallLimit = s.stallLimit := rfl
@[simp] theorem withStamp_store : (s.withStamp v).store = s.store := rfl
@[simp] theorem withStamp_sup : (s.withStamp v).sup = s.sup := rfl
@[simp] theorem withStamp_free : (s.withStamp v).free = s.free := rfl

end

section
variable (s : State) (m : Memory)

@[simp] theorem withMem_pending : (s.withMem m).pending = s.pending := rfl
@[simp] theorem withMem_pins : (s.withMem m).pins = s.pins := rfl
@[simp] theorem withMem_scan : (s.withMem m).scan = s.scan := rfl
@[simp] theorem withMem_items : (s.withMem m).items = s.items := rfl
@[simp] theorem withMem_lanes : (s.withMem m).lanes = s.lanes := rfl
@[simp] theorem withMem_stamp : (s.withMem m).stamp = s.stamp := rfl
@[simp] theorem withMem_mem : (s.withMem m).mem = m := rfl
@[simp] theorem withMem_arbiter : (s.withMem m).arbiter = s.arbiter := rfl
@[simp] theorem withMem_strips : (s.withMem m).strips = s.strips := rfl
@[simp] theorem withMem_pages : (s.withMem m).pages = s.pages := rfl
@[simp] theorem withMem_jobs : (s.withMem m).jobs = s.jobs := rfl
@[simp] theorem withMem_units : (s.withMem m).units = s.units := rfl
@[simp] theorem withMem_exchange : (s.withMem m).exchange = s.exchange := rfl
@[simp] theorem withMem_claims : (s.withMem m).claims = s.claims := rfl
@[simp] theorem withMem_stallLimit : (s.withMem m).stallLimit = s.stallLimit := rfl
@[simp] theorem withMem_store : (s.withMem m).store = s.store := rfl
@[simp] theorem withMem_sup : (s.withMem m).sup = s.sup := rfl
@[simp] theorem withMem_free : (s.withMem m).free = s.free := rfl

end

section
variable (s : State) (f : Arbiter → Arbiter)

@[simp] theorem modArbiter_pending : (s.modArbiter f).pending = s.pending := rfl
@[simp] theorem modArbiter_pins : (s.modArbiter f).pins = s.pins := rfl
@[simp] theorem modArbiter_scan : (s.modArbiter f).scan = s.scan := rfl
@[simp] theorem modArbiter_items : (s.modArbiter f).items = s.items := rfl
@[simp] theorem modArbiter_lanes : (s.modArbiter f).lanes = s.lanes := rfl
@[simp] theorem modArbiter_stamp : (s.modArbiter f).stamp = s.stamp := rfl
@[simp] theorem modArbiter_mem : (s.modArbiter f).mem = s.mem := rfl
@[simp] theorem modArbiter_arbiter : (s.modArbiter f).arbiter = f s.arbiter := rfl
@[simp] theorem modArbiter_strips : (s.modArbiter f).strips = s.strips := rfl
@[simp] theorem modArbiter_pages : (s.modArbiter f).pages = s.pages := rfl
@[simp] theorem modArbiter_jobs : (s.modArbiter f).jobs = s.jobs := rfl
@[simp] theorem modArbiter_units : (s.modArbiter f).units = s.units := rfl
@[simp] theorem modArbiter_exchange : (s.modArbiter f).exchange = s.exchange := rfl
@[simp] theorem modArbiter_claims : (s.modArbiter f).claims = s.claims := rfl
@[simp] theorem modArbiter_stallLimit : (s.modArbiter f).stallLimit = s.stallLimit := rfl
@[simp] theorem modArbiter_store : (s.modArbiter f).store = s.store := rfl
@[simp] theorem modArbiter_sup : (s.modArbiter f).sup = s.sup := rfl
@[simp] theorem modArbiter_free : (s.modArbiter f).free = s.free := rfl

end

section
variable (s : State) (x : List Nat)

@[simp] theorem withStrips_pending : (s.withStrips x).pending = s.pending := rfl
@[simp] theorem withStrips_pins : (s.withStrips x).pins = s.pins := rfl
@[simp] theorem withStrips_scan : (s.withStrips x).scan = s.scan := rfl
@[simp] theorem withStrips_items : (s.withStrips x).items = s.items := rfl
@[simp] theorem withStrips_lanes : (s.withStrips x).lanes = s.lanes := rfl
@[simp] theorem withStrips_stamp : (s.withStrips x).stamp = s.stamp := rfl
@[simp] theorem withStrips_mem : (s.withStrips x).mem = s.mem := rfl
@[simp] theorem withStrips_arbiter : (s.withStrips x).arbiter = s.arbiter := rfl
@[simp] theorem withStrips_strips : (s.withStrips x).strips = x := rfl
@[simp] theorem withStrips_pages : (s.withStrips x).pages = s.pages := rfl
@[simp] theorem withStrips_jobs : (s.withStrips x).jobs = s.jobs := rfl
@[simp] theorem withStrips_units : (s.withStrips x).units = s.units := rfl
@[simp] theorem withStrips_exchange : (s.withStrips x).exchange = s.exchange := rfl
@[simp] theorem withStrips_claims : (s.withStrips x).claims = s.claims := rfl
@[simp] theorem withStrips_stallLimit : (s.withStrips x).stallLimit = s.stallLimit := rfl
@[simp] theorem withStrips_store : (s.withStrips x).store = s.store := rfl
@[simp] theorem withStrips_sup : (s.withStrips x).sup = s.sup := rfl
@[simp] theorem withStrips_free : (s.withStrips x).free = s.free := rfl

end

section
variable (s : State) (f : PagePool → PagePool)

@[simp] theorem modPages_pending : (s.modPages f).pending = s.pending := rfl
@[simp] theorem modPages_pins : (s.modPages f).pins = s.pins := rfl
@[simp] theorem modPages_scan : (s.modPages f).scan = s.scan := rfl
@[simp] theorem modPages_items : (s.modPages f).items = s.items := rfl
@[simp] theorem modPages_lanes : (s.modPages f).lanes = s.lanes := rfl
@[simp] theorem modPages_stamp : (s.modPages f).stamp = s.stamp := rfl
@[simp] theorem modPages_mem : (s.modPages f).mem = s.mem := rfl
@[simp] theorem modPages_arbiter : (s.modPages f).arbiter = s.arbiter := rfl
@[simp] theorem modPages_strips : (s.modPages f).strips = s.strips := rfl
@[simp] theorem modPages_pages : (s.modPages f).pages = f s.pages := rfl
@[simp] theorem modPages_jobs : (s.modPages f).jobs = s.jobs := rfl
@[simp] theorem modPages_units : (s.modPages f).units = s.units := rfl
@[simp] theorem modPages_exchange : (s.modPages f).exchange = s.exchange := rfl
@[simp] theorem modPages_claims : (s.modPages f).claims = s.claims := rfl
@[simp] theorem modPages_stallLimit : (s.modPages f).stallLimit = s.stallLimit := rfl
@[simp] theorem modPages_store : (s.modPages f).store = s.store := rfl
@[simp] theorem modPages_sup : (s.modPages f).sup = s.sup := rfl
@[simp] theorem modPages_free : (s.modPages f).free = s.free := rfl

end

section
variable (s : State) (x : List Job)

@[simp] theorem withJobs_pending : (s.withJobs x).pending = s.pending := rfl
@[simp] theorem withJobs_pins : (s.withJobs x).pins = s.pins := rfl
@[simp] theorem withJobs_scan : (s.withJobs x).scan = s.scan := rfl
@[simp] theorem withJobs_items : (s.withJobs x).items = s.items := rfl
@[simp] theorem withJobs_lanes : (s.withJobs x).lanes = s.lanes := rfl
@[simp] theorem withJobs_stamp : (s.withJobs x).stamp = s.stamp := rfl
@[simp] theorem withJobs_mem : (s.withJobs x).mem = s.mem := rfl
@[simp] theorem withJobs_arbiter : (s.withJobs x).arbiter = s.arbiter := rfl
@[simp] theorem withJobs_strips : (s.withJobs x).strips = s.strips := rfl
@[simp] theorem withJobs_pages : (s.withJobs x).pages = s.pages := rfl
@[simp] theorem withJobs_jobs : (s.withJobs x).jobs = x := rfl
@[simp] theorem withJobs_units : (s.withJobs x).units = s.units := rfl
@[simp] theorem withJobs_exchange : (s.withJobs x).exchange = s.exchange := rfl
@[simp] theorem withJobs_claims : (s.withJobs x).claims = s.claims := rfl
@[simp] theorem withJobs_stallLimit : (s.withJobs x).stallLimit = s.stallLimit := rfl
@[simp] theorem withJobs_store : (s.withJobs x).store = s.store := rfl
@[simp] theorem withJobs_sup : (s.withJobs x).sup = s.sup := rfl
@[simp] theorem withJobs_free : (s.withJobs x).free = s.free := rfl

end

section
variable (s : State) (u : UnitNo) (f : CodingUnit → CodingUnit)

@[simp] theorem modUnit_pending : (s.modUnit u f).pending = s.pending := rfl
@[simp] theorem modUnit_pins : (s.modUnit u f).pins = s.pins := rfl
@[simp] theorem modUnit_scan : (s.modUnit u f).scan = s.scan := rfl
@[simp] theorem modUnit_items : (s.modUnit u f).items = s.items := rfl
@[simp] theorem modUnit_lanes : (s.modUnit u f).lanes = s.lanes := rfl
@[simp] theorem modUnit_stamp : (s.modUnit u f).stamp = s.stamp := rfl
@[simp] theorem modUnit_mem : (s.modUnit u f).mem = s.mem := rfl
@[simp] theorem modUnit_arbiter : (s.modUnit u f).arbiter = s.arbiter := rfl
@[simp] theorem modUnit_strips : (s.modUnit u f).strips = s.strips := rfl
@[simp] theorem modUnit_pages : (s.modUnit u f).pages = s.pages := rfl
@[simp] theorem modUnit_jobs : (s.modUnit u f).jobs = s.jobs := rfl
@[simp] theorem modUnit_units : (s.modUnit u f).units = put s.units u (f (s.units.get u)) := rfl
@[simp] theorem modUnit_exchange : (s.modUnit u f).exchange = s.exchange := rfl
@[simp] theorem modUnit_claims : (s.modUnit u f).claims = s.claims := rfl
@[simp] theorem modUnit_stallLimit : (s.modUnit u f).stallLimit = s.stallLimit := rfl
@[simp] theorem modUnit_store : (s.modUnit u f).store = s.store := rfl
@[simp] theorem modUnit_sup : (s.modUnit u f).sup = s.sup := rfl
@[simp] theorem modUnit_free : (s.modUnit u f).free = s.free := rfl

end

section
variable (s : State) (p : Port) (f : ExchangePort → ExchangePort)

@[simp] theorem modExchange_pending : (s.modExchange p f).pending = s.pending := rfl
@[simp] theorem modExchange_pins : (s.modExchange p f).pins = s.pins := rfl
@[simp] theorem modExchange_scan : (s.modExchange p f).scan = s.scan := rfl
@[simp] theorem modExchange_items : (s.modExchange p f).items = s.items := rfl
@[simp] theorem modExchange_lanes : (s.modExchange p f).lanes = s.lanes := rfl
@[simp] theorem modExchange_stamp : (s.modExchange p f).stamp = s.stamp := rfl
@[simp] theorem modExchange_mem : (s.modExchange p f).mem = s.mem := rfl
@[simp] theorem modExchange_arbiter : (s.modExchange p f).arbiter = s.arbiter := rfl
@[simp] theorem modExchange_strips : (s.modExchange p f).strips = s.strips := rfl
@[simp] theorem modExchange_pages : (s.modExchange p f).pages = s.pages := rfl
@[simp] theorem modExchange_jobs : (s.modExchange p f).jobs = s.jobs := rfl
@[simp] theorem modExchange_units : (s.modExchange p f).units = s.units := rfl
@[simp] theorem modExchange_exchange : (s.modExchange p f).exchange = put s.exchange p (f (s.exchange.get p)) := rfl
@[simp] theorem modExchange_claims : (s.modExchange p f).claims = s.claims := rfl
@[simp] theorem modExchange_stallLimit : (s.modExchange p f).stallLimit = s.stallLimit := rfl
@[simp] theorem modExchange_store : (s.modExchange p f).store = s.store := rfl
@[simp] theorem modExchange_sup : (s.modExchange p f).sup = s.sup := rfl
@[simp] theorem modExchange_free : (s.modExchange p f).free = s.free := rfl

end

section
variable (s : State) (x : List Claim)

@[simp] theorem withClaims_pending : (s.withClaims x).pending = s.pending := rfl
@[simp] theorem withClaims_pins : (s.withClaims x).pins = s.pins := rfl
@[simp] theorem withClaims_scan : (s.withClaims x).scan = s.scan := rfl
@[simp] theorem withClaims_items : (s.withClaims x).items = s.items := rfl
@[simp] theorem withClaims_lanes : (s.withClaims x).lanes = s.lanes := rfl
@[simp] theorem withClaims_stamp : (s.withClaims x).stamp = s.stamp := rfl
@[simp] theorem withClaims_mem : (s.withClaims x).mem = s.mem := rfl
@[simp] theorem withClaims_arbiter : (s.withClaims x).arbiter = s.arbiter := rfl
@[simp] theorem withClaims_strips : (s.withClaims x).strips = s.strips := rfl
@[simp] theorem withClaims_pages : (s.withClaims x).pages = s.pages := rfl
@[simp] theorem withClaims_jobs : (s.withClaims x).jobs = s.jobs := rfl
@[simp] theorem withClaims_units : (s.withClaims x).units = s.units := rfl
@[simp] theorem withClaims_exchange : (s.withClaims x).exchange = s.exchange := rfl
@[simp] theorem withClaims_claims : (s.withClaims x).claims = x := rfl
@[simp] theorem withClaims_stallLimit : (s.withClaims x).stallLimit = s.stallLimit := rfl
@[simp] theorem withClaims_store : (s.withClaims x).store = s.store := rfl
@[simp] theorem withClaims_sup : (s.withClaims x).sup = s.sup := rfl
@[simp] theorem withClaims_free : (s.withClaims x).free = s.free := rfl

end

section
variable (s : State) (n : Nat)

@[simp] theorem withStallLimit_pending : (s.withStallLimit n).pending = s.pending := rfl
@[simp] theorem withStallLimit_pins : (s.withStallLimit n).pins = s.pins := rfl
@[simp] theorem withStallLimit_scan : (s.withStallLimit n).scan = s.scan := rfl
@[simp] theorem withStallLimit_items : (s.withStallLimit n).items = s.items := rfl
@[simp] theorem withStallLimit_lanes : (s.withStallLimit n).lanes = s.lanes := rfl
@[simp] theorem withStallLimit_stamp : (s.withStallLimit n).stamp = s.stamp := rfl
@[simp] theorem withStallLimit_mem : (s.withStallLimit n).mem = s.mem := rfl
@[simp] theorem withStallLimit_arbiter : (s.withStallLimit n).arbiter = s.arbiter := rfl
@[simp] theorem withStallLimit_strips : (s.withStallLimit n).strips = s.strips := rfl
@[simp] theorem withStallLimit_pages : (s.withStallLimit n).pages = s.pages := rfl
@[simp] theorem withStallLimit_jobs : (s.withStallLimit n).jobs = s.jobs := rfl
@[simp] theorem withStallLimit_units : (s.withStallLimit n).units = s.units := rfl
@[simp] theorem withStallLimit_exchange : (s.withStallLimit n).exchange = s.exchange := rfl
@[simp] theorem withStallLimit_claims : (s.withStallLimit n).claims = s.claims := rfl
@[simp] theorem withStallLimit_stallLimit : (s.withStallLimit n).stallLimit = n := rfl
@[simp] theorem withStallLimit_store : (s.withStallLimit n).store = s.store := rfl
@[simp] theorem withStallLimit_sup : (s.withStallLimit n).sup = s.sup := rfl
@[simp] theorem withStallLimit_free : (s.withStallLimit n).free = s.free := rfl

end

section
variable (s : State) (f : Store → Store)

@[simp] theorem modStore_pending : (s.modStore f).pending = s.pending := rfl
@[simp] theorem modStore_pins : (s.modStore f).pins = s.pins := rfl
@[simp] theorem modStore_scan : (s.modStore f).scan = s.scan := rfl
@[simp] theorem modStore_items : (s.modStore f).items = s.items := rfl
@[simp] theorem modStore_lanes : (s.modStore f).lanes = s.lanes := rfl
@[simp] theorem modStore_stamp : (s.modStore f).stamp = s.stamp := rfl
@[simp] theorem modStore_mem : (s.modStore f).mem = s.mem := rfl
@[simp] theorem modStore_arbiter : (s.modStore f).arbiter = s.arbiter := rfl
@[simp] theorem modStore_strips : (s.modStore f).strips = s.strips := rfl
@[simp] theorem modStore_pages : (s.modStore f).pages = s.pages := rfl
@[simp] theorem modStore_jobs : (s.modStore f).jobs = s.jobs := rfl
@[simp] theorem modStore_units : (s.modStore f).units = s.units := rfl
@[simp] theorem modStore_exchange : (s.modStore f).exchange = s.exchange := rfl
@[simp] theorem modStore_claims : (s.modStore f).claims = s.claims := rfl
@[simp] theorem modStore_stallLimit : (s.modStore f).stallLimit = s.stallLimit := rfl
@[simp] theorem modStore_store : (s.modStore f).store = f s.store := rfl
@[simp] theorem modStore_sup : (s.modStore f).sup = s.sup := rfl
@[simp] theorem modStore_free : (s.modStore f).free = s.free := rfl

end

section
variable (s : State) (f : Supervisor → Supervisor)

@[simp] theorem modSup_pending : (s.modSup f).pending = s.pending := rfl
@[simp] theorem modSup_pins : (s.modSup f).pins = s.pins := rfl
@[simp] theorem modSup_scan : (s.modSup f).scan = s.scan := rfl
@[simp] theorem modSup_items : (s.modSup f).items = s.items := rfl
@[simp] theorem modSup_lanes : (s.modSup f).lanes = s.lanes := rfl
@[simp] theorem modSup_stamp : (s.modSup f).stamp = s.stamp := rfl
@[simp] theorem modSup_mem : (s.modSup f).mem = s.mem := rfl
@[simp] theorem modSup_arbiter : (s.modSup f).arbiter = s.arbiter := rfl
@[simp] theorem modSup_strips : (s.modSup f).strips = s.strips := rfl
@[simp] theorem modSup_pages : (s.modSup f).pages = s.pages := rfl
@[simp] theorem modSup_jobs : (s.modSup f).jobs = s.jobs := rfl
@[simp] theorem modSup_units : (s.modSup f).units = s.units := rfl
@[simp] theorem modSup_exchange : (s.modSup f).exchange = s.exchange := rfl
@[simp] theorem modSup_claims : (s.modSup f).claims = s.claims := rfl
@[simp] theorem modSup_stallLimit : (s.modSup f).stallLimit = s.stallLimit := rfl
@[simp] theorem modSup_store : (s.modSup f).store = s.store := rfl
@[simp] theorem modSup_sup : (s.modSup f).sup = f s.sup := rfl
@[simp] theorem modSup_free : (s.modSup f).free = s.free := rfl

end

section
variable (s : State) (n : Nat)

@[simp] theorem withFree_pending : (s.withFree n).pending = s.pending := rfl
@[simp] theorem withFree_pins : (s.withFree n).pins = s.pins := rfl
@[simp] theorem withFree_scan : (s.withFree n).scan = s.scan := rfl
@[simp] theorem withFree_items : (s.withFree n).items = s.items := rfl
@[simp] theorem withFree_lanes : (s.withFree n).lanes = s.lanes := rfl
@[simp] theorem withFree_stamp : (s.withFree n).stamp = s.stamp := rfl
@[simp] theorem withFree_mem : (s.withFree n).mem = s.mem := rfl
@[simp] theorem withFree_arbiter : (s.withFree n).arbiter = s.arbiter := rfl
@[simp] theorem withFree_strips : (s.withFree n).strips = s.strips := rfl
@[simp] theorem withFree_pages : (s.withFree n).pages = s.pages := rfl
@[simp] theorem withFree_jobs : (s.withFree n).jobs = s.jobs := rfl
@[simp] theorem withFree_units : (s.withFree n).units = s.units := rfl
@[simp] theorem withFree_exchange : (s.withFree n).exchange = s.exchange := rfl
@[simp] theorem withFree_claims : (s.withFree n).claims = s.claims := rfl
@[simp] theorem withFree_stallLimit : (s.withFree n).stallLimit = s.stallLimit := rfl
@[simp] theorem withFree_store : (s.withFree n).store = s.store := rfl
@[simp] theorem withFree_sup : (s.withFree n).sup = s.sup := rfl
@[simp] theorem withFree_free : (s.withFree n).free = n := rfl

end

end Sys2Proof.Laws
end

