-- ==== Sys2Proof/Laws/Behind.lean ====
section
/-! SUPPORT. What settling, grants, coding jobs and cancellations never touch: they work behind reception, on items'
states, faces and renditions, pools, jobs, units, exchange ports, claims and the arbiter alone. -/

namespace Sys2Proof.Laws
open Sys2Proof.Machine

/-- How an item may move behind reception: from SETTLING to READY, from READY to CLAIMED, with its holder and disposition,
and its faces' strips and its renditions; nothing else of its record. -/
structure Moves (i j : Item) : Prop where
  state : j.state = i.state ∨ (i.state = .settling ∧ (j.state = .ready ∨ j.state = .claimed)) ∨
    (i.state = .ready ∧ j.state = .claimed)
  holder : j.holder = i.holder ∨ (i.state ≠ .claimed ∧ j.state = .claimed)
  rest : j = { i with
    state := j.state, faces := j.faces, renditions := j.renditions, holder := j.holder, disposition := j.disposition }

theorem Moves.refl (i : Item) : Moves i i := ⟨.inl rfl, .inl rfl, rfl⟩

theorem Moves.trans {i j k : Item} (h : Moves i j) (g : Moves j k) : Moves i k where
  state := by
    rcases h.state with a | ⟨a, b | b⟩ | ⟨a, b⟩ <;> rcases g.state with c | ⟨c, d⟩ | ⟨c, d⟩ <;> simp_all
  holder := by
    rcases h.holder with a | ⟨a, b⟩
    · rcases g.holder with c | ⟨c, d⟩
      · exact .inl (c.trans a)
      · refine .inr ⟨fun e => c ?_, d⟩
        rcases h.state with x | ⟨x, y⟩ | ⟨x, y⟩ <;> simp_all
    · refine .inr ⟨a, ?_⟩
      rcases g.state with c | ⟨c, d⟩ | ⟨c, d⟩ <;> simp_all
  rest := by rw [g.rest, h.rest]

/-- `t` differs from `s` only behind reception. -/
structure Behind (s t : State) : Prop where
  rest : t = { s with
    items := t.items, arbiter := t.arbiter, strips := t.strips, pages := t.pages, jobs := t.jobs, units := t.units,
    exchange := t.exchange, claims := t.claims }
  item : ∀ k, Moves (s.items.get k) (t.items.get k)

namespace Behind

theorem refl (s : State) : Behind s s := ⟨rfl, fun _ => .refl _⟩

theorem trans {s t u : State} (h : Behind s t) (g : Behind t u) : Behind s u where
  rest := by rw [g.rest, h.rest]
  item k := (h.item k).trans (g.item k)

variable {s t : State}

theorem scan (h : Behind s t) : t.scan = s.scan := by rw [h.rest]
theorem lanes (h : Behind s t) : t.lanes = s.lanes := by rw [h.rest]
theorem stamp (h : Behind s t) : t.stamp = s.stamp := by rw [h.rest]
theorem pins (h : Behind s t) : t.pins = s.pins := by rw [h.rest]
theorem store (h : Behind s t) : t.store = s.store := by rw [h.rest]
theorem sup (h : Behind s t) : t.sup = s.sup := by rw [h.rest]
theorem mem (h : Behind s t) : t.mem = s.mem := by rw [h.rest]
theorem pending (h : Behind s t) : t.pending = s.pending := by rw [h.rest]

/-- An item outside SETTLING and READY keeps its state. -/
theorem state_same (h : Behind s t) {k : Slot} (hs : (s.items.get k).state ≠ .settling)
    (hr : (s.items.get k).state ≠ .ready) : (t.items.get k).state = (s.items.get k).state := by
  rcases (h.item k).state with a | ⟨a, _⟩ | ⟨a, _⟩
  · exact a
  · exact absurd a hs
  · exact absurd a hr

/-! ### The updates -/

theorem modItem (h : Behind s t) (k : Slot) (f : Item → Item) (hf : Moves (t.items.get k) (f (t.items.get k))) :
    Behind s (t.modItem k f) := by
  refine h.trans ⟨rfl, fun j => ?_⟩
  simp only [modItem_items, get_put]
  split
  · rename_i e
    subst e
    exact hf
  · exact .refl _

theorem modArbiter (h : Behind s t) (f : Arbiter → Arbiter) : Behind s (t.modArbiter f) :=
  h.trans ⟨rfl, fun _ => .refl _⟩
theorem withStrips (h : Behind s t) (x : List Nat) : Behind s (t.withStrips x) := h.trans ⟨rfl, fun _ => .refl _⟩
theorem withJobs (h : Behind s t) (x : List Job) : Behind s (t.withJobs x) := h.trans ⟨rfl, fun _ => .refl _⟩
theorem withClaims (h : Behind s t) (x : List Claim) : Behind s (t.withClaims x) := h.trans ⟨rfl, fun _ => .refl _⟩
theorem modUnit (h : Behind s t) (u : UnitNo) (f : CodingUnit → CodingUnit) : Behind s (t.modUnit u f) :=
  h.trans ⟨rfl, fun _ => .refl _⟩
theorem modPages (h : Behind s t) (f : PagePool → PagePool) : Behind s (t.modPages f) :=
  h.trans ⟨rfl, fun _ => .refl _⟩
theorem modExchange (h : Behind s t) (p : Port) (f : ExchangePort → ExchangePort) : Behind s (t.modExchange p f) :=
  h.trans ⟨rfl, fun _ => .refl _⟩
theorem request (h : Behind s t) (r : Requester) : Behind s (t.request r) := h.modArbiter _
theorem withdraw (h : Behind s t) (r : Requester) : Behind s (t.withdraw r) := h.modArbiter _
theorem exchangeProduce (h : Behind s t) (p : Port) (m : ExchangeMsg) : Behind s (t.exchangeProduce p m) :=
  h.modExchange _ _

theorem foldl {α : Type} (h : Behind s t) (l : List α) {f : State → α → State}
    (hf : ∀ u a, Behind s u → Behind s (f u a)) : Behind s (l.foldl f t) := by
  induction l generalizing t with
  | nil => exact h
  | cons a l ih => exact ih (hf _ _ h)

/-! ### Items and the release arbiter -/

theorem returnStrips (h : Behind s t) (k : Slot) (face : FaceKind) : Behind s (t.returnStrips k face) := by
  unfold State.returnStrips
  split
  · exact h
  · split
    · exact (h.withStrips _).modItem _ _ ⟨.inl rfl, .inl rfl, rfl⟩
    · exact h

theorem returnAllStrips (h : Behind s t) (k : Slot) : Behind s (t.returnAllStrips k) :=
  h.foldl _ fun _ _ h => h.returnStrips _ _

/-- The head that the release arbiter chooses is READY. -/
theorem chooseHead_ready {s : State} {k : Slot} (h : s.chooseHead = some k) : (s.items.get k).state = .ready := by
  have mem : k ∈ s.coveredHeads := by
    unfold State.chooseHead at h
    dsimp only at h
    split at h
    · rename_i a e
      obtain rfl := Option.some.inj h
      exact List.mem_of_find?_eq_some e
    · exact List.mem_of_mem_head? h
  simp only [State.coveredHeads, List.mem_filterMap] at mem
  obtain ⟨l, _, e⟩ := mem
  split at e
  · simp only [State.readyHead, Option.filter_eq_some_iff, decide_eq_true_eq] at e
    exact e.2
  · exact absurd e (by simp)

theorem grant (h : Behind s t) (c : Claim) (k : Slot) (hk : (t.items.get k).state = .ready) :
    Behind s (t.grant c k) := by
  unfold State.grant
  dsimp only
  refine (((h.withClaims _).modItem _ _ ?_).modExchange _ _).exchangeProduce _ _
  exact ⟨.inr (.inr ⟨hk, rfl⟩), .inr ⟨fun e => (by
      have x : (t.items.get k).state = .claimed := e
      rw [hk] at x
      cases x), rfl⟩, rfl⟩

theorem grantUpTo (n : Nat) (h : Behind s t) : Behind s (State.grantUpTo n t) := by
  induction n generalizing t with
  | zero => exact h
  | succ n ih =>
    unfold State.grantUpTo
    split
    · exact h
    · rename_i k e
      split
      · exact h
      · exact ih (h.grant _ _ (chooseHead_ready e))

theorem releaseAct (h : Behind s t) : Behind s t.releaseAct := grantUpTo _ h

theorem settle (h : Behind s t) (k : Slot) : Behind s (t.settle k) := by
  unfold State.settle
  split
  · rename_i e
    simp only [Item.settled, Bool.and_eq_true, decide_eq_true_eq] at e
    have k := h.modItem k (fun i => { i with state := .ready, disposition := some i.judge })
      ⟨.inr (.inl ⟨e.1.1, .inl rfl⟩), .inl rfl, rfl⟩
    dsimp only
    split
    · exact k.releaseAct
    · exact k
  · exact h

/-! ### Jobs, coding units and the dispatcher -/

theorem modRendition (h : Behind s t) (j : Job) (f : Rendition → Rendition) : Behind s (t.modRendition j f) :=
  h.modItem _ _ ⟨.inl rfl, .inl rfl, rfl⟩

theorem drawPage (h : Behind s t) (u : UnitNo) (j : Job) : Behind s (t.drawPage u j) := by
  unfold State.drawPage
  split
  · exact h
  · exact ((h.modPages _).modRendition _ _).modUnit _ _

theorem giveUpPages (h : Behind s t) (u : UnitNo) (j : Job) : Behind s (t.giveUpPages u j) :=
  ((h.modPages _).modRendition _ _).modUnit _ _

theorem freeUndrawn (h : Behind s t) (u : UnitNo) : Behind s (t.freeUndrawn u) := by
  unfold State.freeUndrawn
  try dsimp only
  exact (h.modPages _).modUnit _ _

theorem idleUnit (h : Behind s t) (u : UnitNo) : Behind s (t.idleUnit u) := by
  unfold State.idleUnit
  try dsimp only
  exact (h.withdraw _).modUnit _ _

theorem afterJob (h : Behind s t) (j : Job) : Behind s (t.afterJob j) := (h.returnStrips _ _).settle _

theorem failJob (h : Behind s t) (u : UnitNo) (j : Job) (f : RenditionState) : Behind s (t.failJob u j f) := by
  unfold State.failJob
  try dsimp only
  exact (((h.giveUpPages u j).modRendition _ _).idleUnit _).afterJob _

theorem doneJob (h : Behind s t) (u : UnitNo) (j : Job) : Behind s (t.doneJob u j) := by
  unfold State.doneJob
  try dsimp only
  exact (((h.freeUndrawn u).modRendition _ _).idleUnit _).afterJob _

theorem placeByte (h : Behind s t) {u : UnitNo} {j : Job} {b : Byte} {v : State} (e : t.placeByte u j b = some v) :
    Behind s v := by
  unfold State.placeByte at e
  dsimp only at e
  split at e
  · exact absurd e (by simp)
  · obtain rfl := Option.some.inj e
    split
    · exact (h.drawPage _ _).modUnit _ _
    · exact h.modUnit _ _

/-- The state that comes of placing a unit's bytes. -/
def resultOf : Placed → State
  | .fitted s => s
  | .overBudget s => s

theorem placeBytes (l : List Byte) (u : UnitNo) (j : Job) (h : Behind s t) :
    Behind s (resultOf (State.placeBytes u j l t)) := by
  induction l generalizing t with
  | nil =>
    simp only [State.placeBytes, resultOf]
    exact h.modUnit _ _
  | cons b bs ih =>
    unfold State.placeBytes
    split
    · simp only [resultOf]
      exact h.modUnit _ _
    · split
      · exact h
      · rename_i v e
        exact ih (h.placeByte e)

theorem nextRequest (h : Behind s t) (u : UnitNo) (j : Job) : Behind s (t.nextRequest u j) :=
  (h.modUnit _ _).request _

theorem startRung (h : Behind s t) (u : UnitNo) (j : Job) (r : Nat) : Behind s (t.startRung u j r) := by
  unfold State.startRung
  try dsimp only
  exact (h.modUnit _ _).drawPage _ _

theorem stepDown (h : Behind s t) (u : UnitNo) (j : Job) : Behind s (t.stepDown u j) := by
  unfold State.stepDown
  try dsimp only
  exact ((((h.withdraw _).modPages _).modRendition _ _).modUnit _ _).startRung _ _ _

theorem runUnit (n : Nat) (u : UnitNo) (j : Job) (h : Behind s t) : Behind s (State.runUnit n t u j) := by
  induction n generalizing t with
  | zero =>
    unfold State.runUnit
    have := h.placeBytes (t.units.get u).unplaced u j
    split <;> rename_i e <;> rw [e] at this
    · exact this.nextRequest _ _
    · exact this.failJob _ _ _
  | succ n ih =>
    unfold State.runUnit
    have := h.placeBytes (t.units.get u).unplaced u j
    split <;> rename_i e <;> rw [e] at this
    · exact this.nextRequest _ _
    · split
      · exact ih (this.stepDown _ _)
      · exact this.failJob _ _ _

theorem startJob (h : Behind s t) (u : UnitNo) (j : Job) : Behind s (t.startJob u j) :=
  runUnit _ _ _ (((((h.withJobs _).modPages _).modRendition _ _).modUnit _ _).startRung _ _ _)

theorem startUpTo (n : Nat) (h : Behind s t) : Behind s (State.startUpTo n t) := by
  induction n generalizing t with
  | zero => exact h
  | succ n ih =>
    unfold State.startUpTo
    split
    · exact ih (h.startJob _ _)
    · exact h

theorem dispatchAct (h : Behind s t) : Behind s t.dispatchAct := startUpTo _ h

theorem cancelRendition (h : Behind s t) (j : Job) : Behind s (t.cancelRendition j) := by
  unfold State.cancelRendition
  split
  · exact h
  · split
    · exact h.modRendition _ _
    · exact (h.withJobs _).modRendition _ _
    · split
      · exact ((h.giveUpPages _ _).modRendition _ _).idleUnit _
      · exact h.modRendition _ _
    all_goals exact h

theorem cancelRenditions (h : Behind s t) (k : Slot) : Behind s (t.cancelRenditions k) :=
  h.foldl _ fun _ _ h => h.cancelRendition _

theorem rejectRenditions (h : Behind s t) (k : Slot) : Behind s (t.rejectRenditions k) := by
  unfold State.rejectRenditions
  try dsimp only
  exact (((h.cancelRenditions k).returnAllStrips k).settle k).dispatchAct

end Behind

end Sys2Proof.Laws
end

