-- ==== Sys2Proof/Laws/Apart.lean ====
section
/-! SUPPORT. What the scan ports hold makes no difference behind reception: settling, grants, coding jobs, cancellations
and the dispatcher give the same with the scan ports replaced. -/

namespace Sys2Proof.Laws
open Sys2Proof.Machine

/-- The state with other scan ports. -/
def replaceScan (v : Vector ScanPort 4) (s : State) : State := { s with scan := v }

variable (v : Vector ScanPort 4) (s : State)

theorem replaceScan_foldl {α : Type} {f : State → α → State} (hf : ∀ s a, f (replaceScan v s) a = replaceScan v (f s a))
    (l : List α) : l.foldl f (replaceScan v s) = replaceScan v (l.foldl f s) := by
  induction l generalizing s with
  | nil => rfl
  | cons a l ih => rw [List.foldl_cons, List.foldl_cons, hf, ih]

/-! ### Items and the release arbiter -/

theorem replaceScan_returnStrips (k : Slot) (face : FaceKind) :
    (replaceScan v s).returnStrips k face = replaceScan v (s.returnStrips k face) := by
  unfold State.returnStrips
  show (match (s.items.get k).face? face with | none => _ | some f => _) = _
  cases (s.items.get k).face? face with
  | none => rfl
  | some f =>
    dsimp only
    show (if f.state ≠ .landing ∧ (s.items.get k).faceIdle face then _ else _) = _
    split <;> rfl

theorem replaceScan_returnAllStrips (k : Slot) : (replaceScan v s).returnAllStrips k = replaceScan v (s.returnAllStrips k) :=
  replaceScan_foldl v s (fun s face => replaceScan_returnStrips v s k face) _

theorem replaceScan_grantUpTo (n : Nat) : State.grantUpTo n (replaceScan v s) = replaceScan v (State.grantUpTo n s) := by
  induction n generalizing s with
  | zero => rfl
  | succ n ih =>
    unfold State.grantUpTo
    show (match s.chooseHead with | none => _ | some k => _) = _
    cases s.chooseHead with
    | none => rfl
    | some k =>
      dsimp only
      show (match s.chooseClaim k with | none => _ | some c => _) = _
      cases s.chooseClaim k with
      | none => rfl
      | some c => exact ih (s.grant c k)

theorem replaceScan_releaseAct : (replaceScan v s).releaseAct = replaceScan v s.releaseAct := replaceScan_grantUpTo v s _

theorem replaceScan_settle (k : Slot) : (replaceScan v s).settle k = replaceScan v (s.settle k) := by
  unfold State.settle
  show (if (s.items.get k).settled then _ else _) = _
  split
  · dsimp only
    show (if State.isLaneHead (s.modItem k fun i => { i with state := .ready, disposition := some i.judge }) k then _
      else _) = _
    split
    · rw [← replaceScan_releaseAct]
      rfl
    · rfl
  · rfl

/-! ### Jobs and coding units -/

theorem replaceScan_drawPage (u : UnitNo) (j : Job) : (replaceScan v s).drawPage u j = replaceScan v (s.drawPage u j) := by
  unfold State.drawPage
  show (match s.pages.free with | [] => _ | g :: _ => _) = _
  cases s.pages.free <;> rfl

theorem replaceScan_afterJob (j : Job) : (replaceScan v s).afterJob j = replaceScan v (s.afterJob j) := by
  unfold State.afterJob
  rw [replaceScan_returnStrips, replaceScan_settle]

theorem replaceScan_failJob (u : UnitNo) (j : Job) (r : RenditionState) :
    (replaceScan v s).failJob u j r = replaceScan v (s.failJob u j r) :=
  replaceScan_afterJob v (((s.giveUpPages u j).modRendition j fun x => { x with state := r }).idleUnit u) j

theorem replaceScan_placeByte (u : UnitNo) (j : Job) (b : Byte) :
    (replaceScan v s).placeByte u j b = (s.placeByte u j b).map (replaceScan v) := by
  unfold State.placeByte
  dsimp only
  show (if s.jobBudget j * 1024 < (s.units.get u).length + 1 then _ else _) = _
  split
  · rfl
  · show some (State.modUnit (if (s.units.get u).length % 4096 = 0 then _ else _) _ _) = _
    split
    · rw [replaceScan_drawPage]
      rfl
    · rfl

/-- The placing of bytes with other scan ports. -/
def placedReplaceScan : Placed → Placed
  | .fitted t => .fitted (replaceScan v t)
  | .overBudget t => .overBudget (replaceScan v t)

theorem replaceScan_placeBytes (u : UnitNo) (j : Job) (l : List Byte) :
    State.placeBytes u j l (replaceScan v s) = placedReplaceScan v (State.placeBytes u j l s) := by
  induction l generalizing s with
  | nil => rfl
  | cons b bs ih =>
    unfold State.placeBytes
    show (if (s.units.get u).outputBurst.length = 256 then _ else _) = _
    split
    · rfl
    · rw [replaceScan_placeByte]
      cases s.placeByte u j b with
      | none => rfl
      | some t => exact ih t

theorem replaceScan_startRung (u : UnitNo) (j : Job) (r : Nat) :
    (replaceScan v s).startRung u j r = replaceScan v (s.startRung u j r) := by
  unfold State.startRung
  dsimp only
  rw [← replaceScan_drawPage]
  rfl

theorem replaceScan_stepDown (u : UnitNo) (j : Job) : (replaceScan v s).stepDown u j = replaceScan v (s.stepDown u j) := by
  unfold State.stepDown
  dsimp only
  rw [← replaceScan_startRung]
  rfl

theorem replaceScan_runUnit (n : Nat) (u : UnitNo) (j : Job) :
    State.runUnit n (replaceScan v s) u j = replaceScan v (State.runUnit n s u j) := by
  induction n generalizing s with
  | zero =>
    unfold State.runUnit
    rw [replaceScan_placeBytes]
    show (match placedReplaceScan v (State.placeBytes u j (s.units.get u).unplaced s) with
      | .fitted t => _ | .overBudget t => _) = _
    cases State.placeBytes u j (s.units.get u).unplaced s with
    | fitted t => rfl
    | overBudget t => exact replaceScan_failJob v t u j _
  | succ n ih =>
    unfold State.runUnit
    rw [replaceScan_placeBytes]
    show (match placedReplaceScan v (State.placeBytes u j (s.units.get u).unplaced s) with
      | .fitted t => _ | .overBudget t => _) = _
    cases State.placeBytes u j (s.units.get u).unplaced s with
    | fitted t => rfl
    | overBudget t =>
      dsimp only [placedReplaceScan]
      show (if (t.units.get u).rung + 1 < profileRungs (t.jobRecord j) j.kind then _ else _) = _
      split
      · rw [replaceScan_stepDown, ih]
      · exact replaceScan_failJob v t u j _

/-! ### The dispatcher and cancellation -/

theorem replaceScan_startJob (u : UnitNo) (j : Job) : (replaceScan v s).startJob u j = replaceScan v (s.startJob u j) := by
  unfold State.startJob
  dsimp only
  rw [← replaceScan_runUnit, ← replaceScan_startRung]
  rfl

theorem replaceScan_startUpTo (n : Nat) : State.startUpTo n (replaceScan v s) = replaceScan v (State.startUpTo n s) := by
  induction n generalizing s with
  | zero => rfl
  | succ n ih =>
    unfold State.startUpTo
    show (match s.idleUnit?, s.pickJob with | some u, some j => _ | _, _ => _) = _
    cases s.idleUnit? <;> cases s.pickJob <;> dsimp only
    rw [replaceScan_startJob, ih]

/-- An act of the dispatcher is the same whatever the scan ports hold. -/
theorem replaceScan_dispatchAct : (replaceScan v s).dispatchAct = replaceScan v s.dispatchAct := replaceScan_startUpTo v s _

theorem replaceScan_cancelRendition (j : Job) : (replaceScan v s).cancelRendition j = replaceScan v (s.cancelRendition j) := by
  unfold State.cancelRendition
  show (match (s.items.get j.slot).rendition? j.face j.kind with | none => _ | some r => _) = _
  cases (s.items.get j.slot).rendition? j.face j.kind with
  | none => rfl
  | some r =>
    cases h : r.state <;> simp only [h] <;> try rfl
    show (match s.unitOf j with | some u => _ | none => _) = _
    cases s.unitOf j <;> rfl

/-- What a REJECT or PURGE does to an item's renditions is the same whatever the scan ports hold. -/
theorem replaceScan_rejectRenditions (k : Slot) : (replaceScan v s).rejectRenditions k = replaceScan v (s.rejectRenditions k) := by
  unfold State.rejectRenditions
  have c : (replaceScan v s).cancelRenditions k = replaceScan v (s.cancelRenditions k) :=
    replaceScan_foldl v s (replaceScan_cancelRendition v) _
  rw [c, replaceScan_returnAllStrips, replaceScan_settle, replaceScan_dispatchAct]

end Sys2Proof.Laws
end

