-- ==== Sys2Proof/Laws/Commands.lean ====
section
/-! SUPPORT. The command mechanism and the operand ranges: what `giveCommand` and `whileRunning` do while RESET_N is
high or low, and what each operand form reads. -/

namespace Sys2Proof.Laws
open Sys2Proof.Machine Sys2Proof.Safety

/-! ### Running or held in reset -/

theorem whileRunning_running {s : State} (h : Running s) (f : State → State) : s.whileRunning f = f s := by
  simp only [Running] at h
  simp [State.whileRunning, h]

theorem whileRunning_reset {s : State} (h : s.pins.resetLow = true) (f : State → State) : s.whileRunning f = s := by
  simp [State.whileRunning, h]

theorem giveCommand_running {s : State} (h : Running s) (code : Word) (f : State → Answer × State) :
    s.giveCommand code f = withAnswer (f (given s code)).2 (f (given s code)).1 := by
  unfold State.giveCommand
  rw [whileRunning_running h]
  rfl

theorem giveCommand_reset {s : State} (h : s.pins.resetLow = true) (code : Word) (f : State → Answer × State) :
    s.giveCommand code f = s := whileRunning_reset h _

/-- A command answered without any other effect. -/
theorem giveCommand_answered {s : State} (h : Running s) {code : Word} {f : State → Answer × State} {a : Answer}
    (e : f (given s code) = (a, given s code)) : s.giveCommand code f = answered s code a := by
  rw [giveCommand_running h, e]
  rfl

/-! ### Operands -/

theorem numberedObject_some {n : Nat} {v : Word} {k : Fin n} (h : v.toNat = k.val) : numberedObject n v = some k := by
  simp [numberedObject, h]

theorem numberedObject_none {n : Nat} {v : Word} (h : n ≤ v.toNat) : numberedObject n v = none := by
  simp [numberedObject, Nat.not_lt.mpr h]

theorem laneOperand_some {v : Word} {l : Lane} (h : v.toNat = l.val) : laneOperand v = some l := numberedObject_some h
theorem laneOperand_none {v : Word} (h : 4 ≤ v.toNat) : laneOperand v = none := numberedObject_none h
theorem slotOperand_some {v : Word} {k : Slot} (h : v.toNat = k.val) : slotOperand v = some k := numberedObject_some h
theorem slotOperand_none {v : Word} (h : 256 ≤ v.toNat) : slotOperand v = none := numberedObject_none h
theorem portOperand_some {v : Word} {p : Port} (h : v.toNat = p.val) : portOperand v = some p := numberedObject_some h
theorem portOperand_none {v : Word} (h : 2 ≤ v.toNat) : portOperand v = none := numberedObject_none h
theorem blockOperand_some {v : Word} {b : BlockNo} (h : v.toNat = b.val) : blockOperand v = some b :=
  numberedObject_some h
theorem blockOperand_none {v : Word} (h : 8 ≤ v.toNat) : blockOperand v = none := numberedObject_none h

theorem rangeOperand_some {low high : Nat} {v : Word} (h : low ≤ v.toNat) (k : v.toNat ≤ high) :
    rangeOperand low high v = some v.toNat := by
  simp [rangeOperand, h, k]

theorem rangeOperand_none {low high : Nat} {v : Word} (h : v.toNat < low ∨ high < v.toNat) :
    rangeOperand low high v = none := by
  simp only [rangeOperand, ite_eq_right_iff]
  omega

theorem maskOperand_some {v : Word} (h : v.toNat ≤ 15) : maskOperand v = some (v.setWidth 4) := by
  simp [maskOperand, h]

theorem maskOperand_none {v : Word} (h : 15 < v.toNat) : maskOperand v = none := by
  simp [maskOperand, Nat.not_le.mpr h]

theorem targetOperand_block {v : Word} {b : BlockNo} (h : v.toNat = b.val) : targetOperand v = some (some (.block b)) := by
  simp [targetOperand, blockOperand_some h]

theorem targetOperand_staging {v : Word} (h : v.toNat = 8) : targetOperand v = some (some .staging) := by
  have e : v = 8 := BitVec.eq_of_toNat_eq h
  subst e
  rfl

theorem targetOperand_unbound {v : Word} (h : v.toNat = 9) : targetOperand v = some none := by
  have e : v = 9 := BitVec.eq_of_toNat_eq h
  subst e
  rfl

theorem targetOperand_none {v : Word} (h : 9 < v.toNat) : targetOperand v = none := by
  have a : v ≠ 8 := fun e => by subst e; simp at h
  have b : v ≠ 9 := fun e => by subst e; simp at h
  simp only [targetOperand, blockOperand_none (show 8 ≤ v.toNat by omega), if_neg a, if_neg b]

/-- A code outside 1 to 17 names no command. -/
theorem commandOf_unknown {code : Word} (h : code.toNat = 0 ∨ 17 < code.toNat) :
    commandOf code = fun s => (.invalidArg, s) := by
  unfold commandOf
  split <;> first | omega | rfl

end Sys2Proof.Laws
end

