-- ==== Sys2Proof/Laws/Exchange.lean ====
section
/-! SUPPORT. The early end of a stream: what stays of the frames produced. -/

namespace Sys2Proof.Laws
open Sys2Proof.Machine Sys2Proof.Safety

/-- A frame kept was produced, and a GRANT or SEGMENT kept is the first frame and has begun (R128, R143). -/
theorem keepOfStream_mem {begun : Bool} {produced : List ExchangeMsg} {m : ExchangeMsg}
    (h : m ∈ keepOfStream begun produced) :
    m ∈ produced ∧ (m.inStream = true → begun = true ∧ produced.head? = some m) := by
  cases produced with
  | nil => cases h
  | cons a rest =>
    simp only [keepOfStream, List.take_succ_cons, List.take_zero, List.tail_cons, List.mem_append, List.mem_filter,
      List.mem_singleton] at h
    rcases h with ⟨rfl, hb⟩ | ⟨hm, hb⟩
    · exact ⟨List.mem_cons_self, fun hs => ⟨by simpa [hs] using hb, rfl⟩⟩
    · exact ⟨List.mem_cons_of_mem _ hm, fun hs => by simp [hs] at hb⟩

/-- The cut of a stream: the port as `streamCut` says, begun at least where its state knows so; nothing else but the
counter of free values changes. -/
theorem cutStream_eq (s : State) (p : Port) :
    ∃ begun : Bool, ((s.exchange.get p).begun = true → begun = true) ∧
      s.cutStream p =
        { s with exchange := put s.exchange p (streamCut (s.exchange.get p) begun), free := s.free + 1 } :=
  ⟨hasBegun (s.exchange.get p).begun s.free, fun h => by rw [hasBegun, h, Bool.true_or], rfl⟩

end Sys2Proof.Laws
end

