-- ==== Sys2Proof/Laws/Frame.lean ====
section
/-! SUPPORT. What the scan side, the coding units and the exchange side never touch: the queue, the pins, the buffer
memory, every setting, the profile store but its pin counts, and the supervisor's registers but its causes, which only
gather. One lemma for each shared operation. -/

namespace Sys2Proof.Laws
open Sys2Proof.Machine

/-- `t` differs from `s` at most in items, queues, ports, pools, jobs, units, claims, stamp, arbiter, pin counts,
causes that `s` did not have, and the counter of free values, which does not fall. -/
structure Keeps (s t : State) : Prop where
  pending : t.pending = s.pending
  pins : t.pins = s.pins
  mem : t.mem = s.mem
  stallLimit : t.stallLimit = s.stallLimit
  free : s.free ≤ t.free
  headReserve : t.pages.headReserve = s.pages.headReserve
  quota : ∀ l, (t.lanes.get l).quota = (s.lanes.get l).quota
  closed : ∀ l, (t.lanes.get l).closed = (s.lanes.get l).closed
  mask : ∀ p, (t.exchange.get p).mask = (s.exchange.get p).mask
  store : t.store = { s.store with pins := t.store.pins, stagingPins := t.store.stagingPins }
  sup : t.sup = { s.sup with causes := t.sup.causes }
  causes : s.sup.causes ||| t.sup.causes = t.sup.causes
  pinned : ∀ src, t.store.pinCount src ≤ s.store.pinCount src ∨ s.store.usable src = true

namespace Keeps

theorem refl (s : State) : Keeps s s :=
  ⟨rfl, rfl, rfl, rfl, Nat.le_refl _, rfl, fun _ => rfl, fun _ => rfl, fun _ => rfl, rfl, rfl, BitVec.or_self,
    fun _ => .inl (Nat.le_refl _)⟩

theorem trans {s t u : State} (h : Keeps s t) (k : Keeps t u) : Keeps s u where
  pending := k.pending.trans h.pending
  pins := k.pins.trans h.pins
  mem := k.mem.trans h.mem
  stallLimit := k.stallLimit.trans h.stallLimit
  free := Nat.le_trans h.free k.free
  headReserve := k.headReserve.trans h.headReserve
  quota l := (k.quota l).trans (h.quota l)
  closed l := (k.closed l).trans (h.closed l)
  mask p := (k.mask p).trans (h.mask p)
  store := by rw [k.store, h.store]
  sup := by rw [k.sup, h.sup]
  causes := by rw [← k.causes, ← h.causes]; simp only [← BitVec.or_assoc, BitVec.or_self]
  pinned src := by
    rcases h.pinned src with a | a
    · rcases k.pinned src with b | b
      · exact .inl (Nat.le_trans b a)
      · refine .inr ?_
        rw [h.store] at b
        cases src <;> exact b
    · exact .inr a

variable {s t : State}

/-! ### The updates -/

theorem modScan (h : Keeps s t) (l : Lane) (f : ScanPort → ScanPort) : Keeps s (t.modScan l f) :=
  h.trans ⟨rfl, rfl, rfl, rfl, Nat.le_refl _, rfl, fun _ => rfl, fun _ => rfl, fun _ => rfl, rfl, rfl, BitVec.or_self,
    fun _ => .inl (Nat.le_refl _)⟩

theorem modItem (h : Keeps s t) (k : Slot) (f : Item → Item) : Keeps s (t.modItem k f) :=
  h.trans ⟨rfl, rfl, rfl, rfl, Nat.le_refl _, rfl, fun _ => rfl, fun _ => rfl, fun _ => rfl, rfl, rfl, BitVec.or_self,
    fun _ => .inl (Nat.le_refl _)⟩

theorem withStamp (h : Keeps s t) (v : Long) : Keeps s (t.withStamp v) :=
  h.trans ⟨rfl, rfl, rfl, rfl, Nat.le_refl _, rfl, fun _ => rfl, fun _ => rfl, fun _ => rfl, rfl, rfl, BitVec.or_self,
    fun _ => .inl (Nat.le_refl _)⟩

theorem modArbiter (h : Keeps s t) (f : Arbiter → Arbiter) : Keeps s (t.modArbiter f) :=
  h.trans ⟨rfl, rfl, rfl, rfl, Nat.le_refl _, rfl, fun _ => rfl, fun _ => rfl, fun _ => rfl, rfl, rfl, BitVec.or_self,
    fun _ => .inl (Nat.le_refl _)⟩

theorem withStrips (h : Keeps s t) (x : List Nat) : Keeps s (t.withStrips x) :=
  h.trans ⟨rfl, rfl, rfl, rfl, Nat.le_refl _, rfl, fun _ => rfl, fun _ => rfl, fun _ => rfl, rfl, rfl, BitVec.or_self,
    fun _ => .inl (Nat.le_refl _)⟩

theorem withJobs (h : Keeps s t) (x : List Job) : Keeps s (t.withJobs x) :=
  h.trans ⟨rfl, rfl, rfl, rfl, Nat.le_refl _, rfl, fun _ => rfl, fun _ => rfl, fun _ => rfl, rfl, rfl, BitVec.or_self,
    fun _ => .inl (Nat.le_refl _)⟩

theorem withClaims (h : Keeps s t) (x : List Claim) : Keeps s (t.withClaims x) :=
  h.trans ⟨rfl, rfl, rfl, rfl, Nat.le_refl _, rfl, fun _ => rfl, fun _ => rfl, fun _ => rfl, rfl, rfl, BitVec.or_self,
    fun _ => .inl (Nat.le_refl _)⟩

theorem modUnit (h : Keeps s t) (u : UnitNo) (f : CodingUnit → CodingUnit) : Keeps s (t.modUnit u f) :=
  h.trans ⟨rfl, rfl, rfl, rfl, Nat.le_refl _, rfl, fun _ => rfl, fun _ => rfl, fun _ => rfl, rfl, rfl, BitVec.or_self,
    fun _ => .inl (Nat.le_refl _)⟩

theorem modPages (h : Keeps s t) (f : PagePool → PagePool) (hf : ∀ p, (f p).headReserve = p.headReserve) :
    Keeps s (t.modPages f) :=
  h.trans ⟨rfl, rfl, rfl, rfl, Nat.le_refl _, hf _, fun _ => rfl, fun _ => rfl, fun _ => rfl, rfl, rfl, BitVec.or_self,
    fun _ => .inl (Nat.le_refl _)⟩

theorem modLane (h : Keeps s t) (l : Lane) (f : LaneRec → LaneRec)
    (hf : ∀ r, (f r).quota = r.quota ∧ (f r).closed = r.closed) : Keeps s (t.modLane l f) := by
  refine h.trans ⟨rfl, rfl, rfl, rfl, Nat.le_refl _, rfl, fun i => ?_, fun i => ?_, fun _ => rfl, rfl, rfl, BitVec.or_self,
    fun _ => .inl (Nat.le_refl _)⟩
  all_goals
    simp only [modLane_lanes, get_put]
    split
    · rename_i e; subst e; simp [hf]
    · rfl

theorem modExchange (h : Keeps s t) (p : Port) (f : ExchangePort → ExchangePort) (hf : ∀ x, (f x).mask = x.mask) :
    Keeps s (t.modExchange p f) := by
  refine h.trans ⟨rfl, rfl, rfl, rfl, Nat.le_refl _, rfl, fun _ => rfl, fun _ => rfl, fun i => ?_, rfl, rfl, BitVec.or_self,
    fun _ => .inl (Nat.le_refl _)⟩
  simp only [modExchange_exchange, get_put]
  split
  · rename_i e; subst e; simp [hf]
  · rfl

theorem usable_eq (h : Keeps s t) (src : Source) : t.store.usable src = s.store.usable src := by
  rw [h.store]
  cases src <;> rfl

theorem modPinCount (h : Keeps s t) (src : Source) (f : Nat → Nat)
    (hf : (∀ n, f n ≤ n) ∨ t.store.usable src = true) : Keeps s (t.modStore fun st => st.modPins src f) := by
  refine h.trans ⟨rfl, rfl, rfl, rfl, Nat.le_refl _, rfl, fun _ => rfl, fun _ => rfl, fun _ => rfl, ?_, rfl, BitVec.or_self, fun x => ?_⟩
  · cases src <;> rfl
  · by_cases e : x = src
    · subst e
      rcases hf with hf | hf
      · refine .inl ?_
        cases x
        · simp only [modStore_store, Store.modPins, Store.pinCount, get_put_same]
          exact hf _
        · exact hf _
      · exact .inr hf
    · refine .inl (Nat.le_of_eq ?_)
      cases src <;> cases x
      · rename_i a b
        simp only [modStore_store, Store.modPins, Store.pinCount, get_put]
        rw [if_neg fun q => e (by rw [q])]
      · rfl
      · rfl
      · exact absurd rfl e

theorem setCause (h : Keeps s t) (c : Cause) : Keeps s (t.setCause c) := by
  refine h.trans ⟨rfl, rfl, rfl, rfl, Nat.le_refl _, rfl, fun _ => rfl, fun _ => rfl, fun _ => rfl, rfl, rfl, ?_,
    fun _ => .inl (Nat.le_refl _)⟩
  simp only [State.setCause, modSup_sup, ← BitVec.or_assoc, BitVec.or_self]

theorem request (h : Keeps s t) (r : Requester) : Keeps s (t.request r) := h.modArbiter _
theorem withdraw (h : Keeps s t) (r : Requester) : Keeps s (t.withdraw r) := h.modArbiter _

theorem whileRunning (h : Keeps s t) {f : State → State} (hf : ∀ u, Keeps s u → Keeps s (f u)) :
    Keeps s (t.whileRunning f) := by
  unfold State.whileRunning
  split
  · exact h
  · exact hf _ h

theorem scanProduce (h : Keeps s t) (l : Lane) (m : ScanMsg) : Keeps s (t.scanProduce l m) := h.modScan _ _

theorem exchangeProduce (h : Keeps s t) (p : Port) (m : ExchangeMsg) : Keeps s (t.exchangeProduce p m) :=
  h.modExchange _ _ fun x => by split <;> rfl

theorem foldl {α : Type} (h : Keeps s t) (l : List α) {f : State → α → State}
    (hf : ∀ u a, Keeps s u → Keeps s (f u a)) : Keeps s (l.foldl f t) := by
  induction l generalizing t with
  | nil => exact h
  | cons a l ih => exact ih (hf _ _ h)

/-! ### Items and the release arbiter -/

theorem decidePocket (h : Keeps s t) (k : Slot) (p : Pocket) (r : Option FindingKind) :
    Keeps s (t.decidePocket k p r) := by
  unfold State.decidePocket
  dsimp only
  exact (h.modItem _ _).modScan _ _

theorem addFinding (h : Keeps s t) (k : Slot) (f : Finding) : Keeps s (t.addFinding k f) := by
  unfold State.addFinding
  dsimp only
  split
  · exact (h.modItem _ _).decidePocket _ _ _
  · exact h.modItem _ _

theorem returnStrips (h : Keeps s t) (k : Slot) (face : FaceKind) : Keeps s (t.returnStrips k face) := by
  unfold State.returnStrips
  split
  · exact h
  · split
    · exact (h.withStrips _).modItem _ _
    · exact h

theorem returnAllStrips (h : Keeps s t) (k : Slot) : Keeps s (t.returnAllStrips k) :=
  h.foldl _ fun _ _ h => h.returnStrips _ _

theorem grant (h : Keeps s t) (c : Claim) (k : Slot) : Keeps s (t.grant c k) := by
  unfold State.grant
  try dsimp only
  exact (((h.withClaims _).modItem _ _).modExchange _ _ (fun _ => by rfl)).exchangeProduce _ _

theorem grantUpTo (n : Nat) (h : Keeps s t) : Keeps s (State.grantUpTo n t) := by
  induction n generalizing t with
  | zero => exact h
  | succ n ih =>
    unfold State.grantUpTo
    split
    · exact h
    · split
      · exact h
      · exact ih (h.grant _ _)

theorem releaseAct (h : Keeps s t) : Keeps s t.releaseAct := grantUpTo _ h

theorem settle (h : Keeps s t) (k : Slot) : Keeps s (t.settle k) := by
  unfold State.settle
  split
  · dsimp only
    split
    · exact (h.modItem _ _).releaseAct
    · exact h.modItem _ _
  · exact h

/-! ### Jobs, coding units and the dispatcher -/

theorem modRendition (h : Keeps s t) (j : Job) (f : Rendition → Rendition) : Keeps s (t.modRendition j f) :=
  h.modItem _ _

theorem drawPage (h : Keeps s t) (u : UnitNo) (j : Job) : Keeps s (t.drawPage u j) := by
  unfold State.drawPage
  split
  · exact h
  · exact ((h.modPages _ (fun _ => by rfl)).modRendition _ _).modUnit _ _

theorem giveUpPages (h : Keeps s t) (u : UnitNo) (j : Job) : Keeps s (t.giveUpPages u j) :=
  ((h.modPages _ (fun _ => by rfl)).modRendition _ _).modUnit _ _

theorem freeUndrawn (h : Keeps s t) (u : UnitNo) : Keeps s (t.freeUndrawn u) := by
  unfold State.freeUndrawn
  try dsimp only
  exact (h.modPages _ (fun _ => by rfl)).modUnit _ _

theorem idleUnit (h : Keeps s t) (u : UnitNo) : Keeps s (t.idleUnit u) := by
  unfold State.idleUnit
  try dsimp only
  exact (h.withdraw _).modUnit _ _

theorem afterJob (h : Keeps s t) (j : Job) : Keeps s (t.afterJob j) := (h.returnStrips _ _).settle _

theorem failJob (h : Keeps s t) (u : UnitNo) (j : Job) (f : RenditionState) : Keeps s (t.failJob u j f) := by
  unfold State.failJob
  try dsimp only
  exact (((h.giveUpPages u j).modRendition _ _).idleUnit _).afterJob _

theorem doneJob (h : Keeps s t) (u : UnitNo) (j : Job) : Keeps s (t.doneJob u j) := by
  unfold State.doneJob
  try dsimp only
  exact (((h.freeUndrawn u).modRendition _ _).idleUnit _).afterJob _

theorem placeByte (h : Keeps s t) {u : UnitNo} {j : Job} {b : Byte} {v : State} (e : t.placeByte u j b = some v) :
    Keeps s v := by
  unfold State.placeByte at e
  dsimp only at e
  split at e
  · exact absurd e (by simp)
  · obtain rfl := Option.some.inj e
    split
    · exact (h.drawPage _ _).modUnit _ _
    · exact h.modUnit _ _

/-- The state of what became of a unit's bytes. -/
def placedState : Placed → State
  | .fitted s => s
  | .overBudget s => s

theorem placeBytes (l : List Byte) (u : UnitNo) (j : Job) (h : Keeps s t) :
    Keeps s (placedState (State.placeBytes u j l t)) := by
  induction l generalizing t with
  | nil =>
    simp only [State.placeBytes, placedState]
    exact h.modUnit _ _
  | cons b bs ih =>
    unfold State.placeBytes
    split
    · simp only [placedState]
      exact h.modUnit _ _
    · split
      · exact h
      · rename_i v e
        exact ih (h.placeByte e)

theorem nextRequest (h : Keeps s t) (u : UnitNo) (j : Job) : Keeps s (t.nextRequest u j) :=
  (h.modUnit _ _).request _

theorem startRung (h : Keeps s t) (u : UnitNo) (j : Job) (r : Nat) : Keeps s (t.startRung u j r) := by
  unfold State.startRung
  try dsimp only
  exact (h.modUnit _ _).drawPage _ _

theorem stepDown (h : Keeps s t) (u : UnitNo) (j : Job) : Keeps s (t.stepDown u j) := by
  unfold State.stepDown
  try dsimp only
  exact ((((h.withdraw _).modPages _ (fun _ => by rfl)).modRendition _ _).modUnit _ _).startRung _ _ _

theorem runUnit (n : Nat) (u : UnitNo) (j : Job) (h : Keeps s t) : Keeps s (State.runUnit n t u j) := by
  induction n generalizing t with
  | zero =>
    unfold State.runUnit
    have := h.placeBytes (t.units.get u).unplaced u j
    split <;> rename_i e <;> rw [e] at this
    · exact this.nextRequest _ _
    · exact this.failJob _ _ _
  | succ n ih =>
    unfold State.runUnit
    have := h.placeBytes (t.units.get u).unplaced u j
    split <;> rename_i e <;> rw [e] at this
    · exact this.nextRequest _ _
    · split
      · exact ih (this.stepDown _ _)
      · exact this.failJob _ _ _

theorem startJob (h : Keeps s t) (u : UnitNo) (j : Job) : Keeps s (t.startJob u j) :=
  runUnit _ _ _ (((((h.withJobs _).modPages _ (fun _ => by rfl)).modRendition _ _).modUnit _ _).startRung _ _ _)

theorem startUpTo (n : Nat) (h : Keeps s t) : Keeps s (State.startUpTo n t) := by
  induction n generalizing t with
  | zero => exact h
  | succ n ih =>
    unfold State.startUpTo
    split
    · exact ih (h.startJob _ _)
    · exact h

theorem dispatchAct (h : Keeps s t) : Keeps s t.dispatchAct := startUpTo _ h

theorem cancelRendition (h : Keeps s t) (j : Job) : Keeps s (t.cancelRendition j) := by
  unfold State.cancelRendition
  split
  · exact h
  · split
    · exact h.modRendition _ _
    · exact (h.withJobs _).modRendition _ _
    · split
      · exact ((h.giveUpPages _ _).modRendition _ _).idleUnit _
      · exact h.modRendition _ _
    all_goals exact h

theorem cancelRenditions (h : Keeps s t) (k : Slot) : Keeps s (t.cancelRenditions k) :=
  h.foldl _ fun _ _ h => h.cancelRendition _

theorem rejectRenditions (h : Keeps s t) (k : Slot) : Keeps s (t.rejectRenditions k) := by
  unfold State.rejectRenditions
  try dsimp only
  exact (((h.cancelRenditions k).returnAllStrips k).settle k).dispatchAct

/-! ### Scan ports -/

theorem abandonRow (h : Keeps s t) (l : Lane) (k : Slot) : Keeps s (t.abandonRow l k) := by
  unfold State.abandonRow
  dsimp only
  split
  · exact h
  · refine Keeps.modScan (Keeps.withdraw ?_ _) _ _
    split
    · exact h.modItem _ _
    · exact h

theorem detach (h : Keeps s t) (l : Lane) (k : Slot) (n : ScanState) : Keeps s (t.detach l k n) := by
  unfold State.detach
  dsimp only
  exact ((h.abandonRow _ _).modItem _ _).modScan _ _

theorem producePocket (h : Keeps s t) (l : Lane) (k : Slot) : Keeps s (t.producePocket l k) := by
  unfold State.producePocket
  split
  · exact (h.scanProduce _ _).modItem _ _
  · exact h

theorem endRejected (h : Keeps s t) (l : Lane) (k : Slot) (n : ScanState) : Keeps s (t.endRejected l k n) :=
  (h.detach _ _ _).rejectRenditions _

theorem rejectSent (h : Keeps s t) (l : Lane) (k : Slot) (f : Finding) (n : ScanState) :
    Keeps s (t.rejectSent l k f n) := ((h.addFinding _ _).producePocket _ _).endRejected _ _ _

theorem rejectUnsent (h : Keeps s t) (l : Lane) (k : Slot) (f : Finding) (n : ScanState) :
    Keeps s (t.rejectUnsent l k f n) := (h.addFinding _ _).endRejected _ _ _

theorem protocolFault (h : Keeps s t) (l : Lane) (k : Slot) : Keeps s (t.protocolFault l k) := h.rejectSent _ _ _ _

theorem giveSlot (h : Keeps s t) (l : Lane) (k : Slot) (src : Source) (b : Long) (p : Word) (f : Byte)
    (hu : t.store.usable src = true) : Keeps s (t.giveSlot l k src b p f) := by
  unfold State.giveSlot
  dsimp only
  have := (((((h.modItem k fun _ => newItem t l src b p f).withStamp (t.stamp + 1)).modLane l
    (fun r => { r with queue := r.queue ++ [k] }) (fun _ => ⟨by rfl, by rfl⟩)).modPinCount src (· + 1) (.inr hu)).scanProduce l
      (.slotGiven p k)).modScan l fun q =>
        { q with
          attached := some k, state := .item, current := none
          timer := some ⟨profileDeadline (t.store.record src), profileDeadline (t.store.record src)⟩ }
  split
  · exact this.dispatchAct
  · exact this

theorem takeAsNew (h : Keeps s t) (l : Lane) (b : Long) (p : Word) (f : Byte) : Keeps s (t.takeAsNew l b p f) := by
  unfold State.takeAsNew
  split
  · rename_i e _ e2
    refine h.giveSlot _ _ _ _ _ _ ?_
    unfold State.slotRefusal at e
    dsimp only at e
    rw [e2] at e
    cases hu : t.store.usable _ with
    | true => rfl
    | false =>
      simp only [Option.any_some, hu, Bool.not_false, if_true] at e
      split at e <;> cases e
  · exact (h.scanProduce _ _).modScan _ _
  · exact h

theorem openFace (h : Keeps s t) (l : Lane) (k : Slot) (f : FaceKind) (w : Nat) : Keeps s (t.openFace l k f w) := by
  unfold State.openFace
  dsimp only
  exact (h.modItem _ _).modScan _ _

theorem loseRow (h : Keeps s t) (k : Slot) (f : FaceKind) : Keeps s (t.loseRow k f) := h.modItem _ _

theorem holdRow (h : Keeps s t) (l : Lane) (n : Nat) (px : List Byte) : Keeps s (t.holdRow l n px) :=
  (h.modScan _ _).request _

theorem landRow (h : Keeps s t) (l : Lane) (k : Slot) (face : FaceKind) (f : Face) (px : List Byte) :
    Keeps s (t.landRow l k face f px) := by
  unfold State.landRow
  split
  · exact ((h.loseRow _ _).modArbiter _).holdRow _ _ _
  · split
    · exact h.loseRow _ _
    · split
      · split
        · exact (h.loseRow _ _).setCause _
        · exact ((h.withStrips _).modItem _ _).holdRow _ _ _
      · exact h.holdRow _ _ _

theorem takeRow (h : Keeps s t) (l : Lane) (k : Slot) (face : FaceKind) (px : List Byte) :
    Keeps s (t.takeRow l k face px) := by
  unfold State.takeRow
  split
  · exact h
  · split
    · exact h.landRow _ _ _ _ _
    · exact h.loseRow _ _

theorem queueRenditions (h : Keeps s t) (k : Slot) (face : FaceKind) : Keeps s (t.queueRenditions k face) := by
  unfold State.queueRenditions
  dsimp only
  exact (h.withJobs _).modItem _ _

theorem addFindings (h : Keeps s t) (k : Slot) (l : List Finding) :
    Keeps s (l.foldl (fun t f => t.addFinding k f) t) := h.foldl _ fun _ _ h => h.addFinding _ _

theorem closeFace (h : Keeps s t) (l : Lane) (k : Slot) (face : FaceKind) : Keeps s (t.closeFace l k face) := by
  unfold State.closeFace
  split
  · exact h
  · dsimp only
    split
    · exact (((((h.modItem _ _).modScan _ _).addFindings _ _).queueRenditions _ _).modScan _ _ |>.returnStrips _ _).dispatchAct
    · exact ((((h.modItem _ _).modScan _ _).addFindings _ _).producePocket _ _).endRejected _ _ _

theorem closeItem (h : Keeps s t) (l : Lane) (k : Slot) : Keeps s (t.closeItem l k) := by
  unfold State.closeItem
  dsimp only
  split
  · exact h.rejectSent _ _ _ _
  · refine (((Keeps.producePocket ?_ _ _).detach _ _ _).returnAllStrips _).settle _
    split
    · exact h.decidePocket _ _ _
    · exact h

theorem takeInIdle (h : Keeps s t) (l : Lane) (f : ScanFrame) : Keeps s (t.takeInIdle l f) := by
  unfold State.takeInIdle
  split
  · exact h.takeAsNew _ _ _ _
  all_goals exact h

theorem takeInDiscard (h : Keeps s t) (l : Lane) (f : ScanFrame) : Keeps s (t.takeInDiscard l f) := by
  unfold State.takeInDiscard
  split
  · exact h.takeAsNew _ _ _ _
  · exact h.modScan _ _
  · exact h.modScan _ _
  all_goals exact h

theorem takeInItem (h : Keeps s t) (l : Lane) (k : Slot) (f : ScanFrame) : Keeps s (t.takeInItem l k f) := by
  unfold State.takeInItem
  split
  · exact (h.protocolFault _ _).takeAsNew _ _ _ _
  · split
    · exact h.openFace _ _ _ _
    · exact h.protocolFault _ _
  · exact h.protocolFault _ _
  · exact h.protocolFault _ _
  · exact h.closeItem _ _
  · exact h.rejectSent _ _ _ _
  · exact h.rejectSent _ _ _ _

theorem takeInFace (h : Keeps s t) (l : Lane) (k : Slot) (face : FaceKind) (f : ScanFrame) :
    Keeps s (t.takeInFace l k face f) := by
  unfold State.takeInFace
  split
  · exact (h.protocolFault _ _).takeAsNew _ _ _ _
  · exact h.protocolFault _ _
  · exact h.takeRow _ _ _ _
  · exact h.closeFace _ _ _
  · exact h.protocolFault _ _
  · exact h.rejectSent _ _ _ _
  · exact h.rejectSent _ _ _ _

theorem takeFrame (h : Keeps s t) (l : Lane) (f : ScanFrame) : Keeps s (t.takeFrame l f) := by
  unfold State.takeFrame
  dsimp only
  split
  · exact h.takeInIdle _ _
  · exact h.takeInDiscard _ _
  · exact h.takeInItem _ _ _
  · exact h.takeInFace _ _ _ _
  · exact h

theorem takeWaiting (l : Lane) (q : List ScanFrame) (h : Keeps s t) : Keeps s (State.takeWaiting l q t) := by
  induction q generalizing t with
  | nil => exact h.modScan _ _
  | cons f rest ih =>
    unfold State.takeWaiting
    split
    · exact ih ((h.modScan _ _).takeFrame _ _)
    · exact h.modScan _ _

theorem drainWaiting (h : Keeps s t) (l : Lane) : Keeps s (t.drainWaiting l) := takeWaiting _ _ h

theorem frameArrives (h : Keeps s t) (l : Lane) (f : ScanFrame) : Keeps s (t.frameArrives l f) := by
  refine h.whileRunning fun u h => ?_
  dsimp only
  split
  · exact h
  · split
    · exact (h.modScan _ _).modScan _ _
    · exact (h.modScan _ _).takeFrame _ _

theorem expirePocket (h : Keeps s t) (l : Lane) : Keeps s (t.expirePocket l) := by
  unfold State.expirePocket
  split
  · exact ((h.modScan _ _).rejectSent _ _ _ _).drainWaiting _
  · exact h

theorem loseScanLink (h : Keeps s t) (l : Lane) : Keeps s (t.loseScanLink l) := by
  unfold State.loseScanLink
  dsimp only
  refine Keeps.setCause (Keeps.modScan ?_ _ _) _
  split
  · exact h.rejectUnsent _ _ _ _
  · exact h

/-! ### Exchange ports -/

theorem endClaim (h : Keeps s t) (p : Port) (n : ExchangeState) : Keeps s (t.endClaim p n) :=
  (h.withdraw _).modExchange _ _ (fun _ => by rfl)

theorem dropClaim (h : Keeps s t) (p : Port) : Keeps s (t.dropClaim p) := h.withClaims _

theorem returnItem (h : Keeps s t) (k : Slot) (c : Bool) : Keeps s (t.returnItem k c) := (h.modItem _ _).releaseAct

theorem drainedTest (h : Keeps s t) (l : Lane) : Keeps s (t.drainedTest l) := by
  unfold State.drainedTest
  split
  · exact h.setCause _
  · exact h

theorem giveBackAll (l : List (List Nat)) (p : PagePool) : (l.foldl PagePool.giveBack p).headReserve = p.headReserve := by
  induction l generalizing p with
  | nil => rfl
  | cons a l ih => exact (ih _).trans rfl

theorem givePagesBack (h : Keeps s t) (k : Slot) : Keeps s (t.givePagesBack k) := by
  unfold State.givePagesBack
  dsimp only
  exact (h.modPages _ (fun _ => giveBackAll _ _)).modItem _ _

theorem freeItem (h : Keeps s t) (k : Slot) : Keeps s (t.freeItem k) := by
  unfold State.freeItem
  dsimp only
  have key : ∀ v : State, Keeps s v → Keeps s
      (((v.modLane (t.items.get k).lane fun r => { r with queue := r.queue.filter (· ≠ k) }).modItem k
        fun _ => Item.empty).drainedTest (t.items.get k).lane).dispatchAct := fun v h =>
    (((h.modLane _ _ (fun _ => ⟨by rfl, by rfl⟩)).modItem _ _).drainedTest _).dispatchAct
  split
  · split
    · exact (key _ ((h.givePagesBack k).modPinCount _ _ (.inl fun n => Nat.sub_le n 1))).releaseAct
    · exact key _ ((h.givePagesBack k).modPinCount _ _ (.inl fun n => Nat.sub_le n 1))
  · split
    · exact (key _ (h.givePagesBack k)).releaseAct
    · exact key _ (h.givePagesBack k)

theorem enterStalled (h : Keeps s t) (p : Port) (n : ExchangeState) : Keeps s (t.enterStalled p n) :=
  h.modExchange _ _ (fun _ => by rfl)

theorem streamOn (h : Keeps s t) (p : Port) : Keeps s (t.streamOn p) := by
  unfold State.streamOn
  dsimp only
  split
  · exact h.request _
  · exact (h.exchangeProduce _ _).enterStalled _ _

theorem segmentLeaves (h : Keeps s t) (p : Port) : Keeps s (t.segmentLeaves p) := by
  unfold State.segmentLeaves
  split
  · exact h
  · dsimp only
    have h1 := h.modExchange p (fun x => { x with produced := ‹List ExchangeMsg›, begun := false }) (fun _ => by rfl)
    split
    · have h2 := h1.modExchange p (fun x => { x with store := [] }) (fun _ => by rfl)
      split
      · exact h2.enterStalled _ _
      · exact h2.streamOn _
    · exact h1

theorem segmentRead (h : Keeps s t) (p : Port) (d : List Byte) : Keeps s (t.segmentRead p d) := by
  unfold State.segmentRead
  dsimp only
  split
  · split
    · exact (h.modExchange _ _ (fun _ => by rfl)).exchangeProduce _ _
    · exact (h.modExchange _ _ (fun _ => by rfl)).request _
  · exact h

theorem breakStream (h : Keeps s t) (p : Port) : Keeps s (t.breakStream p) := by
  unfold State.breakStream
  dsimp only
  split
  · exact h
  · exact ((((h.withdraw _).setCause _).modExchange _ _ (fun _ => by rfl)).exchangeProduce _ _).enterStalled _ _

theorem takeClaim (h : Keeps s t) (p : Port) (m : Byte) : Keeps s (t.takeClaim p m) := by
  unfold State.takeClaim
  dsimp only
  split
  · exact h
  · split
    · exact h.exchangeProduce _ _
    · exact ((h.withClaims _).modExchange _ _ (fun _ => by rfl)).releaseAct
  all_goals exact h.exchangeProduce _ _

theorem withFree (h : Keeps s t) (n : Nat) (hn : t.free ≤ n) : Keeps s (t.withFree n) :=
  h.trans { refl t with free := hn }

theorem cutStream (h : Keeps s t) (p : Port) : Keeps s (t.cutStream p) := by
  unfold State.cutStream
  exact (h.withFree (t.free + 1) (Nat.le_succ _)).modExchange p _ (fun _ => by rfl)

theorem takeDelivered (h : Keeps s t) (p : Port) : Keeps s (t.takeDelivered p) := by
  unfold State.takeDelivered
  dsimp only
  split
  · exact h.exchangeProduce _ _
  · exact h.exchangeProduce _ _
  · exact ((h.cutStream _).endClaim _ _).freeItem _
  · exact ((h.cutStream _).endClaim _ _).freeItem _
  · exact (h.endClaim _ _).freeItem _
  · exact h

theorem takeReturn (h : Keeps s t) (p : Port) : Keeps s (t.takeReturn p) := by
  unfold State.takeReturn
  dsimp only
  split
  · exact h.exchangeProduce _ _
  · exact h.exchangeProduce _ _
  · exact ((h.cutStream _).endClaim _ _).returnItem _ _
  · exact ((h.cutStream _).endClaim _ _).returnItem _ _
  · exact (h.endClaim _ _).returnItem _ _
  · exact h

theorem expireStall (h : Keeps s t) (p : Port) : Keeps s (t.expireStall p) := by
  unfold State.expireStall
  dsimp only
  split
  · exact (((h.exchangeProduce _ _).endClaim _ _).setCause _).returnItem _ _
  · exact h

theorem releaseClaim (h : Keeps s t) (p : Port) (n : ExchangeState) : Keeps s (t.releaseClaim p n) := by
  unfold State.releaseClaim
  dsimp only
  have h1 := (h.dropClaim p).endClaim p n
  split
  · exact h1.returnItem _ _
  · exact h1

theorem loseExchangeLink (h : Keeps s t) (p : Port) : Keeps s (t.loseExchangeLink p) :=
  ((h.modExchange _ _ (fun _ => by rfl)).setCause _).releaseClaim _ _

/-! ### Results of bursts and lane operations -/

theorem memoryGrant (h : Keeps s t) : Keeps s t.memoryGrant := by
  unfold State.memoryGrant
  split
  · exact h
  · split
    · exact h
    · exact h.modArbiter _

theorem writerWrote (h : Keeps s t) (l : Lane) : Keeps s (t.writerWrote l) := by
  unfold State.writerWrote
  dsimp only
  split
  · split
    · exact ((h.modItem _ _).modScan _ _).drainWaiting _
    · exact (h.modScan _ _).request _
  · exact h

theorem ifIdleDispatch (h : Keeps s t) (u : UnitNo) : Keeps s (t.ifIdleDispatch u) := by
  unfold State.ifIdleDispatch
  split
  · exact h.dispatchAct
  · exact h

theorem codeRow (h : Keeps s t) (u : UnitNo) (j : Job) (px : List Byte) : Keeps s (t.codeRow u j px) := by
  unfold State.codeRow
  dsimp only
  exact h.modUnit _ _

theorem unitRead (h : Keeps s t) (u : UnitNo) (d : List Byte) : Keeps s (t.unitRead u d) := by
  unfold State.unitRead
  split
  · exact h
  · dsimp only
    split
    · exact (runUnit _ _ _ (h.codeRow _ _ _)).ifIdleDispatch _
    · exact (h.modUnit _ _).request _

theorem unitWrote (h : Keeps s t) (u : UnitNo) : Keeps s (t.unitWrote u) := by
  unfold State.unitWrote
  split
  · exact h
  · split
    · exact (h.doneJob _ _).ifIdleDispatch _
    all_goals exact (runUnit _ _ _ (h.modUnit _ _)).ifIdleDispatch _

theorem unitFault (h : Keeps s t) (u : UnitNo) : Keeps s (t.unitFault u) := by
  unfold State.unitFault
  split
  · exact h
  · exact ((h.setCause _).failJob _ _ _).ifIdleDispatch _

theorem wrote (h : Keeps s t) (r : Requester) : Keeps s (t.wrote r) := by
  cases r
  · exact h.writerWrote _
  · exact h.unitWrote _
  · exact h

theorem readDone (h : Keeps s t) (d : List Byte) (r : Requester) : Keeps s (t.readDone d r) := by
  cases r
  · exact h
  · exact h.unitRead _ _
  · exact h.segmentRead _ _

theorem readFault (h : Keeps s t) (r : Requester) : Keeps s (t.readFault r) := by
  cases r
  · exact h
  · exact h.unitFault _
  · exact h.breakStream _

theorem resetLane (h : Keeps s t) (l : Lane) : Keeps s (t.resetLane l) := by
  unfold State.resetLane
  dsimp only
  refine Keeps.modScan (Keeps.withdraw ?_ _) _ _
  split
  · exact (h.modScan _ _).rejectUnsent _ _ _ _
  · exact h.modScan _ _

theorem purgeLanding (h : Keeps s t) (k : Slot) : Keeps s (t.purgeLanding k) :=
  ((h.modItem _ _).rejectSent _ _ _ _).drainWaiting _

theorem purgeSettling (h : Keeps s t) (k : Slot) : Keeps s (t.purgeSettling k) := by
  unfold State.purgeSettling
  try dsimp only
  exact ((h.modItem _ _).addFinding _ _).rejectRenditions _

theorem purgeReady (h : Keeps s t) (k : Slot) : Keeps s (t.purgeReady k) := by
  unfold State.purgeReady
  try dsimp only
  exact (((((h.modItem _ _).addFinding _ _).givePagesBack _).modItem _ _).modItem _ _).dispatchAct

end Keeps

end Sys2Proof.Laws
end

