-- ==== Sys2Proof/Laws/Landing.lean ====
section
/-! SUPPORT. The end of landing: what adding a finding, producing POCKET, detaching and rejecting leave, each said once in
the words of Sys2Proof/Safety.lean. -/

namespace Sys2Proof.Laws
open Sys2Proof.Machine Sys2Proof.Safety

/-! ### Faces at the end of landing -/

theorem cut_eq_faceEnded (p : ScanPort) (h : p.held = none) (f : Face) : f.cutIfLanding = faceEnded p f := by
  simp only [Face.cutIfLanding, faceEnded, h, Option.isSome_none, Bool.false_eq_true, false_and, if_false]

theorem cut_lose_eq_faceEnded (p : ScanPort) (h : p.held.isSome) (face : FaceKind) (e : p.current = some face) (f : Face) :
    (if f.kind = face then f.loseRow else f).cutIfLanding = faceEnded p f := by
  by_cases k : f.kind = face
  · have k' : p.current = some f.kind := by rw [e, k]
    simp only [k, if_true, Face.cutIfLanding, Face.loseRow, faceEnded, h, e, and_self, cap16]
  · have k' : ¬ p.current = some f.kind := by rw [e]; simpa using fun h => k h.symm
    simp only [if_neg k, Face.cutIfLanding, faceEnded, k', and_false, if_false]

theorem cut_none_eq_faceEnded (p : ScanPort) (e : p.current = none) (f : Face) : f.cutIfLanding = faceEnded p f := by
  have k' : ¬ p.current = some f.kind := by rw [e]; simp
  simp only [Face.cutIfLanding, faceEnded, k', and_false, if_false]

/-- `detach`: the item SETTLING with its faces ended, the port empty, the writer's request withdrawn with its row. -/
theorem detach_eq (s : State) (l : Lane) (k : Slot) (next : ScanState) :
    s.detach l k next = { s with
      items := put s.items k { s.items.get k with
        state := .settling, faces := (s.items.get k).faces.map (faceEnded (s.scan.get l)) }
      scan := put s.scan l (portLeft (s.scan.get l) next (s.scan.get l).produced)
      arbiter := if (s.scan.get l).held.isSome then (s.arbiter.mark (.w l) false).forsake (.w l) else s.arbiter } := by
  unfold State.detach State.abandonRow
  dsimp only
  cases hh : (s.scan.get l).held with
  | none =>
    simp only [State.modItem, State.modScan, portLeft, hh, Option.isSome_none, Bool.false_eq_true, if_false]
    congr 3
    exact List.map_congr_left fun f _ => cut_eq_faceEnded _ hh f
  | some h =>
    cases hc : (s.scan.get l).current with
    | none =>
      simp only [State.modItem, State.modScan, State.withdraw, State.modArbiter, portLeft, put_put, get_put_same,
        Option.isSome_some, if_true]
      congr 3
      exact List.map_congr_left fun f _ => cut_none_eq_faceEnded _ hc f
    | some face =>
      simp only [State.modItem, State.modScan, State.withdraw, State.modArbiter, portLeft, put_put, get_put_same,
        Option.isSome_some, if_true, Item.modFace, List.map_map]
      congr 3
      exact List.map_congr_left fun f _ => cut_lose_eq_faceEnded _ (by rw [hh]; rfl) face hc f

/-! ### Findings and decisions -/

theorem addFinding_item_eq (i : Item) (f : Finding) : i.addFinding f = findingAdded i f := rfl

theorem findingAdded_pocket (i : Item) (f : Finding) : (findingAdded i f).pocket = i.pocket := by
  unfold findingAdded
  split <;> rfl

theorem findingAdded_lane (i : Item) (f : Finding) : (findingAdded i f).lane = i.lane := by
  unfold findingAdded
  split <;> rfl

theorem findingJudged_lane (ms : Nat) (i : Item) (f : Finding) : (findingJudged ms i f).lane = i.lane := by
  unfold findingJudged
  split <;> exact findingAdded_lane i f

/-- A finding of REJECT severity added to a PENDING item of lane `l` decides it and stops the timer. -/
theorem addFinding_decides {s : State} {l : Lane} {k : Slot} {f : Finding} (hl : (s.items.get k).lane = l)
    (hr : f.severity = .reject) (hp : (s.items.get k).pocket = .pending) :
    s.addFinding k f = { s with
      items := put s.items k (findingJudged (elapsed (s.scan.get l).timer) (s.items.get k) f)
      scan := put s.scan l { s.scan.get l with timer := none } } := by
  simp only [State.addFinding, State.modItem, get_put_same, addFinding_item_eq, findingAdded_pocket, hr, hp, and_self,
    if_true, State.decidePocket, findingAdded_lane, hl, State.modScan, put_put, findingJudged]

/-- Any other finding is added and decides nothing. -/
theorem addFinding_notes {s : State} {k : Slot} {f : Finding}
    (h : ¬ (f.severity = .reject ∧ (s.items.get k).pocket = .pending)) :
    s.addFinding k f = { s with items := put s.items k (findingAdded (s.items.get k) f) } := by
  simp only [State.addFinding, State.modItem, get_put_same, addFinding_item_eq, findingAdded_pocket, if_neg h]

/-- POCKET is produced and the delivered flag set while the link is up. -/
theorem producePocket_eq (s : State) (l : Lane) (k : Slot) : s.producePocket l k = { s with
    items := put s.items k { s.items.get k with
      delivered := (s.items.get k).delivered || (s.scan.get l).link }
    scan := put s.scan l { s.scan.get l with
      produced := sentOn (s.scan.get l).link (s.scan.get l).produced (.pocket (s.items.get k).position
        (s.items.get k).pocket (s.items.get k).reason ((s.items.get k).latency.getD 0)) } } := by
  unfold State.producePocket
  cases hlink : (s.scan.get l).link with
  | true =>
    simp only [if_true, State.scanProduce, State.modScan, State.modItem, hlink, sentOn, Bool.or_true]
  | false =>
    simp only [Bool.false_eq_true, if_false, sentOn, Bool.or_false]
    rw [show ({ s.scan.get l with produced := (s.scan.get l).produced } : ScanPort) = s.scan.get l from rfl,
      show ({ s.items.get k with delivered := (s.items.get k).delivered } : Item) = s.items.get k from rfl,
      put_get_self, put_get_self]

/-- The timer of a port plays no part in what `landingEnded` leaves. -/
theorem landingEnded_timer (s : State) (l : Lane) (k : Slot) (i j : Item) (t : Option PocketTimer) (sent : Bool)
    (next : ScanState) :
    landingEnded { s with items := put s.items k j, scan := put s.scan l { s.scan.get l with timer := t } } l k i sent
      next = landingEnded s l k i sent next := by
  unfold landingEnded
  simp only [get_put_same, put_put, portLeft]
  rfl

/-- POCKET produced, then the port detached. -/
theorem producePocket_detach {s : State} {l : Lane} {k : Slot} {next : ScanState} :
    (s.producePocket l k).detach l k next = landingEnded s l k (s.items.get k) true next := by
  rw [producePocket_eq, detach_eq]
  simp only [get_put_same, put_put, landingEnded, portLeft, Bool.true_and, if_true]
  rfl

/-- The port detached with no POCKET. -/
theorem detach_unsent {s : State} {l : Lane} {k : Slot} {next : ScanState} :
    s.detach l k next = landingEnded s l k (s.items.get k) false next := by
  rw [detach_eq]
  simp only [landingEnded, portLeft, Bool.false_and, Bool.or_false, Bool.false_eq_true, if_false]

/-- `rejectSent` of an attached PENDING item: landing ended with the finding judged, then the renditions dealt with. -/
theorem rejectSent_eq {s : State} {l : Lane} {k : Slot} {f : Finding} {next : ScanState}
    (hl : (s.items.get k).lane = l) (hr : f.severity = .reject) (hp : (s.items.get k).pocket = .pending) :
    s.rejectSent l k f next = (landingEnded s l k
      (findingJudged (elapsed (s.scan.get l).timer) (s.items.get k) f) true next).rejectRenditions k := by
  unfold State.rejectSent State.endRejected
  rw [producePocket_detach, addFinding_decides hl hr hp]
  simp only [get_put_same]
  rw [landingEnded_timer]

theorem rejectUnsent_eq {s : State} {l : Lane} {k : Slot} {f : Finding} {next : ScanState}
    (hl : (s.items.get k).lane = l) (hr : f.severity = .reject) (hp : (s.items.get k).pocket = .pending) :
    s.rejectUnsent l k f next = (landingEnded s l k
      (findingJudged (elapsed (s.scan.get l).timer) (s.items.get k) f) false next).rejectRenditions k := by
  unfold State.rejectUnsent State.endRejected
  rw [detach_unsent, addFinding_decides hl hr hp]
  simp only [get_put_same]
  rw [landingEnded_timer]

/-! ### A frame taken when it is judged -/

/-- At a clear port a frame is taken at once. -/
theorem frameArrives_clear {s : State} {l : Lane} (hr : Running s) (hc : PortClear s l)
    (hd : (s.scan.get l).state ≠ .down) (f : ScanFrame) : s.frameArrives l f = s.takeFrame l f := by
  obtain ⟨hg, hw, hh⟩ := hc
  unfold State.frameArrives
  rw [whileRunning_running hr]
  have e : (s.modScan l fun p => { p with gathering := [] }) = s := by
    simp only [State.modScan]
    rw [show ({ s.scan.get l with gathering := [] } : ScanPort) = s.scan.get l by rw [← hg], put_get_self]
  simp only [if_neg hd, hw, hh, ne_eq, not_true_eq_false, Option.isSome_none, Bool.false_eq_true, and_false, or_self,
    if_false, e]

end Sys2Proof.Laws
end

