-- ==== Sys2Proof/Laws/Memory.lean ====
section
/-! SUPPORT. The buffer memory: what reads return after writes, and that every memory operation keeps the canonical
form. -/

namespace Sys2Proof.Laws
open Sys2Proof.Machine

/-! ## Reads after writes -/

theorem find_insertCell (a x : Nat) (b : Byte) (l : List Host.Cell) :
    (insertCell a b l).find? (fun c => decide (c.1 = x)) =
      if x = a then some (a, b) else l.find? (fun c => decide (c.1 = x)) := by
  induction l with
  | nil => by_cases h : x = a <;> simp [insertCell, h, Ne.symm]
  | cons c t ih =>
    simp only [insertCell]
    split
    · by_cases h : x = a
      · simp [h]
      · have : ¬ a = x := fun e => h e.symm
        simp [List.find?_cons, h, this]
    · split
      · rename_i hc
        by_cases h : x = a
        · simp [h]
        · have : ¬ a = x := fun e => h e.symm
          simp [h, this, ← hc]
      · rename_i hc
        by_cases h : x = a
        · subst h
          have : ¬ c.1 = x := fun e => hc e.symm
          simp [this, ih]
        · simp only [List.find?_cons, ih, h, if_false]

theorem read_writeByte (m : Memory) (a x : Nat) (b : Byte) :
    (m.writeByte a b).read x = if x = a then some b else m.read x := by
  simp only [Memory.read, Memory.writeByte, find_insertCell]
  split <;> simp

/-- What a read returns after consecutive bytes were written at `a`. -/
theorem read_writeBytes (bs : List Byte) (m : Memory) (a x : Nat) :
    (m.writeBytes a bs).read x = if a ≤ x ∧ x < a + bs.length then bs[x - a]? else m.read x := by
  induction bs generalizing m a with
  | nil =>
    simp [Memory.writeBytes]
  | cons b bs ih =>
    simp only [Memory.writeBytes, ih, List.length_cons, read_writeByte]
    by_cases h1 : a + 1 ≤ x ∧ x < a + 1 + bs.length
    · have h2 : a ≤ x ∧ x < a + (bs.length + 1) := by omega
      rw [if_pos h1, if_pos h2, show x - a = (x - (a + 1)) + 1 by omega]
      simp
    · rw [if_neg h1]
      by_cases h3 : x = a
      · subst h3
        simp
      · have h2 : ¬ (a ≤ x ∧ x < a + (bs.length + 1)) := by omega
        rw [if_neg h2, if_neg h3]

/-- A byte outside those written reads as before. -/
theorem read_writeBytes_outside (m : Memory) (a x : Nat) (bs : List Byte) (h : x < a ∨ a + bs.length ≤ x) :
    (m.writeBytes a bs).read x = m.read x := by
  rw [read_writeBytes, if_neg (by omega)]

@[simp] theorem read_upsetAt (m : Memory) (a count x : Nat) (u : List Nat) : (m.upsetAt a count u).read x = m.read x := rfl

/-! ## The canonical form -/

theorem insertCell_mem {a : Nat} {b : Byte} {l : List Host.Cell} {c : Host.Cell} (h : c ∈ insertCell a b l) :
    c = (a, b) ∨ c ∈ l := by
  induction l with
  | nil => simpa [insertCell] using h
  | cons d t ih =>
    simp only [insertCell] at h
    split at h
    · simpa using h
    · split at h
      · rcases List.mem_cons.1 h with h | h
        · exact .inl h
        · exact .inr (List.mem_cons_of_mem _ h)
      · rcases List.mem_cons.1 h with h | h
        · exact .inr (h ▸ List.mem_cons_self)
        · exact (ih h).imp id (List.mem_cons_of_mem _)

theorem sorted_insertCell (a : Nat) (b : Byte) (l : List Host.Cell) (h : l.Pairwise (·.1 < ·.1)) :
    (insertCell a b l).Pairwise (·.1 < ·.1) := by
  induction l with
  | nil => simp [insertCell]
  | cons d t ih =>
    obtain ⟨hd, ht⟩ := List.pairwise_cons.1 h
    simp only [insertCell]
    split
    · rename_i hlt
      refine List.pairwise_cons.2 ⟨fun x hx => ?_, h⟩
      rcases List.mem_cons.1 hx with rfl | hx
      · exact hlt
      · exact lt_trans hlt (hd x hx)
    · split
      · rename_i heq
        exact List.pairwise_cons.2 ⟨fun x hx => heq ▸ hd x hx, ht⟩
      · rename_i hle hne
        refine List.pairwise_cons.2 ⟨fun x hx => ?_, ih ht⟩
        rcases insertCell_mem hx with rfl | hx
        · exact lt_of_le_of_ne (not_lt.1 hle) (fun e => hne e.symm)
        · exact hd x hx

theorem insertAddr_mem {a x : Nat} {l : List Nat} (h : x ∈ insertAddr a l) : x = a ∨ x ∈ l := by
  induction l with
  | nil => simpa [insertAddr] using h
  | cons d t ih =>
    simp only [insertAddr] at h
    split at h
    · simpa using h
    · split at h
      · exact .inr h
      · rcases List.mem_cons.1 h with h | h
        · exact .inr (h ▸ List.mem_cons_self)
        · exact (ih h).imp id (List.mem_cons_of_mem _)

theorem sorted_insertAddr (a : Nat) (l : List Nat) (h : l.Pairwise (· < ·)) : (insertAddr a l).Pairwise (· < ·) := by
  induction l with
  | nil => simp [insertAddr]
  | cons d t ih =>
    obtain ⟨hd, ht⟩ := List.pairwise_cons.1 h
    simp only [insertAddr]
    split
    · rename_i hlt
      refine List.pairwise_cons.2 ⟨fun x hx => ?_, h⟩
      rcases List.mem_cons.1 hx with rfl | hx
      · exact hlt
      · exact lt_trans hlt (hd x hx)
    · split
      · exact h
      · rename_i hle hne
        refine List.pairwise_cons.2 ⟨fun x hx => ?_, ih ht⟩
        rcases insertAddr_mem hx with rfl | hx
        · exact lt_of_le_of_ne (not_lt.1 hle) (fun e => hne e.symm)
        · exact hd x hx

/-- The canonical form said part by part. -/
theorem wf_iff (m : Memory) : m.wf = true ↔
    m.cells.Pairwise (·.1 < ·.1) ∧ m.upset.Pairwise (· < ·) ∧ (∀ c ∈ m.cells, c.1 < Config.memoryBytes) ∧
      ∀ a ∈ m.upset, a < Config.memoryBytes := by
  simp only [Memory.wf, Bool.and_eq_true, decide_eq_true_eq, List.all_eq_true, and_assoc]

theorem wf_empty : Memory.empty.wf = true := by simp [wf_iff, Memory.empty]

theorem wf_writeByte (m : Memory) (a : Nat) (b : Byte) (h : m.wf = true) (ha : a < Config.memoryBytes) :
    (m.writeByte a b).wf = true := by
  obtain ⟨h1, h2, h3, h4⟩ := (wf_iff m).1 h
  refine (wf_iff _).2 ⟨sorted_insertCell a b _ h1, h2.filter _, fun c hc => ?_, fun x hx => ?_⟩
  · rcases insertCell_mem hc with rfl | hc
    · exact ha
    · exact h3 c hc
  · exact h4 x (List.mem_filter.1 hx).1

theorem wf_writeBytes (bs : List Byte) (m : Memory) (a : Nat) (h : m.wf = true)
    (ha : a + bs.length ≤ Config.memoryBytes) : (m.writeBytes a bs).wf = true := by
  induction bs generalizing m a with
  | nil => exact h
  | cons b bs ih =>
    simp only [List.length_cons] at ha
    exact ih _ _ (wf_writeByte m a b h (by omega)) (by omega)

theorem wf_upsetAt (m : Memory) (a count : Nat) (u : List Nat) (h : m.wf = true)
    (ha : a + count ≤ Config.memoryBytes) : (m.upsetAt a count u).wf = true := by
  obtain ⟨h1, h2, h3, h4⟩ := (wf_iff m).1 h
  have key : ∀ l : List Nat, (∀ x ∈ l, x < Config.memoryBytes) →
      (l.foldr insertAddr m.upset).Pairwise (· < ·) ∧ ∀ x ∈ l.foldr insertAddr m.upset, x < Config.memoryBytes := by
    intro l
    induction l with
    | nil => exact fun _ => ⟨h2, h4⟩
    | cons d t ih =>
      intro hl
      obtain ⟨p, q⟩ := ih fun x hx => hl x (List.mem_cons_of_mem _ hx)
      refine ⟨sorted_insertAddr d _ p, fun x hx => ?_⟩
      rcases insertAddr_mem hx with rfl | hx
      · exact hl _ List.mem_cons_self
      · exact q x hx
  obtain ⟨p, q⟩ := key ((u.filter (· < count)).map (a + ·)) (by
    intro x hx
    simp only [List.mem_map, List.mem_filter, decide_eq_true_eq] at hx
    obtain ⟨y, hy, rfl⟩ := hx
    omega)
  exact (wf_iff _).2 ⟨h1, p, h3, q⟩

end Sys2Proof.Laws
end

