-- ==== Sys2Proof/Laws/PerInstr.lean ====
section
/-! SUPPORT. Statements made once for each command. `FrameSize`: a port gathers the whole frame of every well-formed
message of its link (R192). -/

namespace Sys2Proof.Laws.FrameSize
open Sys2Proof.Safety

/-- The frame of a well-formed message has at least 5 bytes and no more than its port gathers: 2,053 on a scan link, 6 on
an exchange link. A command that is no message has no frame. -/
def Statement (i : Instr) : Prop :=
  ∀ bytes, i.wellFormed = true → messageFrame i = some bytes →
    5 ≤ bytes.length ∧ bytes.length ≤ if (scanFrameOf i).isSome then scanFrameMost else exchangeFrameMost

theorem length_frameOf (type : Byte) (contents : List Byte) : (frameOf type contents).length = contents.length + 5 := by
  simp only [frameOf, wordBytes, List.cons_append, List.nil_append, List.length_cons, List.length_append,
    List.length_nil]

/-- A message whose contents fit is framed within bounds. -/
theorem of_contents {i : Instr} {type : Byte} {contents : List Byte} (e : messageFrame i = some (frameOf type contents))
    (h : (contents.length + 5).ble (if (scanFrameOf i).isSome then scanFrameMost else exchangeFrameMost) = true) :
    Statement i := by
  intro bytes _ hb
  rw [e] at hb
  cases hb
  rw [length_frameOf]
  exact ⟨by omega, Nat.le_of_ble_eq_true h⟩

/-- A command that is no message. -/
theorem of_none {i : Instr} (e : messageFrame i = none) : Statement i := by
  intro bytes _ hb
  rw [e] at hb
  cases hb

theorem itemOpen (lane : Lane) (bundle : Long) (position : Word) (faces : Byte) :
    Statement (.itemOpen lane bundle position faces) := of_contents rfl rfl
theorem faceOpen (lane : Lane) (kind : Byte) (width : Word) :
    Statement (.faceOpen lane kind width) := of_contents rfl rfl
theorem row (lane : Lane) (pixels : List Byte) : Statement (.row lane pixels) := by
  intro bytes hw hb
  cases hb
  rw [length_frameOf]
  simp only [Instr.wellFormed, rowLengthOk, Bool.and_eq_true, decide_eq_true_eq] at hw
  exact ⟨by omega, by simp only [scanFrameOf, Option.isSome_some, if_true, scanFrameMost]; omega⟩
theorem faceClose (lane : Lane) : Statement (.faceClose lane) := of_contents rfl rfl
theorem itemClose (lane : Lane) : Statement (.itemClose lane) := of_contents rfl rfl
theorem itemAbandon (lane : Lane) (reason : Byte) : Statement (.itemAbandon lane reason) := of_contents rfl rfl
theorem scanFailedFrame (lane : Lane) : Statement (.scanFailedFrame lane) := of_none rfl
theorem scanLinkUp (lane : Lane) : Statement (.scanLinkUp lane) := of_none rfl
theorem scanLinkLost (lane : Lane) : Statement (.scanLinkLost lane) := of_none rfl
theorem pocketTimerExpiry (lane : Lane) : Statement (.pocketTimerExpiry lane) := of_none rfl
theorem memoryGrant : Statement .memoryGrant := of_none rfl
theorem burstComplete (upsets : List Nat) : Statement (.burstComplete upsets) := of_none rfl
theorem segmentBoundary (port : Port) : Statement (.segmentBoundary port) := of_none rfl
theorem claim (port : Port) (mask : Byte) : Statement (.claim port mask) := of_contents rfl rfl
theorem cancel (port : Port) : Statement (.cancel port) := of_contents rfl rfl
theorem hold (port : Port) : Statement (.hold port) := of_contents rfl rfl
theorem go (port : Port) : Statement (.go port) := of_contents rfl rfl
theorem delivered (port : Port) : Statement (.delivered port) := of_contents rfl rfl
theorem returnItem (port : Port) : Statement (.returnItem port) := of_contents rfl rfl
theorem exchangeFailedFrame (port : Port) : Statement (.exchangeFailedFrame port) := of_none rfl
theorem stallTimerExpiry (port : Port) : Statement (.stallTimerExpiry port) := of_none rfl
theorem exchangeLinkUp (port : Port) : Statement (.exchangeLinkUp port) := of_none rfl
theorem exchangeLinkLost (port : Port) : Statement (.exchangeLinkLost port) := of_none rfl
theorem storeEditOn (pinHigh : Bool) : Statement (.storeEditOn pinHigh) := of_none rfl
theorem storeEditOff : Statement .storeEditOff := of_none rfl
theorem load : Statement .load := of_none rfl
theorem validate : Statement .validate := of_none rfl
theorem program : Statement .program := of_none rfl
theorem erase : Statement .erase := of_none rfl
theorem bind : Statement .bind := of_none rfl
theorem laneClose : Statement .laneClose := of_none rfl
theorem laneOpen : Statement .laneOpen := of_none rfl
theorem laneReset : Statement .laneReset := of_none rfl
theorem setQuota : Statement .setQuota := of_none rfl
theorem purge : Statement .purge := of_none rfl
theorem xportReset : Statement .xportReset := of_none rfl
theorem setMask : Statement .setMask := of_none rfl
theorem setStall : Statement .setStall := of_none rfl
theorem setReserve : Statement .setReserve := of_none rfl
theorem softReset : Statement .softReset := of_none rfl
theorem unknownCommandCode (code : Word) : Statement (.unknownCommandCode code) := of_none rfl
theorem stagingDataWrite (value : Word) : Statement (.stagingDataWrite value) := of_none rfl
theorem stagingDataRead : Statement .stagingDataRead := of_none rfl
theorem stagingAddressWrite (value : Word) : Statement (.stagingAddressWrite value) := of_none rfl
theorem itemSelectWrite (value : Word) : Statement (.itemSelectWrite value) := of_none rfl
theorem itemDataRead : Statement .itemDataRead := of_none rfl
theorem interruptCausesWrite (value : Word) : Statement (.interruptCausesWrite value) := of_none rfl
theorem interruptEnablesWrite (value : Word) : Statement (.interruptEnablesWrite value) := of_none rfl
theorem interruptControlWrite (value : Word) : Statement (.interruptControlWrite value) := of_none rfl
theorem resetCauseWrite (value : Word) : Statement (.resetCauseWrite value) := of_none rfl
theorem registerWrite (register : Fin 32) (value : Word) : Statement (.registerWrite register value) := of_none rfl
theorem storeWeFall : Statement .storeWeFall := of_none rfl
theorem powerOn : Statement .powerOn := of_none rfl
theorem pinReset : Statement .pinReset := of_none rfl
theorem resetNRelease : Statement .resetNRelease := of_none rfl
theorem startUpScanEnd : Statement .startUpScanEnd := of_none rfl
theorem erasingComplete : Statement .erasingComplete := of_none rfl
theorem programmingComplete : Statement .programmingComplete := of_none rfl
theorem verifyEnd (lost : List (Nat × Byte)) : Statement (.verifyEnd lost) := of_none rfl

end Sys2Proof.Laws.FrameSize
end

