-- ==== Sys2Proof/Laws/Pools.lean ====
section
/-! SUPPORT. The records inside an item, found and changed, and the strips and pages held when one item's record
changes. -/

namespace Sys2Proof.Laws
open Sys2Proof.Machine Sys2Proof.Safety

/-! ## A record found in a list -/

/-- Where at most one record has a key, a record of the list is the one its key finds. -/
theorem find_of_mem {α : Type} {p : α → Bool} {l : List α} {x : α} (hx : x ∈ l) (hp : p x = true)
    (once : ∀ y ∈ l, p y = true → y = x) : l.find? p = some x := by
  cases h : l.find? p with
  | none => exact absurd hp (by simpa using List.find?_eq_none.mp h x hx)
  | some y => rw [once y (List.mem_of_find?_eq_some h) (List.find?_some h)]

/-- Two different members of a list whose members stand pairwise in a symmetric relation stand in it. -/
theorem related_of_pairwise {α : Type} {R : α → α → Prop} (symm : ∀ a b, R a b → R b a) {l : List α}
    (h : l.Pairwise R) {x y : α} (hx : x ∈ l) (hy : y ∈ l) (hne : x ≠ y) : R x y := by
  induction h with
  | nil => exact absurd hx List.not_mem_nil
  | cons first _ ih =>
    rcases List.mem_cons.mp hx with ex | mx
    · rcases List.mem_cons.mp hy with ey | my
      · exact absurd (ex.trans ey.symm) hne
      · exact ex ▸ first _ my
    · rcases List.mem_cons.mp hy with ey | my
      · exact ey ▸ symm _ _ (first _ mx)
      · exact ih mx my

/-- A find after a change that leaves the test as it was. -/
theorem find_map_of_test {α : Type} {p : α → Bool} {f : α → α} (l : List α) (hf : ∀ x, p (f x) = p x) :
    (l.map f).find? p = (l.find? p).map f := by
  rw [List.find?_map, show p ∘ f = p from funext hf]

/-! ## Faces -/

theorem face_mem {i : Item} {kind : FaceKind} {f : Face} (h : i.face? kind = some f) :
    f ∈ i.faces ∧ f.kind = kind :=
  ⟨List.mem_of_find?_eq_some h, by simpa using List.find?_some h⟩

theorem face_none {i : Item} {kind : FaceKind} (h : i.face? kind = none) : ∀ f ∈ i.faces, f.kind ≠ kind := by
  simpa [Item.face?] using h

/-- In a record with one face of a kind, a face is the one its kind finds. -/
theorem face_of_mem {i : Item} (h : Shaped i) {f : Face} (hf : f ∈ i.faces) : i.face? f.kind = some f := by
  refine find_of_mem hf (by simp) fun g hg hk => ?_
  by_contra hne
  exact related_of_pairwise (fun _ _ => Ne.symm) h.faces hg hf hne (by simpa using hk)

theorem face_modFace_same (i : Item) (kind : FaceKind) (f : Face → Face) (hf : ∀ x, (f x).kind = x.kind) :
    (i.modFace kind f).face? kind = (i.face? kind).map f := by
  have test : ∀ x : Face, decide ((if x.kind = kind then f x else x).kind = kind) = decide (x.kind = kind) := by
    intro x
    split <;> simp [hf]
  rw [Item.face?, Item.modFace, find_map_of_test _ test, Item.face?]
  cases h : i.faces.find? (·.kind = kind) with
  | none => rfl
  | some x =>
    have hk : x.kind = kind := by simpa using List.find?_some h
    rw [Option.map_some, Option.map_some, if_pos hk]

theorem face_modFace_ne (i : Item) {kind other : FaceKind} (f : Face → Face) (hf : ∀ x, (f x).kind = x.kind)
    (h : other ≠ kind) : (i.modFace kind f).face? other = i.face? other := by
  have test : ∀ x : Face, decide ((if x.kind = kind then f x else x).kind = other) = decide (x.kind = other) := by
    intro x
    split <;> simp [hf]
  rw [Item.face?, Item.modFace, find_map_of_test _ test, Item.face?]
  cases e : i.faces.find? (·.kind = other) with
  | none => rfl
  | some x =>
    have hk : x.kind = other := by simpa using List.find?_some e
    rw [Option.map_some, if_neg (by rw [hk]; exact h)]

/-! ## Renditions -/

theorem rendition_mem {i : Item} {face : FaceKind} {kind : RenditionKind} {r : Rendition}
    (h : i.rendition? face kind = some r) : r ∈ i.renditions ∧ r.face = face ∧ r.kind = kind :=
  ⟨List.mem_of_find?_eq_some h, by simpa using List.find?_some h⟩

theorem rendition_none {i : Item} {face : FaceKind} {kind : RenditionKind} (h : i.rendition? face kind = none) :
    ∀ r ∈ i.renditions, r.face = face → r.kind ≠ kind := by
  simpa [Item.rendition?] using h

/-- In a record with one rendition of a face and kind, a rendition is the one they find. -/
theorem rendition_of_mem {i : Item} (h : Shaped i) {r : Rendition} (hr : r ∈ i.renditions) :
    i.rendition? r.face r.kind = some r := by
  refine find_of_mem hr (by simp) fun q hq hk => ?_
  have hk : q.face = r.face ∧ q.kind = r.kind := by simpa using hk
  by_contra hne
  rcases related_of_pairwise (fun _ _ h => h.imp Ne.symm Ne.symm) h.renditions hq hr hne with e | e
  · exact e hk.1
  · exact e hk.2

theorem rendition_modRendition_same (i : Item) (face : FaceKind) (kind : RenditionKind) (f : Rendition → Rendition)
    (hf : ∀ x, (f x).face = x.face ∧ (f x).kind = x.kind) :
    (i.modRendition face kind f).rendition? face kind = (i.rendition? face kind).map f := by
  have test : ∀ x : Rendition,
      (decide ((if x.face = face ∧ x.kind = kind then f x else x).face = face) &&
        decide ((if x.face = face ∧ x.kind = kind then f x else x).kind = kind)) =
      (decide (x.face = face) && decide (x.kind = kind)) := by
    intro x
    split <;> simp [hf]
  rw [Item.rendition?, Item.modRendition, find_map_of_test _ test, Item.rendition?]
  cases h : i.renditions.find? (fun r => r.face = face && r.kind = kind) with
  | none => rfl
  | some x =>
    have hk : x.face = face ∧ x.kind = kind := by simpa using List.find?_some h
    rw [Option.map_some, Option.map_some, if_pos hk]

theorem rendition_modRendition_ne (i : Item) {face other : FaceKind} {kind another : RenditionKind}
    (f : Rendition → Rendition) (hf : ∀ x, (f x).face = x.face ∧ (f x).kind = x.kind)
    (h : other ≠ face ∨ another ≠ kind) :
    (i.modRendition face kind f).rendition? other another = i.rendition? other another := by
  have test : ∀ x : Rendition,
      (decide ((if x.face = face ∧ x.kind = kind then f x else x).face = other) &&
        decide ((if x.face = face ∧ x.kind = kind then f x else x).kind = another)) =
      (decide (x.face = other) && decide (x.kind = another)) := by
    intro x
    split <;> simp [hf]
  rw [Item.rendition?, Item.modRendition, find_map_of_test _ test, Item.rendition?]
  cases e : i.renditions.find? (fun r => r.face = other && r.kind = another) with
  | none => rfl
  | some x =>
    have hk : x.face = other ∧ x.kind = another := by simpa using List.find?_some e
    have hne : ¬ (x.face = face ∧ x.kind = kind) := by
      rw [hk.1, hk.2]
      tauto
    rw [Option.map_some, if_neg hne]

/-! ## Strips and pages held -/

/-- What all items hold, when the record at one place changes: its old holdings leave, its new ones come. -/
theorem flatMap_set_perm {α : Type} (g : α → List Nat) : ∀ (l : List α) (n : Nat) (h : n < l.length) (x : α),
    ((l.set n x).flatMap g ++ g l[n]).Perm (l.flatMap g ++ g x)
  | [], _, h, _ => absurd h (Nat.not_lt_zero _)
  | a :: l, 0, _, x => by
    rw [List.set_cons_zero, List.flatMap_cons, List.flatMap_cons, List.getElem_cons_zero]
    refine List.perm_iff_count.mpr fun n => ?_
    simp only [List.count_append]
    omega
  | a :: l, n + 1, h, x => by
    have ih := flatMap_set_perm g l n (by simpa using h) x
    rw [List.set_cons_succ, List.flatMap_cons, List.flatMap_cons, List.getElem_cons_succ, List.append_assoc,
      List.append_assoc]
    exact ih.append_left _

theorem held_modItem (g : Item → List Nat) (s : State) (k : Slot) (f : Item → Item) :
    ((s.modItem k f).items.toList.flatMap g ++ g (s.items.get k)).Perm
      (s.items.toList.flatMap g ++ g (f (s.items.get k))) := by
  have h := flatMap_set_perm g s.items.toList k.val (by simp) (f (s.items.get k))
  simpa [State.modItem, put, get_eq_getElem, Vector.toList_set] using h

theorem stripsHeld_modItem (s : State) (k : Slot) (f : Item → Item) :
    (stripsHeld (s.modItem k f) ++ (s.items.get k).faces.flatMap fun x => x.strips).Perm
      (stripsHeld s ++ (f (s.items.get k)).faces.flatMap fun x => x.strips) :=
  held_modItem (fun i => i.faces.flatMap Face.strips) s k f

theorem pagesHeld_modItem (s : State) (k : Slot) (f : Item → Item) :
    (pagesHeld (s.modItem k f) ++ (s.items.get k).renditions.flatMap fun r => r.chain).Perm
      (pagesHeld s ++ (f (s.items.get k)).renditions.flatMap fun r => r.chain) :=
  held_modItem (fun i => i.renditions.flatMap Rendition.chain) s k f

end Sys2Proof.Laws
end

