-- ==== Sys2Proof/Laws/Release.lean ====
section
/-! SUPPORT. The heads a release arbiter may choose from: which they are, and which stands first. -/

namespace Sys2Proof.Laws
open Sys2Proof.Machine

/-- Slot `k` is the READY head of lane `l`, and a waiting claim covers the lane (R134). -/
def CoveredHead (s : State) (l : Lane) (k : Slot) : Prop :=
  (s.lanes.get l).queue.head? = some k ∧ (s.items.get k).state = .ready ∧ ∃ c ∈ s.claims, c.mask.getLsbD l.val = true

/-- The head a lane offers the arbiter. -/
theorem offered_eq_some (s : State) (l : Lane) (k : Slot) :
    (if s.claims.any (fun c => marks c.mask l) then s.readyHead l else none) = some k ↔ CoveredHead s l k := by
  have claimed : s.claims.any (fun c => marks c.mask l) = true ↔ ∃ c ∈ s.claims, c.mask.getLsbD l.val = true := by
    simp only [List.any_eq_true, marks]
  have ready : s.readyHead l = some k ↔ (s.lanes.get l).queue.head? = some k ∧ (s.items.get k).state = .ready := by
    simp only [State.readyHead, Option.filter_eq_some_iff, decide_eq_true_eq]
  by_cases h : s.claims.any (fun c => marks c.mask l) = true
  · rw [if_pos h, ready]
    exact ⟨fun ⟨a, b⟩ => ⟨a, b, claimed.mp h⟩, fun ⟨a, b, _⟩ => ⟨a, b⟩⟩
  · rw [if_neg h]
    exact ⟨fun e => absurd e (by simp), fun ⟨_, _, c⟩ => absurd (claimed.mpr c) h⟩

/-- The arbiter chooses from the covered READY heads and no others (R134). -/
theorem mem_coveredHeads (s : State) (k : Slot) : k ∈ s.coveredHeads ↔ ∃ l, CoveredHead s l k := by
  simp only [State.coveredHeads, List.mem_filterMap, offered_eq_some]
  constructor
  · rintro ⟨l, _, h⟩
    exact ⟨l, h⟩
  · rintro ⟨l, h⟩
    refine ⟨l, ?_, h⟩
    clear h
    revert l
    decide

/-- The first of them is the head of the lowest-numbered covered lane (R134). -/
theorem head?_coveredHeads {s : State} {l : Lane} {k : Slot} (h : CoveredHead s l k)
    (low : ∀ m j, m < l → ¬ CoveredHead s m j) : s.coveredHeads.head? = some k := by
  have first (offer : Lane → Option Slot) (here : offer l = some k) (before : ∀ m, m < l → offer m = none) :
      ([(0 : Lane), 1, 2, 3].filterMap offer).head? = some k := by
    simp only [List.filterMap_cons]
    match l with
    | 0 => rw [here]; rfl
    | 1 => rw [before 0 (by decide), here]; rfl
    | 2 => rw [before 0 (by decide), before 1 (by decide), here]; rfl
    | 3 => rw [before 0 (by decide), before 1 (by decide), before 2 (by decide), here]; rfl
  exact first _ ((offered_eq_some s l k).mpr h) fun m hm =>
    Option.eq_none_iff_forall_ne_some.mpr fun j e => low m j hm ((offered_eq_some s m j).mp e)

end Sys2Proof.Laws
end

