-- ==== Sys2Proof/Laws/Scan.lean ====
section
/-! SUPPORT. The commands of the scan links: each message is the arrival of one judged frame, a frame at a clear port is
taken at once, and where a taken frame goes by the port's state. -/

namespace Sys2Proof.Laws
open Sys2Proof.Machine Sys2Proof.Safety

/-! ### A message is the arrival of a frame -/

theorem exec_scanFrame {c : Instr} {l : Lane} {f : ScanFrame} (s : State) (h : scanFrameOf c = some (l, f)) :
    exec c s = .next (s.frameArrives l f) := by
  cases c <;> simp only [scanFrameOf, Option.some.injEq, Prod.mk.injEq, reduceCtorEq] at h
  case itemOpen m b p fa =>
    obtain ⟨rfl, rfl⟩ := h
    show Host.Outcome.next (s.frameArrives m (if itemOpenOk p fa = true then _ else _)) = _
    congr 2
    simp only [itemOpenOk, Bool.and_eq_true, Bool.or_eq_true, decide_eq_true_eq]
  case faceOpen m k w =>
    obtain ⟨rfl, rfl⟩ := h
    show Host.Outcome.next (s.frameArrives m (if faceKindOk k = true then _ else _)) = _
    congr 2
    simp only [faceKindOk, Bool.or_eq_true, decide_eq_true_eq]
    by_cases h0 : k = 0
    · subst h0
      rfl
    · by_cases h1 : k = 1
      · subst h1
        rfl
      · rw [if_neg (by rintro (h | h); exacts [h0 h, h1 h]), if_neg h0, if_neg h1]
  case row m px =>
    obtain ⟨rfl, rfl⟩ := h
    show Host.Outcome.next (s.frameArrives m (if rowLengthOk px = true then _ else _)) = _
    congr 2
    simp only [rowLengthOk, Bool.and_eq_true, decide_eq_true_eq]
  all_goals
    obtain ⟨rfl, rfl⟩ := h
    rfl

theorem exec_scanFrame_clear {c : Instr} {l : Lane} {f : ScanFrame} {s : State} (h : scanFrameOf c = some (l, f))
    (hr : Running s) (hc : PortClear s l) (hd : (s.scan.get l).state ≠ .down) :
    exec c s = .next (s.takeFrame l f) := by
  rw [exec_scanFrame s h, frameArrives_clear hr hc hd]

theorem isRow_iff (f : ScanFrame) : f.isRow = true ↔ ∃ px, f = .row px := by
  cases f <;> simp [ScanFrame.isRow]

theorem isRow_false_iff (f : ScanFrame) : f.isRow = false ↔ ∀ px, f ≠ .row px := by
  cases f <;> simp [ScanFrame.isRow]

/-! ### Where a taken frame goes -/

theorem takeFrame_open {s : State} {l : Lane} {b : Long} {p : Word} {f : Byte}
    (h : (s.scan.get l).state = .idle ∨ (s.scan.get l).state = .discard) :
    s.takeFrame l (.itemOpen b p f) = s.takeAsNew l b p f := by
  unfold State.takeFrame
  dsimp only
  rcases h with h | h <;> rw [h] <;> rfl

theorem takeFrame_item {s : State} {l : Lane} {k : Slot} {f : ScanFrame} (h : (s.scan.get l).attached = some k)
    (hs : (s.scan.get l).state = .item) : s.takeFrame l f = s.takeInItem l k f := by
  unfold State.takeFrame
  dsimp only
  rw [hs, h]

theorem takeFrame_face {s : State} {l : Lane} {k : Slot} {f : ScanFrame} {kind : FaceKind}
    (h : (s.scan.get l).attached = some k) (hs : (s.scan.get l).state = .face)
    (hc : (s.scan.get l).current = some kind) : s.takeFrame l f = s.takeInFace l k kind f := by
  unfold State.takeFrame
  dsimp only
  rw [hs, h, hc]

/-! ### Admission -/

theorem freeSlot_eq_some (s : State) (k : Slot) : s.freeSlot = some k ↔ LowestFree s k := by
  unfold State.freeSlot LowestFree
  constructor
  · intro h
    split at h
    · rename_i n e
      split at h
      · cases h
        obtain ⟨h1, h2, h3⟩ := List.findIdx?_eq_some_iff_getElem.mp e
        refine ⟨by simpa [get_eq_getElem] using h2, fun j hj => ?_⟩
        have := h3 j.val hj
        simpa [get_eq_getElem] using this
      · cases h
    · cases h
  · rintro ⟨h1, h2⟩
    have : s.items.toList.findIdx? (fun i => decide (i.state = .free)) = some k.val := by
      rw [List.findIdx?_eq_some_iff_getElem]
      refine ⟨by simp, by simpa [get_eq_getElem] using h1, fun j hj => ?_⟩
      have := h2 ⟨j, by omega⟩ hj
      simpa [get_eq_getElem] using this
    rw [this]
    simp

theorem freeSlot_eq_none (s : State) : s.freeSlot = none ↔ ∀ k, (s.items.get k).state ≠ .free := by
  constructor
  · intro h k hk
    obtain ⟨m, hm, least⟩ := WellFounded.has_min (wellFounded_lt (α := Slot)) {j | (s.items.get j).state = .free} ⟨k, hk⟩
    have e := (freeSlot_eq_some s m).mpr ⟨hm, fun j hj hf => least j hf hj⟩
    rw [e] at h
    cases h
  · intro h
    cases e : s.freeSlot with
    | none => rfl
    | some k => exact absurd ((freeSlot_eq_some s k).mp e).1 (h k)

theorem scanProduce_eq (s : State) (l : Lane) (m : ScanMsg) : s.scanProduce l m = { s with
    scan := put s.scan l { s.scan.get l with produced := sentOn (s.scan.get l).link (s.scan.get l).produced m } } := by
  unfold State.scanProduce State.modScan sentOn
  dsimp only
  congr 2
  by_cases hl : (s.scan.get l).link = true
  · rw [if_pos hl, if_pos hl]
  · rw [if_neg hl, if_neg hl]

/-! ### Rejecting the attached item -/

theorem rejectSent_attached {s : State} {l : Lane} {k : Slot} (h : Attached s l k) (kind : FindingKind) (v : Nat)
    (next : ScanState) :
    s.rejectSent l k (itemFinding kind v) next = (rejected s l k kind v true next).rejectRenditions k := by
  rw [rejectSent_eq h.2.1 rfl h.2.2.2]
  rfl

theorem rejectUnsent_attached {s : State} {l : Lane} {k : Slot} (h : Attached s l k) (kind : FindingKind) (v : Nat)
    (next : ScanState) :
    s.rejectUnsent l k (itemFinding kind v) next = (rejected s l k kind v false next).rejectRenditions k := by
  rw [rejectUnsent_eq h.2.1 rfl h.2.2.2]
  rfl

/-- The port a rejection leaves is in the state it goes to, with no held row. -/
theorem rejected_port (s : State) (l : Lane) (k : Slot) (kind : FindingKind) (v : Nat) (sent : Bool) (next : ScanState) :
    (((rejected s l k kind v sent next).rejectRenditions k).scan.get l).state = next ∧
      (((rejected s l k kind v sent next).rejectRenditions k).scan.get l).held = none := by
  rw [((Behind.refl _).rejectRenditions k).scan]
  simp [rejected, landingEnded, portLeft]

end Sys2Proof.Laws
end

