-- ==== Sys2Proof/Laws/Step.lean ====
section
/-! SUPPORT. What a step can do, said once: which commands only change what `Keeps` lets change, and what a millisecond
is. -/

namespace Sys2Proof.Laws
open Sys2Proof.Machine

theorem next_inj {s t : State} (h : (Host.Outcome.next s : Host.Outcome State Fault Refusal) = .next t) : s = t :=
  Host.Outcome.next.inj h

/-- The commands of the scan links, the exchange links and the memory arbiter's grants. -/
def behindLinks : Instr → Bool
  | .itemOpen .. | .faceOpen .. | .row .. | .faceClose _ | .itemClose _ | .itemAbandon .. | .scanFailedFrame _
  | .scanLinkUp _ | .scanLinkLost _ | .pocketTimerExpiry _ | .memoryGrant | .segmentBoundary _ | .claim .. | .cancel _
  | .hold _ | .go _ | .delivered _ | .returnItem _ | .exchangeFailedFrame _ | .stallTimerExpiry _ | .exchangeLinkUp _
  | .exchangeLinkLost _ => true
  | _ => false

/-- A command of the link or memory side that answers next keeps everything `Keeps` names. -/
theorem exec_keeps (c : Instr) (s t : State) (hc : behindLinks c = true) (h : exec c s = .next t) : Keeps s t := by
  have r := Keeps.refl s
  cases c <;> (first | exact Bool.noConfusion hc | skip)
  case itemOpen =>
    obtain rfl := next_inj h
    exact r.frameArrives _ _
  case faceOpen =>
    obtain rfl := next_inj h
    exact r.frameArrives _ _
  case row =>
    obtain rfl := next_inj h
    exact r.frameArrives _ _
  case faceClose =>
    obtain rfl := next_inj h
    exact r.frameArrives _ _
  case itemClose =>
    obtain rfl := next_inj h
    exact r.frameArrives _ _
  case itemAbandon =>
    obtain rfl := next_inj h
    exact r.frameArrives _ _
  case scanFailedFrame =>
    obtain rfl := next_inj h
    exact r.frameArrives _ _
  case scanLinkUp =>
    obtain rfl := next_inj h
    split
    · exact r.modScan _ _
    · split
      · exact (r.modScan _ _).setCause _
      · exact r
  case scanLinkLost =>
    obtain rfl := next_inj h
    split
    · exact r.modScan _ _
    · split
      · exact r
      · exact r.loseScanLink _
  case pocketTimerExpiry =>
    obtain rfl := next_inj h
    exact r.whileRunning fun u hu => hu.expirePocket _
  case memoryGrant =>
    obtain rfl := next_inj h
    exact r.whileRunning fun u hu => hu.memoryGrant
  case segmentBoundary =>
    obtain rfl := next_inj h
    exact r.whileRunning fun u hu => hu.segmentLeaves _
  case claim =>
    obtain rfl := next_inj h
    refine r.whileRunning fun u hu => ?_
    split
    · exact hu.takeClaim _ _
    · exact hu
  case cancel =>
    obtain rfl := next_inj h
    refine r.whileRunning fun u hu => ?_
    split
    · exact ((hu.dropClaim _).exchangeProduce _ _).modExchange _ _ (fun _ => rfl)
    · exact hu
  case hold =>
    obtain rfl := next_inj h
    refine r.whileRunning fun u hu => ?_
    split
    · exact hu.modExchange _ _ (fun _ => rfl)
    · exact hu
  case go =>
    obtain rfl := next_inj h
    refine r.whileRunning fun u hu => ?_
    split
    · exact Keeps.streamOn (hu.modExchange _ _ (fun x => by rfl)) _
    · exact hu
  case delivered =>
    obtain rfl := next_inj h
    exact r.whileRunning fun u hu => hu.takeDelivered _
  case returnItem =>
    obtain rfl := next_inj h
    exact r.whileRunning fun u hu => hu.takeReturn _
  case exchangeFailedFrame =>
    obtain rfl := next_inj h
    exact r
  case stallTimerExpiry =>
    obtain rfl := next_inj h
    exact r.whileRunning fun u hu => hu.expireStall _
  case exchangeLinkUp =>
    obtain rfl := next_inj h
    split
    · exact r.modExchange _ _ (fun _ => rfl)
    · split
      · exact Keeps.setCause (r.modExchange _ _ (fun x => by rfl)) _
      · exact r
  case exchangeLinkLost =>
    obtain rfl := next_inj h
    split
    · exact r.modExchange _ _ (fun _ => rfl)
    · split
      · exact r
      · exact r.loseExchangeLink _

/-- What a millisecond does before the store's phase bound keeps everything `Keeps` names. -/
theorem tickPorts_keeps (s : State) : Keeps s ((((((((((((s.sendScan 0).sendScan 1).sendScan 2).sendScan 3).sendExchange
    0).sendExchange 1).tickPocket 0).tickPocket 1).tickPocket 2).tickPocket 3).tickStall 0).tickStall 1) := by
  have a : ∀ u l, Keeps s u → Keeps s (u.sendScan l) := fun u l h => h.modScan _ _
  have b : ∀ u l, Keeps s u → Keeps s (u.sendExchange l) := by
    intro u l h
    unfold State.sendExchange
    split
    · exact h
    · split
      · exact h
      · exact h.modExchange _ _ fun _ => rfl
  have c : ∀ u l, Keeps s u → Keeps s (u.tickPocket l) := by
    intro u l h
    unfold State.tickPocket
    split
    · exact h
    · split
      · exact h.expirePocket _
      · exact h.modScan _ _
  have d : ∀ u l, Keeps s u → Keeps s (u.tickStall l) := by
    intro u l h
    unfold State.tickStall
    split
    · exact h
    · split
      · exact h.expireStall _
      · exact h.modExchange _ _ fun _ => rfl
  exact d _ _ (d _ _ (c _ _ (c _ _ (c _ _ (c _ _ (b _ _ (b _ _ (a _ _ (a _ _ (a _ _ (a _ _ (Keeps.refl s))))))))))))

/-- A millisecond is nothing while RESET_N is low; else it is what `Keeps` keeps, then the store's own ms. -/
theorem tick_cases (s : State) :
    s.tick = s ∨ ∃ u, Keeps s u ∧ s.pins.resetLow = false ∧ s.tick = u.tickStore := by
  unfold State.tick State.whileRunning
  split
  · exact .inl rfl
  · rename_i h
    exact .inr ⟨_, tickPorts_keeps s, by simpa using h, rfl⟩

end Sys2Proof.Laws
end

