-- ==== Sys2Proof/Tests/Slice0.lean ====
section
/-! SUPPORT. Tests: what the well-formedness check refuses, frames written out byte by byte, small steps on small states,
and for every statement with hypotheses a concrete state and operands that meet them. -/

set_option Elab.async false

namespace Sys2Proof.Tests
open Sys2Proof.Machine Sys2Proof.Safety

/-! ## States to test on -/

/-- A valid profile record: 8 name bytes, edition 1, BITONAL for both faces, 1 KiB budgets, two bitonal rungs. -/
def profile : List Byte :=
  [0x54, 0x45, 0x53, 0x54, 0x50, 0x52, 0x4F, 0x46, 0, 1, 0x05, 128, 0, 1, 0, 1] ++
  [2, 128, 0, 100, 15, 0, 0, 0, 0] ++ [1, 1, 4, 0, 0, 0, 0, 0, 0] ++
  [0, 64, 8, 0, 0, 1, 4, 0] ++ [0, 0, 3, 0xE8, 3, 0xE8, 15] ++ [1, 0, 0, 0, 0, 0, 0] ++ [0x07, 0xD0] ++
  (List.range 98).flatMap (fun e => [7, 0, BitVec.ofNat 8 e]) ++ List.replicate 160 0

/-- Links up, ports IDLE, the store IDLE with the profile VALID in block 0, the others EMPTY, lane 0 bound to block 0. -/
def base : State := { State.reset with
  scan := Vector.replicate 4 (ScanPort.fresh true)
  exchange := Vector.replicate 2 (ExchangePort.fresh true 0xF)
  store := { State.reset.store with
    blocks := put (Vector.replicate 8 { Block.manufactured with state := .empty }) 0 ⟨profile, false, .valid⟩
    bindings := put (Vector.replicate 4 none) 0 (some (.block 0))
    phase := .idle
    phaseLeft := 0 } }

/-- RESET_N held low. -/
def low : State := { base with
  pins := { base.pins with resetLow := true }, store := { base.store with phase := .starting, phaseLeft := 10 } }

def withOperands (a b : Word) (s : State) : State := { s with sup := { s.sup with operandA := a, operandB := b } }
def withScan (l : Lane) (f : ScanPort → ScanPort) (s : State) : State := s.modScan l f
def withItem (k : Slot) (i : Item) (s : State) : State := s.modItem k fun _ => i
def withQueue (l : Lane) (q : List Slot) (s : State) : State := s.modLane l fun r => { r with queue := q }
def withStore (f : Store → Store) (s : State) : State := s.modStore f
def withPort (p : Port) (f : ExchangePort → ExchangePort) (s : State) : State := s.modExchange p f

/-- A face of 64 columns with so many rows landed on strip 9. -/
def face (st : FaceState) (rows : Nat) : Face :=
  ⟨.front, 64, st, rows, 0, [9], if st = .landing then some ⟨128, 0, List.replicate 64 0⟩ else none⟩

def bitonal (st : RenditionState) (chain : List Nat) (out : Option Output) : Rendition :=
  ⟨.front, .bitonal, st, 0, 1, chain, out⟩

def landingItem (fs : List Face) : Item := { Item.empty with
  state := .landing, position := 1, facesExpected := 1, source := some (.block 0), faces := fs }

/-- Item 0 attached to scan port 0 in a state of the port. -/
def attachedAt (st : ScanState) (current : Option FaceKind) (i : Item) : State :=
  withScan 0 (fun p => { p with state := st, attached := some 0, current := current, timer := some ⟨2000, 1995⟩ })
    (withQueue 0 [0] (withItem 0 i base))

def inItem : State := attachedAt .item none (landingItem [])
def inFace : State := attachedAt .face (some .front) (landingItem [face .landing 1])

/-- Item 0 decided, with a rendition of its front face. -/
def decided (st : ItemState) (r : Rendition) : Item := { landingItem [face .landed 1] with
  state := st, pocket := .accept, renditions := [r] }

/-- A DONE item READY at the head of lane 0. -/
def readyAt : State := withQueue 0 [0] (withItem 0
  { decided .ready (bitonal .done [7] (some ⟨64, 1, 300⟩)) with disposition := some .accepted } base)

/-- Item 0 CLAIMED by port 0 in a state of the port. -/
def claimedAt (st : ExchangeState) (f : ExchangePort → ExchangePort) : State :=
  withPort 0 (fun x => f { x with state := st, slot := some 0 }) (withQueue 0 [0] (withItem 0
    { decided .claimed (bitonal .done [7] (some ⟨64, 1, 300⟩)) with holder := some 0, disposition := some .accepted } base))

/-- Unit 0 codes the front face of item 0. -/
def codingAt (f : CodingUnit → CodingUnit) : State :=
  (withQueue 0 [0] (withItem 0 (decided .settling (bitonal .coding [7] none)) base)).modUnit 0 fun x =>
    f { x with job := some ⟨0, .front, .bitonal⟩, length := 16 }

/-- The next state of a command, if there is one. -/
def after (c : Instr) (s : State) : Option State :=
  match exec c s with
  | .next t => some t
  | _ => none

/-! ## Well-formedness refuses -/

theorem test_row_empty_refused : (Instr.row 0 []).wellFormed = false := by decide
theorem test_row_long_refused : (Instr.row 0 (List.replicate 2049 0)).wellFormed = false := by decide +kernel
theorem test_row_longest_taken : (Instr.row 0 (List.replicate 2048 0)).wellFormed = true := by decide +kernel
theorem test_item_open_position_refused : (Instr.itemOpen 0 1 0 1).wellFormed = false := by decide
theorem test_item_open_faces_refused : (Instr.itemOpen 0 1 1 3).wellFormed = false := by decide
theorem test_face_kind_refused : (Instr.faceOpen 0 2 64).wellFormed = false := by decide
theorem test_claim_empty_refused : (Instr.claim 0 0).wellFormed = false := by decide
theorem test_claim_wide_refused : (Instr.claim 0 16).wellFormed = false := by decide
theorem test_known_code_refused : (Instr.unknownCommandCode 0x11).wellFormed = false := by decide
theorem test_own_row_refused : (Instr.registerWrite 0x1E 0).wellFormed = false := by decide
theorem test_upset_place_refused : (Instr.burstComplete [256]).wellFormed = false := by decide
theorem test_lost_offset_refused : (Instr.verifyEnd [(512, 0)]).wellFormed = false := by decide

/-! ## Frames written out byte by byte (Tables 10.3 to 10.5, R192) -/

theorem test_crc_of_check_string : crc16 [0x31, 0x32, 0x33, 0x34, 0x35, 0x36, 0x37, 0x38, 0x39] = 0x29B1 := by
  decide +kernel

theorem test_item_open_frame :
    messageFrame (.itemOpen 2 0x01020304 0x0506 2) = some
      ([0x01, 0x00, 0x07, 0x01, 0x02, 0x03, 0x04, 0x05, 0x06, 0x02] ++
        wordBytes (crc16 [0x01, 0x00, 0x07, 0x01, 0x02, 0x03, 0x04, 0x05, 0x06, 0x02])) := by decide +kernel

theorem test_claim_frame_judged :
    judgeExchangeFrame 1 ([0x11, 0x00, 0x01, 0x0F] ++ wordBytes (crc16 [0x11, 0x00, 0x01, 0x0F])) = .claim 1 0x0F := by
  decide +kernel

theorem test_broken_check_fails :
    judgeScanFrame 3 ([0x04, 0x00, 0x00] ++ wordBytes (crc16 [0x04, 0x00, 0x00] + 1)) = .scanFailedFrame 3 := by
  decide +kernel

theorem test_no_word_spells_a_command : decodeTableWord 16 1 = none := rfl

/-! ## Single steps -/

theorem test_profile_valid : recordValid profile = true := by decide +kernel
theorem test_erased_record_invalid : recordValid erasedBytes = false := by decide +kernel

theorem test_item_open_gives_slot :
    (after (.itemOpen 0 7 1 1) base).map (fun t => ((t.items.get 0).state, (t.lanes.get 0).queue,
      (t.scan.get 0).produced, t.stamp)) = some (.landing, [0], [.slotGiven 1 0], 1) := by decide +kernel

theorem test_item_open_starts_timer :
    (after (.itemOpen 0 7 1 1) base).map (fun t => ((t.scan.get 0).timer, t.store.pins.get 0)) =
      some (some ⟨2000, 2000⟩, 1) := by decide +kernel

theorem test_item_open_unbound_refused :
    (after (.itemOpen 1 7 1 1) base).map (fun t => (t.scan.get 1).produced) =
      some [.slotRefused 1 .noProfile] := by decide +kernel

theorem test_face_open_makes_face_and_rendition :
    (after (.faceOpen 0 0 64) inItem).map (fun t => ((t.scan.get 0).state, (t.items.get 0).faces.length,
      (t.items.get 0).renditions.map (·.kind))) = some (.face, 1, [.bitonal]) := by decide +kernel

theorem test_narrow_face_open_is_protocol_fault :
    (after (.faceOpen 0 0 63) inItem).map (fun t => ((t.scan.get 0).state, (t.items.get 0).findings.map (·.kind),
      (t.scan.get 0).produced)) = some (.idle, [.protocol], [.pocket 1 .reject (some .protocol) 5]) := by decide +kernel

theorem test_row_is_held :
    (after (.row 0 (List.replicate 64 9)) inFace).map (fun t => ((t.scan.get 0).held.map (·.position),
      t.arbiter.classA.get 0)) = some (some 1, true) := by decide +kernel

theorem test_short_row_is_lost :
    (after (.row 0 [9]) inFace).map (fun t => (t.items.get 0).faces.map (·.rowsLost)) = some [1] := by decide +kernel

theorem test_face_close_lands :
    (after (.faceClose 0) inFace).map (fun t => ((t.items.get 0).faces.map (·.state), (t.scan.get 0).state)) =
      some ([.landed], .item) := by decide +kernel

theorem test_item_close_missing_face :
    (after (.itemClose 0) inItem).map (fun t => ((t.items.get 0).findings.map (·.kind), (t.items.get 0).pocket)) =
      some ([.faceMissing], .reject) := by decide +kernel

theorem test_item_close_accepts :
    (after (.itemClose 0) (attachedAt .item none (landingItem [face .landed 1]))).map
      (fun t => ((t.items.get 0).pocket, (t.items.get 0).latency, (t.items.get 0).state)) =
      some (.accept, some 5, .ready) := by decide +kernel

theorem test_item_abandon_rejects :
    (after (.itemAbandon 0 3) inFace).map (fun t => (t.items.get 0).findings) =
      some [⟨.abandoned, .item, .reject, 3⟩] := by decide +kernel

theorem test_pocket_timer_is_late :
    (after (.pocketTimerExpiry 0) inItem).map (fun t => ((t.items.get 0).findings.map (·.value), (t.scan.get 0).state)) =
      some ([2000], .discard) := by decide +kernel

theorem test_claim_is_granted :
    (after (.claim 0 1) readyAt).map (fun t => ((t.items.get 0).state, (t.exchange.get 0).state,
      (t.exchange.get 0).position)) = some (.claimed, .sending, some ⟨0, 0⟩) := by decide +kernel

theorem test_delivered_frees :
    (after (.delivered 0) (claimedAt .await id)).map (fun t => ((t.items.get 0).state, (t.exchange.get 0).state,
      t.pages.freeCount, (t.lanes.get 0).queue)) = some (.free, .idle, 8193, []) := by decide +kernel

/-- A GRANT behind an answer has not begun: it is not sent after a RETURN in SENDING; one known to have begun is. -/
theorem test_return_cuts_stream :
    ((after (.returnItem 0) (claimedAt .sending fun x =>
        { x with produced := [.claimRefused .busy, .grant []] })).map fun t => (t.exchange.get 0).produced) =
      some [.claimRefused .busy] ∧
    ((after (.delivered 0) (claimedAt .sending fun x =>
        { x with produced := [.grant [], .claimRefused .busy], begun := true })).map fun t =>
      ((t.exchange.get 0).produced, (t.exchange.get 0).begun)) =
      some ([.grant [], .claimRefused .busy], true) := by
  constructor
  · rfl
  · rfl

theorem test_return_counts_a_retry :
    (after (.returnItem 0) (claimedAt .await id)).map (fun t => ((t.items.get 0).state, (t.items.get 0).retries)) =
      some (.ready, 1) := by decide +kernel

theorem test_erase_starts :
    (after .erase (withOperands 7 0 (withStore (fun st => { st with editEnable := true }) base))).map
      (fun t => (t.store.phase, (t.store.blocks.get 7).opened, t.sup.result)) = some (.erasing, true, .ok) := by
  decide +kernel

theorem test_bound_block_not_erased :
    (after .erase (withOperands 0 0 (withStore (fun st => { st with editEnable := true }) base))).map
      (fun t => (t.store, t.sup.result)) =
      some (withStore (fun st => { st with editEnable := true }) base |>.store, .inUse) := by decide +kernel

theorem test_power_on_orphans_burst :
    (after .powerOn { base with arbiter := { base.arbiter with burst := some ⟨.cu 0, true, 0, 1, [5], true⟩ } }).map
      (fun t => t.arbiter.burst) = some (some ⟨.cu 0, true, 0, 1, [5], false⟩) := by decide +kernel

theorem test_link_change_in_reset_reads_as_before :
    (after (.scanLinkLost 0) low).map (fun t => ((t.scan.get 0).link, t.readRegister 0x0B)) =
      some (false, low.readRegister 0x0B) := by decide +kernel

theorem test_unwritten_byte_faults :
    exec (.burstComplete []) { base with arbiter := { base.arbiter with
      burst := some ⟨.cu 0, false, 0, 1, [], true⟩ } } = .fault .unwrittenByte := by rfl

theorem test_step_on_empty_queue :
    (match step inItem with
      | .next t => (t.scan.get 0).timer
      | _ => none) = some ⟨2000, 1994⟩ := by decide +kernel

theorem test_table_word_changes_nothing : State.reset.withFetchWord 16 3 = State.reset := rfl

/-! ## States that meet the statements' hypotheses, clause by clause -/

/-- The pocket timer of port 0, the stall timer of port 0 and the store's phase with `r` ms left. -/
def ticking (r : Nat) (ph : StorePhase) : State :=
  withStore (fun st => { st with phase := ph, phaseLeft := r }) (withPort 0 (fun x => { x with stall := some r })
    (withScan 0 (fun p => { p with timer := some ⟨2000, r⟩ }) inItem))

/-- An operation of the store in a phase. -/
def storing (op : StoreOp) (ph : StorePhase) : State :=
  withStore (fun st => { st with phase := ph, operation := some (op, 7) }) base

/-- Edit enabled, with the staging area holding a record in a state. -/
def editing (st : StagingState) (bytes : List Byte) : State :=
  withStore (fun x => { x with editEnable := true, staging := ⟨bytes, st, 0⟩ }) base

theorem witness_StepTakesFrontCommand :
    ({ base with pending := [.cancel 0, .go 1] } : State).pending = .cancel 0 :: [.go 1] := rfl

theorem witness_IdleStepIsOneMillisecond_first :
    low.pending = [] ∧ low.pins.resetLow = true ∧ (ticking 2 .erasing).pending = [] ∧ Running (ticking 2 .erasing) ∧
    (∀ l t, ((ticking 2 .erasing).scan.get l).timer = some t → 2 ≤ t.remaining) ∧
    (∀ p n, ((ticking 2 .erasing).exchange.get p).stall = some n → 2 ≤ n) ∧
    (ticking 2 .erasing).store.phase ≠ .idle ∧ 2 ≤ (ticking 2 .erasing).store.phaseLeft ∧
    (base.scan.get 0).timer = none ∧ (base.exchange.get 0).stall = none ∧ base.store.phase = .idle := by
  refine ⟨rfl, rfl, rfl, rfl, fun l t h => ?_, fun p n h => ?_, by decide +kernel⟩
  · have k : ∀ l, ((ticking 2 .erasing).scan.get l).timer.all (fun t => decide (2 ≤ t.remaining)) = true := by
      decide +kernel
    have q := k l
    rw [h] at q
    simpa using q
  · have k : ∀ p, ((ticking 2 .erasing).exchange.get p).stall.all (fun n => decide (2 ≤ n)) = true := by
      decide +kernel
    have q := k p
    rw [h] at q
    simpa using q

theorem witness_IdleStepIsOneMillisecond_last (ph : StorePhase) :
    Running (ticking 1 ph) ∧ ((ticking 1 ph).scan.get 0).timer = some ⟨2000, 1⟩ ∧
    ((ticking 1 ph).exchange.get 0).stall = some 1 ∧ (ticking 1 ph).store.phaseLeft ≤ 1 ∧
    (ticking 1 ph).store.phase = ph := by
  cases ph <;> exact ⟨rfl, by decide +kernel, by decide +kernel, by decide +kernel, rfl⟩

/-- SoftResetResult, InterruptRegisters, ResetCauseFlags, and every clause that asks only for RESET_N high. -/
theorem witness_running : Running base := rfl

/-- PinResetAndRelease and ResetHoldsEverything. -/
theorem witness_ResetHoldsEverything :
    low.pins.resetLow = true ∧ takenInReset (.registerWrite 0 0) = false ∧ takenInReset .memoryGrant = false := by
  decide +kernel

theorem witness_RegisterAccess :
    let ended := withStore (fun st => { st with last := some ⟨.program, 7, true⟩ }) base
    Running base ∧ registerHasOwnRow 0x03 = false ∧ registerHasOwnRow 0x1F = false ∧ (0x1F : Fin 32) ≠ 0x01 ∧
    (0x1F : Fin 32) ≠ 0x02 ∧ low.pins.resetLow = true ∧ base.store.last = none ∧
    ended.store.last = some ⟨.program, 7, true⟩ ∧ base.jobs.length < 2048 ∧
    (0x15 : Fin 32).val = 0x12 + (3 : Lane).val ∧ (base.lanes.get 3).queue.length < 512 ∧
    (0x19 : Fin 32).val = 0x16 + (3 : Lane).val := ⟨rfl, by decide +kernel⟩

theorem witness_BadCodeOrOperandChangesNothing :
    Running (withOperands 8 0 base) ∧ ((0 : Word).toNat = 0 ∧ 17 < (18 : Word).toNat) ∧
    8 ≤ (withOperands 8 0 base).sup.operandA.toNat ∧ 4 ≤ (withOperands 4 0 base).sup.operandA.toNat ∧
    9 < (withOperands 0 10 base).sup.operandB.toNat ∧ (withOperands 0 0 base).sup.operandB.toNat = 0 ∧
    256 < (withOperands 0 257 base).sup.operandB.toNat ∧ 256 ≤ (withOperands 256 0 base).sup.operandA.toNat ∧
    2 ≤ (withOperands 2 0 base).sup.operandA.toNat ∧ 15 < (withOperands 0 16 base).sup.operandB.toNat ∧
    (withOperands 9 0 base).sup.operandA.toNat < 10 ∧ 60000 < (withOperands 60001 0 base).sup.operandA.toNat ∧
    2048 < (withOperands 2049 0 base).sup.operandA.toNat := ⟨rfl, by decide +kernel⟩

theorem witness_ItemWindow :
    Running base ∧ (255 : Word).toNat = (255 : Slot).val ∧ 256 ≤ (256 : Word).toNat := ⟨rfl, by decide +kernel⟩

theorem witness_RecordLayouts :
    let i := { decided .ready (bitonal .done [7] (some ⟨64, 1, 300⟩)) with
      findings := [⟨.abandoned, .item, .reject, 3⟩] }
    i.name.length = 8 ∧ i.faces[0]? = some (face .landed 1) ∧ i.faces[1]? = none ∧
    i.findings[0]? = some ⟨.abandoned, .item, .reject, 3⟩ ∧ i.findings[7]? = none ∧
    i.renditions[0]? = some (bitonal .done [7] (some ⟨64, 1, 300⟩)) ∧ i.renditions[3]? = none := by decide

theorem witness_StagingWindow :
    let used := withStore (fun st => { st with stagingPins := 1 }) base
    let read := storing .program .programming
    let ended := storing .program .idle
    Running used ∧ used.store.inUse .staging = true ∧
    Running read ∧ read.store.inUse .staging = false ∧ read.store.operation = some (.program, 7) ∧
    read.store.phase = .programming ∧ (storing .program .verifying).store.phase = .verifying ∧
    base.store.inUse .staging = false ∧ (∀ b, base.store.operation ≠ some (.program, b)) ∧
    ended.store.inUse .staging = false ∧ ended.store.phase ≠ .programming ∧ ended.store.phase ≠ .verifying :=
  ⟨rfl, by decide +kernel, rfl, by decide +kernel⟩

theorem witness_LoadAndValidate_load :
    let s := withOperands 7 0 base
    let t := withOperands 0 0 base
    let used := withStore (fun st => { st with stagingPins := 1 }) t
    let read := withOperands 0 0 (storing .program .programming)
    Running s ∧ s.sup.operandA.toNat = (7 : BlockNo).val ∧ (s.store.blocks.get 7).state ≠ .valid ∧
    t.sup.operandA.toNat = (0 : BlockNo).val ∧ (t.store.blocks.get 0).state = .valid ∧
    t.store.inUse .staging = false ∧ t.store.readingStaging = false ∧
    (used.store.blocks.get 0).state = .valid ∧ used.store.inUse .staging = true ∧
    (read.store.blocks.get 0).state = .valid ∧ read.store.inUse .staging = false ∧ read.store.readingStaging = true :=
  ⟨rfl, by decide +kernel⟩

theorem witness_LoadAndValidate_validate :
    Running base ∧ base.store.staging.state = .empty ∧
    (editing .editing profile).store.staging.state ≠ .empty ∧
    recordValid (editing .editing profile).store.staging.bytes = true ∧
    (editing .editing erasedBytes).store.staging.state ≠ .empty ∧
    recordValid (editing .editing erasedBytes).store.staging.bytes = false := ⟨rfl, by decide +kernel⟩

theorem witness_BindingsAndUsers :
    let s := withOperands 3 7 base
    Running s ∧ s.sup.operandA.toNat = (3 : Lane).val ∧ s.sup.operandB.toNat = (7 : BlockNo).val ∧
    (s.store.blocks.get 7).state ≠ .valid ∧ (s.store.blocks.get 0).state = .valid ∧
    (withOperands 3 8 base).sup.operandB.toNat = 8 ∧ base.store.staging.state ≠ .validated ∧
    (editing .validated profile).store.staging.state = .validated ∧ (withOperands 3 9 base).sup.operandB.toNat = 9 :=
  ⟨rfl, by decide +kernel⟩

theorem witness_EditEnableEraseProgram :
    let busy := withOperands 7 0 (storing .erase .erasing)
    let latched := withStore (fun st => { st with latch := true }) base
    let s := editing .editing profile
    let other := editing .validated (List.replicate 512 1)
    let used := withStore (fun st => { st with pins := put st.pins 7 1 }) s
    Running busy ∧ busy.sup.operandA.toNat = (7 : BlockNo).val ∧ busy.store.phase ≠ .idle ∧
    latched.store.phase = .idle ∧ latched.store.latch = true ∧ base.store.latch = false ∧
    base.store.editEnable = false ∧ s.store.editEnable = true ∧ s.store.inUse (.block 0) = true ∧
    s.store.inUse (.block 7) = false ∧ (s.store.blocks.get 0).state ≠ .empty ∧ (s.store.blocks.get 7).state = .empty ∧
    used.store.inUse (.block 7) = true ∧ (used.store.blocks.get 7).state = .empty ∧
    s.store.staging.state ≠ .validated ∧ (editing .validated profile).store.staging.state = .validated ∧
    ((editing .validated profile).store.blocks.get 0).bytes.take 10 = profile.take 10 ∧
    (∀ c, (other.store.blocks.get c).state = .valid →
      (other.store.blocks.get c).bytes.take 10 ≠ other.store.staging.bytes.take 10) := ⟨rfl, by decide +kernel⟩

theorem witness_WriteCompletes :
    Running (storing .erase .erasing) ∧ (storing .erase .erasing).store.phase = .erasing ∧
    (storing .erase .erasing).store.operation = some (.erase, 7) ∧
    (storing .program .programming).store.phase = .programming ∧
    (storing .program .programming).store.operation = some (.program, 7) ∧
    base.store.phase ≠ .erasing ∧ base.store.phase ≠ .programming := ⟨rfl, by decide +kernel⟩

theorem witness_VerifyEndResult :
    let s := storing .erase .verifying
    Running s ∧ s.store.phase = .verifying ∧ s.store.operation = some (.erase, 7) ∧
    ([] : List (Nat × Byte)).foldl (fun bytes x => bytes.set x.1 x.2) (s.store.blocks.get 7).bytes =
      List.replicate 512 0xFF#8 ∧
    [(511, 0#8)].foldl (fun bytes x => bytes.set x.1 x.2) (s.store.blocks.get 7).bytes ≠
      List.replicate 512 0xFF#8 := ⟨rfl, by decide +kernel⟩

theorem witness_StartUpScanResult :
    Running State.reset ∧ State.reset.store.phase = .starting ∧ Running base ∧ base.store.phase ≠ .starting := by
  exact ⟨rfl, rfl, rfl, by decide +kernel⟩

theorem witness_LaneAndSettingsCommands :
    let s := withOperands 3 256 base
    Running s ∧ s.sup.operandA.toNat = (3 : Lane).val ∧ (s.lanes.get 3).queue = [] ∧
    ((withQueue 3 [0] s).lanes.get 3).queue ≠ [] ∧ 1 ≤ s.sup.operandB.toNat ∧ s.sup.operandB.toNat ≤ 256 ∧
    (withOperands 1 15 base).sup.operandA.toNat = (1 : Port).val ∧
    (withOperands 1 15 base).sup.operandB.toNat = (15 : BitVec 4).toNat ∧
    10 ≤ (withOperands 10 0 base).sup.operandA.toNat ∧ (withOperands 60000 0 base).sup.operandA.toNat ≤ 60000 ∧
    (withOperands 2048 0 base).sup.operandA.toNat ≤ 2048 := ⟨rfl, by decide +kernel⟩

/-! ### Scan ports -/

def scanning (st : ScanState) (waiting : List ScanFrame) (held : Option HeldRow) : State :=
  withScan 0 (fun p => { p with state := st, waiting := waiting, held := held }) base

theorem witness_FramesWaitInOrder :
    Running (scanning .down [] none) ∧ scanFrameOf (.faceClose 0) = some (0, .faceClose) ∧
    ((scanning .down [] none).scan.get 0).state = .down ∧
    ((scanning .face [.faceClose] none).scan.get 0).state ≠ .down ∧
    ((scanning .face [.faceClose] none).scan.get 0).waiting = [.faceClose] ∧
    ((scanning .face [.faceClose] none).scan.get 0).held = none ∧
    (∀ pixels, ScanFrame.faceClose ≠ .row pixels) ∧
    ((scanning .face [] (some ⟨0, [9], 0⟩)).scan.get 0).held.isSome = true ∧
    ((scanning .face [.row [9]] (some ⟨0, [9], 0⟩)).scan.get 0).waiting = [.row [9]] ∧
    ((scanning .face [.faceClose] (some ⟨0, [9], 0⟩)).scan.get 0).waiting = [.faceClose] ∧
    scanFrameOf (.row 0 [9]) = some (0, .row [9]) ∧ ((scanning .face [] (some ⟨0, [9], 0⟩)).scan.get 0).waiting = [] ∧
    ((scanning .face [] (some ⟨0, [9], 0⟩)).scan.get 0).gathering = [] ∧
    ((scanning .face [] none).scan.get 0).waiting = [] ∧ ((scanning .face [] none).scan.get 0).held = none :=
  ⟨rfl, rfl, by decide +kernel, by decide +kernel, by decide +kernel, by decide +kernel, (fun _ h => by cases h),
    by decide +kernel⟩

/-- A frame taken with another behind it: the item abandoned, the frame behind still there. -/
theorem test_taken_frame_leaves_what_waits :
    let s := inItem.modScan 0 fun p => { p with waiting := [.faceClose] }
    let t := s.takeFrame 0 (.itemAbandon 3)
    (t.scan.get 0).waiting = [.faceClose] ∧ (t.scan.get 0).state = .idle ∧
      t.items.get 0 = (inItem.takeFrame 0 (.itemAbandon 3)).items.get 0 := by
  decide +kernel

theorem witness_FramesPassedOver :
    Running base ∧ PortClear base 0 ∧ scanFrameOf (.row 0 [9]) = some (0, .row [9]) ∧
    scanFrameOf (.itemAbandon 0 3) = some (0, .itemAbandon 3) ∧
    (∀ b p f, ScanFrame.row [9] ≠ .itemOpen b p f) ∧ (base.scan.get 0).state = .idle ∧
    PortClear (scanning .discard [] none) 0 ∧ ((scanning .discard [] none).scan.get 0).state = .discard ∧
    ScanFrame.row [9] ≠ .itemClose ∧ (∀ reason, ScanFrame.row [9] ≠ .itemAbandon reason) := by
  refine ⟨rfl, ?_, rfl, rfl, (fun _ _ _ h => by cases h), rfl, ?_, by decide +kernel, by decide, (fun _ h => by cases h)⟩
  all_goals
    simp only [PortClear]
    decide +kernel

/-- 1 and 2 faces, IDLE and DISCARD, with the quota one above the queue's length. -/
theorem witness_ItemOpenAdmitted :
    let s := (scanning .discard [] none).modLane 0 fun r => { r with quota := 1 }
    Running s ∧ PortClear s 0 ∧ (s.scan.get 0).state = .discard ∧ (base.scan.get 0).state = .idle ∧
    (1 : Word) ≠ 0 ∧ ((2 : Byte) = 1 ∨ (2 : Byte) = 2) ∧ (s.lanes.get 0).closed = false ∧
    s.store.bindings.get 0 = some (.block 0) ∧ s.store.usable (.block 0) = true ∧
    (s.lanes.get 0).queue.length < (s.lanes.get 0).quota ∧ LowestFree s 0 ∧ LowestFree inItem 1 := by
  simp only [PortClear, LowestFree]
  exact ⟨rfl, by decide +kernel⟩

theorem witness_ItemOpenRefused :
    let closed := base.modLane 0 fun r => { r with closed := true }
    let full := (withQueue 0 [0] base).modLane 0 fun r => { r with quota := 1 }
    let taken : State := { base with items := Vector.replicate 256 { Item.empty with state := .settling } }
    Running closed ∧ PortClear closed 0 ∧ (closed.scan.get 0).state = .idle ∧ (closed.lanes.get 0).closed = true ∧
    (base.lanes.get 1).closed = false ∧ base.store.bindings.get 1 = none ∧
    (full.lanes.get 0).closed = false ∧ full.store.bindings.get 0 = some (.block 0) ∧
    full.store.usable (.block 0) = true ∧ (full.lanes.get 0).quota ≤ (full.lanes.get 0).queue.length ∧
    (taken.lanes.get 0).queue.length < (taken.lanes.get 0).quota ∧ (∀ k, (taken.items.get k).state ≠ .free) := by
  simp only [PortClear]
  exact ⟨rfl, by decide +kernel⟩

theorem witness_FramesThatReject :
    Running inItem ∧ PortClear inItem 0 ∧ Attached inItem 0 0 ∧ (inItem.scan.get 0).state = .item ∧
    Running inFace ∧ PortClear inFace 0 ∧ Attached inFace 0 0 ∧ (inFace.scan.get 0).state = .face ∧
    (inFace.scan.get 0).current.isSome = true ∧ scanFrameOf (.faceClose 0) = some (0, .faceClose) ∧
    scanFrameOf (.itemClose 0) = some (0, .itemClose) ∧ (1 : Word) ≠ 0 ∧ ((2 : Byte) = 1 ∨ (2 : Byte) = 2) := by
  simp only [Running, PortClear, Attached]
  exact ⟨rfl, by decide +kernel⟩

theorem witness_FaceOpenResult :
    let full := attachedAt .item none (landingItem [face .landed 1])
    Running inItem ∧ PortClear inItem 0 ∧ Attached inItem 0 0 ∧ (inItem.scan.get 0).state = .item ∧
    (0 : Byte) = FaceKind.front.code ∧ (1 : Byte) = FaceKind.rear.code ∧
    64 ≤ (64 : Word).toNat ∧ (2048 : Word).toNat ≤ 2048 ∧ (∀ f ∈ (inItem.items.get 0).faces, f.kind ≠ .front) ∧
    (inItem.items.get 0).faces.length < (inItem.items.get 0).facesExpected.toNat ∧
    ¬ 64 ≤ (63 : Word).toNat ∧ ¬ (2049 : Word).toNat ≤ 2048 ∧
    PortClear full 0 ∧ Attached full 0 0 ∧ ¬ (∀ f ∈ (full.items.get 0).faces, f.kind ≠ .front) ∧
    (∀ f ∈ (full.items.get 0).faces, f.kind ≠ .rear) ∧
    ¬ (full.items.get 0).faces.length < (full.items.get 0).facesExpected.toNat := by
  simp only [PortClear, Attached]
  exact ⟨rfl, by decide +kernel⟩

theorem witness_RowResult :
    let at' (rows : Nat) := attachedAt .face (some .front) (landingItem [face .landing rows])
    let writing := withScan 0 (fun p => { p with held := some ⟨1, [9], 0⟩ }) (at' 1)
    let starved : State := { at' 16 with strips := [] }
    Running (at' 1) ∧ ((at' 1).scan.get 0).gathering = [] ∧ ((at' 1).scan.get 0).waiting = [] ∧
    ((at' 1).scan.get 0).state = .face ∧ ((at' 1).scan.get 0).attached = some 0 ∧
    ((at' 1).scan.get 0).current = some .front ∧ ((at' 1).items.get 0).face? .front = some (face .landing 1) ∧
    ((at' 1).scan.get 0).held = none ∧ (List.replicate 63 (9 : Byte)).length ≠ (face .landing 1).width ∧
    (List.replicate 64 (9 : Byte)).length = (face .landing 1).width ∧ (writing.scan.get 0).held = some ⟨1, [9], 0⟩ ∧
    (writing.items.get 0).face? .front = some (face .landing 1) ∧ 1024 ≤ (face .landing 1024).rowsLanded ∧
    (face .landing 1023).rowsLanded < 1024 ∧ (face .landing 1023).rowsLanded % 16 ≠ 0 ∧
    (face .landing 16).rowsLanded % 16 = 0 ∧ starved.strips = [] ∧ (at' 16).strips = 0 :: (at' 16).strips.tail := by
  exact ⟨rfl, by decide +kernel⟩

/-- A face with a row landed leaves its pocket PENDING, one with none is SHORT and rejected. -/
theorem witness_FaceCloseResult :
    let s := attachedAt .face (some .front) (landingItem [face .landing 0])
    let judged (s : State) (f : Face) : Item :=
      (evaluate (s.itemRecord 0) f ⟨128, 0, List.replicate 64 0⟩).foldl (findingJudged 5) (s.items.get 0)
    Running s ∧ PortClear s 0 ∧ Attached s 0 0 ∧ (s.scan.get 0).state = .face ∧ (s.scan.get 0).current = some .front ∧
    (s.items.get 0).face? .front = some (face .landing 0) ∧
    (face .landing 0).accum = some ⟨128, 0, List.replicate 64 0⟩ ∧ (judged s (face .landing 0)).pocket ≠ .pending ∧
    (judged inFace (face .landing 1)).pocket = .pending := by
  simp only [PortClear, Attached]
  exact ⟨rfl, by decide +kernel⟩

theorem witness_ItemCloseResult :
    let full := attachedAt .item none (landingItem [face .landed 1])
    Running full ∧ PortClear full 0 ∧ Attached full 0 0 ∧ (full.scan.get 0).state = .item ∧
    (full.items.get 0).facesExpected.toNat ≤ ((full.items.get 0).faces.filter fun f => f.state = .landed).length ∧
    ((inItem.items.get 0).faces.filter fun f => f.state = .landed).length < (inItem.items.get 0).facesExpected.toNat := by
  simp only [PortClear, Attached]
  exact ⟨rfl, by decide +kernel⟩

theorem witness_OutOfRangeContentsFail :
    ((3 : Byte) ≠ 1 ∧ (3 : Byte) ≠ 2) ∧ ((0 : Byte) ≠ 1 ∧ (0 : Byte) ≠ 2) ∧ ((2 : Byte) ≠ 0 ∧ (2 : Byte) ≠ 1) ∧
    2048 < (List.replicate 2049 (0 : Byte)).length ∧ 15 < (16 : Byte).toNat := by decide +kernel

theorem witness_PocketTimerExpiry :
    Running inItem ∧ Attached inItem 0 0 ∧ (inItem.scan.get 0).timer = some ⟨2000, 1995⟩ ∧
    (base.scan.get 0).timer = none := by
  simp only [Attached]
  exact ⟨rfl, by decide +kernel⟩

theorem witness_ScanLinkChanges :
    Running (scanning .down [] none) ∧ ((scanning .down [] none).scan.get 0).state = .down ∧
    (base.scan.get 0).state ≠ .down ∧ (base.scan.get 0).attached = none ∧ (inFace.scan.get 0).state ≠ .down ∧
    Attached inFace 0 0 := by
  simp only [Attached]
  exact ⟨rfl, by decide +kernel⟩

theorem witness_LaneResetResult :
    let s := withOperands 3 0 base
    let t := withOperands 0 0 inFace
    Running s ∧ s.sup.operandA.toNat = (3 : Lane).val ∧ (s.scan.get 3).attached = none ∧ Running t ∧
    t.sup.operandA.toNat = (0 : Lane).val ∧ Attached t 0 0 := by
  simp only [Running, Attached]
  exact ⟨rfl, by decide +kernel⟩

theorem witness_PurgeResult :
    let s := withOperands 255 0 base
    let t := withOperands 0 0 readyAt
    let settling := withItem 0 (decided .settling (bitonal .queued [] none)) base
    Running s ∧ s.sup.operandA.toNat = (255 : Slot).val ∧ (s.items.get 255).state = .free ∧
    ((claimedAt .await id).items.get 0).state = .claimed ∧ t.sup.operandA.toNat = (0 : Slot).val ∧
    (t.items.get 0).state = .ready ∧ (t.items.get 0).pocket ≠ .pending ∧ (t.items.get 0).purged = false ∧
    ((withItem 0 { t.items.get 0 with purged := true } t).items.get 0).purged = true ∧ Attached inFace 0 0 ∧
    (inFace.items.get 0).purged = false ∧ (settling.items.get 0).state = .settling ∧
    (settling.items.get 0).pocket ≠ .pending ∧ (settling.items.get 0).purged = false := by
  simp only [Attached]
  exact ⟨rfl, by decide +kernel⟩

/-! ### Behind reception -/

def frontJob : Job := ⟨0, .front, .bitonal⟩

theorem witness_SettlingStages :
    let settling (r : Rendition) := withItem 0 (decided .settling r) base
    let done := settling (bitonal .done [7] (some ⟨64, 1, 300⟩))
    let rejectedItem : Item := { decided .settling (bitonal .cancelled [] none) with pocket := .reject }
    let purgedItem : Item := { decided .settling (bitonal .cancelled [] none) with purged := true }
    ((inItem.items.get 0).state ≠ .settling) ∧
    ((done.items.get 0).state = .settling ∧ (done.items.get 0).pocket ≠ .pending ∧
      ∀ r ∈ (done.items.get 0).renditions, r.state = .done) ∧
    (rejectedItem.pocket = .reject ∧ purgedItem.purged = true ∧ ∀ r ∈ rejectedItem.renditions, r.state = .cancelled) ∧
    (∃ r ∈ (decided .settling (bitonal .oversize [] none)).renditions, r.state = .oversize) ∧
    ((inFace.items.get 0).face? .front = some (face .landing 1)) ∧
    (((settling (bitonal .queued [] none)).items.get 0).face? .front = some (face .landed 1) ∧
      ∃ r ∈ ((settling (bitonal .queued [] none)).items.get 0).renditions, r.face = .front ∧ r.state = .queued) ∧
    ((done.items.get 0).face? .front = some (face .landed 1) ∧ ∀ r ∈ (done.items.get 0).renditions, r.state ≠ .queued) ∧
    ((settling (bitonal .waiting [] none)).items.get 0).rendition? .front .bitonal = some (bitonal .waiting [] none) ∧
    (codingAt id).unitOf frontJob = some 0 ∧
    ((codingAt id).items.get 0).rendition? .front .bitonal = some (bitonal .coding [7] none) := by
  decide +kernel

/-- Two READY heads, the later claim covering the older one. -/
def twoHeads : State :=
  { withQueue 1 [1] (withItem 1 { decided .ready (bitonal .cancelled [] none) with lane := 1, stamp := 1 } readyAt) with
    claims := [⟨1, 4⟩, ⟨0, 3⟩] }

theorem witness_GrantRule :
    (∀ k, ¬ ∃ l, (readyAt.lanes.get l).queue.head? = some k ∧ (readyAt.items.get k).state = .ready ∧
      ∃ c ∈ readyAt.claims, c.mask.getLsbD l.val = true) ∧
    (twoHeads.lanes.get (twoHeads.items.get 0).lane).queue.head? = some 0 ∧ (twoHeads.items.get 0).state = .ready ∧
    (∀ j, (∃ l, (twoHeads.lanes.get l).queue.head? = some j ∧ (twoHeads.items.get j).state = .ready ∧
        ∃ c ∈ twoHeads.claims, c.mask.getLsbD l.val = true) → j ≠ 0 →
      1 ≤ ((twoHeads.items.get j).stamp - (twoHeads.items.get 0).stamp).toNat ∧
      ((twoHeads.items.get j).stamp - (twoHeads.items.get 0).stamp).toNat < 2 ^ 31) ∧
    twoHeads.claims = [⟨1, 4⟩] ++ ⟨0, 3⟩ :: [] ∧ twoHeads.claims.Pairwise (fun a b => a.port ≠ b.port) ∧
    (3 : BitVec 4).getLsbD 0 = true ∧ (∀ d ∈ [(⟨1, 4⟩ : Claim)], d.mask.getLsbD 0 = false) := by
  decide +kernel

/-- READY heads of lanes 1, 2 and 3 with these stamps, in slots 1, 2 and 3, and a claim for the three lanes. -/
def stamped (a b c : Long) : State :=
  let head (l : Lane) (k : Slot) (stamp : Long) (s : State) : State :=
    withQueue l [k] (withItem k { decided .ready (bitonal .cancelled [] none) with lane := l, stamp := stamp } s)
  { head 1 1 a (head 2 2 b (head 3 3 c base)) with claims := [⟨0, 0xE⟩] }

/-- No stamp is older than the two others, and lane 1 is the lowest covered. -/
theorem witness_GrantRule_none_oldest :
    let s := stamped 0x00000000 0x60000000 0xC0000000
    let coveredHead (l : Lane) (k : Slot) : Prop := (s.lanes.get l).queue.head? = some k ∧
      (s.items.get k).state = .ready ∧ ∃ c ∈ s.claims, c.mask.getLsbD l.val = true
    coveredHead 1 1 ∧ coveredHead 2 2 ∧ coveredHead 3 3 ∧ (s.items.get 1).lane = 1 ∧ s.coveredHeads = [1, 2, 3] ∧
      older (s.items.get 3).stamp (s.items.get 1).stamp = true ∧ older (s.items.get 1).stamp (s.items.get 2).stamp = true ∧
      older (s.items.get 2).stamp (s.items.get 3).stamp = true ∧ (s.lanes.get 0).queue.head? = none ∧
      s.chooseHead = some 1 := by
  decide +kernel

/-- Stamps at the ends of R2's ranges: 2^31 - 1, exactly 2^31 either way round, and 2^31 + 1 apart. -/
theorem test_older_bounds :
    older 5 0x80000004 = true ∧ older 5 0x80000005 = true ∧ older 0x80000005 5 = false ∧ older 5 0x80000006 = false ∧
      (stamped 0x80000005 5 6).chooseHead = some 2 := by
  decide +kernel

/-- The job of item 0 queued, with so many pages free. -/
def queued (free : Nat) : State :=
  { withQueue 0 [0] (withItem 0 (decided .settling (bitonal .queued [] none)) base) with
    jobs := [frontJob], pages := { base.pages with free := [3], freeCount := free } }

theorem witness_DispatchRule :
    let full : State := { base with units := Vector.replicate 2 { CodingUnit.idle with job := some frontJob } }
    (∀ u, (full.units.get u).job ≠ none) ∧ base.jobs = [] ∧
    ((queued 0).jobs = [frontJob] ∧
      ¬ (queued 0).pages.headReserve + ((queued 0).jobBudget frontJob + 3) / 4 ≤ (queued 0).pages.freeCount ∧
      (queued 0).pages.freeCount < ((queued 0).jobBudget frontJob + 3) / 4) ∧
    ((queued 257).jobs.Nodup ∧
      (queued 257).pages.headReserve + ((queued 257).jobBudget frontJob + 3) / 4 ≤ (queued 257).pages.freeCount ∧
      ((queued 257).units.get 0).job = none ∧ (queued 257).pages.free = 3 :: [] ∧
      0 < (queued 257).jobRows frontJob) ∧
    (¬ (queued 1).pages.headReserve + ((queued 1).jobBudget frontJob + 3) / 4 ≤ (queued 1).pages.freeCount ∧
      ((queued 1).lanes.get ((queued 1).items.get 0).lane).queue.head? = some 0 ∧
      ((queued 1).jobBudget frontJob + 3) / 4 ≤ (queued 1).pages.freeCount) := by
  decide +kernel

/-- Unit 0 at a length and rung with one byte to place. -/
def placing (n rung : Nat) : State :=
  { (codingAt id).modUnit 0 fun x => { x with length := n, unplaced := [1], rung := rung } with
    pages := { base.pages with free := [3] } }

theorem witness_CodedBytesPlaced :
    (placing 1024 0).jobBudget frontJob * 1024 < ((placing 1024 0).units.get 0).length + 1 ∧
    (((placing 1023 0).units.get 0).length + 1 ≤ (placing 1023 0).jobBudget frontJob * 1024 ∧
      ((placing 1023 0).units.get 0).length % 4096 ≠ 0) ∧
    (((placing 0 0).units.get 0).length % 4096 = 0 ∧ (placing 0 0).pages.free = 3 :: []) ∧
    (0 + 1 < profileRungs ((placing 1024 0).jobRecord frontJob) .bitonal ∧
      profileRungs ((placing 1024 1).jobRecord frontJob) .bitonal ≤ 1 + 1) ∧
    ((placing 1024 0).items.get 0).rendition? .front .bitonal = some (bitonal .coding [7] none) ∧
    [7].reverse ++ (placing 1024 0).pages.free = 7 :: [3] := by
  decide +kernel

/-- Unit 0 with nothing to place, an output burst of `out` bytes and `rows` rows read. -/
def asking (out rows : Nat) : State :=
  (codingAt id).modUnit 0 fun x => { x with outputBurst := List.replicate out 1, readRow := rows }

/-- A full output burst, a row that remains, a short output burst, and an empty one. -/
theorem witness_CodedBytesPlaced_fitted :
    (∀ out rows, ((asking out rows).units.get 0).unplaced = [] ∧ State.placeBytes 0 frontJob [] (asking out rows) =
      .fitted ((asking out rows).modUnit 0 fun x => { x with unplaced := [] })) ∧
    ((asking 256 1).units.get 0).outputBurst.length = 256 ∧
    (((asking 0 0).units.get 0).outputBurst.length ≠ 256 ∧
      ((asking 0 0).units.get 0).readRow < (asking 0 0).jobRows frontJob) ∧
    ((asking 255 1).jobRows frontJob ≤ ((asking 255 1).units.get 0).readRow ∧
      ((asking 255 1).units.get 0).outputBurst ≠ [] ∧ ((asking 255 1).units.get 0).outputBurst.length ≠ 256) ∧
    ((asking 0 1).jobRows frontJob ≤ ((asking 0 1).units.get 0).readRow ∧
      ((asking 0 1).units.get 0).outputBurst = []) :=
  ⟨fun _ _ => ⟨by simp only [asking, State.modUnit, Laws.get_put_same, codingAt]; rfl, rfl⟩, by decide +kernel⟩

/-- The last code of one length code and the first of two; a block of a gray row, inside a rung and at its last row. -/
theorem witness_CodedRowsSpellTheRow :
    let c : Coder := { Coder.cleared with sums := [(0, 0)] }
    [true, true][1]? = some true ∧ (∀ q ∈ [255, 0], q < 256) ∧ 63 < 64 ∧ 64 ≤ 64 ∧ c.sums[0]? = some (0, 0) ∧
    (c.rowsIn + 1 = 1 ∧ c.rowsIn + 1 ≠ 2) := by decide

def Placed.exceeded : Placed → Bool
  | .overBudget _ => true
  | .fitted _ => false

theorem overBudget_of_exceeded {x : Placed} (h : Placed.exceeded x = true) : ∃ t, x = .overBudget t := by
  cases x with
  | overBudget t => exact ⟨t, rfl⟩
  | fitted t => cases h

theorem witness_CodedBytesPlaced_overBudget :
    ∀ rung, rung < 2 → ∃ t, State.placeBytes 0 frontJob ((placing 1024 rung).units.get 0).unplaced (placing 1024 rung) =
      .overBudget t := by
  have exceeds : ∀ rung, rung < 2 → Placed.exceeded (State.placeBytes 0 frontJob
      ((placing 1024 rung).units.get 0).unplaced (placing 1024 rung)) = true := by decide +kernel
  exact fun rung h => overBudget_of_exceeded (exceeds rung h)

/-! ### Buffer memory -/

/-- A burst under way at address `a`. -/
def bursting (write live : Bool) (a count : Nat) (data : List Byte) (m : Memory) : State :=
  { base with mem := m, arbiter := { base.arbiter with burst := some ⟨.cu 0, write, a, count, data, live⟩ } }

theorem witness_MemoryGrantResult :
    let classA := base.modArbiter (·.mark (.w 3) true)
    let classB := base.modArbiter (·.mark (.xr 1) true)
    let writing := withScan 0 (fun p => { p with held := some ⟨1, [9], 0⟩ }) inFace
    let phase (ph : UnitPhase) := (codingAt id).modUnit 0 fun x => { x with phase := ph, outputBurst := [1] }
    let sending := claimedAt .sending fun x => { x with position := some ⟨0, 0⟩ }
    Running base ∧ (bursting false true 0 1 [] Memory.empty).arbiter.burst ≠ none ∧
    (∀ l u p, base.arbiter.waits (.w l) = false ∧ base.arbiter.waits (.cu u) = false ∧
      base.arbiter.waits (.xr p) = false) ∧
    classA.arbiter.burst = none ∧ classA.arbiter.classA.get (classA.arbiter.lastA + 1 + 3) = true ∧
    (∀ e : Fin 4, e < 3 → classA.arbiter.classA.get (classA.arbiter.lastA + 1 + e) = false) ∧
    (∀ l, classB.arbiter.classA.get l = false) ∧ classB.arbiter.classB.get (classB.arbiter.lastB + 1 + 3) = true ∧
    (∀ e : Fin 4, e < 3 → classB.arbiter.classB.get (classB.arbiter.lastB + 1 + e) = false) ∧
    (writing.scan.get 0).attached = some 0 ∧ (writing.scan.get 0).current = some .front ∧
    (writing.scan.get 0).held = some ⟨1, [9], 0⟩ ∧ (writing.items.get 0).face? .front = some (face .landing 1) ∧
    (face .landing 1).strips[1 / 16]? = some 9 ∧
    ((phase .read).units.get 0).job = some frontJob ∧ ((phase .read).items.get 0).face? .front = some (face .landed 1) ∧
    ((phase .read).items.get 0).rendition? .front .bitonal = some (bitonal .coding [7] none) ∧
    ((phase .read).units.get 0).phase = .read ∧ (face .landed 1).strips[0 / 16]? = some 9 ∧
    ((phase .write).units.get 0).phase = .write ∧ ((phase .flush).units.get 0).phase = .flush ∧
    ((phase .header).units.get 0).phase = .header ∧ (bitonal .coding [7] none).chain[(16 - 1) / 4096]? = some 7 ∧
    (sending.exchange.get 0).slot = some 0 ∧ (sending.exchange.get 0).position = some ⟨0, 0⟩ ∧
    (sending.items.get 0).renditions[0]? = some (bitonal .done [7] (some ⟨64, 1, 300⟩)) := by
  simp only [Running]
  repeat' apply And.intro
  all_goals decide +kernel

/-- The last byte of the memory, and one past it; a byte written, one not written, one found against its parity. -/
theorem witness_BurstCompleteResult :
    base.arbiter.burst = none ∧ 100663296 < 100663296 + 1 ∧ 100663295 + 1 ≤ 100663296 ∧
    (bursting true true 100663295 1 [5] Memory.empty).arbiter.burst = some ⟨.cu 0, true, 100663295, 1, [5], true⟩ ∧
    (bursting false true 0 1 [] ⟨[(0, 5)], []⟩).mem.read (0 + 0) = [(5 : Byte)][0]? ∧
    (bursting false true 0 1 [] Memory.empty).mem.read (0 + 0) = none ∧
    (bursting false true 0 1 [] ⟨[(0, 5)], [0]⟩).mem.upset = [0] := by
  decide +kernel

theorem test_parity_fault_sets_memfault :
    (after (.burstComplete [0]) { codingAt id with
      mem := ⟨[(0, 5)], []⟩, arbiter := { base.arbiter with burst := some ⟨.cu 0, false, 0, 1, [], true⟩ } }).map
      (fun t => (t.sup.causes, (t.items.get 0).renditions.map (·.state), t.mem.upset)) =
      some (64, [.fault], [0]) := by decide +kernel

theorem witness_BurstResultsUsed :
    let writing (n : Nat) := withScan 0 (fun p => { p with held := some ⟨1, List.replicate n 9, 0⟩ }) inFace
    let phase (ph : UnitPhase) := (codingAt id).modUnit 0 fun x => { x with phase := ph, outputBurst := [1] }
    ((writing 257).scan.get 0).attached = some 0 ∧ ((writing 257).scan.get 0).current = some .front ∧
    ((writing 257).scan.get 0).held = some ⟨1, List.replicate 257 9, 0⟩ ∧
    ((writing 257).items.get 0).face? .front = some (face .landing 1) ∧
    (0 + 1) * 256 < (List.replicate 257 (9 : Byte)).length ∧ (List.replicate 256 (9 : Byte)).length ≤ (0 + 1) * 256 ∧
    ((phase .read).units.get 0).job = some frontJob ∧
    (((phase .read).units.get 0).rowSoFar ++ List.replicate 63 9).length < (phase .read).jobWidth frontJob ∧
    (phase .read).jobWidth frontJob ≤ (((phase .read).units.get 0).rowSoFar ++ List.replicate 64 9).length ∧
    ((phase .write).units.get 0).phase ≠ .header ∧ ((phase .header).units.get 0).phase = .header := by
  decide +kernel

/-! ### Exchange ports -/

theorem witness_ClaimMessages :
    let at' (st : ExchangeState) := withPort 0 (fun x => { x with state := st }) base
    let closed := withPort 0 (fun x => { x with mask := 0 }) base
    Running base ∧ 1 ≤ (1 : Byte).toNat ∧ (15 : Byte).toNat ≤ 15 ∧ ((at' .down).exchange.get 0).state = .down ∧
    ((at' .sending).exchange.get 0).state = .sending ∧ (base.exchange.get 0).state = .idle ∧
    (15 : Byte).extractLsb' 0 4 &&& (closed.exchange.get 0).mask = 0 ∧
    (1 : Byte).extractLsb' 0 4 &&& (base.exchange.get 0).mask ≠ 0 ∧ ((at' .waiting).exchange.get 0).state = .waiting ∧
    ((at' .held).exchange.get 0).state = .held := ⟨rfl, by decide +kernel⟩

theorem witness_StreamGoesOn :
    let i := claimedAt .sending id |>.items.get 0
    let two : Item := { i with renditions := [bitonal .done [7, 8] (some ⟨64, 1, 4097⟩)] }
    let at' (m : List ExchangeMsg) (hold : Bool) (pos : Option StreamPos) := claimedAt .sending fun x =>
      { x with produced := m, holdPending := hold, position := pos }
    let last := at' [.cancelled, .segment 0 0 [1]] false none
    let more := at' [.segment 0 0 [1]] false (some ⟨0, 0⟩)
    i.disposition ≠ some .rejected ∧ ({ i with disposition := some .rejected } : Item).disposition = some .rejected ∧
    i.doneAt 0 = true ∧ (∀ m, 0 ≤ m → m < 0 → i.doneAt m = false) ∧
    (0 + 1) * 4096 < two.lengthAt 0 ∧ two.lengthAt 0 ≤ (1 + 1) * 4096 ∧
    (∀ m ∈ ((claimedAt .sending id).exchange.get 0).produced, m.inStream = false) ∧
    Running last ∧ (last.exchange.get 0).produced = [.cancelled] ++ .segment 0 0 [1] :: [] ∧
    ExchangeMsg.inStream .cancelled = false ∧ ExchangeMsg.inStream (.segment 0 0 [1]) = true ∧
    (last.exchange.get 0).state = .sending ∧ (last.exchange.get 0).position = none ∧
    ((at' [.segment 0 0 [1]] true none).exchange.get 0).holdPending = true ∧
    (more.exchange.get 0).position.isSome = true ∧ (more.exchange.get 0).holdPending = false ∧
    (more.exchange.get 0).slot = some 0 ∧ min 4096 ((more.items.get 0).lengthAt 0 - 0 * 4096) = 300 ∧
    ((more.exchange.get 0).store ++ List.replicate 299 0).length < 300 ∧
    300 ≤ ((more.exchange.get 0).store ++ List.replicate 300 0).length := by
  simp only [Running]
  repeat' apply And.intro
  all_goals decide +kernel

theorem witness_ClaimEnds :
    let at' (st : ExchangeState) := withPort 0 (fun x => { x with state := st }) base
    let stalled := claimedAt .held fun x => { x with stall := some 5 }
    let closed := (claimedAt .await id).modLane 0 fun r => { r with closed := true }
    let next := withQueue 0 [0, 1] (withItem 1 (decided .ready (bitonal .cancelled [] none)) (claimedAt .await id))
    Running (claimedAt .await id) ∧ ((at' .down).exchange.get 0).state = .down ∧
    ((at' .waiting).exchange.get 0).state = .waiting ∧ (base.exchange.get 0).state = .idle ∧
    ((claimedAt .await id).exchange.get 0).stall = none ∧ (stalled.exchange.get 0).stall.isSome = true ∧
    (stalled.exchange.get 0).slot = some 0 ∧ (stalled.exchange.get 0).state = .held ∧
    (closed.lanes.get 0).closed = true ∧ (closed.lanes.get 0).queue.filter (· ≠ 0) = [] ∧
    (next.lanes.get 0).queue.filter (· ≠ 0) = [1] ∧ (next.items.get 1).state = .ready := ⟨rfl, by decide +kernel⟩

theorem witness_ExchangeLinkChanges :
    let down := withPort 0 (fun x => { x with state := .down }) base
    let s := withOperands 1 0 base
    Running down ∧ (down.exchange.get 0).state = .down ∧ (base.exchange.get 0).state ≠ .down ∧
    (base.exchange.get 0).slot = none ∧ ((claimedAt .await id).exchange.get 0).slot = some 0 ∧
    s.sup.operandA.toNat = (1 : Port).val := ⟨rfl, by decide +kernel⟩

/-! ### Invariants and frames -/

/-- `base` with a command that a step takes. -/
def commanded : State := { base with pending := [.cancel 0] }

theorem witness_MemoryCanonicalKept : commanded.mem.wf = true ∧ ∃ t, step commanded = .next t :=
  ⟨by decide +kernel, _, rfl⟩

theorem witness_SettingsInRangeKept : InRange commanded ∧ ∃ t, step commanded = .next t := by
  refine ⟨⟨?_, ?_, ?_, ?_, ?_, ?_, ?_⟩, _, rfl⟩
  all_goals decide +kernel

theorem witness_SourcesGuardedKept :
    SourcesGuarded commanded ∧ commanded.store.inUse (.block 0) = true ∧ ∃ t, step commanded = .next t := by
  refine ⟨⟨fun src h => ?_, fun op b h => ?_, fun h => ?_, fun h => ?_⟩, by decide +kernel, _, rfl⟩
  · cases src with
    | block b =>
      have k : ∀ b, commanded.store.inUse (.block b) = true → commanded.store.usable (.block b) = true := by
        decide +kernel
      exact k b h
    | staging => exact absurd h (by decide +kernel)
  · exact absurd h (by rw [show commanded.store.operation = none from rfl]; simp)
  · exact absurd h (by decide +kernel)
  · exact absurd h (by decide +kernel)

theorem witness_PortsAgreeKept : PortsAgree commanded ∧ ∃ t, step commanded = .next t := by
  refine ⟨⟨?_, ?_, ?_, ?_, ?_, ?_, ?_, ?_, ?_, ?_, ?_, ?_, ?_, fun _ => ?_, ?_, ?_, fun _ => ?_⟩, _, rfl⟩
  all_goals decide +kernel

/-- QueuesAgreeKept, whose other premise is PortsAgreeKept's. -/
theorem witness_QueuesAgreeKept : QueuesAgree commanded ∧ QueuesAgree inItem := by
  refine ⟨⟨?_, ?_⟩, ?_, ?_⟩
  all_goals decide +kernel

/-- ProfilesLatchedKept, whose other premises are those of the three statements above. -/
theorem witness_ProfilesLatchedKept : ProfilesLatched commanded := by
  refine ⟨?_, ?_, ?_, ?_, fun src h => ?_, ?_, fun op b h => ?_, fun b h => ?_⟩
  · decide +kernel
  · decide +kernel
  · decide +kernel
  · decide +kernel
  · cases src with
    | block b =>
      have k : ∀ b, commanded.store.usable (.block b) = true →
          recordValid (commanded.store.record (.block b)) = true := by decide +kernel
      exact k b h
    | staging => exact absurd h (by decide +kernel)
  · decide +kernel
  · exact absurd h (by rw [show commanded.store.operation = none from rfl]; simp)
  · exact absurd h (by rw [show commanded.store.operation = none from rfl]; simp)

theorem shaped_empty : Shaped Item.empty := by
  constructor <;> simp [Item.empty]

/-- PoolsAgreeKept, whose other premises are those of the statements above. -/
theorem witness_PoolsAgreeKept : PoolsAgree commanded := by
  have item : ∀ k, commanded.items.get k = Item.empty := by decide +kernel
  have none (j : Job) : jobRendition commanded j = none := by
    rw [jobRendition, item]
    rfl
  have unit : ∀ u, (commanded.units.get u).job = .none ∧ (commanded.units.get u).undrawn = 0 := by decide +kernel
  have jobs : commanded.jobs = [] := rfl
  have strips : commanded.strips = List.range Config.strips := by rw [commanded, base, State.reset]
  have pages : commanded.pages = PagePool.fresh Config.resetHeadReserve := by rw [commanded, base, State.reset]
  refine ⟨fun k => item k ▸ shaped_empty, fun l k kind h => ?_, ?_, ?_, ?_, ?_, ?_, ?_, ?_, ?_, ?_, ?_⟩
  · have idle : ∀ l, (commanded.scan.get l).attached = .none := by decide +kernel
    simp [idle] at h
  · rw [show stripsHeld commanded = [] by decide +kernel, List.append_nil, strips, Config.strips]
  · rw [show pagesHeld commanded = [] by decide +kernel, List.append_nil, pages, PagePool.fresh, Config.pages]
  · rw [pages, PagePool.fresh, List.length_range, Nat.add_zero]
  · rw [(unit 0).2, (unit 1).2]
    rfl
  · simp [jobs, none]
  · simp [jobs]
  · simp [none, unit]
  · simp [unit]
  · simp [unit]
  · simp [unit]

theorem witness_ItemsContinue :
    ((inItem.items.get 0).state ≠ .free ∧ ∃ t, step { inItem with pending := [.cancel 0] } = .next t) ∧
    (((claimedAt .await id).items.get 0).state ≠ .free ∧ frees (claimedAt .await id) 0 (.delivered 0)) :=
  ⟨⟨by decide +kernel, _, rfl⟩, by decide +kernel, rfl⟩

theorem witness_LinkFramesRoundTrip :
    (Instr.row 0 [9]).wellFormed = true ∧ messageFrame (.row 0 [9]) = some (frameOf 0x03 [9]) ∧
    scanFrameOf (.row 0 [9]) = some (0, .row [9]) ∧ (Instr.claim 1 15).wellFormed = true ∧
    messageFrame (.claim 1 15) = some (frameOf 0x11 [15]) ∧ scanFrameOf (.claim 1 15) = none := by
  decide +kernel

end Sys2Proof.Tests
end

