-- ==== Sys2Proof/Proofs/FaceChecks.lean ====
section
/-! PROOF. The face checks of section 3.2: what one test of Table 3.2 adds, and the findings of a whole evaluation. -/

namespace Sys2Proof.FaceChecks
open Sys2Proof.Machine

/-- One test of Table 3.2 adds at most one finding; which one turns on the condition the test decides and on the grade. -/
theorem testAdds_congr {met : Bool} {test : Prop} [Decidable test] {grade grade' : Severity} (kind : FindingKind)
    (face : FindingFace) (value : Nat) (hmet : met = true ↔ test) (hgrade : grade = grade') :
    (if met then [⟨kind, face, grade, value⟩] else [] : List Finding) =
      if test then [⟨kind, face, grade', value⟩] else [] := by
  subst hgrade
  exact if_congr hmet rfl rfl

/-- The tests that are made only of a face with a landed row (R59, R60) decide both conditions. -/
theorem measured_and_iff (landed : Nat) (test : Prop) [Decidable test] :
    (decide (0 < landed) && decide test) = true ↔ 0 < landed ∧ test := by
  rw [Bool.and_eq_true, decide_eq_true_iff, decide_eq_true_iff]

/-- The grade of TRUNCATED compares the rows lost with the tolerance (R58). -/
theorem severityIf_decide (test : Prop) [Decidable test] :
    severityIf (decide test) = if test then .reject else .note :=
  if_congr decide_eq_true_iff rfl rfl

/-- Settles O30: the evaluation's list is compared with Table 3.2 test by test. The grades of the profile stand at offsets 49
to 55 of its record, in the order of the seven kinds that have one. -/
theorem evaluationFindings : Obligations.EvaluationFindings := by
  unfold Obligations.EvaluationFindings
  intro record f a presented perMille streaked severity when
  have short : profileSeverity record .short = severity 0 := rfl
  have long : profileSeverity record .long = severity 1 := rfl
  have narrow : profileSeverity record .narrow = severity 2 := rfl
  have wide : profileSeverity record .wide = severity 3 := rfl
  have dark : profileSeverity record .dark = severity 4 := rfl
  have light : profileSeverity record .light = severity 5 := rfl
  have streak : profileSeverity record .streak = severity 6 := rfl
  unfold evaluate
  iterate 7 refine congrArg₂ (· ++ ·) ?_ ?_
  · exact testAdds_congr .short _ _ decide_eq_true_iff short
  · exact testAdds_congr .long _ _ decide_eq_true_iff long
  · exact testAdds_congr .narrow _ _ decide_eq_true_iff narrow
  · exact testAdds_congr .wide _ _ decide_eq_true_iff wide
  · exact testAdds_congr .truncated _ _ decide_eq_true_iff (severityIf_decide _)
  · exact testAdds_congr .dark _ _ (measured_and_iff _ _) dark
  · exact testAdds_congr .light _ _ (measured_and_iff _ _) light
  · exact testAdds_congr .streak _ _ (measured_and_iff _ _) streak

end Sys2Proof.FaceChecks
end

