-- ==== Sys2Proof/Proofs/StagingWindow.lean ====
section
/-! PROOF. The staging window of section 8.3: when a PROGRAM reads the staging area, the three answers of a staging write,
and what the accesses of the staging registers do while the part runs. -/

namespace Sys2Proof.StagingWindow
open Sys2Proof.Machine Sys2Proof.Safety

/-! ### A PROGRAM reads the staging area -/

/-- A PROGRAM reads the staging area in its two phases, and no ERASE does (R154, R165). -/
theorem readingStaging_iff (st : Store) :
    st.readingStaging = true ↔
      (∃ b, st.operation = some (.program, b)) ∧ (st.phase = .programming ∨ st.phase = .verifying) := by
  unfold Store.readingStaging
  match st.operation with
  | none => simp
  | some (.erase, b) => simp
  | some (.program, b) => simp

theorem readingStaging_eq_false {st : Store}
    (h : (∀ b, st.operation ≠ some (.program, b)) ∨ (st.phase ≠ .programming ∧ st.phase ≠ .verifying)) :
    st.readingStaging = false := by
  rw [← Bool.not_eq_true, readingStaging_iff, not_and_or, not_exists, not_or]
  exact h

/-! ### The three answers of a staging write (R154) -/

theorem stagingWrite_inUse {st : Store} (v : Word) (used : st.inUse .staging = true) :
    st.stagingWrite v = (.inUse, st) := if_pos used

theorem stagingWrite_reading {st : Store} (v : Word) (unused : st.inUse .staging = false)
    (reading : st.readingStaging = true) : st.stagingWrite v = (.storeBusy, st) := by
  rw [Store.stagingWrite, if_neg (ne_true_of_eq_false unused), if_pos reading]

theorem stagingWrite_written {st : Store} (v : Word) (unused : st.inUse .staging = false)
    (notReading : st.readingStaging = false) :
    st.stagingWrite v = (.ok, { st with staging :=
      { bytes := writeStagingWord st.staging.bytes st.staging.address v
        state := .editing
        address := st.staging.address + 1 } }) := by
  rw [Store.stagingWrite, if_neg (ne_true_of_eq_false unused), if_neg (ne_true_of_eq_false notReading)]

/-! ### The accesses while the part runs -/

section AccessesWhileRunning
variable {s : State} (running : Running s) (v : Word)
include running

/-- A staging write places what the store makes of it and the answer in the result register (R177). -/
theorem exec_stagingDataWrite {a : Answer} {st : Store} (written : s.store.stagingWrite v = (a, st)) :
    exec (.stagingDataWrite v) s = .next (withAnswer { s with store := st } a) := by
  have access : exec (.stagingDataWrite v) s = .next (s.whileRunning (·.writeStagingData v)) := rfl
  rw [access, Laws.whileRunning_running running, State.writeStagingData, written]
  rfl

theorem exec_stagingAddressWrite :
    exec (.stagingAddressWrite v) s = .next (s.writeStagingAddress v) :=
  congrArg Host.Outcome.next (Laws.whileRunning_running running (·.writeStagingAddress v))

/-- A read drives the word at the staging address and advances the address (R155). -/
theorem exec_stagingDataRead :
    exec .stagingDataRead s = .next ((s.modPins fun x => { x with busData := s.store.stagingWord }).modStore fun st =>
      { st with staging := { st.staging with address := st.staging.address + 1 } }) :=
  congrArg Host.Outcome.next (if_neg (ne_true_of_eq_false running))

end AccessesWhileRunning

/-- Settles O14: each condition of the statement fixes the answer of the staging write. -/
theorem stagingWindow : Obligations.StagingWindow := by
  unfold Obligations.StagingWindow
  refine ⟨fun s v running => ⟨fun used => ?_, fun unused program phase => ?_, fun unused free => ?_, ?_⟩,
    fun s running => ?_⟩
  · exact exec_stagingDataWrite running v (stagingWrite_inUse v used)
  · have reading : s.store.readingStaging = true := (readingStaging_iff s.store).mpr ⟨program, phase⟩
    exact exec_stagingDataWrite running v (stagingWrite_reading v unused reading)
  · exact exec_stagingDataWrite running v (stagingWrite_written v unused (readingStaging_eq_false free))
  · rw [BitVec.ofNat_toNat]
    exact exec_stagingAddressWrite running v
  · exact exec_stagingDataRead running

end Sys2Proof.StagingWindow
end

