-- ==== Sys2Proof/Proofs/RecordChecks.lean ====
section
/-! PROOF. The record checks of R157, field by field: the ranges of Table 8.2 at the offsets of Table 10.9. -/

namespace Sys2Proof.RecordChecks
open Sys2Proof.Machine

theorem inRange_iff (low high n : Nat) : inRange low high n = true ↔ low ≤ n ∧ n ≤ high := by
  rw [inRange, Bool.and_eq_true, decide_eq_true_iff, decide_eq_true_iff]

theorem inRange_zero_iff (high n : Nat) : inRange 0 high n = true ↔ n ≤ high := by
  rw [inRange_iff, and_iff_right n.zero_le]

/-- A check of each number below a bound. -/
theorem range_all_iff {bound : Nat} {check : Nat → Bool} {test : Nat → Prop} (h : ∀ k, check k = true ↔ test k) :
    (List.range bound).all check = true ↔ ∀ k, k < bound → test k := by
  simp only [List.all_eq_true, List.mem_range, h]

/-- The name is the record's first eight bytes, or all of a record that has fewer. -/
theorem profileName_all_iff (r : List Byte) (check : Byte → Bool) :
    (profileName r).all check = true ↔ ∀ n, n < 8 → n < r.length → check (r.getD n 0) = true := by
  rw [profileName, List.all_eq_true, List.forall_mem_iff_forall_getElem]
  constructor
  · intro h n low high
    rw [List.getD_eq_getElem _ _ high, ← List.getElem_take]
    exact h n (List.length_take ▸ Nat.lt_min.mpr ⟨low, high⟩)
  · intro h n bound
    obtain ⟨low, high⟩ := Nat.lt_min.mp (List.length_take ▸ bound)
    rw [List.getElem_take, ← List.getD_eq_getElem _ 0 high]
    exact h n low high

/-- A rung of the bitonal ladder is a threshold from 1 to 254 and a speckle up to 15 (Table 8.2). -/
theorem ladderValid_bitonal_iff (r : List Byte) :
    ladderValid r .bitonal = true ↔ (1 ≤ numAt r 16 ∧ numAt r 16 ≤ 4) ∧
      ∀ k, k < numAt r 16 → (1 ≤ numAt r (17 + 2 * k) ∧ numAt r (17 + 2 * k) ≤ 254) ∧ numAt r (18 + 2 * k) ≤ 15 := by
  rw [ladderValid, Bool.and_eq_true]
  refine and_congr (inRange_iff ..) (range_all_iff fun k => ?_)
  rw [Bool.and_eq_true]
  exact and_congr (inRange_iff ..) (inRange_zero_iff ..)

theorem contains_three_iff (a b c n : Nat) : [a, b, c].contains n = true ↔ n = a ∨ n = b ∨ n = c := by
  simp

/-- A rung of the gray ladder is a reduction by 1, 2 or 4 and 4, 8 or 16 levels (Table 8.2). -/
theorem ladderValid_gray_iff (r : List Byte) :
    ladderValid r .gray = true ↔ (1 ≤ numAt r 25 ∧ numAt r 25 ≤ 4) ∧
      ∀ k, k < numAt r 25 → (numAt r (26 + 2 * k) = 1 ∨ numAt r (26 + 2 * k) = 2 ∨ numAt r (26 + 2 * k) = 4) ∧
        (numAt r (27 + 2 * k) = 4 ∨ numAt r (27 + 2 * k) = 8 ∨ numAt r (27 + 2 * k) = 16) := by
  rw [ladderValid, Bool.and_eq_true]
  refine and_congr (inRange_iff ..) (range_all_iff fun k => ?_)
  rw [Bool.and_eq_true]
  exact and_congr (contains_three_iff ..) (contains_three_iff ..)

/-- Settles O16: the checks are compared with Table 8.2 field by field, in the order of their offsets; the ladders' counted
rungs are a field of their own beside the rung count. -/
theorem recordChecks : Obligations.RecordChecks := by
  unfold Obligations.RecordChecks
  intro r
  conv_lhs => simp only [recordValid, Bool.and_eq_true, and_assoc]
  have name := (profileName_all_iff r fun c => inRange 0x20 0x7E c.toNat).trans
    (forall₃_congr fun _ _ _ => inRange_iff ..)
  have edition : decide (profileEdition r ≠ 0) = true ↔ wordAt r 8 ≠ 0 := decide_eq_true_iff
  have severities : (List.range 7).all (fun k => decide (numAt r (49 + k) ≤ 1)) = true ↔ ∀ k, k < 7 → numAt r (49 + k) ≤ 1 :=
    range_all_iff fun _ => decide_eq_true_iff
  refine and_congr name <| and_congr edition <| and_congr Bool.or_eq_true_iff <| and_congr Bool.or_eq_true_iff ?_
  iterate 2 refine and_congr (inRange_iff ..) ?_
  refine (and_congr (ladderValid_bitonal_iff r) ?_).trans and_assoc
  refine (and_congr (ladderValid_gray_iff r) ?_).trans and_assoc
  iterate 4 refine and_congr (inRange_iff ..) ?_
  iterate 4 refine and_congr (inRange_zero_iff ..) ?_
  exact and_congr severities <| and_congr_left' (inRange_iff ..)

end Sys2Proof.RecordChecks
end

