-- ==== Sys2Proof/Proofs/InterruptRegisters.lean ====
section
/-! PROOF. The interrupt registers of section 9.5, bit by bit: what a write of each leaves in it, and when INT is asserted. -/

namespace Sys2Proof.InterruptRegisters
open Sys2Proof.Machine Sys2Proof.Safety

/-! ### The bits of a register -/

/-- Two sets of bits meet exactly when some place stands in both. -/
theorem and_ne_zero_iff {w : Nat} (x y : BitVec w) :
    x &&& y ≠ 0 ↔ ∃ i, i < w ∧ x.getLsbD i = true ∧ y.getLsbD i = true := by
  rw [Ne, BitVec.eq_of_getLsbD_eq_iff, not_forall]
  refine exists_congr fun i => ?_
  rw [Classical.not_imp, BitVec.getLsbD_and, BitVec.ofNat_eq_ofNat, BitVec.getLsbD_zero, Bool.not_eq_false, Bool.and_eq_true]

/-- The bits of a register stand in the low bits of the word written (Table 10.11). -/
theorem getLsbD_setWidth_of_lt {w i : Nat} (v : Word) (h : i < w) : (v.setWidth w).getLsbD i = v.getLsbD i := by
  rw [BitVec.getLsbD_setWidth, decide_eq_true h, Bool.true_and]

theorem getLsbD_and_not_setWidth {w i : Nat} (x : BitVec w) (v : Word) (h : i < w) :
    (x &&& ~~~(v.setWidth w)).getLsbD i = (x.getLsbD i && !v.getLsbD i) := by
  rw [BitVec.getLsbD_and, BitVec.getLsbD_not, getLsbD_setWidth_of_lt v h, decide_eq_true h, Bool.true_and]

/-! ### Causes and the INT pin -/

theorem bit_ne_zero (c : Cause) : c.bit ≠ 0 := by
  cases c <;> decide

/-- A cause's event sets it whatever the register held (R182). -/
theorem causeSet_setCause (s : State) (c : Cause) : (s.setCause c).causeSet c = true := by
  have meetsItself : c.bit &&& c.bit ≠ 0 := by rw [BitVec.and_self]; exact bit_ne_zero c
  obtain ⟨i, low, _, place⟩ := (and_ne_zero_iff _ _).mp meetsItself
  have kept : (s.sup.causes ||| c.bit).getLsbD i = true := by rw [BitVec.getLsbD_or, place, Bool.or_true]
  exact decide_eq_true ((and_ne_zero_iff _ _).mpr ⟨i, low, kept, place⟩)

theorem intPin_iff (s : State) :
    s.intPin = true ↔
      s.sup.master = true ∧ ∃ i, i < 7 ∧ s.sup.causes.getLsbD i = true ∧ s.sup.enables.getLsbD i = true := by
  rw [State.intPin, Bool.and_eq_true, decide_eq_true_iff, and_ne_zero_iff]

/-! ### The three writes while the part runs -/

section WritesWhileRunning
variable {s : State} (running : Running s) (v : Word)
include running

theorem exec_interruptCausesWrite :
    exec (.interruptCausesWrite v) s = .next (s.modSup (·.clearCauses v)) :=
  congrArg Host.Outcome.next (Laws.whileRunning_running running (·.modSup (·.clearCauses v)))

theorem exec_interruptEnablesWrite :
    exec (.interruptEnablesWrite v) s = .next (s.modSup (·.writeEnables v)) :=
  congrArg Host.Outcome.next (Laws.whileRunning_running running (·.modSup (·.writeEnables v)))

theorem exec_interruptControlWrite :
    exec (.interruptControlWrite v) s = .next (s.modSup (·.writeControl v)) :=
  congrArg Host.Outcome.next (Laws.whileRunning_running running (·.modSup (·.writeControl v)))

end WritesWhileRunning

/-- Settles O8: the registers the writes leave are the model's own, and the clauses about their bits are the lemmas above. -/
theorem interruptRegisters : Obligations.InterruptRegisters := by
  unfold Obligations.InterruptRegisters
  refine ⟨fun s v running => ⟨s.sup.causes &&& ~~~(v.setWidth 7), ?_, ?_, ?_⟩,
    fun s v running => ⟨⟨v.setWidth 7, ?_, ?_⟩, ?_, ?_⟩⟩
  · exact exec_interruptCausesWrite running v
  · exact fun _ => getLsbD_and_not_setWidth s.sup.causes v
  · exact causeSet_setCause _
  · exact exec_interruptEnablesWrite running v
  · exact fun _ => getLsbD_setWidth_of_lt v
  · exact exec_interruptControlWrite running v
  · exact intPin_iff s

end Sys2Proof.InterruptRegisters
end

