-- ==== Sys2Proof/Proofs/Access.lean ====
section
/-! PROOF. What the accesses of the supervisor port, the pins and the store's own events can do, said once: a command by
its code, and every other event that is neither of the links nor of the memory. The invariants are proved from these
cases. -/

namespace Sys2Proof.Access
open Sys2Proof.Machine Sys2Proof.Safety

/-! ### The profile store -/

/-- The end of a verify that found every byte as written (R166). -/
def verifyPassed (st : Store) (op : StoreOp) (b : BlockNo) : Store :=
  { st.modBlock b fun _ =>
      { bytes := st.written op, opened := false, state := match op with
        | .erase => .empty
        | .program => .valid } with
    last := some ⟨op, b, false⟩
    operation := none
    phase := .idle
    phaseLeft := 0 }

/-- The end of a verify that found a byte otherwise than written (R166, R167). -/
def verifyFailed (st : Store) (op : StoreOp) (b : BlockNo) (read : List Byte) : Store :=
  { st.modBlock b fun x => { x with bytes := read, state := .invalid } with
    latch := true
    last := some ⟨op, b, true⟩
    operation := none
    phase := .idle
    phaseLeft := 0 }

/-- What one event of the supervisor port, of the store or of time can do to the profile store. -/
inductive StoreMoves (st : Store) : Store → Prop
  | nothing : StoreMoves st st
  | editEnable (on : Bool) : StoreMoves st { st with editEnable := on }
  | load (b : BlockNo) (valid : (st.blocks.get b).state = .valid) (unused : st.inUse .staging = false)
      (notReading : st.readingStaging = false) :
      StoreMoves st
        { st with staging := { st.staging with bytes := (st.blocks.get b).bytes, state := .validated } }
  | validate (passes : recordValid st.staging.bytes = true) :
      StoreMoves st { st with staging := { st.staging with state := .validated } }
  | start (op : StoreOp) (b : BlockNo) (idle : st.phase = .idle) (unused : st.inUse (.block b) = false)
      (staged : op = .program → st.staging.state = .validated) : StoreMoves st (st.start op b)
  | bind (l : Lane) (target : Option Source) (usable : ∀ src, target = some src → st.usable src = true) :
      StoreMoves st { st with bindings := put st.bindings l target }
  | stagingWrite (v : Word) (unused : st.inUse .staging = false) (notReading : st.readingStaging = false) :
      StoreMoves st { st with staging :=
        { bytes := writeStagingWord st.staging.bytes st.staging.address v
          state := .editing
          address := st.staging.address + 1 } }
  | stagingAddress (a : BitVec 8) : StoreMoves st { st with staging := { st.staging with address := a } }
  | endScan (starting : st.phase = .starting) : StoreMoves st st.endScan
  | endWrite (writing : st.phase = .erasing ∨ st.phase = .programming) : StoreMoves st st.endWrite
  | verifyPassed (op : StoreOp) (b : BlockNo) (verifying : st.phase = .verifying)
      (operation : st.operation = some (op, b)) : StoreMoves st (verifyPassed st op b)
  | verifyFailed (op : StoreOp) (b : BlockNo) (lost : List (Nat × Byte)) (verifying : st.phase = .verifying)
      (operation : st.operation = some (op, b)) :
      StoreMoves st (verifyFailed st op b (lose (st.blocks.get b).bytes lost))
  | phaseLeft (n : Nat) : StoreMoves st { st with phaseLeft := n }

/-- The end of a verify is one of the two ends, with the causes it sets (R166, R167). -/
theorem endVerify_eq (s : State) (lost : List (Nat × Byte)) (verifying : s.store.phase = .verifying) :
    ∃ (causes : BitVec 7) (st : Store), StoreMoves s.store st ∧
      s.endVerify lost = { s with store := st, sup := { s.sup with causes := causes } } := by
  unfold State.endVerify
  cases operation : s.store.operation with
  | none => exact ⟨s.sup.causes, s.store, .nothing, rfl⟩
  | some x =>
    obtain ⟨op, b⟩ := x
    dsimp only
    by_cases asWritten : lose (s.store.blocks.get b).bytes lost = s.store.written op
    · refine ⟨s.sup.causes ||| 1, _, .verifyPassed op b verifying operation, ?_⟩
      simp only [asWritten, decide_true, if_true, Bool.not_true, Bool.or_false]
      rfl
    · refine ⟨s.sup.causes ||| 1 ||| 2, _, .verifyFailed op b lost verifying operation, ?_⟩
      simp only [asWritten, decide_false, Bool.false_eq_true, if_false, Bool.not_false, Bool.or_true]
      rfl

/-- A millisecond of the store moves it, sets causes at most, and takes free values at most. -/
theorem tickStore_eq (s : State) :
    ∃ (causes : BitVec 7) (st : Store) (n : Nat), StoreMoves s.store st ∧
      s.tickStore = { s with store := st, sup := { s.sup with causes := causes }, free := n } := by
  unfold State.tickStore
  split
  · exact ⟨s.sup.causes, s.store, s.free, .nothing, rfl⟩
  · split
    · unfold State.endPhase
      split
      · exact ⟨s.sup.causes, s.store, s.free, .nothing, rfl⟩
      · rename_i starting
        exact ⟨s.sup.causes, _, s.free, .endScan starting, rfl⟩
      · rename_i erasing
        exact ⟨s.sup.causes, _, s.free, .endWrite (.inl erasing), rfl⟩
      · rename_i programming
        exact ⟨s.sup.causes, _, s.free, .endWrite (.inr programming), rfl⟩
      · rename_i verifying
        obtain ⟨causes, st, moves, e⟩ := endVerify_eq s (Config.bytesNotKept s.free) verifying
        exact ⟨causes, st, s.free + 1, moves, by rw [e]; rfl⟩
    · exact ⟨s.sup.causes, _, s.free, .phaseLeft _, rfl⟩

/-! ### The commands of Table 9.2 -/

/-- What the command of a code can do to the state it is taken in, its answer apart. -/
inductive CommandDoes (code : Word) (s : State) : State → Prop
  | nothing : CommandDoes code s s
  | store {st : Store} (moves : StoreMoves s.store st) : CommandDoes code s { s with store := st }
  | laneClose (l : Lane) : CommandDoes code s ((s.modLane l fun r => { r with closed := true }).drainedTest l)
  | laneOpen (l : Lane) : CommandDoes code s (s.modLane l fun r => { r with closed := false })
  | laneReset (l : Lane) : CommandDoes code s (s.resetLane l)
  | setQuota (l : Lane) (n : Nat) (low : 1 ≤ n) (high : n ≤ 256) :
      CommandDoes code s (s.modLane l fun r => { r with quota := n })
  | purgeLanding (k : Slot) (landing : (s.items.get k).state = .landing) : CommandDoes code s (s.purgeLanding k)
  | purgeSettling (k : Slot) (settling : (s.items.get k).state = .settling) : CommandDoes code s (s.purgeSettling k)
  | purgeReady (k : Slot) (ready : (s.items.get k).state = .ready) : CommandDoes code s (s.purgeReady k)
  | xportReset (p : Port) : CommandDoes code s (s.resetExchange p)
  | setMask (p : Port) (m : BitVec 4) : CommandDoes code s (s.modExchange p fun x => { x with mask := m })
  | setStall (n : Nat) (low : 10 ≤ n) (high : n ≤ 60000) : CommandDoes code s (s.withStallLimit n)
  | setReserve (n : Nat) (high : n ≤ 2048) :
      CommandDoes code s (s.modPages fun p => { p with headReserve := n }).dispatchAct
  | softReset (soft : code = 0x0011) : CommandDoes code s s.softReset

section Commands
variable (code : Word) (s : State)

theorem storeEditOn_does : CommandDoes code s (commandStoreEditOn s).2 := by
  unfold commandStoreEditOn
  split <;> exact .store (.editEnable _)

theorem load_does : CommandDoes code s (commandLoad s).2 := by
  unfold commandLoad
  split
  · exact .nothing
  · rename_i b _
    split
    · exact .nothing
    · rename_i valid
      split
      · exact .nothing
      · rename_i unused
        split
        · exact .nothing
        · rename_i notReading
          exact .store (.load b (not_not.mp valid) (Bool.eq_false_iff.mpr unused) (Bool.eq_false_iff.mpr notReading))

theorem validate_does : CommandDoes code s (commandValidate s).2 := by
  unfold commandValidate
  split
  · exact .nothing
  · split
    · rename_i passes
      exact .store (.validate passes)
    · exact .nothing

theorem editRefusal_none {st : Store} (h : st.editRefusal = none) : st.phase = .idle := by
  unfold Store.editRefusal at h
  split at h
  · cases h
  · rename_i idle
    exact not_not.mp idle

theorem eraseRefusal_none {st : Store} {b : BlockNo} (h : st.eraseRefusal b = none) :
    st.phase = .idle ∧ st.inUse (.block b) = false := by
  unfold Store.eraseRefusal at h
  split at h
  · cases h
  · rename_i e
    split at h
    · cases h
    · rename_i unused
      exact ⟨editRefusal_none e, Bool.eq_false_iff.mpr unused⟩

theorem programRefusal_none {st : Store} {b : BlockNo} (h : st.programRefusal b = none) :
    st.phase = .idle ∧ st.inUse (.block b) = false ∧ st.staging.state = .validated := by
  unfold Store.programRefusal at h
  split at h
  · cases h
  · rename_i e
    split at h
    · cases h
    · split at h
      · cases h
      · rename_i unused
        split at h
        · cases h
        · rename_i staged
          exact ⟨editRefusal_none e, Bool.eq_false_iff.mpr unused, not_not.mp staged⟩

theorem erase_does : CommandDoes code s (commandErase s).2 := by
  unfold commandErase
  split
  · exact .nothing
  · rename_i b _
    split
    · exact .nothing
    · rename_i h
      obtain ⟨idle, unused⟩ := eraseRefusal_none h
      exact .store (.start .erase b idle unused nofun)

theorem program_does : CommandDoes code s (commandProgram s).2 := by
  unfold commandProgram
  split
  · exact .nothing
  · rename_i b _
    split
    · exact .nothing
    · rename_i h
      obtain ⟨idle, unused, staged⟩ := programRefusal_none h
      exact .store (.start .program b idle unused fun _ => staged)

/-- A BIND is taken to a source that can be latched, or to NONE (R159). -/
theorem bindRefusal_none {st : Store} {target : Option Source} (h : st.bindRefusal target = none) :
    ∀ src, target = some src → st.usable src = true := by
  rintro (b | _) rfl
  · by_contra unusable
    have refused : st.bindRefusal (some (.block b)) = some .badState := if_neg fun e => unusable (decide_eq_true e)
    rw [refused] at h
    cases h
  · by_contra unusable
    have refused : st.bindRefusal (some .staging) = some .stagingNotValid := if_neg fun e => unusable (decide_eq_true e)
    rw [refused] at h
    cases h

theorem bind_does : CommandDoes code s (commandBind s).2 := by
  unfold commandBind
  split
  · rename_i l target _ _
    split
    · exact .nothing
    · rename_i h
      exact .store (.bind l target (bindRefusal_none h))
  · exact .nothing

theorem laneClose_does : CommandDoes code s (commandLaneClose s).2 := by
  unfold commandLaneClose
  split
  · exact .nothing
  · exact .laneClose _

theorem laneOpen_does : CommandDoes code s (commandLaneOpen s).2 := by
  unfold commandLaneOpen
  split
  · exact .nothing
  · exact .laneOpen _

theorem laneReset_does : CommandDoes code s (commandLaneReset s).2 := by
  unfold commandLaneReset
  split
  · exact .nothing
  · exact .laneReset _

theorem rangeOperand_range {low high n : Nat} {v : Word} (h : rangeOperand low high v = some n) : low ≤ n ∧ n ≤ high := by
  unfold rangeOperand at h
  split at h
  · rename_i range
    exact Option.some.inj h ▸ range
  · cases h

theorem setQuota_does : CommandDoes code s (commandSetQuota s).2 := by
  unfold commandSetQuota
  split
  · rename_i l n _ h
    obtain ⟨low, high⟩ := rangeOperand_range h
    exact .setQuota l n low high
  · exact .nothing

/-- A PURGE of an item purged before is answered OK and does nothing (R23). -/
theorem unlessPurged_does {purged : Bool} {t : State} (h : CommandDoes code s t) :
    CommandDoes code s (if purged then (Answer.ok, s) else (Answer.ok, t)).2 := by
  cases purged
  · exact h
  · exact .nothing

theorem purge_does : CommandDoes code s (commandPurge s).2 := by
  unfold commandPurge
  split
  · exact .nothing
  · rename_i k _
    dsimp only
    split
    · exact .nothing
    · exact .nothing
    · rename_i state
      exact unlessPurged_does code s (.purgeLanding k state)
    · rename_i state
      exact unlessPurged_does code s (.purgeSettling k state)
    · rename_i state
      exact unlessPurged_does code s (.purgeReady k state)

theorem xportReset_does : CommandDoes code s (commandXportReset s).2 := by
  unfold commandXportReset
  split
  · exact .nothing
  · exact .xportReset _

theorem setMask_does : CommandDoes code s (commandSetMask s).2 := by
  unfold commandSetMask
  split
  · exact .setMask _ _
  · exact .nothing

theorem setStall_does : CommandDoes code s (commandSetStall s).2 := by
  unfold commandSetStall
  split
  · exact .nothing
  · rename_i n h
    have range := rangeOperand_range h
    exact .setStall n range.left range.right

theorem setReserve_does : CommandDoes code s (commandSetReserve s).2 := by
  unfold commandSetReserve
  split
  · exact .nothing
  · rename_i n h
    exact .setReserve n (rangeOperand_range h).2

/-- A command register write does what the command of its code can do, or nothing. -/
theorem commandOf_does : CommandDoes code s (commandOf code s).2 := by
  generalize named : commandOf code = command
  unfold commandOf at named
  split at named <;> subst named
  · exact storeEditOn_does code s
  · exact .store (.editEnable _)
  · exact load_does code s
  · exact validate_does code s
  · exact program_does code s
  · exact erase_does code s
  · exact bind_does code s
  · exact laneClose_does code s
  · exact laneOpen_does code s
  · exact laneReset_does code s
  · exact setQuota_does code s
  · exact purge_does code s
  · exact xportReset_does code s
  · exact setMask_does code s
  · exact setStall_does code s
  · exact setReserve_does code s
  · rename_i h
    exact .softReset (BitVec.eq_of_toNat_eq h)
  · exact .nothing

end Commands

/-! ### The other events -/

/-- What a command that is neither of the links nor of the memory can do. -/
inductive AccessDoes (c : Instr) (s : State) : State → Prop
  | nothing : AccessDoes c s s
  | command (level : Bool) (code : Word) (answer : Answer) (u : State) (running : Running s)
      (soft : code = 0x0011 → ∀ (v : State) (k : Slot), frees v k c)
      (does : CommandDoes code (given (s.modPins fun x => { x with storeWe := level }) code) u) :
      AccessDoes c s (withAnswer u answer)
  | access (f : Pins → Pins) (g : Supervisor → Supervisor) (st : Store) (reset : ∀ x, (f x).resetLow = x.resetLow)
      (index : ∀ x, x.readIndex ≤ 75 → (g x).readIndex ≤ 75) (moves : StoreMoves s.store st)
      (high : st.phase = s.store.phase ∨ Running s) :
      AccessDoes c s { s with pins := f s.pins, store := st, sup := g s.sup }
  | powerOn (power : c = .powerOn) : AccessDoes c s s.powerOn
  | pinReset (pin : c = .pinReset) (running : Running s) : AccessDoes c s s.pinReset
  | releaseReset (low : s.pins.resetLow = true) : AccessDoes c s s.releaseReset

section Events
variable (c : Instr) (s : State)

/-- An event that waits for RESET_N to be high does nothing while it is low. -/
theorem whileRunning_does {f : State → State} (h : Running s → AccessDoes c s (f s)) :
    AccessDoes c s (s.whileRunning f) := by
  by_cases low : s.pins.resetLow = true
  · rw [Laws.whileRunning_reset low]
    exact .nothing
  · have running : Running s := Bool.eq_false_iff.mpr low
    rw [Laws.whileRunning_running running]
    exact h running

theorem modSup_does {g : Supervisor → Supervisor} (index : ∀ x, x.readIndex ≤ 75 → (g x).readIndex ≤ 75) :
    AccessDoes c s (s.modSup g) :=
  .access id g s.store (fun _ => rfl) index .nothing (.inl rfl)

theorem modPins_does {f : Pins → Pins} (reset : ∀ x, (f x).resetLow = x.resetLow) : AccessDoes c s (s.modPins f) :=
  .access f id s.store reset (fun _ => id) .nothing (.inl rfl)

theorem store_does {st : Store} (moves : StoreMoves s.store st) (high : st.phase = s.store.phase ∨ Running s) :
    AccessDoes c s { s with store := st } :=
  .access id id st (fun _ => rfl) (fun _ => id) moves high

/-- A command taken by its code, at the level of STORE_WE the pin then has. -/
theorem giveCommand_does (level : Bool) {code : Word} {f : State → Answer × State}
    (soft : code = 0x0011 → ∀ (v : State) (k : Slot), frees v k c) (does : ∀ u, CommandDoes code u (f u).2) :
    Running s → AccessDoes c s ((s.modPins fun x => { x with storeWe := level }).giveCommand code f) := by
  intro running
  have high : Running (s.modPins fun x => { x with storeWe := level }) := running
  rw [Laws.giveCommand_running high]
  exact .command level code _ _ running soft (does _)

/-- A command that leaves the level of STORE_WE as it is. -/
theorem giveCommand_does_same {code : Word} {f : State → Answer × State}
    (soft : code = 0x0011 → ∀ (v : State) (k : Slot), frees v k c) (does : ∀ u, CommandDoes code u (f u).2) :
    AccessDoes c s (s.giveCommand code f) := by
  by_cases low : s.pins.resetLow = true
  · rw [Laws.giveCommand_reset low]
    exact .nothing
  · exact giveCommand_does c s s.pins.storeWe soft does (Bool.eq_false_iff.mpr low)

theorem writeStagingData_does (v : Word) : AccessDoes c s (s.writeStagingData v) := by
  unfold State.writeStagingData
  by_cases used : s.store.inUse .staging = true
  · rw [StagingWindow.stagingWrite_inUse v used]
    exact modSup_does c s fun _ => id
  · have unused := Bool.eq_false_iff.mpr used
    by_cases reading : s.store.readingStaging = true
    · rw [StagingWindow.stagingWrite_reading v unused reading]
      exact modSup_does c s fun _ => id
    · have notReading := Bool.eq_false_iff.mpr reading
      rw [StagingWindow.stagingWrite_written v unused notReading]
      exact .access id (fun p => { p with result := .ok }) _ (fun _ => rfl) (fun _ => id)
        (.stagingWrite v unused notReading) (.inl rfl)

theorem selectItem_does (v : Word) : AccessDoes c s (s.selectItem v) := by
  unfold State.selectItem
  split
  · exact modSup_does c s fun _ => id
  · exact modSup_does c s fun _ _ => Nat.zero_le _

theorem advance_index (x : Supervisor) (h : x.readIndex ≤ 75) : x.advance.readIndex ≤ 75 := by
  show (if 75 ≤ x.readIndex then 0 else x.readIndex + 1) ≤ 75
  split <;> omega

theorem writeRegister_does (r : Fin 32) (v : Word)
    (soft : r = 0x00 → v = 0x0011 → ∀ (u : State) (k : Slot), frees u k c) : AccessDoes c s (s.writeRegister r v) := by
  unfold State.writeRegister
  split
  · rename_i command
    exact giveCommand_does_same c s (soft (Fin.ext command)) (commandOf_does v)
  · exact modSup_does c s fun _ => id
  · exact modSup_does c s fun _ => id
  · exact modSup_does c s fun _ => id
  · exact modSup_does c s fun _ => id
  · exact modSup_does c s fun _ => id
  · exact modSup_does c s fun _ => id
  · exact store_does c s (.stagingAddress _) (.inl rfl)
  · exact writeStagingData_does c s v
  · exact selectItem_does c s v
  · exact .nothing

end Events

/-- A command either belongs to the links or the memory's grants, or completes a burst, or is one of the accesses. -/
theorem exec_cases {c : Instr} {s t : State} (h : exec c s = .next t) :
    Laws.behindLinks c = true ∨ (∃ upsets, c = .burstComplete upsets) ∨ AccessDoes c s t := by
  have known {code : Word} (n : code ≠ 0x0011) : code = 0x0011 → ∀ (v : State) (k : Slot), frees v k c :=
    fun e => absurd e n
  cases c <;> (try exact .inl rfl) <;> refine .inr ?_
  case burstComplete upsets => exact .inl ⟨upsets, rfl⟩
  all_goals
    refine .inr ?_
    obtain rfl := Laws.next_inj h
  case storeEditOn high =>
    exact whileRunning_does _ s (giveCommand_does _ s high (known (by decide)) (storeEditOn_does _))
  case storeEditOff => exact giveCommand_does_same _ s (known (by decide)) fun _ => .store (.editEnable _)
  case load => exact giveCommand_does_same _ s (known (by decide)) (load_does _)
  case validate => exact giveCommand_does_same _ s (known (by decide)) (validate_does _)
  case program => exact giveCommand_does_same _ s (known (by decide)) (program_does _)
  case erase => exact giveCommand_does_same _ s (known (by decide)) (erase_does _)
  case bind => exact giveCommand_does_same _ s (known (by decide)) (bind_does _)
  case laneClose => exact giveCommand_does_same _ s (known (by decide)) (laneClose_does _)
  case laneOpen => exact giveCommand_does_same _ s (known (by decide)) (laneOpen_does _)
  case laneReset => exact giveCommand_does_same _ s (known (by decide)) (laneReset_does _)
  case setQuota => exact giveCommand_does_same _ s (known (by decide)) (setQuota_does _)
  case purge => exact giveCommand_does_same _ s (known (by decide)) (purge_does _)
  case xportReset => exact giveCommand_does_same _ s (known (by decide)) (xportReset_does _)
  case setMask => exact giveCommand_does_same _ s (known (by decide)) (setMask_does _)
  case setStall => exact giveCommand_does_same _ s (known (by decide)) (setStall_does _)
  case setReserve => exact giveCommand_does_same _ s (known (by decide)) (setReserve_does _)
  case softReset =>
    exact giveCommand_does_same _ s (fun _ _ _ => trivial) fun _ => .softReset rfl
  case unknownCommandCode code =>
    exact giveCommand_does_same _ s (fun e _ _ => e) (commandOf_does code)
  case stagingDataWrite v => exact whileRunning_does _ s fun _ => writeStagingData_does _ s v
  case stagingDataRead =>
    split
    · exact modPins_does _ s fun _ => rfl
    · exact .access (fun x => { x with busData := s.store.stagingWord }) id _ (fun _ => rfl) (fun _ => id)
        (.stagingAddress _) (.inl rfl)
  case stagingAddressWrite v => exact whileRunning_does _ s fun _ => store_does _ s (.stagingAddress _) (.inl rfl)
  case itemSelectWrite v => exact whileRunning_does _ s fun _ => selectItem_does _ s v
  case itemDataRead =>
    split
    · exact modPins_does _ s fun _ => rfl
    · exact .access (fun x => { x with busData := s.sup.snapshotWord }) Supervisor.advance s.store (fun _ => rfl)
        advance_index .nothing (.inl rfl)
  case interruptCausesWrite v => exact whileRunning_does _ s fun _ => modSup_does _ s fun _ => id
  case interruptEnablesWrite v => exact whileRunning_does _ s fun _ => modSup_does _ s fun _ => id
  case interruptControlWrite v => exact whileRunning_does _ s fun _ => modSup_does _ s fun _ => id
  case resetCauseWrite v => exact whileRunning_does _ s fun _ => modSup_does _ s fun _ => id
  case registerWrite r v =>
    exact whileRunning_does _ s fun _ => writeRegister_does _ s r v fun er ev _ _ => ⟨er, ev⟩
  case storeWeFall =>
    exact .access (fun x => { x with storeWe := false }) id _ (fun _ => rfl) (fun _ => id) (.editEnable false) (.inl rfl)
  case powerOn => exact .powerOn rfl
  case pinReset =>
    split
    · exact .nothing
    · rename_i high
      exact .pinReset rfl (Bool.eq_false_iff.mpr high)
  case resetNRelease =>
    split
    · rename_i low
      exact .releaseReset low
    · exact .nothing
  case startUpScanEnd =>
    refine whileRunning_does _ s fun running => ?_
    split
    · rename_i phase
      exact store_does _ s (.endScan phase) (.inr running)
    · exact .nothing
  case erasingComplete =>
    refine whileRunning_does _ s fun running => ?_
    split
    · rename_i phase
      exact store_does _ s (.endWrite (.inl phase)) (.inr running)
    · exact .nothing
  case programmingComplete =>
    refine whileRunning_does _ s fun running => ?_
    split
    · rename_i phase
      exact store_does _ s (.endWrite (.inr phase)) (.inr running)
    · exact .nothing
  case verifyEnd lost =>
    refine whileRunning_does _ s fun running => ?_
    split
    · rename_i phase
      obtain ⟨causes, st, moves, e⟩ := endVerify_eq s lost phase
      rw [e]
      exact .access id (fun p => { p with causes := causes }) st (fun _ => rfl) (fun _ => id) moves (.inr running)
    · exact .nothing


/-! ### The completion of a burst -/

/-- The burst under way is over and the buffer memory holds what it leaves (R71, R72). -/
def burstOver (s : State) (m : Memory) : State := (s.modArbiter fun a => { a with burst := none }).withMem m

/-- What the completion of a burst can do: nothing, or the burst is over and its result is discarded or used. -/
inductive BurstDoes (s : State) : State → Prop
  | nothing : BurstDoes s s
  | discarded (m : Memory) (kept : s.mem.wf = true → m.wf = true) : BurstDoes s (burstOver s m)
  | wrote (m : Memory) (kept : s.mem.wf = true → m.wf = true) (r : Requester) : BurstDoes s ((burstOver s m).wrote r)
  | readFault (m : Memory) (kept : s.mem.wf = true → m.wf = true) (r : Requester) :
      BurstDoes s ((burstOver s m).readFault r)
  | readDone (m : Memory) (kept : s.mem.wf = true → m.wf = true) (data : List Byte) (r : Requester) :
      BurstDoes s ((burstOver s m).readDone data r)

theorem burstComplete_does {upsets : List Nat} {s t : State} (h : exec (.burstComplete upsets) s = .next t) :
    BurstDoes s t := by
  change execBurstComplete upsets s = .next t at h
  unfold execBurstComplete at h
  split at h
  · exact Laws.next_inj h ▸ .nothing
  · rename_i b _
    split at h
    · cases h
    · rename_i fits
      have inside : b.addr + b.count ≤ Config.memoryBytes := Nat.not_lt.mp fits
      dsimp only at h
      split at h
      · have kept (wf : s.mem.wf = true) : (s.mem.writeBytes b.addr (b.data.take b.count)).wf = true :=
          Laws.wf_writeBytes _ _ _ wf (le_trans (Nat.add_le_add_left (List.length_take_le _ _) _) inside)
        obtain rfl := Laws.next_inj h
        split
        · exact .wrote _ kept b.who
        · exact .discarded _ kept
      · have kept (wf : s.mem.wf = true) : (s.mem.upsetAt b.addr b.count upsets).wf = true :=
          Laws.wf_upsetAt _ _ _ _ wf inside
        split at h
        · exact Laws.next_inj h ▸ .discarded _ kept
        · split at h
          · exact Laws.next_inj h ▸ .readFault _ kept b.who
          · split at h
            · cases h
            · exact Laws.next_inj h ▸ .readDone _ kept _ b.who

/-! ### A step -/

/-- A step is a millisecond when no command waits, and otherwise the front command on the queue's rest. -/
theorem step_cases {s t : State} (h : step s = .next t) :
    (s.pending = [] ∧ t = s.tick) ∨ ∃ c rest, s.pending = c :: rest ∧ exec c (s.withPending rest) = .next t := by
  unfold step at h
  split at h
  · rename_i none
    exact .inl ⟨none, (Laws.next_inj h).symm⟩
  · rename_i c rest front
    exact .inr ⟨c, rest, front, h⟩

/-- XPORT RESET keeps what every other operation of the exchange side keeps. -/
theorem resetExchange_keeps (s : State) (p : Port) : Laws.Keeps s (s.resetExchange p) := by
  unfold State.resetExchange
  dsimp only
  refine Laws.Keeps.releaseClaim ?_ _ _
  exact ((Laws.Keeps.refl s).withFree (s.free + 1) (Nat.le_succ _)).modExchange p _ fun _ => rfl

end Sys2Proof.Access
end

