-- ==== Sys2Proof/Proofs/MemoryCanonical.lean ====
section
/-! PROOF. The canonical form of the buffer memory over a step: only the completion of a burst changes the memory. -/

namespace Sys2Proof.MemoryCanonical
open Sys2Proof.Machine Sys2Proof.Safety Sys2Proof.Access

theorem commandDoes_mem {code : Word} {s t : State} (h : CommandDoes code s t) : t.mem = s.mem := by
  have keeps := Laws.Keeps.refl s
  cases h with
  | nothing | store | laneOpen | setQuota | setMask | setStall | softReset => rfl
  | laneClose l => exact (Laws.Keeps.drainedTest (Laws.Keeps.refl _) l).mem
  | laneReset l => exact (keeps.resetLane l).mem
  | purgeLanding k => exact (keeps.purgeLanding k).mem
  | purgeSettling k => exact (keeps.purgeSettling k).mem
  | purgeReady k => exact (keeps.purgeReady k).mem
  | xportReset p => exact (resetExchange_keeps s p).mem
  | setReserve n => exact (Laws.Keeps.dispatchAct (Laws.Keeps.refl _)).mem

theorem accessDoes_mem {c : Instr} {s t : State} (h : AccessDoes c s t) : t.mem = s.mem := by
  cases h with
  | nothing | access | powerOn | pinReset | releaseReset => rfl
  | command level code answer u running soft does =>
    have kept := commandDoes_mem does
    exact kept

theorem burstDoes_wf {s t : State} (h : BurstDoes s t) (wf : s.mem.wf = true) : t.mem.wf = true := by
  have finished (m : Memory) : Laws.Keeps (burstOver s m) (burstOver s m) := .refl _
  cases h with
  | nothing => exact wf
  | discarded m kept => exact kept wf
  | wrote m kept r => exact ((finished m).wrote r).mem ▸ kept wf
  | readFault m kept r => exact ((finished m).readFault r).mem ▸ kept wf
  | readDone m kept data r => exact ((finished m).readDone data r).mem ▸ kept wf

theorem tick_mem (s : State) : s.tick.mem = s.mem := by
  rcases Laws.tick_cases s with same | ⟨u, keeps, _, ms⟩
  · rw [same]
  · obtain ⟨causes, st, n, _, e⟩ := tickStore_eq u
    rw [ms, e]
    exact keeps.mem

/-- Settles O51: of all events only a burst's completion writes the memory, and it writes inside the memory's addresses. -/
theorem memoryCanonicalKept : Obligations.MemoryCanonicalKept := by
  unfold Obligations.MemoryCanonicalKept
  intro s t wf h
  rcases step_cases h with ⟨_, rfl⟩ | ⟨c, rest, _, e⟩
  · rw [tick_mem]
    exact wf
  · rcases exec_cases e with links | ⟨upsets, rfl⟩ | does
    · exact (Laws.exec_keeps c _ t links e).mem ▸ wf
    · exact burstDoes_wf (burstComplete_does e) wf
    · exact accessDoes_mem does ▸ wf

end Sys2Proof.MemoryCanonical
end

