-- ==== Sys2Proof/Proofs/SettingsInRange.lean ====
section
/-! PROOF. Settings and lists of fixed length over a step: each piece of the state that has a range, and every event that
changes one of them. -/

namespace Sys2Proof.SettingsInRange
open Sys2Proof.Machine Sys2Proof.Safety Sys2Proof.Access

/-- The ranges of the profile store: blocks and staging area of 512 bytes, an EMPTY staging area erased. -/
structure StoreInRange (st : Store) : Prop where
  staging : st.staging.bytes.length = 512
  stagingEmpty : st.staging.state = .empty → st.staging.bytes = erasedBytes
  block : ∀ b, (st.blocks.get b).bytes.length = 512

theorem inRange_iff (s : State) : InRange s ↔
    (∀ l, 1 ≤ (s.lanes.get l).quota ∧ (s.lanes.get l).quota ≤ 256) ∧ s.pages.headReserve ≤ 2048 ∧
      (10 ≤ s.stallLimit ∧ s.stallLimit ≤ 60000) ∧ StoreInRange s.store ∧ s.sup.readIndex ≤ 75 :=
  ⟨fun h => ⟨h.quota, h.headReserve, h.stallLimit, ⟨h.staging, h.stagingEmpty, h.block⟩, h.readIndex⟩,
    fun ⟨quota, reserve, stall, store, index⟩ =>
      ⟨quota, reserve, stall, store.staging, store.stagingEmpty, store.block, index⟩⟩

/-! ### The store -/

theorem erasedBytes_length : erasedBytes.length = 512 := List.length_replicate

theorem programmed_length {bytes : List Byte} (h : bytes.length = 512) : (programmed bytes).length = 512 := by
  simp [programmed, wordBytes, h, Config.checkedBytes]

theorem writeStagingWord_length (bytes : List Byte) (a : BitVec 8) (v : Word) :
    (writeStagingWord bytes a v).length = bytes.length := by
  simp [writeStagingWord]

theorem lose_length (bytes : List Byte) (lost : List (Nat × Byte)) : (lose bytes lost).length = bytes.length := by
  induction lost generalizing bytes with
  | nil => rfl
  | cons x rest ih => exact (ih (bytes.set x.1 x.2)).trans List.length_set

theorem written_length {st : Store} (h : StoreInRange st) (op : StoreOp) : (st.written op).length = 512 := by
  cases op with
  | erase => exact erasedBytes_length
  | program => exact programmed_length h.staging

/-- Blocks changed to blocks of 512 bytes. -/
theorem modBlock_length {st : Store} (h : StoreInRange st) (b : BlockNo) {f : Block → Block}
    (hf : (f (st.blocks.get b)).bytes.length = 512) (c : BlockNo) :
    ((put st.blocks b (f (st.blocks.get b))).get c).bytes.length = 512 := by
  rw [Laws.get_put]
  split
  · exact hf
  · exact h.block c

/-- What `mapBlocks` leaves in each block. -/
theorem mapBlocks_get (st : Store) (f : Block → Block) (b : BlockNo) :
    (st.mapBlocks f).blocks.get b = f (st.blocks.get b) := by
  match b with
  | 0 | 1 | 2 | 3 | 4 | 5 | 6 | 7 => rfl

theorem storeMoves_inRange {st st' : Store} (h : StoreMoves st st') (range : StoreInRange st) : StoreInRange st' := by
  cases h with
  | nothing | editEnable | stagingAddress | phaseLeft | bind => exact ⟨range.staging, range.stagingEmpty, range.block⟩
  | load b => exact ⟨range.block b, nofun, range.block⟩
  | validate => exact ⟨range.staging, nofun, range.block⟩
  | stagingWrite v => exact ⟨(writeStagingWord_length _ _ v).trans range.staging, nofun, range.block⟩
  | start op b =>
    exact ⟨range.staging, range.stagingEmpty, modBlock_length (f := fun x => { x with state := .busy, opened := true })
      range b (range.block b)⟩
  | endScan =>
    refine ⟨range.staging, range.stagingEmpty, fun b => ?_⟩
    exact (congrArg (·.bytes.length) (mapBlocks_get st (fun x => { x with state := x.classify }) b)).trans (range.block b)
  | endWrite =>
    unfold Store.endWrite
    split
    · exact range
    · rename_i op b _
      exact ⟨range.staging, range.stagingEmpty, modBlock_length (f := fun x => { x with bytes := st.written op })
        range b (written_length range op)⟩
  | verifyPassed op b =>
    exact ⟨range.staging, range.stagingEmpty, modBlock_length (f := fun _ => ⟨st.written op, false, _⟩)
      range b (written_length range op)⟩
  | verifyFailed op b lost =>
    exact ⟨range.staging, range.stagingEmpty, modBlock_length
      (f := fun x => { x with bytes := lose (st.blocks.get b).bytes lost, state := .invalid })
      range b ((lose_length _ lost).trans (range.block b))⟩

theorem started_get (blocks : Vector Block 8) (latch : Bool) (b : BlockNo) :
    (Store.started blocks latch).blocks.get b = { blocks.get b with state := .busy } := by
  match b with
  | 0 | 1 | 2 | 3 | 4 | 5 | 6 | 7 => rfl

/-- The store as power-on and pin reset leave it. -/
theorem started_inRange {st : Store} (range : StoreInRange st) (latch : Bool) :
    StoreInRange (Store.started st.blocks latch) :=
  ⟨erasedBytes_length, fun _ => rfl, fun b => (congrArg (·.bytes.length) (started_get _ _ b)).trans (range.block b)⟩

/-! ### The events -/

/-- An operation of the links, the memory or the coding side changes nothing that has a range. -/
theorem keeps_inRange {s t : State} (k : Laws.Keeps s t) (h : InRange s) : InRange t := by
  obtain ⟨quota, reserve, stall, store, index⟩ := (inRange_iff s).mp h
  refine (inRange_iff t).mpr ⟨fun l => k.quota l ▸ quota l, k.headReserve ▸ reserve, k.stallLimit ▸ stall, ?_, ?_⟩
  · rw [k.store]
    exact ⟨store.staging, store.stagingEmpty, store.block⟩
  · rw [k.sup]
    exact index

/-- A change of store and supervisor registers alone. -/
theorem registers_inRange {s t : State} (h : InRange s) (lanes : t.lanes = s.lanes) (pages : t.pages = s.pages)
    (limit : t.stallLimit = s.stallLimit) (store : StoreInRange s.store → StoreInRange t.store)
    (index : s.sup.readIndex ≤ 75 → t.sup.readIndex ≤ 75) : InRange t := by
  obtain ⟨quota, reserve, stall, st, i⟩ := (inRange_iff s).mp h
  exact (inRange_iff t).mpr ⟨lanes ▸ quota, pages ▸ reserve, limit ▸ stall, store st, index i⟩

/-- A change of one lane that leaves its quota in range. -/
theorem modLane_inRange {s : State} (h : InRange s) (l : Lane) {f : LaneRec → LaneRec}
    (hf : 1 ≤ (f (s.lanes.get l)).quota ∧ (f (s.lanes.get l)).quota ≤ 256) : InRange (s.modLane l f) := by
  obtain ⟨quota, rest⟩ := (inRange_iff s).mp h
  refine (inRange_iff _).mpr ⟨fun m => ?_, rest⟩
  rw [Laws.modLane_lanes, Laws.get_put]
  split
  · exact hf
  · exact quota m

theorem fresh_headReserve (n : Nat) : (PagePool.fresh n).headReserve = n := rfl

theorem softReset_inRange {s : State} (h : InRange s) : InRange s.softReset := by
  obtain ⟨quota, reserve, stall, store, index⟩ := (inRange_iff s).mp h
  have lanes (l : Lane) : (s.softReset.lanes.get l).quota = (s.lanes.get l).quota := by
    match l with
    | 0 | 1 | 2 | 3 => rfl
  have pages : s.softReset.pages.headReserve = s.pages.headReserve := fresh_headReserve _
  have limit : s.softReset.stallLimit = s.stallLimit := rfl
  have staging : s.softReset.store.staging = s.store.staging := rfl
  have blocks : s.softReset.store.blocks = s.store.blocks := rfl
  have readIndex : s.softReset.sup.readIndex = s.sup.readIndex := rfl
  rw [inRange_iff, pages, limit, readIndex]
  refine ⟨fun l => lanes l ▸ quota l, reserve, stall, ⟨?_, ?_, ?_⟩, index⟩
  · rw [staging]
    exact store.staging
  · rw [staging]
    exact store.stagingEmpty
  · rw [blocks]
    exact store.block

theorem coldReset_inRange {s : State} (h : InRange s) (latch : Bool) (cause : BitVec 3) :
    InRange (s.coldReset latch cause) := by
  obtain ⟨_, _, _, store, _⟩ := (inRange_iff s).mp h
  have lane (l : Lane) : (s.coldReset latch cause).lanes.get l = LaneRec.reset := by
    match l with
    | 0 | 1 | 2 | 3 => rfl
  have limit : (s.coldReset latch cause).stallLimit = 2000 := rfl
  have reserve : (s.coldReset latch cause).pages.headReserve = 256 := rfl
  refine (inRange_iff _).mpr ⟨fun l => ?_, ?_, ?_, started_inRange store latch, Nat.zero_le _⟩
  · rw [lane]
    decide
  · rw [reserve]
    decide
  · rw [limit]
    omega

theorem releaseReset_inRange {s : State} (h : InRange s) : InRange s.releaseReset :=
  registers_inRange h rfl rfl rfl
    (fun range => ⟨range.staging, range.stagingEmpty, fun b =>
      (congrArg (·.bytes.length) (mapBlocks_get s.store (fun x => { x with state := .busy }) b)).trans (range.block b)⟩) id

theorem commandDoes_inRange {code : Word} {s t : State} (does : CommandDoes code s t) (h : InRange s) : InRange t := by
  have keeps := Laws.Keeps.refl s
  cases does with
  | nothing => exact h
  | store moves => exact registers_inRange h rfl rfl rfl (storeMoves_inRange moves) id
  | laneClose l =>
    exact keeps_inRange (Laws.Keeps.drainedTest (.refl _) l)
      (modLane_inRange (f := fun r => { r with closed := true }) h l (h.quota l))
  | laneOpen l => exact modLane_inRange h l (h.quota l)
  | laneReset l => exact keeps_inRange (keeps.resetLane l) h
  | setQuota l n low high => exact modLane_inRange h l ⟨low, high⟩
  | purgeLanding k => exact keeps_inRange (keeps.purgeLanding k) h
  | purgeSettling k => exact keeps_inRange (keeps.purgeSettling k) h
  | purgeReady k => exact keeps_inRange (keeps.purgeReady k) h
  | xportReset p => exact keeps_inRange (resetExchange_keeps s p) h
  | setMask p m => exact registers_inRange h rfl rfl rfl id id
  | setStall n low high =>
    obtain ⟨quota, reserve, _, store, index⟩ := (inRange_iff s).mp h
    exact (inRange_iff _).mpr ⟨quota, reserve, ⟨low, high⟩, store, index⟩
  | setReserve n high =>
    obtain ⟨quota, _, rest⟩ := (inRange_iff s).mp h
    exact keeps_inRange (Laws.Keeps.dispatchAct (.refl _)) ((inRange_iff _).mpr ⟨quota, high, rest⟩)
  | softReset => exact softReset_inRange h

theorem accessDoes_inRange {c : Instr} {s t : State} (does : AccessDoes c s t) (h : InRange s) : InRange t := by
  cases does with
  | nothing => exact h
  | command level code answer u running soft does =>
    have taken : InRange (given (s.modPins fun x => { x with storeWe := level }) code) :=
      registers_inRange h rfl rfl rfl id id
    exact registers_inRange (commandDoes_inRange does taken) rfl rfl rfl id id
  | access f g st reset index moves => exact registers_inRange h rfl rfl rfl (storeMoves_inRange moves) (index s.sup)
  | powerOn => exact registers_inRange (coldReset_inRange h _ _) rfl rfl rfl id id
  | pinReset => exact registers_inRange (coldReset_inRange h _ _) rfl rfl rfl id id
  | releaseReset => exact releaseReset_inRange h

theorem burstDoes_inRange {s t : State} (does : BurstDoes s t) (h : InRange s) : InRange t := by
  have finished (m : Memory) : InRange (burstOver s m) := registers_inRange h rfl rfl rfl id id
  cases does with
  | nothing => exact h
  | discarded m => exact finished m
  | wrote m _ r => exact keeps_inRange (Laws.Keeps.wrote (.refl _) r) (finished m)
  | readFault m _ r => exact keeps_inRange (Laws.Keeps.readFault (.refl _) r) (finished m)
  | readDone m _ data r => exact keeps_inRange (Laws.Keeps.readDone (.refl _) data r) (finished m)

theorem tick_inRange {s : State} (h : InRange s) : InRange s.tick := by
  rcases Laws.tick_cases s with same | ⟨u, keeps, _, ms⟩
  · exact same.symm ▸ h
  · obtain ⟨causes, st, n, moves, e⟩ := tickStore_eq u
    rw [ms, e]
    exact registers_inRange (keeps_inRange keeps h) rfl rfl rfl (storeMoves_inRange moves) id

/-- Settles O52, event by event: settings are set from operands in range, and every list of fixed length is replaced by one
of the same length. -/
theorem settingsInRangeKept : Obligations.SettingsInRangeKept := by
  unfold Obligations.SettingsInRangeKept
  intro s t h e
  rcases step_cases e with ⟨_, rfl⟩ | ⟨c, rest, _, e⟩
  · exact tick_inRange h
  · have taken : InRange (s.withPending rest) := registers_inRange h rfl rfl rfl id id
    rcases exec_cases e with links | ⟨upsets, rfl⟩ | does
    · exact keeps_inRange (Laws.exec_keeps c _ t links e) taken
    · exact burstDoes_inRange (burstComplete_does e) taken
    · exact accessDoes_inRange does taken

end Sys2Proof.SettingsInRange
end

