-- ==== Sys2Proof/Proofs/SourcesGuarded.lean ====
section
/-! PROOF. The protection of profile sources over a step: users, usable sources, the bytes of a used source and the
protection latch, first for one move of the store and then for every event. -/

namespace Sys2Proof.SourcesGuarded
open Sys2Proof.Machine Sys2Proof.Safety Sys2Proof.Access

/-- What `SourcesGuarded` says of the store alone. -/
structure StoreGuarded (st : Store) : Prop where
  used : ∀ src, st.inUse src = true → st.usable src = true
  operating : ∀ op b, st.operation = some (op, b) → (st.blocks.get b).state = .busy
  scanning : st.phase = .starting → st.operation = none ∧ ∀ b, (st.blocks.get b).state = .busy

/-- What stays of a store with its users: every record that has one afterwards, and the latch. -/
structure StoreKept (st st' : Store) : Prop where
  record : ∀ src, st'.inUse src = true → st'.record src = st.record src
  latch : st.latch = true → st'.latch = true

theorem StoreKept.refl (st : Store) : StoreKept st st := ⟨fun _ _ => rfl, id⟩

theorem guarded_iff (s : State) :
    SourcesGuarded s ↔ StoreGuarded s.store ∧ (s.pins.resetLow = true → s.store.phase = .starting) :=
  ⟨fun h => ⟨⟨h.used, h.operating, h.scanning⟩, h.inReset⟩, fun ⟨st, low⟩ => ⟨st.used, st.operating, st.scanning, low⟩⟩

/-! ### Users -/

theorem inUse_iff (st : Store) (src : Source) :
    st.inUse src = true ↔ 0 < st.pinCount src ∨ ∃ l, st.bindings.get l = some src := by
  rw [Store.inUse, Bool.or_eq_true, decide_eq_true_iff, List.any_eq_true]
  refine or_congr Iff.rfl ⟨?_, ?_⟩
  · rintro ⟨x, mem, e⟩
    obtain ⟨n, bound, rfl⟩ := List.getElem_of_mem mem
    exact ⟨⟨n, by simpa using bound⟩, by simpa [Laws.get_eq_getElem] using e⟩
  · rintro ⟨l, e⟩
    refine ⟨st.bindings.get l, ?_, decide_eq_true e⟩
    rw [Laws.get_eq_getElem, ← Vector.getElem_toList (h := by simp)]
    exact List.getElem_mem _

theorem inUse_congr {st st' : Store} (pins : st'.pinCount = st.pinCount) (bindings : st'.bindings = st.bindings)
    (src : Source) : st'.inUse src = st.inUse src := by
  rw [Store.inUse, Store.inUse, pins, bindings]

/-- A BUSY block has no user (R150, R160). -/
theorem busy_unused {st : Store} (g : StoreGuarded st) {b : BlockNo} (busy : (st.blocks.get b).state = .busy) :
    st.inUse (.block b) = false := by
  rw [← Bool.not_eq_true]
  intro used
  have valid : (st.blocks.get b).state = .valid := of_decide_eq_true (g.used _ used)
  rw [busy] at valid
  cases valid

/-- A source with a user is none of the blocks without one. -/
theorem block_ne {st : Store} {b c : BlockNo} (unused : st.inUse (.block b) = false)
    (used : st.inUse (.block c) = true) : b ≠ c := by
  rintro rfl
  rw [unused] at used
  cases used

section OneBlock
variable {st st' : Store} {b : BlockNo} {x : Block} (blocks : st'.blocks = put st.blocks b x)
  (staging : st'.staging = st.staging) (unused : st.inUse (.block b) = false)
include blocks staging unused

/-- A store changed in one block that has no user leaves the used sources as they are. -/
theorem usable_oneBlock {src : Source} (used : st.inUse src = true) : st'.usable src = st.usable src := by
  cases src with
  | staging => rw [Store.usable, Store.usable, staging]
  | block c => rw [Store.usable, Store.usable, blocks, Laws.get_put_ne _ _ (block_ne unused used)]

theorem record_oneBlock {src : Source} (used : st.inUse src = true) : st'.record src = st.record src := by
  cases src with
  | staging => rw [Store.record, Store.record, staging]
  | block c => rw [Store.record, Store.record, blocks, Laws.get_put_ne _ _ (block_ne unused used)]

end OneBlock

/-! ### Moves of the store -/

/-- A store changed in a block without users, whose operation keeps its block BUSY and whose phase is not STARTING. -/
theorem oneBlock_guarded {st st' : Store} (g : StoreGuarded st) {b : BlockNo} {x : Block}
    (unused : st.inUse (.block b) = false) (blocks : st'.blocks = put st.blocks b x)
    (staging : st'.staging = st.staging) (users : ∀ src, st'.inUse src = st.inUse src)
    (operating : ∀ op c, st'.operation = some (op, c) → (st'.blocks.get c).state = .busy)
    (phase : st'.phase ≠ .starting) : StoreGuarded st' where
  used src used := by
    rw [users] at used
    rw [usable_oneBlock blocks staging unused used]
    exact g.used src used
  operating := operating
  scanning starting := absurd starting phase

/-- The same change keeps what `StoreKept` says, if the latch is kept. -/
theorem oneBlock_kept {st st' : Store} {b : BlockNo} {x : Block} (unused : st.inUse (.block b) = false)
    (blocks : st'.blocks = put st.blocks b x) (staging : st'.staging = st.staging)
    (users : ∀ src, st'.inUse src = st.inUse src) (latch : st.latch = true → st'.latch = true) : StoreKept st st' where
  record src used := record_oneBlock blocks staging unused (users src ▸ used)
  latch := latch

/-- A change that leaves blocks, bindings, pin counts, operation and phase as they are, of a staging area that has no user
or stays usable. -/
theorem staging_guarded {st st' : Store} (g : StoreGuarded st) (blocks : st'.blocks = st.blocks)
    (users : ∀ src, st'.inUse src = st.inUse src) (operation : st'.operation = st.operation) (phase : st'.phase = st.phase)
    (staging : st.inUse .staging = true → st.staging.state = .validated → st'.staging.state = .validated) :
    StoreGuarded st' where
  used src used := by
    rw [users] at used
    have before := g.used src used
    cases src with
    | block b =>
      rw [Store.usable, blocks]
      exact before
    | staging => exact decide_eq_true (staging used (of_decide_eq_true before))
  operating op b h := blocks ▸ g.operating op b (operation ▸ h)
  scanning starting := by
    rw [operation, blocks]
    exact g.scanning (phase ▸ starting)

/-- A move of the store keeps its users' sources usable (R150, R154, R158, R160, R163). -/
theorem storeMoves_guarded {st st' : Store} (h : StoreMoves st st') (g : StoreGuarded st) : StoreGuarded st' := by
  cases h with
  | nothing => exact g
  | editEnable | stagingAddress | phaseLeft => exact staging_guarded g rfl (fun _ => rfl) rfl rfl fun _ => id
  | load | validate => exact staging_guarded g rfl (fun _ => rfl) rfl rfl fun _ _ => rfl
  | stagingWrite v unused =>
    refine staging_guarded g rfl (fun _ => rfl) rfl rfl fun used => ?_
    rw [unused] at used
    cases used
  | start op b idle unused staged =>
    refine oneBlock_guarded g unused rfl rfl (fun _ => rfl) (fun op' c e => ?_) (by cases op <;> exact nofun)
    obtain ⟨_, rfl⟩ := Prod.mk.inj (Option.some.inj e)
    exact congrArg Block.state (Laws.get_put_same _ _ _)
  | bind l target usable =>
    refine ⟨fun src used => ?_, g.operating, g.scanning⟩
    show st.usable src = true
    rcases (inUse_iff _ src).mp used with pinned | ⟨m, bound⟩
    · exact g.used src ((inUse_iff _ src).mpr (.inl pinned))
    · rw [Laws.get_put] at bound
      split at bound
      · exact usable src bound
      · exact g.used src ((inUse_iff _ src).mpr (.inr ⟨m, bound⟩))
  | endScan starting =>
    obtain ⟨noOperation, busy⟩ := g.scanning starting
    refine ⟨fun src used => ?_, fun op b e => ?_, nofun⟩
    · have before : st.inUse src = true := used
      cases src with
      | staging => exact g.used .staging before
      | block b =>
        rw [busy_unused g (busy b)] at before
        cases before
    · have none : st.operation = some (op, b) := e
      rw [noOperation] at none
      cases none
  | endWrite writing =>
    unfold Store.endWrite
    split
    · exact g
    · rename_i op b operation
      have busy := g.operating op b operation
      refine oneBlock_guarded g (busy_unused g busy) rfl rfl (fun _ => rfl) (fun op' c e => ?_) nofun
      have same : st.operation = some (op', c) := e
      rw [operation] at same
      obtain ⟨_, rfl⟩ := Prod.mk.inj (Option.some.inj same)
      exact (congrArg Block.state (Laws.get_put_same _ _ _)).trans busy
  | verifyPassed op b verifying operation =>
    have unused := busy_unused g (g.operating op b operation)
    exact oneBlock_guarded g unused rfl rfl (fun _ => rfl) nofun nofun
  | verifyFailed op b lost verifying operation =>
    have unused := busy_unused g (g.operating op b operation)
    exact oneBlock_guarded g unused rfl rfl (fun _ => rfl) nofun nofun

/-- A move of the store changes no byte of a source that has a user, and never clears the latch (R150, R168). -/
theorem storeMoves_kept {st st' : Store} (h : StoreMoves st st') (g : StoreGuarded st) : StoreKept st st' := by
  cases h with
  | nothing | editEnable | stagingAddress | phaseLeft | validate | bind => exact ⟨fun src _ => by cases src <;> rfl, id⟩
  | load b valid unused | stagingWrite v unused =>
    refine ⟨fun src used => ?_, id⟩
    cases src with
    | block c => rfl
    | staging =>
      have before : st.inUse .staging = true := used
      rw [unused] at before
      cases before
  | start op b idle unused staged => exact oneBlock_kept unused rfl rfl (fun _ => rfl) id
  | endScan starting =>
    refine ⟨fun src _ => ?_, id⟩
    cases src with
    | staging => rfl
    | block b =>
      exact congrArg (·.bytes) (SettingsInRange.mapBlocks_get st (fun x => { x with state := x.classify }) b)
  | endWrite writing =>
    unfold Store.endWrite
    split
    · exact .refl st
    · rename_i op b operation
      exact oneBlock_kept (busy_unused g (g.operating op b operation)) rfl rfl (fun _ => rfl) id
  | verifyPassed op b verifying operation =>
    exact oneBlock_kept (busy_unused g (g.operating op b operation)) rfl rfl (fun _ => rfl) id
  | verifyFailed op b lost verifying operation =>
    exact oneBlock_kept (busy_unused g (g.operating op b operation)) rfl rfl (fun _ => rfl) fun _ => rfl

/-! ### The events -/

/-- What every event but a power-on keeps: the sources guarded, and of the store what `StoreKept` says. -/
structure Guards (s t : State) : Prop where
  guarded : SourcesGuarded t
  kept : StoreKept s.store t.store

theorem guarded_of_same {s t : State} (g : SourcesGuarded s) (store : t.store = s.store)
    (low : t.pins.resetLow = s.pins.resetLow) : SourcesGuarded t := by
  rw [guarded_iff, store, low]
  exact (guarded_iff s).mp g

theorem Guards.of_same {s t : State} (g : SourcesGuarded s) (store : t.store = s.store)
    (low : t.pins.resetLow = s.pins.resetLow) : Guards s t :=
  ⟨guarded_of_same g store low, store ▸ .refl _⟩

theorem Guards.trans {s t u : State} (h : Guards s t) (k : Guards t u)
    (users : ∀ src, u.store.inUse src = true → t.store.inUse src = true) : Guards s u :=
  ⟨k.guarded, fun src used => (k.kept.record src used).trans (h.kept.record src (users src used)),
    fun latch => k.kept.latch (h.kept.latch latch)⟩

/-- An operation of the links, the memory or the coding side pins no source that cannot be latched (R17). -/
theorem Guards.of_keeps {s t : State} (k : Laws.Keeps s t) (g : SourcesGuarded s) : Guards s t := by
  obtain ⟨st, low⟩ := (guarded_iff s).mp g
  have blocks : t.store.blocks = s.store.blocks := by rw [k.store]
  have staging : t.store.staging = s.store.staging := by rw [k.store]
  have bindings : t.store.bindings = s.store.bindings := by rw [k.store]
  have operation : t.store.operation = s.store.operation := by rw [k.store]
  have phase : t.store.phase = s.store.phase := by rw [k.store]
  have latch : t.store.latch = s.store.latch := by rw [k.store]
  refine ⟨⟨fun src used => ?_, ?_, ?_, ?_⟩, fun src _ => ?_, fun h => latch ▸ h⟩
  · rw [k.usable_eq]
    rcases (inUse_iff _ src).mp used with pinned | ⟨l, bound⟩
    · rcases k.pinned src with fewer | usable
      · exact st.used src ((inUse_iff _ src).mpr (.inl (lt_of_lt_of_le pinned fewer)))
      · exact usable
    · exact st.used src ((inUse_iff _ src).mpr (.inr ⟨l, bindings ▸ bound⟩))
  · rw [operation, blocks]
    exact st.operating
  · rw [phase, operation, blocks]
    exact st.scanning
  · rw [k.pins, phase]
    exact low
  · cases src with
    | block b => rw [Store.record, Store.record, blocks]
    | staging => rw [Store.record, Store.record, staging]

theorem Guards.of_storeMoves {s t : State} (g : SourcesGuarded s) (moves : StoreMoves s.store t.store)
    (low : t.pins.resetLow = s.pins.resetLow) (high : t.store.phase = s.store.phase ∨ Running s) : Guards s t := by
  obtain ⟨st, inReset⟩ := (guarded_iff s).mp g
  refine ⟨(guarded_iff t).mpr ⟨storeMoves_guarded moves st, fun h => ?_⟩, storeMoves_kept moves st⟩
  rw [low] at h
  rcases high with same | running
  · rw [same]
    exact inReset h
  · exact absurd (running.symm.trans h) Bool.false_ne_true

theorem softReset_guards {s : State} (g : SourcesGuarded s) : Guards s s.softReset := by
  obtain ⟨st, low⟩ := (guarded_iff s).mp g
  have record (src : Source) : s.softReset.store.record src = s.store.record src := by
    cases src <;> rfl
  have usable (src : Source) : s.softReset.store.usable src = s.store.usable src := by
    cases src <;> rfl
  refine ⟨(guarded_iff _).mpr ⟨⟨fun src used => ?_, st.operating, st.scanning⟩, low⟩, fun src _ => record src, id⟩
  rw [usable]
  rcases (inUse_iff _ src).mp used with pinned | bound
  · have none : s.softReset.store.pinCount src = 0 := by
      cases src with
      | staging => rfl
      | block b => exact Vector.getElem_replicate _
    exact absurd none (Nat.ne_of_gt pinned)
  · exact st.used src ((inUse_iff _ src).mpr (.inr bound))

/-- The store right after power-on or a pin reset has no user, and every block is BUSY for the scan. -/
theorem started_inUse (blocks : Vector Block 8) (latch : Bool) (src : Source) :
    (Store.started blocks latch).inUse src = false := by
  rw [← Bool.not_eq_true, inUse_iff]
  rintro (pinned | ⟨l, bound⟩)
  · have none : (Store.started blocks latch).pinCount src = 0 := by
      cases src with
      | staging => rfl
      | block b => exact Vector.getElem_replicate _
    exact absurd none (Nat.ne_of_gt pinned)
  · have none : (Store.started blocks latch).bindings.get l = none := Vector.getElem_replicate _
    rw [none] at bound
    cases bound

theorem started_guarded (blocks : Vector Block 8) (latch : Bool) : StoreGuarded (Store.started blocks latch) where
  used src used := absurd used (by rw [started_inUse]; exact Bool.false_ne_true)
  operating := nofun
  scanning _ := ⟨rfl, fun b => congrArg (·.state) (SettingsInRange.started_get blocks latch b)⟩

theorem powerOn_guarded (s : State) : SourcesGuarded s.powerOn :=
  (guarded_iff _).mpr ⟨started_guarded s.store.blocks false, fun _ => rfl⟩

theorem pinReset_guards (s : State) : Guards s s.pinReset := by
  refine ⟨(guarded_iff _).mpr ⟨started_guarded s.store.blocks s.store.latch, fun _ => rfl⟩, fun src used => ?_, id⟩
  have unused : s.pinReset.store.inUse src = false := started_inUse s.store.blocks s.store.latch src
  rw [unused] at used
  cases used

theorem releaseReset_guards {s : State} (g : SourcesGuarded s) (low : s.pins.resetLow = true) :
    Guards s s.releaseReset := by
  obtain ⟨st, inReset⟩ := (guarded_iff s).mp g
  obtain ⟨noOperation, busy⟩ := st.scanning (inReset low)
  have block (b : BlockNo) : s.releaseReset.store.blocks.get b = { s.store.blocks.get b with state := .busy } :=
    SettingsInRange.mapBlocks_get s.store (fun x => { x with state := .busy }) b
  refine ⟨⟨fun src used => ?_, fun op b e => ?_, fun _ => ⟨noOperation, fun b => congrArg (·.state) (block b)⟩, nofun⟩,
    fun src _ => ?_, id⟩
  · have before : s.store.inUse src = true := used
    cases src with
    | staging => exact st.used .staging before
    | block b =>
      rw [busy_unused st (busy b)] at before
      cases before
  · exact congrArg (·.state) (block b)
  · cases src with
    | staging => rfl
    | block b => exact congrArg (·.bytes) (block b)

theorem commandDoes_guards {code : Word} {s t : State} (does : CommandDoes code s t) (g : SourcesGuarded s)
    (running : Running s) : Guards s t := by
  have keeps := Laws.Keeps.refl s
  cases does with
  | nothing | laneOpen | setQuota | setMask | setStall => exact .of_same g rfl rfl
  | store moves => exact .of_storeMoves g moves rfl (.inr running)
  | laneClose l =>
    exact .trans (.of_same (t := s.modLane l fun r => { r with closed := true }) g rfl rfl)
      (.of_keeps (Laws.Keeps.drainedTest (.refl _) l) (guarded_of_same g rfl rfl))
      fun src used => by
        unfold State.drainedTest at used
        split at used <;> exact used
  | laneReset l => exact .of_keeps (keeps.resetLane l) g
  | purgeLanding k => exact .of_keeps (keeps.purgeLanding k) g
  | purgeSettling k => exact .of_keeps (keeps.purgeSettling k) g
  | purgeReady k => exact .of_keeps (keeps.purgeReady k) g
  | xportReset p => exact .of_keeps (resetExchange_keeps s p) g
  | setReserve n =>
    have acts : Laws.Behind (s.modPages fun p => { p with headReserve := n })
        (s.modPages fun p => { p with headReserve := n }).dispatchAct := Laws.Behind.dispatchAct (.refl _)
    exact .of_same g acts.store (congrArg (·.resetLow) acts.pins)
  | softReset => exact softReset_guards g

theorem accessDoes_guards {c : Instr} {s t : State} (does : AccessDoes c s t) (g : SourcesGuarded s) :
    SourcesGuarded t ∧ (∀ src, t.store.inUse src = true → t.store.record src = s.store.record src) ∧
      (c ≠ .powerOn → s.store.latch = true → t.store.latch = true) := by
  have of_guards {t : State} (h : Guards s t) : SourcesGuarded t ∧
      (∀ src, t.store.inUse src = true → t.store.record src = s.store.record src) ∧
        (c ≠ .powerOn → s.store.latch = true → t.store.latch = true) :=
    ⟨h.guarded, h.kept.record, fun _ => h.kept.latch⟩
  cases does with
  | nothing => exact of_guards (.of_same g rfl rfl)
  | command level code answer u running soft does =>
    have taken : SourcesGuarded (given (s.modPins fun x => { x with storeWe := level }) code) :=
      guarded_of_same g rfl rfl
    obtain ⟨guarded, kept⟩ := commandDoes_guards does taken running
    exact of_guards ⟨guarded_of_same guarded rfl rfl, kept⟩
  | access f p st reset index moves high => exact of_guards (.of_storeMoves g moves (reset _) high)
  | powerOn power =>
    refine ⟨powerOn_guarded s, fun src used => ?_, fun other => absurd power other⟩
    have unused : s.powerOn.store.inUse src = false := started_inUse s.store.blocks false src
    rw [unused] at used
    cases used
  | pinReset => exact of_guards (pinReset_guards s)
  | releaseReset low => exact of_guards (releaseReset_guards g low)

theorem burstDoes_guards {s t : State} (does : BurstDoes s t) (g : SourcesGuarded s) : Guards s t := by
  have finished (m : Memory) : Guards s (burstOver s m) := .of_same g rfl rfl
  have used {m : Memory} {u : State} (k : Laws.Keeps (burstOver s m) u) : Guards s u :=
    ⟨(Guards.of_keeps k (finished m).guarded).guarded, (Guards.of_keeps k (finished m).guarded).kept⟩
  cases does with
  | nothing => exact .of_same g rfl rfl
  | discarded m => exact finished m
  | wrote m _ r => exact used (Laws.Keeps.wrote (.refl _) r)
  | readFault m _ r => exact used (Laws.Keeps.readFault (.refl _) r)
  | readDone m _ data r => exact used (Laws.Keeps.readDone (.refl _) data r)

/-- A move of the store by time alone leaves the users as they are. -/
theorem tickStore_inUse (s : State) (src : Source) : s.tickStore.store.inUse src = s.store.inUse src := by
  have ended (st : Store) : st.endWrite.inUse src = st.inUse src := by
    unfold Store.endWrite
    split <;> rfl
  unfold State.tickStore
  split
  · rfl
  · split
    · unfold State.endPhase
      split
      · rfl
      · rfl
      · exact ended s.store
      · exact ended s.store
      · unfold State.endVerify
        split
        · rfl
        · dsimp only
          split <;> rfl
    · rfl

theorem tick_guards {s : State} (g : SourcesGuarded s) : Guards s s.tick := by
  rcases Laws.tick_cases s with same | ⟨u, keeps, running, ms⟩
  · rw [same]
    exact .of_same g rfl rfl
  · obtain ⟨causes, st, n, moves, e⟩ := tickStore_eq u
    have before : Guards s u := .of_keeps keeps g
    have high : Running u := by
      rw [Running, keeps.pins]
      exact running
    have after : Guards u u.tickStore := by
      rw [e]
      exact .of_storeMoves before.guarded moves rfl (.inr high)
    rw [ms]
    exact before.trans after fun src used => by rwa [tickStore_inUse] at used

/-- Settles O53: no move of the store touches a source that has a user, and no other event but a reset touches the store
beyond pin counts of sources that can be latched. -/
theorem sourcesGuardedKept : Obligations.SourcesGuardedKept := by
  unfold Obligations.SourcesGuardedKept
  intro s t g e
  rcases step_cases e with ⟨_, rfl⟩ | ⟨c, rest, front, e⟩
  · obtain ⟨guarded, kept⟩ := tick_guards g
    exact ⟨guarded, fun src _ => kept.record src, fun _ => kept.latch⟩
  · have taken : SourcesGuarded (s.withPending rest) := guarded_of_same g rfl rfl
    have of_guards (h : Guards (s.withPending rest) t) : SourcesGuarded t ∧
        (∀ src, s.store.inUse src = true → t.store.inUse src = true → t.store.record src = s.store.record src) ∧
          (s.pending.head? ≠ some .powerOn → s.store.latch = true → t.store.latch = true) :=
      ⟨h.guarded, fun src _ => h.kept.record src, fun _ => h.kept.latch⟩
    rcases exec_cases e with links | ⟨upsets, rfl⟩ | does
    · exact of_guards (.of_keeps (Laws.exec_keeps c _ t links e) taken)
    · exact of_guards (burstDoes_guards (burstComplete_does e) taken)
    · obtain ⟨guarded, record, latch⟩ := accessDoes_guards does taken
      refine ⟨guarded, fun src _ => record src, fun other => latch ?_⟩
      rintro rfl
      rw [front] at other
      exact other rfl

end Sys2Proof.SourcesGuarded
end

