-- ==== Sys2Proof/Proofs/KeptBehind.lean ====
section
/-! PROOF. What works behind reception (settling, grants, coding jobs, cancellations) changes the state in a few ways only. A
condition that each of these ways keeps is kept by every operation made of them. -/

namespace Sys2Proof.Keeping
open Sys2Proof.Machine

/-- A condition on states that every single change made behind reception keeps: changes of requests, pools, job queue and
units, of the faces' and renditions' records one by one, a settled item made READY, and a grant. -/
structure KeptBehind (P : State → Prop) : Prop where
  modArbiter : ∀ {s : State} (f : Arbiter → Arbiter), P s → P (s.modArbiter f)
  withStrips : ∀ {s : State} (l : List Nat), P s → P (s.withStrips l)
  withJobs : ∀ {s : State} (l : List Job), P s → P (s.withJobs l)
  modPages : ∀ {s : State} (f : PagePool → PagePool), P s → P (s.modPages f)
  modUnit : ∀ {s : State} (u : UnitNo) (f : CodingUnit → CodingUnit), P s → P (s.modUnit u f)
  faces : ∀ {s : State} (k : Slot) (f : Face → Face), P s →
    P (s.modItem k fun i => { i with faces := i.faces.map f })
  renditions : ∀ {s : State} (k : Slot) (f : Rendition → Rendition), P s →
    P (s.modItem k fun i => { i with renditions := i.renditions.map f })
  settled : ∀ {s : State} (k : Slot), (s.items.get k).settled = true → P s →
    P (s.modItem k fun i => { i with state := .ready, disposition := some i.judge })
  granted : ∀ {s : State} (k : Slot) (c : Claim), s.chooseHead = some k → s.chooseClaim k = some c → P s →
    P (s.grant c k)

namespace KeptBehind
variable {P : State → Prop} (kept : KeptBehind P) {s : State}
include kept

theorem request (h : P s) (r : Requester) : P (s.request r) := kept.modArbiter _ h
theorem withdraw (h : P s) (r : Requester) : P (s.withdraw r) := kept.modArbiter _ h

omit kept in
theorem foldl {α : Type} {f : State → α → State} (step : ∀ {t : State} (a : α), P t → P (f t a)) (l : List α) (h : P s) :
    P (l.foldl f s) := by
  induction l generalizing s with
  | nil => exact h
  | cons a l ih => exact ih (step a h)

/-! ### Items and the release arbiter -/

theorem returnStrips (h : P s) (k : Slot) (face : FaceKind) : P (s.returnStrips k face) := by
  unfold State.returnStrips
  split
  · exact h
  · split
    · exact kept.faces k _ (kept.withStrips _ h)
    · exact h

theorem returnAllStrips (h : P s) (k : Slot) : P (s.returnAllStrips k) :=
  foldl (P := P) (f := fun t face => t.returnStrips k face) (fun face h => kept.returnStrips h k face) _ h

theorem grantUpTo (n : Nat) (h : P s) : P (State.grantUpTo n s) := by
  induction n generalizing s with
  | zero => exact h
  | succ n ih =>
    unfold State.grantUpTo
    split
    · exact h
    · rename_i k head
      split
      · exact h
      · rename_i c claim
        exact ih (kept.granted k c head claim h)

theorem releaseAct (h : P s) : P s.releaseAct := kept.grantUpTo _ h

theorem settle (h : P s) (k : Slot) : P (s.settle k) := by
  unfold State.settle
  split
  · rename_i settled
    have ready := kept.settled k settled h
    dsimp only
    split
    · exact kept.releaseAct ready
    · exact ready
  · exact h

/-! ### Jobs, coding units and the dispatcher -/

theorem modRendition (h : P s) (j : Job) (f : Rendition → Rendition) : P (s.modRendition j f) := kept.renditions _ _ h

theorem drawPage (h : P s) (u : UnitNo) (j : Job) : P (s.drawPage u j) := by
  unfold State.drawPage
  split
  · exact h
  · exact kept.modUnit _ _ (kept.modRendition (kept.modPages _ h) j _)

theorem giveUpPages (h : P s) (u : UnitNo) (j : Job) : P (s.giveUpPages u j) :=
  kept.modUnit _ _ (kept.modRendition (kept.modPages _ h) j _)

theorem freeUndrawn (h : P s) (u : UnitNo) : P (s.freeUndrawn u) := kept.modUnit _ _ (kept.modPages _ h)

theorem idleUnit (h : P s) (u : UnitNo) : P (s.idleUnit u) := kept.modUnit _ _ (kept.withdraw h _)

theorem afterJob (h : P s) (j : Job) : P (s.afterJob j) := kept.settle (kept.returnStrips h _ _) _

theorem failJob (h : P s) (u : UnitNo) (j : Job) (final : RenditionState) : P (s.failJob u j final) :=
  kept.afterJob (kept.idleUnit (kept.modRendition (kept.giveUpPages h u j) j _) u) j

theorem doneJob (h : P s) (u : UnitNo) (j : Job) : P (s.doneJob u j) :=
  kept.afterJob (kept.idleUnit (kept.modRendition (kept.freeUndrawn h u) j _) u) j

theorem placeByte (h : P s) {u : UnitNo} {j : Job} {b : Byte} {t : State} (e : s.placeByte u j b = some t) : P t := by
  unfold State.placeByte at e
  dsimp only at e
  split at e
  · cases e
  · obtain rfl := Option.some.inj e
    split
    · exact kept.modUnit _ _ (kept.drawPage h u j)
    · exact kept.modUnit _ _ h

theorem placeBytes (u : UnitNo) (j : Job) (l : List Byte) (h : P s) :
    P (Laws.Behind.resultOf (State.placeBytes u j l s)) := by
  induction l generalizing s with
  | nil =>
    simp only [State.placeBytes, Laws.Behind.resultOf]
    exact kept.modUnit _ _ h
  | cons b bs ih =>
    unfold State.placeBytes
    split
    · simp only [Laws.Behind.resultOf]
      exact kept.modUnit _ _ h
    · split
      · exact h
      · rename_i t e
        exact ih (kept.placeByte h e)

theorem nextRequest (h : P s) (u : UnitNo) (j : Job) : P (s.nextRequest u j) := kept.request (kept.modUnit _ _ h) _

theorem startRung (h : P s) (u : UnitNo) (j : Job) (rung : Nat) : P (s.startRung u j rung) :=
  kept.drawPage (kept.modUnit _ _ h) u j

theorem stepDown (h : P s) (u : UnitNo) (j : Job) : P (s.stepDown u j) :=
  kept.startRung (kept.modUnit _ _ (kept.modRendition (kept.modPages _ (kept.withdraw h _)) j _)) u j _

theorem runUnit (n : Nat) (h : P s) (u : UnitNo) (j : Job) : P (State.runUnit n s u j) := by
  induction n generalizing s with
  | zero =>
    unfold State.runUnit
    have placed := kept.placeBytes u j (s.units.get u).unplaced h
    split <;> rename_i t e <;> rw [e] at placed
    · exact kept.nextRequest placed u j
    · exact kept.failJob placed u j _
  | succ n ih =>
    unfold State.runUnit
    have placed := kept.placeBytes u j (s.units.get u).unplaced h
    split <;> rename_i t e <;> rw [e] at placed
    · exact kept.nextRequest placed u j
    · split
      · exact ih (kept.stepDown placed u j)
      · exact kept.failJob placed u j _

theorem startJob (h : P s) (u : UnitNo) (j : Job) : P (s.startJob u j) :=
  kept.runUnit _
    (kept.startRung (kept.modUnit _ _ (kept.modRendition (kept.modPages _ (kept.withJobs _ h)) j _)) u j 0) u j

theorem startUpTo (n : Nat) (h : P s) : P (State.startUpTo n s) := by
  induction n generalizing s with
  | zero => exact h
  | succ n ih =>
    unfold State.startUpTo
    split
    · exact ih (kept.startJob h _ _)
    · exact h

theorem dispatchAct (h : P s) : P s.dispatchAct := kept.startUpTo _ h

theorem cancelRendition (h : P s) (j : Job) : P (s.cancelRendition j) := by
  unfold State.cancelRendition
  split
  · exact h
  · split
    · exact kept.modRendition h j _
    · exact kept.modRendition (kept.withJobs _ h) j _
    · split
      · exact kept.idleUnit (kept.modRendition (kept.giveUpPages h _ j) j _) _
      · exact kept.modRendition h j _
    all_goals exact h

theorem cancelRenditions (h : P s) (k : Slot) : P (s.cancelRenditions k) :=
  foldl (P := P) (f := State.cancelRendition) (fun j h => kept.cancelRendition h j) _ h

theorem rejectRenditions (h : P s) (k : Slot) : P (s.rejectRenditions k) :=
  kept.dispatchAct (kept.settle (kept.returnAllStrips (kept.cancelRenditions h k) k) k)

theorem ifIdleDispatch (h : P s) (u : UnitNo) : P (s.ifIdleDispatch u) := by
  unfold State.ifIdleDispatch
  split
  · exact kept.dispatchAct h
  · exact h

end KeptBehind

/-- A slot that is FREE, its record emptied, stays so behind reception (R1). -/
theorem keptBehind_empty (k : Slot) : KeptBehind fun s => s.items.get k = Item.empty where
  modArbiter _ h := h
  withStrips _ h := h
  withJobs _ h := h
  modPages _ h := h
  modUnit _ _ h := h
  faces {s} j f h := by
    rw [Laws.modItem_items, Laws.get_put]
    split
    · rename_i e
      rw [e, h]
      rfl
    · exact h
  renditions {s} j f h := by
    rw [Laws.modItem_items, Laws.get_put]
    split
    · rename_i e
      rw [e, h]
      rfl
    · exact h
  settled {s} j settled h := by
    rw [Laws.modItem_items, Laws.get_put]
    split
    · rename_i e
      rw [e, h] at settled
      cases settled
    · exact h
  granted {s} j c head _ h := by
    have other : j ≠ k := by
      rintro rfl
      have ready := Laws.Behind.chooseHead_ready head
      rw [h] at ready
      cases ready
    have placed : (s.grant c j).items = put s.items j ((s.items.get j).claimBy c.port) := rfl
    rw [placed, Laws.get_put_ne _ _ other]
    exact h

end Sys2Proof.Keeping
end

