-- ==== Sys2Proof/Proofs/LinkEvents.lean ====
section
/-! PROOF. What the commands of the scan links, the exchange links and the memory's grants can do, and what a millisecond
does to each port, said once for the invariants. -/

namespace Sys2Proof.LinkEvents
open Sys2Proof.Machine Sys2Proof.Safety

/-- What a command of the links or a grant of the memory can do. -/
inductive LinkDoes (c : Instr) (s : State) : State → Prop
  | nothing : LinkDoes c s s
  | frameWaits (l : Lane) (f : ScanFrame) (running : Running s) (up : (s.scan.get l).state ≠ .down) :
      LinkDoes c s (s.modScan l fun p => { p with gathering := [], waiting := p.waiting ++ [f] })
  | frameTaken (l : Lane) (f : ScanFrame) (running : Running s)
      (clear : f.isRow = true ∨ (s.scan.get l).held = none) :
      LinkDoes c s ((s.modScan l fun p => { p with gathering := [] }).takeFrame l f)
  | scanLevel (l : Lane) (link : Bool) (low : s.pins.resetLow = true) :
      LinkDoes c s (s.modScan l fun p => { p with link := link })
  | scanLinkUp (l : Lane) (running : Running s) (down : (s.scan.get l).state = .down) :
      LinkDoes c s ((s.modScan l fun p =>
        { p with link := true, state := .idle, gathering := [], waiting := [], held := none, produced := [],
                 begun := false }).setCause .link)
  | scanLinkLost (l : Lane) (running : Running s) : LinkDoes c s (s.loseScanLink l)
  | pocketExpires (l : Lane) (running : Running s) : LinkDoes c s (s.expirePocket l)
  | memoryGrant (running : Running s) : LinkDoes c s s.memoryGrant
  | segmentLeaves (p : Port) (running : Running s) : LinkDoes c s (s.segmentLeaves p)
  | takeClaim (p : Port) (mask : Byte) (running : Running s) : LinkDoes c s (s.takeClaim p mask)
  | cancel (p : Port) (running : Running s) (waiting : (s.exchange.get p).state = .waiting) :
      LinkDoes c s (((s.dropClaim p).exchangeProduce p .cancelled).modExchange p fun x => { x with state := .idle })
  | hold (p : Port) (running : Running s) :
      LinkDoes c s (s.modExchange p fun x => { x with holdPending := true })
  | go (p : Port) (running : Running s) (held : (s.exchange.get p).state = .held) :
      LinkDoes c s ((s.modExchange p fun x => { x with state := .sending, stall := none }).streamOn p)
  | delivered (p : Port) (running : Running s) (named : c = .delivered p) : LinkDoes c s (s.takeDelivered p)
  | returned (p : Port) (running : Running s) : LinkDoes c s (s.takeReturn p)
  | stallExpires (p : Port) (running : Running s) : LinkDoes c s (s.expireStall p)
  | exchangeLevel (p : Port) (link : Bool) (low : s.pins.resetLow = true) :
      LinkDoes c s (s.modExchange p fun x => { x with link := link })
  | exchangeLinkUp (p : Port) (running : Running s) (down : (s.exchange.get p).state = .down) :
      LinkDoes c s ((s.modExchange p fun x =>
        { x with link := true, state := .idle, gathering := [], store := [], produced := [],
                 begun := false }).setCause .link)
  | exchangeLinkLost (p : Port) (running : Running s) : LinkDoes c s (s.loseExchangeLink p)

section Events
variable (c : Instr) (s : State)

/-- An event that waits for RESET_N to be high does nothing while it is low. -/
theorem whileRunning_does {f : State → State} (h : Running s → LinkDoes c s (f s)) : LinkDoes c s (s.whileRunning f) := by
  by_cases low : s.pins.resetLow = true
  · rw [Laws.whileRunning_reset low]
    exact .nothing
  · have running : Running s := Bool.eq_false_iff.mpr low
    rw [Laws.whileRunning_running running]
    exact h running

/-- A judged frame is not received, waits, or is taken (R33). -/
theorem frameArrives_does (l : Lane) (f : ScanFrame) : LinkDoes c s (s.frameArrives l f) := by
  refine whileRunning_does c s fun running => ?_
  dsimp only
  split
  · exact .nothing
  · rename_i up
    split
    · have merged : ((s.modScan l fun p => { p with gathering := [] }).modScan l fun p =>
          { p with waiting := p.waiting ++ [f] }) =
          s.modScan l fun p => { p with gathering := [], waiting := p.waiting ++ [f] } := by
        simp only [State.modScan, Laws.get_put_same, Laws.put_put]
      rw [merged]
      exact .frameWaits l f running up
    · rename_i now
      refine .frameTaken l f running ?_
      obtain ⟨_, clear⟩ := not_or.mp now
      by_cases row : f.isRow = true
      · exact .inl row
      · exact .inr (Option.not_isSome_iff_eq_none.mp fun held => clear ⟨Bool.eq_false_iff.mpr row, held⟩)

end Events

/-- A command of the links or the memory's grants does one of these. -/
theorem exec_linkDoes {c : Instr} {s t : State} (links : Laws.behindLinks c = true) (h : exec c s = .next t) :
    LinkDoes c s t := by
  cases c <;> (try exact absurd links Bool.false_ne_true) <;> obtain rfl := Laws.next_inj h
  case itemOpen => exact frameArrives_does _ s _ _
  case faceOpen => exact frameArrives_does _ s _ _
  case row => exact frameArrives_does _ s _ _
  case faceClose => exact frameArrives_does _ s _ _
  case itemClose => exact frameArrives_does _ s _ _
  case itemAbandon => exact frameArrives_does _ s _ _
  case scanFailedFrame => exact frameArrives_does _ s _ _
  case scanLinkUp l =>
    split
    · rename_i low
      exact .scanLevel l true low
    · rename_i high
      split
      · rename_i down
        exact .scanLinkUp l (Bool.eq_false_iff.mpr high) down
      · exact .nothing
  case scanLinkLost l =>
    split
    · rename_i low
      exact .scanLevel l false low
    · rename_i high
      split
      · exact .nothing
      · exact .scanLinkLost l (Bool.eq_false_iff.mpr high)
  case pocketTimerExpiry l => exact whileRunning_does _ s (.pocketExpires l)
  case memoryGrant => exact whileRunning_does _ s .memoryGrant
  case segmentBoundary p => exact whileRunning_does _ s (.segmentLeaves p)
  case claim p mask =>
    refine whileRunning_does _ s fun running => ?_
    split
    · exact .takeClaim p mask running
    · exact .nothing
  case cancel p =>
    refine whileRunning_does _ s fun running => ?_
    split
    · rename_i waiting
      exact .cancel p running waiting
    · exact .nothing
  case hold p =>
    refine whileRunning_does _ s fun running => ?_
    split
    · exact .hold p running
    · exact .nothing
  case go p =>
    refine whileRunning_does _ s fun running => ?_
    split
    · rename_i held
      exact .go p running held
    · exact .nothing
  case delivered p => exact whileRunning_does _ s fun running => .delivered p running rfl
  case returnItem p => exact whileRunning_does _ s (.returned p)
  case exchangeFailedFrame => exact .nothing
  case stallTimerExpiry p => exact whileRunning_does _ s (.stallExpires p)
  case exchangeLinkUp p =>
    split
    · rename_i low
      exact .exchangeLevel p true low
    · rename_i high
      split
      · rename_i down
        exact .exchangeLinkUp p (Bool.eq_false_iff.mpr high) down
      · exact .nothing
  case exchangeLinkLost p =>
    split
    · rename_i low
      exact .exchangeLevel p false low
    · rename_i high
      split
      · exact .nothing
      · exact .exchangeLinkLost p (Bool.eq_false_iff.mpr high)

/-! ### A millisecond -/

/-- A condition that the single acts of a millisecond keep, the store's own apart. -/
structure KeptByTick (P : State → Prop) : Prop where
  sendScan : ∀ {s : State} (l : Lane), P s → P (s.sendScan l)
  sendExchange : ∀ {s : State} (p : Port) (rest : List ExchangeMsg), P s →
    P (s.modExchange p fun x => { x with produced := rest, begun := false })
  pocketFalls : ∀ {s : State} (l : Lane) (t : PocketTimer), (s.scan.get l).timer.isSome = true → P s →
    P (s.modScan l fun p => { p with timer := some t })
  pocketExpires : ∀ {s : State} (l : Lane), P s → P (s.expirePocket l)
  stallFalls : ∀ {s : State} (p : Port) (n : Nat), (s.exchange.get p).stall.isSome = true → P s →
    P (s.modExchange p fun x => { x with stall := some n })
  stallExpires : ∀ {s : State} (p : Port), P s → P (s.expireStall p)

namespace KeptByTick
variable {P : State → Prop} (kept : KeptByTick P) {s : State}
include kept

theorem sendOn (h : P s) (p : Port) : P (s.sendExchange p) := by
  unfold State.sendExchange
  split
  · exact h
  · split
    · exact h
    · exact kept.sendExchange p _ h

theorem tickPocket (h : P s) (l : Lane) : P (s.tickPocket l) := by
  unfold State.tickPocket
  split
  · exact h
  · rename_i t running
    split
    · exact kept.pocketExpires l h
    · exact kept.pocketFalls l _ (Option.isSome_iff_exists.mpr ⟨t, running⟩) h

theorem tickStall (h : P s) (p : Port) : P (s.tickStall p) := by
  unfold State.tickStall
  split
  · exact h
  · rename_i n running
    split
    · exact kept.stallExpires p h
    · exact kept.stallFalls p _ (Option.isSome_iff_exists.mpr ⟨n, running⟩) h

/-- A millisecond: nothing while RESET_N is low, else the ports' acts and then the store's ms. -/
theorem tick (h : P s) : s.tick = s ∨ ∃ u, P u ∧ Laws.Keeps s u ∧ Running s ∧ s.tick = u.tickStore := by
  unfold State.tick State.whileRunning
  split
  · exact .inl rfl
  · rename_i high
    refine .inr ⟨_, ?_, Laws.tickPorts_keeps s, Bool.eq_false_iff.mpr high, rfl⟩
    exact kept.tickStall (kept.tickStall (kept.tickPocket (kept.tickPocket (kept.tickPocket (kept.tickPocket
      (kept.sendOn (kept.sendOn (kept.sendScan 3 (kept.sendScan 2 (kept.sendScan 1 (kept.sendScan 0 h))))
        0) 1) 0) 1) 2) 3) 0) 1

end KeptByTick

end Sys2Proof.LinkEvents
end

