-- ==== Sys2Proof/Proofs/ItemsContinue.lean ====
section
/-! PROOF. What a live item keeps over a step: every operation lets each item continue, but for DELIVERED at the port that
holds it and the resets, which empty its slot. -/

namespace Sys2Proof.ItemsContinue
open Sys2Proof.Machine Sys2Proof.Safety Sys2Proof.Access Sys2Proof.LinkEvents

/-! ### Records that continue -/

theorem continues_refl (i : Item) : Continues i i where
  lane := rfl
  stamp := rfl
  bundle := rfl
  position := rfl
  facesExpected := rfl
  source := rfl
  name := rfl
  edition := rfl
  trial := rfl
  findings := List.prefix_refl _
  overflow := id
  purged := id
  delivered := id
  pocket _ := ⟨rfl, rfl, rfl⟩
  retries := Nat.min_le_left _ _

theorem continues_trans {i j k : Item} (h : Continues i j) (g : Continues j k) : Continues i k where
  lane := g.lane.trans h.lane
  stamp := g.stamp.trans h.stamp
  bundle := g.bundle.trans h.bundle
  position := g.position.trans h.position
  facesExpected := g.facesExpected.trans h.facesExpected
  source := g.source.trans h.source
  name := g.name.trans h.name
  edition := g.edition.trans h.edition
  trial := g.trial.trans h.trial
  findings := h.findings.trans g.findings
  overflow e := g.overflow (h.overflow e)
  purged e := g.purged (h.purged e)
  delivered e := g.delivered (h.delivered e)
  pocket decided := by
    obtain ⟨pocket, reason, latency⟩ := h.pocket decided
    obtain ⟨pocket', reason', latency'⟩ := g.pocket (pocket ▸ decided)
    exact ⟨pocket'.trans pocket, reason'.trans reason, latency'.trans latency⟩
  retries := by
    have first := h.retries
    have second := g.retries
    omega

/-- A record that differs in its state, faces, renditions, holder and disposition at most, with no fewer retries. -/
theorem continues_of_rest {i j : Item} (h : j = { i with
    state := j.state, faces := j.faces, renditions := j.renditions, holder := j.holder, disposition := j.disposition }) :
    Continues i j := by
  rw [h]
  exact { continues_refl i with }

/-- A live record goes on as a live record. -/
def GoesOn (i j : Item) : Prop := i.state ≠ .free → j.state ≠ .free ∧ Continues i j

theorem goesOn_trans {i j k : Item} (h : GoesOn i j) (g : GoesOn j k) : GoesOn i k := fun live =>
  ⟨(g (h live).1).1, continues_trans (h live).2 (g (h live).1).2⟩

theorem goesOn_of_rest {i j : Item} (h : j = { i with
    state := j.state, faces := j.faces, renditions := j.renditions, holder := j.holder, disposition := j.disposition })
    (state : i.state ≠ .free → j.state ≠ .free) : GoesOn i j := fun live => ⟨state live, continues_of_rest h⟩

theorem goesOn_moves {i j : Item} (m : Laws.Moves i j) : GoesOn i j := by
  refine goesOn_of_rest m.rest fun live => ?_
  rcases m.state with same | ⟨_, ready | claimed⟩ | ⟨_, claimed⟩
  · exact same ▸ live
  · rw [ready]
    exact nofun
  · rw [claimed]
    exact nofun
  · rw [claimed]
    exact nofun

theorem goesOn_addFinding (i : Item) (f : Finding) : GoesOn i (i.addFinding f) := by
  intro live
  unfold Item.addFinding
  split
  · exact ⟨live, { continues_refl i with findings := List.prefix_append _ _ }⟩
  · exact ⟨live, { continues_refl i with overflow := fun _ => rfl }⟩

theorem goesOn_decided {i : Item} (pending : i.pocket = .pending) (pocket : Pocket) (reason : Option FindingKind)
    (latency : Option Nat) : GoesOn i { i with pocket := pocket, reason := reason, latency := latency } :=
  fun live => ⟨live, { continues_refl i with pocket := fun decided => absurd pending decided }⟩

/-! ### States in which a slot's item goes on -/

/-- The item of slot `k`, if it lives in `s`, goes on in `t`. -/
def Stays (k : Slot) (s t : State) : Prop := GoesOn (s.items.get k) (t.items.get k)

variable {k : Slot} {s t : State}

theorem Stays.refl (k : Slot) (s : State) : Stays k s s := fun live => ⟨live, continues_refl _⟩

theorem Stays.trans {u : State} (h : Stays k s t) (g : Stays k t u) : Stays k s u := goesOn_trans h g

namespace Stays

theorem same {u : State} (h : Stays k s t) (items : u.items = t.items) : Stays k s u := by
  rw [Stays, items]
  exact h

theorem modArbiter (h : Stays k s t) (f : Arbiter → Arbiter) : Stays k s (t.modArbiter f) := h
theorem withStrips (h : Stays k s t) (l : List Nat) : Stays k s (t.withStrips l) := h
theorem withJobs (h : Stays k s t) (l : List Job) : Stays k s (t.withJobs l) := h
theorem withClaims (h : Stays k s t) (l : List Claim) : Stays k s (t.withClaims l) := h
theorem withStamp (h : Stays k s t) (n : Long) : Stays k s (t.withStamp n) := h
theorem withFree (h : Stays k s t) (n : Nat) : Stays k s (t.withFree n) := h
theorem modPages (h : Stays k s t) (f : PagePool → PagePool) : Stays k s (t.modPages f) := h
theorem modUnit (h : Stays k s t) (u : UnitNo) (f : CodingUnit → CodingUnit) : Stays k s (t.modUnit u f) := h
theorem modScan (h : Stays k s t) (l : Lane) (f : ScanPort → ScanPort) : Stays k s (t.modScan l f) := h
theorem modLane (h : Stays k s t) (l : Lane) (f : LaneRec → LaneRec) : Stays k s (t.modLane l f) := h
theorem modExchange (h : Stays k s t) (p : Port) (f : ExchangePort → ExchangePort) : Stays k s (t.modExchange p f) := h
theorem modStore (h : Stays k s t) (f : Store → Store) : Stays k s (t.modStore f) := h
theorem setCause (h : Stays k s t) (c : Cause) : Stays k s (t.setCause c) := h
theorem request (h : Stays k s t) (r : Requester) : Stays k s (t.request r) := h
theorem withdraw (h : Stays k s t) (r : Requester) : Stays k s (t.withdraw r) := h
theorem scanProduce (h : Stays k s t) (l : Lane) (m : ScanMsg) : Stays k s (t.scanProduce l m) := h
theorem exchangeProduce (h : Stays k s t) (p : Port) (m : ExchangeMsg) : Stays k s (t.exchangeProduce p m) := h
theorem holdRow (h : Stays k s t) (l : Lane) (n : Nat) (pixels : List Byte) : Stays k s (t.holdRow l n pixels) := h
theorem dropClaim (h : Stays k s t) (p : Port) : Stays k s (t.dropClaim p) := h
theorem endClaim (h : Stays k s t) (p : Port) (next : ExchangeState) : Stays k s (t.endClaim p next) := h
theorem cutStream (h : Stays k s t) (p : Port) : Stays k s (t.cutStream p) := h
theorem enterStalled (h : Stays k s t) (p : Port) (next : ExchangeState) : Stays k s (t.enterStalled p next) := h
theorem codeRow (h : Stays k s t) (u : UnitNo) (j : Job) (pixels : List Byte) : Stays k s (t.codeRow u j pixels) := h

/-- A record changed to one that goes on. -/
theorem modItem (h : Stays k s t) (j : Slot) {f : Item → Item} (hf : GoesOn (t.items.get j) (f (t.items.get j))) :
    Stays k s (t.modItem j f) := by
  refine h.trans ?_
  rw [Stays, Laws.modItem_items, Laws.get_put]
  split
  · rename_i e
    exact e ▸ hf
  · exact Stays.refl k t

/-- A record's faces and renditions changed. -/
theorem modRecords (h : Stays k s t) (j : Slot) (faces : Item → List Face) (renditions : Item → List Rendition) :
    Stays k s (t.modItem j fun i => { i with faces := faces i, renditions := renditions i }) :=
  h.modItem j (goesOn_of_rest rfl id)

end Stays

/-- Behind reception an item goes on. -/
theorem keptBehind_stays (k : Slot) (s : State) : Keeping.KeptBehind (Stays k s) where
  modArbiter f h := h.modArbiter f
  withStrips l h := h.withStrips l
  withJobs l h := h.withJobs l
  modPages f h := h.modPages f
  modUnit u f h := h.modUnit u f
  faces j f h := h.modRecords j (fun i => i.faces.map f) (·.renditions)
  renditions j f h := h.modRecords j (·.faces) fun i => i.renditions.map f
  settled j _ h := h.modItem j (goesOn_of_rest rfl fun _ => nofun)
  granted j c head _ h :=
    h.trans (goesOn_moves ((Laws.Behind.grant (.refl _) c j (Laws.Behind.chooseHead_ready head)).item k))

namespace Stays

theorem dispatchAct (h : Stays k s t) : Stays k s t.dispatchAct := (keptBehind_stays k s).dispatchAct h
theorem releaseAct (h : Stays k s t) : Stays k s t.releaseAct := (keptBehind_stays k s).releaseAct h
theorem rejectRenditions (h : Stays k s t) (j : Slot) : Stays k s (t.rejectRenditions j) :=
  (keptBehind_stays k s).rejectRenditions h j

/-! ### Findings and the end of landing -/

theorem decidePocket (h : Stays k s t) (j : Slot) (pending : (t.items.get j).pocket = .pending) (pocket : Pocket)
    (reason : Option FindingKind) : Stays k s (t.decidePocket j pocket reason) := by
  unfold State.decidePocket
  exact (h.modItem j (goesOn_decided pending pocket reason _)).modScan _ _

theorem addFinding (h : Stays k s t) (j : Slot) (f : Finding) : Stays k s (t.addFinding j f) := by
  have added := h.modItem (f := (·.addFinding f)) j (goesOn_addFinding _ f)
  unfold State.addFinding
  dsimp only
  split
  · rename_i rejects
    exact added.decidePocket j rejects.2 _ _
  · exact added

theorem addFindings (h : Stays k s t) (j : Slot) (l : List Finding) :
    Stays k s (l.foldl (fun u f => u.addFinding j f) t) := by
  induction l generalizing t with
  | nil => exact h
  | cons f l ih => exact ih (h.addFinding j f)

theorem modFace (h : Stays k s t) (j : Slot) (kind : FaceKind) (f : Face → Face) :
    Stays k s (t.modItem j (·.modFace kind f)) := h.modItem j (goesOn_of_rest rfl id)

theorem abandonRow (h : Stays k s t) (l : Lane) (j : Slot) : Stays k s (t.abandonRow l j) := by
  unfold State.abandonRow
  dsimp only
  split
  · exact h
  · split
    · exact ((h.modFace j _ Face.loseRow).withdraw _).modScan _ _
    · exact (h.withdraw _).modScan _ _

theorem detach (h : Stays k s t) (l : Lane) (j : Slot) (next : ScanState) : Stays k s (t.detach l j next) := by
  unfold State.detach
  exact ((h.abandonRow l j).modItem (f := fun i => { i with
    state := .settling, faces := i.faces.map Face.cutIfLanding }) j (goesOn_of_rest rfl fun _ => nofun)).modScan _ _

theorem producePocket (h : Stays k s t) (l : Lane) (j : Slot) : Stays k s (t.producePocket l j) := by
  unfold State.producePocket
  split
  · exact (h.scanProduce l _).modItem j fun live => ⟨live, { continues_refl _ with delivered := fun _ => rfl }⟩
  · exact h

theorem endRejected (h : Stays k s t) (l : Lane) (j : Slot) (next : ScanState) : Stays k s (t.endRejected l j next) :=
  (h.detach l j next).rejectRenditions j

theorem rejectSent (h : Stays k s t) (l : Lane) (j : Slot) (f : Finding) (next : ScanState) :
    Stays k s (t.rejectSent l j f next) := ((h.addFinding j f).producePocket l j).endRejected l j next

theorem rejectUnsent (h : Stays k s t) (l : Lane) (j : Slot) (f : Finding) (next : ScanState) :
    Stays k s (t.rejectUnsent l j f next) := (h.addFinding j f).endRejected l j next

theorem protocolFault (h : Stays k s t) (l : Lane) (j : Slot) : Stays k s (t.protocolFault l j) := h.rejectSent l j _ _

/-! ### Frames taken -/

/-- A slot given was FREE, so no live item is lost (R9). -/
theorem giveSlot (h : Stays k s t) (l : Lane) {j : Slot} (free : (t.items.get j).state = .free) (src : Source)
    (bundle : Long) (position : Word) (faces : Byte) : Stays k s (t.giveSlot l j src bundle position faces) := by
  have given : Stays k s (t.modItem j fun _ => newItem t l src bundle position faces) :=
    h.modItem j fun live => absurd free live
  unfold State.giveSlot
  dsimp only
  split
  · exact (((((given.withStamp _).modLane l _).modStore _).scanProduce l _).modScan l _).dispatchAct
  · exact ((((given.withStamp _).modLane l _).modStore _).scanProduce l _).modScan l _

theorem takeAsNew (h : Stays k s t) (l : Lane) (bundle : Long) (position : Word) (faces : Byte) :
    Stays k s (t.takeAsNew l bundle position faces) := by
  unfold State.takeAsNew
  split
  · rename_i j _ _ found _
    exact h.giveSlot l ((Laws.freeSlot_eq_some t j).mp found).1 _ _ _ _
  · exact (h.scanProduce l _).modScan l _
  · exact h

theorem openFace (h : Stays k s t) (l : Lane) (j : Slot) (kind : FaceKind) (width : Nat) :
    Stays k s (t.openFace l j kind width) := by
  unfold State.openFace
  exact (h.modRecords j (fun i => i.faces ++ [newFace (t.itemRecord j) kind width])
    fun i => i.renditions ++ newRenditions (t.itemRecord j) kind).modScan l _

theorem loseRow (h : Stays k s t) (j : Slot) (face : FaceKind) : Stays k s (t.loseRow j face) := h.modFace j face _

theorem landRow (h : Stays k s t) (l : Lane) (j : Slot) (face : FaceKind) (f : Face) (pixels : List Byte) :
    Stays k s (t.landRow l j face f pixels) := by
  unfold State.landRow
  split
  · exact ((h.loseRow j face).modArbiter _).holdRow l _ _
  · split
    · exact h.loseRow j face
    · split
      · split
        · exact (h.loseRow j face).setCause _
        · exact ((h.withStrips _).modFace j face _).holdRow l _ _
      · exact h.holdRow l _ _

theorem takeRow (h : Stays k s t) (l : Lane) (j : Slot) (face : FaceKind) (pixels : List Byte) :
    Stays k s (t.takeRow l j face pixels) := by
  unfold State.takeRow
  split
  · exact h
  · split
    · exact h.landRow l j face _ pixels
    · exact h.loseRow j face

theorem queueRenditions (h : Stays k s t) (j : Slot) (face : FaceKind) : Stays k s (t.queueRenditions j face) := by
  unfold State.queueRenditions
  exact (h.withJobs _).modRecords j (·.faces) _

theorem closeFace (h : Stays k s t) (l : Lane) (j : Slot) (face : FaceKind) : Stays k s (t.closeFace l j face) := by
  unfold State.closeFace
  split
  · exact h
  · dsimp only
    have judged := fun found => ((h.modFace j face fun x => { x with state := .landed, accum := none }).modScan l
      fun p => { p with current := none }).addFindings j found
    split
    · exact ((keptBehind_stays k s).returnStrips (((judged _).queueRenditions j face).modScan l _) j face).dispatchAct
    · exact ((judged _).producePocket l j).endRejected l j .discard

theorem closeItem (h : Stays k s t) (l : Lane) (j : Slot) : Stays k s (t.closeItem l j) := by
  unfold State.closeItem
  dsimp only
  split
  · exact h.rejectSent l j _ _
  · have kept := keptBehind_stays k s
    refine kept.settle (kept.returnAllStrips (detach (producePocket ?_ l j) l j .idle) j) j
    split
    · rename_i pending
      exact h.decidePocket j pending _ _
    · exact h

theorem takeInItem (h : Stays k s t) (l : Lane) (j : Slot) (f : ScanFrame) : Stays k s (t.takeInItem l j f) := by
  cases f with
  | itemOpen bundle position faces => exact (h.protocolFault l j).takeAsNew l bundle position faces
  | faceOpen kind width =>
    simp only [State.takeInItem]
    split
    · exact h.openFace l j kind width
    · exact h.protocolFault l j
  | row | faceClose => exact h.protocolFault l j
  | itemClose => exact h.closeItem l j
  | itemAbandon reason => exact h.rejectSent l j (itemFinding .abandoned reason.toNat) .idle
  | failed => exact h.rejectSent l j (itemFinding .linkError 0) .discard

theorem takeInFace (h : Stays k s t) (l : Lane) (j : Slot) (face : FaceKind) (f : ScanFrame) :
    Stays k s (t.takeInFace l j face f) := by
  cases f with
  | itemOpen bundle position faces => exact (h.protocolFault l j).takeAsNew l bundle position faces
  | faceOpen | itemClose => exact h.protocolFault l j
  | row pixels => exact h.takeRow l j face pixels
  | faceClose => exact h.closeFace l j face
  | itemAbandon reason => exact h.rejectSent l j (itemFinding .abandoned reason.toNat) .idle
  | failed => exact h.rejectSent l j (itemFinding .linkError 0) .discard

theorem takeFrame (h : Stays k s t) (l : Lane) (f : ScanFrame) : Stays k s (t.takeFrame l f) := by
  unfold State.takeFrame
  dsimp only
  split
  · cases f with
    | itemOpen => exact h.takeAsNew l _ _ _
    | faceOpen | row | faceClose | itemClose | itemAbandon | failed => exact h
  · cases f with
    | itemOpen => exact h.takeAsNew l _ _ _
    | itemClose | itemAbandon => exact h.modScan l _
    | faceOpen | row | faceClose | failed => exact h
  · exact h.takeInItem l _ f
  · exact h.takeInFace l _ _ f
  · exact h

theorem takeWaiting (l : Lane) (frames : List ScanFrame) (h : Stays k s t) : Stays k s (State.takeWaiting l frames t) := by
  induction frames generalizing t with
  | nil => exact h.modScan l _
  | cons f rest ih =>
    unfold State.takeWaiting
    split
    · exact ih ((h.modScan l _).takeFrame l f)
    · exact h.modScan l _

theorem drainWaiting (h : Stays k s t) (l : Lane) : Stays k s (t.drainWaiting l) := takeWaiting l _ h

theorem expirePocket (h : Stays k s t) (l : Lane) : Stays k s (t.expirePocket l) := by
  unfold State.expirePocket
  split
  · exact ((h.modScan l _).rejectSent l _ _ _).drainWaiting l
  · exact h

theorem loseScanLink (h : Stays k s t) (l : Lane) : Stays k s (t.loseScanLink l) := by
  unfold State.loseScanLink
  dsimp only
  split
  · exact ((h.rejectUnsent l _ _ _).modScan l _).setCause _
  · exact (h.modScan l _).setCause _

theorem resetLane (h : Stays k s t) (l : Lane) : Stays k s (t.resetLane l) := by
  unfold State.resetLane
  dsimp only
  split
  · exact (((h.modScan l _).rejectUnsent l _ _ _).withdraw _).modScan l _
  · exact ((h.modScan l _).withdraw _).modScan l _

/-! ### PURGE -/

theorem markPurged (h : Stays k s t) (j : Slot) : Stays k s (t.modItem j Item.markPurged) :=
  h.modItem j fun live => ⟨live, { continues_refl _ with purged := fun _ => rfl }⟩

theorem purgeLanding (h : Stays k s t) (j : Slot) : Stays k s (t.purgeLanding j) := by
  unfold State.purgeLanding
  exact ((h.markPurged j).rejectSent _ j _ _).drainWaiting _

theorem purgeSettling (h : Stays k s t) (j : Slot) : Stays k s (t.purgeSettling j) :=
  ((h.markPurged j).addFinding j _).rejectRenditions j

theorem givePagesBack (h : Stays k s t) (j : Slot) : Stays k s (t.givePagesBack j) := by
  unfold State.givePagesBack
  exact (h.modPages _).modRecords j (·.faces) _

theorem purgeReady (h : Stays k s t) (j : Slot) : Stays k s (t.purgeReady j) := by
  unfold State.purgeReady
  exact ((((((h.markPurged j).addFinding j _).givePagesBack j).modRecords j (·.faces) _).modItem j
    (goesOn_of_rest rfl id))).dispatchAct

/-! ### Exchange ports -/

theorem returnItem (h : Stays k s t) (j : Slot) (counted : Bool) : Stays k s (t.returnItem j counted) := by
  unfold State.returnItem
  refine releaseAct (h.modItem j fun live => ⟨nofun, { continues_refl _ with retries := ?_ }⟩)
  cases counted
  · exact Nat.min_le_left _ _
  · show min _ 255 ≤ min 255 _
    omega

theorem streamOn (h : Stays k s t) (p : Port) : Stays k s (t.streamOn p) := by
  unfold State.streamOn
  dsimp only
  split
  · exact h.request _
  · exact (h.exchangeProduce p _).enterStalled p _

theorem segmentLeaves (h : Stays k s t) (p : Port) : Stays k s (t.segmentLeaves p) := by
  unfold State.segmentLeaves
  split
  · exact h
  · dsimp only
    have left := fun f => h.modExchange p f
    split
    · split
      · exact ((left _).modExchange p _).enterStalled p _
      · exact ((left _).modExchange p _).streamOn p
    · exact left _

theorem segmentRead (h : Stays k s t) (p : Port) (data : List Byte) : Stays k s (t.segmentRead p data) := by
  unfold State.segmentRead
  dsimp only
  split
  · split
    · exact (h.modExchange p _).exchangeProduce p _
    · exact (h.modExchange p _).request _
  · exact h

theorem breakStream (h : Stays k s t) (p : Port) : Stays k s (t.breakStream p) := by
  unfold State.breakStream
  dsimp only
  split
  · exact h
  · exact ((((h.withdraw _).setCause _).modExchange p _).exchangeProduce p _).enterStalled p _

theorem takeClaim (h : Stays k s t) (p : Port) (mask : Byte) : Stays k s (t.takeClaim p mask) := by
  unfold State.takeClaim
  dsimp only
  split
  · exact h
  · split
    · exact h.exchangeProduce p _
    · exact ((h.withClaims _).modExchange p _).releaseAct
  all_goals exact h.exchangeProduce p _

theorem takeReturn (h : Stays k s t) (p : Port) : Stays k s (t.takeReturn p) := by
  unfold State.takeReturn
  dsimp only
  split
  · exact h.exchangeProduce p _
  · exact h.exchangeProduce p _
  · exact ((h.cutStream p).endClaim p _).returnItem _ _
  · exact ((h.cutStream p).endClaim p _).returnItem _ _
  · exact (h.endClaim p _).returnItem _ _
  · exact h

theorem expireStall (h : Stays k s t) (p : Port) : Stays k s (t.expireStall p) := by
  unfold State.expireStall
  dsimp only
  split
  · exact (((h.exchangeProduce p _).endClaim p _).setCause _).returnItem _ _
  · exact h

theorem releaseClaim (h : Stays k s t) (p : Port) (next : ExchangeState) : Stays k s (t.releaseClaim p next) := by
  unfold State.releaseClaim
  dsimp only
  split
  · exact ((h.dropClaim p).endClaim p next).returnItem _ _
  · exact (h.dropClaim p).endClaim p next

theorem loseExchangeLink (h : Stays k s t) (p : Port) : Stays k s (t.loseExchangeLink p) := by
  unfold State.loseExchangeLink
  exact ((h.modExchange p _).setCause _).releaseClaim p _

theorem resetExchange (h : Stays k s t) (p : Port) : Stays k s (t.resetExchange p) := by
  unfold State.resetExchange
  exact ((h.withFree _).modExchange p _).releaseClaim p _

/-! ### Results of bursts -/

theorem writerWrote (h : Stays k s t) (l : Lane) : Stays k s (t.writerWrote l) := by
  unfold State.writerWrote
  dsimp only
  split
  · split
    · exact ((h.modFace _ _ _).modScan l _).drainWaiting l
    · exact (h.modScan l _).request _
  · exact h

theorem unitWrote (h : Stays k s t) (u : UnitNo) : Stays k s (t.unitWrote u) := by
  have kept := keptBehind_stays k s
  unfold State.unitWrote
  split
  · exact h
  · split
    · exact kept.ifIdleDispatch (kept.doneJob h u _) u
    all_goals exact kept.ifIdleDispatch (kept.runUnit _ (h.modUnit u _) u _) u

theorem unitRead (h : Stays k s t) (u : UnitNo) (data : List Byte) : Stays k s (t.unitRead u data) := by
  have kept := keptBehind_stays k s
  unfold State.unitRead
  split
  · exact h
  · dsimp only
    split
    · exact kept.ifIdleDispatch (kept.runUnit _ (h.codeRow u _ _) u _) u
    · exact (h.modUnit u _).request _

theorem unitFault (h : Stays k s t) (u : UnitNo) : Stays k s (t.unitFault u) := by
  have kept := keptBehind_stays k s
  unfold State.unitFault
  split
  · exact h
  · exact kept.ifIdleDispatch (kept.failJob (h.setCause _) u _ _) u

theorem wrote (h : Stays k s t) (r : Requester) : Stays k s (t.wrote r) := by
  cases r with
  | w l => exact h.writerWrote l
  | cu u => exact h.unitWrote u
  | xr p => exact h

theorem readDone (h : Stays k s t) (data : List Byte) (r : Requester) : Stays k s (t.readDone data r) := by
  cases r with
  | w l => exact h
  | cu u => exact h.unitRead u data
  | xr p => exact h.segmentRead p data

theorem readFault (h : Stays k s t) (r : Requester) : Stays k s (t.readFault r) := by
  cases r with
  | w l => exact h
  | cu u => exact h.unitFault u
  | xr p => exact h.breakStream p

end Stays

/-! ### The freeing of an item -/

/-- The item is gone from the state just before the drained test, the dispatcher and the release arbiter act (R15). -/
theorem drainedTest_items (s : State) (l : Lane) : (s.drainedTest l).items = s.items := by
  unfold State.drainedTest
  split <;> rfl

/-- What the freeing of an item leaves in a slot depends on what a condition kept behind reception says once the record is
emptied. -/
theorem freeItem_keeps {P : State → Prop} (kept : Keeping.KeptBehind P) (s : State) (j : Slot)
    (emptied : ∀ u : State, u.items = put (s.givePagesBack j).items j Item.empty → P u) : P (s.freeItem j) := by
  unfold State.freeItem
  dsimp only
  have acted : ∀ (u : State) (l : Lane), u.items = put (s.givePagesBack j).items j Item.empty →
      P (if ((u.drainedTest l).dispatchAct.readyHead l).isSome then (u.drainedTest l).dispatchAct.releaseAct
        else (u.drainedTest l).dispatchAct) := by
    intro u l items
    have dispatched := kept.dispatchAct (emptied (u.drainedTest l) ((drainedTest_items u l).trans items))
    split
    · exact kept.releaseAct dispatched
    · exact dispatched
  split <;> exact acted _ _ rfl

theorem freeItem_empty (s : State) (j : Slot) : (s.freeItem j).items.get j = Item.empty :=
  freeItem_keeps (Keeping.keptBehind_empty j) s j fun u items => by rw [items, Laws.get_put_same]

theorem Stays.freeItem_other {j : Slot} (h : Stays k s t) (other : j ≠ k) : Stays k s (t.freeItem j) :=
  freeItem_keeps (keptBehind_stays k s) t j fun u items => by
    rw [Stays, items, Laws.get_put_ne _ _ other]
    exact h.givePagesBack j

/-! ### The events -/

/-- What becomes of slot `k` in an event: its item goes on, or the slot is emptied by an event that frees it. -/
def Fate (c : Instr) (k : Slot) (s t : State) : Prop := Stays k s t ∨ (t.items.get k = Item.empty ∧ frees s k c)

/-- A DELIVERED frees the item of its port and no other (R143). -/
theorem takeDelivered_fate (s : State) (p : Port) (k : Slot) : Fate (.delivered p) k s (s.takeDelivered p) := by
  have freed {j : Slot} (held : (s.exchange.get p).slot = some j) (t : State) (items : t.items = s.items) :
      Fate (.delivered p) k s (t.freeItem j) := by
    by_cases e : j = k
    · subst e
      exact .inr ⟨freeItem_empty t j, held⟩
    · exact .inl (((Stays.refl k s).same items).freeItem_other e)
  unfold State.takeDelivered
  dsimp only
  split
  · exact .inl ((Stays.refl k s).exchangeProduce p _)
  · exact .inl ((Stays.refl k s).exchangeProduce p _)
  · rename_i held
    exact freed held _ rfl
  · rename_i held
    exact freed held _ rfl
  · rename_i held
    exact freed held _ rfl
  · exact .inl (.refl k s)

theorem linkDoes_fate {c : Instr} (does : LinkDoes c s t) (k : Slot) : Fate c k s t := by
  have h := Stays.refl k s
  cases does with
  | nothing => exact .inl h
  | frameWaits | scanLevel | scanLinkUp | cancel | hold | exchangeLevel | exchangeLinkUp => exact .inl (h.same rfl)
  | frameTaken l f => exact .inl ((h.modScan l _).takeFrame l f)
  | scanLinkLost l => exact .inl (h.loseScanLink l)
  | pocketExpires l => exact .inl (h.expirePocket l)
  | memoryGrant =>
    refine .inl (h.same ?_)
    unfold State.memoryGrant
    split
    · rfl
    · split <;> rfl
  | segmentLeaves p => exact .inl (h.segmentLeaves p)
  | takeClaim p mask => exact .inl (h.takeClaim p mask)
  | go p => exact .inl ((h.modExchange p _).streamOn p)
  | delivered p running named =>
    subst named
    exact takeDelivered_fate s p k
  | returned p => exact .inl (h.takeReturn p)
  | stallExpires p => exact .inl (h.expireStall p)
  | exchangeLinkLost p => exact .inl (h.loseExchangeLink p)

theorem rebuilt_get (k : Slot) : (Vector.replicate 256 Item.empty).get k = Item.empty := Vector.getElem_replicate _

theorem commandDoes_fate {code : Word} (does : CommandDoes code s t) (k : Slot) :
    Stays k s t ∨ (t.items.get k = Item.empty ∧ code = 0x0011) := by
  have h := Stays.refl k s
  cases does with
  | nothing => exact .inl h
  | store | laneOpen | setQuota | setMask | setStall => exact .inl (h.same rfl)
  | laneClose l => exact .inl (h.same (drainedTest_items _ l))
  | laneReset l => exact .inl (h.resetLane l)
  | purgeLanding j => exact .inl (h.purgeLanding j)
  | purgeSettling j => exact .inl (h.purgeSettling j)
  | purgeReady j => exact .inl (h.purgeReady j)
  | xportReset p => exact .inl (h.resetExchange p)
  | setReserve n =>
    exact .inl (h.modPages fun p => { p with headReserve := n }).dispatchAct
  | softReset soft => exact .inr ⟨rebuilt_get k, soft⟩

theorem accessDoes_fate {c : Instr} (does : AccessDoes c s t) (k : Slot) : Fate c k s t := by
  have h := Stays.refl k s
  cases does with
  | nothing => exact .inl h
  | access | releaseReset => exact .inl (h.same rfl)
  | command level code answer u running soft does =>
    rcases commandDoes_fate does k with stays | ⟨empty, isSoft⟩
    · exact .inl stays
    · exact .inr ⟨empty, soft isSoft s k⟩
  | powerOn power =>
    subst power
    exact .inr ⟨rebuilt_get k, trivial⟩
  | pinReset pin =>
    subst pin
    exact .inr ⟨rebuilt_get k, trivial⟩

theorem burstDoes_stays (does : BurstDoes s t) (k : Slot) : Stays k s t := by
  have finished (m : Memory) : Stays k s (burstOver s m) := (Stays.refl k s).same rfl
  cases does with
  | nothing => exact .refl k s
  | discarded m => exact finished m
  | wrote m _ r => exact (finished m).wrote r
  | readFault m _ r => exact (finished m).readFault r
  | readDone m _ data r => exact (finished m).readDone data r

theorem keptByTick_stays (k : Slot) (s : State) : KeptByTick (Stays k s) where
  sendScan _ h := h.same rfl
  sendExchange _ _ h := h.same rfl
  pocketFalls _ _ _ h := h.same rfl
  pocketExpires l h := h.expirePocket l
  stallFalls _ _ _ h := h.same rfl
  stallExpires p h := h.expireStall p

theorem tick_stays (s : State) (k : Slot) : Stays k s s.tick := by
  rcases (keptByTick_stays k s).tick (.refl k s) with same | ⟨u, stays, _, _, ms⟩
  · rw [same]
    exact .refl k s
  · obtain ⟨causes, st, n, _, e⟩ := tickStore_eq u
    rw [ms, e]
    exact stays.same rfl

/-- Settles O58, event by event: whatever an event does to a live item's record, the record continues, but for the three
ways in which a slot is emptied. -/
theorem itemsContinue : Obligations.ItemsContinue := by
  unfold Obligations.ItemsContinue
  intro s t k live h
  have goes (stays : Stays k s t) : (Continues (s.items.get k) (t.items.get k) ∧ (t.items.get k).state ≠ .free) ∨
      (t.items.get k = Item.empty ∧ ∃ c rest, s.pending = c :: rest ∧ frees s k c) :=
    .inl ⟨(stays live).2, (stays live).1⟩
  rcases step_cases h with ⟨_, rfl⟩ | ⟨c, rest, front, e⟩
  · exact goes (tick_stays s k)
  · have fate : Fate c k (s.withPending rest) t := by
      rcases exec_cases e with links | ⟨upsets, rfl⟩ | does
      · exact linkDoes_fate (exec_linkDoes links e) k
      · exact .inl (burstDoes_stays (burstComplete_does e) k)
      · exact accessDoes_fate does k
    rcases fate with stays | ⟨empty, freed⟩
    · exact goes stays
    · refine .inr ⟨empty, c, rest, front, ?_⟩
      cases c <;> exact freed

end Sys2Proof.ItemsContinue
end

