-- ==== Sys2Proof/Proofs/Time.lean ====
section
/-! PROOF. A step takes the front command; a step on an empty queue is one millisecond. -/

namespace Sys2Proof.Time
open Sys2Proof.Machine Sys2Proof.Safety

/-- Settles O1: `step` matches on the queue, and `withPending` is the update of the queue. -/
theorem stepTakesFrontCommand : Obligations.StepTakesFrontCommand := by
  intro c rest s front
  unfold step
  rw [front]
  rfl

/-! ### The produced frames that leave -/

/-- Every port of a row of four changed in turn is the row mapped. -/
theorem put_each_of_four {α : Type} (v : Vector α 4) (f : α → α) :
    put (put (put (put v 0 (f (v.get 0))) 1 (f (v.get 1))) 2 (f (v.get 2))) 3 (f (v.get 3)) = v.map f := by
  refine Laws.vector_ext_get fun i => ?_
  have mapped : (v.map f).get i = f (v.get i) := by simp [Laws.get_eq_getElem]
  rw [mapped]
  match i with
  | 0 | 1 | 2 | 3 => simp [Laws.get_put]

/-- Both ports of a pair changed in turn are the pair mapped. -/
theorem put_each_of_two {α : Type} (v : Vector α 2) (f : α → α) :
    put (put v 0 (f (v.get 0))) 1 (f (v.get 1)) = v.map f := by
  refine Laws.vector_ext_get fun i => ?_
  have mapped : (v.map f).get i = f (v.get i) := by simp [Laws.get_eq_getElem]
  rw [mapped]
  match i with
  | 0 | 1 => simp [Laws.get_put]

/-- A scan port one of whose produced frames has left. -/
def scanSent (p : ScanPort) : ScanPort := { p with produced := p.produced.tail, begun := false }

/-- An exchange port one of whose produced frames has left, if the first is no GRANT or SEGMENT (R128). -/
def exchangeSent (x : ExchangePort) : ExchangePort :=
  match x.produced with
  | [] => x
  | m :: rest => if m.inStream then x else { x with produced := rest, begun := false }

variable (s : State)

theorem sendScans_eq : (((s.sendScan 0).sendScan 1).sendScan 2).sendScan 3 = { s with scan := s.scan.map scanSent } := by
  rw [← put_each_of_four]
  simp [State.sendScan, State.modScan, Laws.get_put, scanSent]

theorem sendExchange_eq (p : Port) :
    s.sendExchange p = { s with exchange := put s.exchange p (exchangeSent (s.exchange.get p)) } := by
  unfold State.sendExchange exchangeSent
  cases produced : (s.exchange.get p).produced with
  | nil => simp
  | cons m rest =>
    dsimp only
    split
    · simp
    · rfl

theorem sendExchanges_eq : (s.sendExchange 0).sendExchange 1 = { s with exchange := s.exchange.map exchangeSent } := by
  rw [sendExchange_eq, sendExchange_eq, ← put_each_of_two]
  simp [Laws.get_put]

variable {s}

theorem tick_running (running : Running s) : s.tick =
    ((((((({ s with scan := s.scan.map scanSent, exchange := s.exchange.map exchangeSent } : State).tickPocket 0).tickPocket
      1).tickPocket 2).tickPocket 3).tickStall 0).tickStall 1).tickStore := by
  unfold State.tick
  rw [Laws.whileRunning_running running]
  dsimp only
  rw [sendScans_eq, sendExchanges_eq]

/-! ### The timers -/

theorem tickPocket_stopped {l : Lane} (stopped : (s.scan.get l).timer = none) : s.tickPocket l = s := by
  unfold State.tickPocket
  rw [stopped]

theorem tickPocket_falls {l : Lane} {t : PocketTimer} (timer : (s.scan.get l).timer = some t) (left : 2 ≤ t.remaining) :
    s.tickPocket l = { s with
      scan := put s.scan l { s.scan.get l with timer := some { t with remaining := t.remaining - 1 } } } := by
  unfold State.tickPocket
  rw [timer]
  dsimp only
  rw [if_neg (by omega)]
  rfl

theorem tickPocket_expires {l : Lane} {t : PocketTimer} (timer : (s.scan.get l).timer = some t) (last : t.remaining ≤ 1) :
    s.tickPocket l = s.expirePocket l := by
  unfold State.tickPocket
  rw [timer]
  exact if_pos last

theorem tickStall_stopped {p : Port} (stopped : (s.exchange.get p).stall = none) : s.tickStall p = s := by
  unfold State.tickStall
  rw [stopped]

theorem tickStall_falls {p : Port} {n : Nat} (stall : (s.exchange.get p).stall = some n) (left : 2 ≤ n) :
    s.tickStall p = { s with exchange := put s.exchange p { s.exchange.get p with stall := some (n - 1) } } := by
  unfold State.tickStall
  rw [stall]
  dsimp only
  rw [if_neg (by omega)]
  rfl

theorem tickStall_expires {p : Port} {n : Nat} (stall : (s.exchange.get p).stall = some n) (last : n ≤ 1) :
    s.tickStall p = s.expireStall p := by
  unfold State.tickStall
  rw [stall]
  exact if_pos last

/-! ### The store's phase -/

theorem tickStore_idle (idle : s.store.phase = .idle) : s.tickStore = s := if_pos idle

theorem tickStore_falls (busy : s.store.phase ≠ .idle) (left : 2 ≤ s.store.phaseLeft) :
    s.tickStore = { s with store := { s.store with phaseLeft := s.store.phaseLeft - 1 } } := by
  unfold State.tickStore
  rw [if_neg busy, if_neg (by omega)]
  rfl

theorem tickStore_ends (busy : s.store.phase ≠ .idle) (last : s.store.phaseLeft ≤ 1) : s.tickStore = s.endPhase := by
  unfold State.tickStore
  rw [if_neg busy, if_pos last]

theorem endVerify_free (lost : List (Nat × Byte)) : (s.endVerify lost).free = s.free := by
  unfold State.endVerify
  split
  · rfl
  · dsimp only
    split <;> rfl

/-- The phase's bound brings what the completion of that phase brings (log 13). -/
theorem endPhase_eq : s.endPhase = match s.store.phase with
    | .idle => s
    | .starting => s.modStore Store.endScan
    | .erasing | .programming => s.modStore Store.endWrite
    | .verifying => (s.endVerify (Config.bytesNotKept s.free)).withFree (s.free + 1) := rfl

theorem exec_startUpScanEnd (running : Running s) (phase : s.store.phase = .starting) :
    exec .startUpScanEnd s = .next (s.modStore Store.endScan) :=
  congrArg _ ((Laws.whileRunning_running running _).trans (if_pos phase))

theorem exec_erasingComplete (running : Running s) (phase : s.store.phase = .erasing) :
    exec .erasingComplete s = .next (s.modStore Store.endWrite) :=
  congrArg _ ((Laws.whileRunning_running running _).trans (if_pos phase))

theorem exec_programmingComplete (running : Running s) (phase : s.store.phase = .programming) :
    exec .programmingComplete s = .next (s.modStore Store.endWrite) :=
  congrArg _ ((Laws.whileRunning_running running _).trans (if_pos phase))

theorem exec_verifyEnd (running : Running s) (phase : s.store.phase = .verifying) (lost : List (Nat × Byte)) :
    exec (.verifyEnd lost) s = .next (s.endVerify lost) :=
  congrArg _ ((Laws.whileRunning_running running _).trans (if_pos phase))

/-- Settles O2, clause by clause: what leaves, each timer at 2 ms and at its last, and the store's phase. -/
theorem idleStepIsOneMillisecond : Obligations.IdleStepIsOneMillisecond := by
  refine ⟨fun s empty => ?_, fun s running => ?_⟩
  · have ticks : step s = .next s.tick := by
      unfold step
      rw [empty]
    refine ⟨fun low => ?_, fun running => ?_⟩
    · rw [ticks]
      exact congrArg _ (Laws.whileRunning_reset low _)
    · rw [ticks, tick_running running]
      rfl
  · refine ⟨fun l => ⟨tickPocket_stopped, fun t timer => ⟨tickPocket_falls timer, fun last => ?_⟩⟩,
      fun p => ⟨tickStall_stopped, fun n stall => ⟨tickStall_falls stall, fun last => ?_⟩⟩,
      tickStore_idle, tickStore_falls, fun last => ⟨fun phase => ?_, fun phase => ?_, fun phase => ?_, fun phase => ?_⟩⟩
    · rw [tickPocket_expires timer last]
      exact congrArg _ (Laws.whileRunning_running running _)
    · rw [tickStall_expires stall last]
      exact congrArg _ (Laws.whileRunning_running running _)
    · rw [tickStore_ends (by rw [phase]; decide) last, endPhase_eq, phase]
      exact exec_startUpScanEnd running phase
    · rw [tickStore_ends (by rw [phase]; decide) last, endPhase_eq, phase]
      exact exec_erasingComplete running phase
    · rw [tickStore_ends (by rw [phase]; decide) last, endPhase_eq, phase]
      exact exec_programmingComplete running phase
    · refine ⟨Config.bytesNotKept s.free, s.free, ?_⟩
      rw [tickStore_ends (by rw [phase]; decide) last, endPhase_eq, phase, exec_verifyEnd running phase]
      dsimp only
      have kept := endVerify_free (s := s) (Config.bytesNotKept s.free)
      generalize s.endVerify (Config.bytesNotKept s.free) = t at kept
      rw [← kept]
      rfl

end Sys2Proof.Time
end

