-- ==== Sys2Proof/Proofs/Resets.lean ====
section
/-! PROOF. The resets: power-on values, POWER_ON, PIN_RESET, RESET_N_RELEASE, SOFT_RESET and what RESET_N held low keeps
out. -/

namespace Sys2Proof.Resets
open Sys2Proof.Machine Sys2Proof.Safety

/-! ### Vectors spelled out are vectors mapped -/

theorem spelled_two {α β : Type} (v : Vector α 2) (f : α → β) : #v[f v[0], f v[1]] = v.map f := by
  refine Laws.vector_ext_get fun i => ?_
  match i with
  | 0 | 1 => simp [Laws.get_eq_getElem]

theorem spelled_four {α β : Type} (v : Vector α 4) (f : α → β) : #v[f v[0], f v[1], f v[2], f v[3]] = v.map f := by
  refine Laws.vector_ext_get fun i => ?_
  match i with
  | 0 | 1 | 2 | 3 => simp [Laws.get_eq_getElem]

theorem spelled_eight {α β : Type} (v : Vector α 8) (f : α → β) :
    #v[f v[0], f v[1], f v[2], f v[3], f v[4], f v[5], f v[6], f v[7]] = v.map f := by
  refine Laws.vector_ext_get fun i => ?_
  match i with
  | 0 | 1 | 2 | 3 | 4 | 5 | 6 | 7 => simp [Laws.get_eq_getElem]

theorem spelled_ofFn_four {β : Type} (f : Lane → β) : #v[f 0, f 1, f 2, f 3] = Vector.ofFn f := by
  refine Laws.vector_ext_get fun i => ?_
  match i with
  | 0 | 1 | 2 | 3 => simp [Laws.get_eq_getElem]

theorem spelled_ofFn_two {β : Type} (f : Port → β) : #v[f 0, f 1] = Vector.ofFn f := by
  refine Laws.vector_ext_get fun i => ?_
  match i with
  | 0 | 1 => simp [Laws.get_eq_getElem]

/-! ### Power-on values -/

/-- A condition that one entry meets holds of every entry of a replicated vector. -/
theorem replicate_get {α : Type} (n : Nat) (x : α) (i : Fin n) : (Vector.replicate n x).get i = x :=
  Vector.getElem_replicate _

theorem started_blocks (blocks : Vector Block 8) (latch : Bool) :
    (Store.started blocks latch).blocks = blocks.map fun b => { b with state := .busy } :=
  spelled_eight blocks fun b => { b with state := .busy }

theorem mapBlocks_blocks (st : Store) (f : Block → Block) : (st.mapBlocks f).blocks = st.blocks.map f := spelled_eight _ _

theorem map_get {α β : Type} {n : Nat} (v : Vector α n) (f : α → β) (i : Fin n) : (v.map f).get i = f (v.get i) := by
  simp [Laws.get_eq_getElem]

theorem reset_busy (b : BlockNo) : (State.reset.store.blocks.get b).state = .busy := by
  have busy : (Store.started (Vector.replicate 8 Block.manufactured) false).blocks = _ := started_blocks _ _
  exact (congrArg (fun v => (v.get b).state) busy).trans (by rw [map_get])

theorem reset_strips : State.reset.strips = List.range 2048 := by
  dsimp only [State.reset]
  exact congrArg List.range (by decide)

theorem reset_pages : State.reset.pages = PagePool.fresh 256 := rfl

theorem fresh_free (n : Nat) : (PagePool.fresh n).free = List.range 8192 := by
  dsimp only [PagePool.fresh]
  exact congrArg List.range (by decide)

/-- Settles O3, field by field. -/
theorem resetLeavesSpecValues : Obligations.ResetLeavesSpecValues := by
  refine ⟨replicate_get 256 _, fun l => ?_, rfl, fun l => ?_, fun r => ?_, rfl, rfl, reset_strips,
    reset_pages ▸ fresh_free 256, rfl, rfl, rfl, rfl,
    fun u => ?_, fun p => ?_, rfl, rfl, reset_busy, fun n inside => ?_, rfl, rfl, replicate_get 4 none, replicate_get 8 0,
    rfl, rfl, rfl, rfl, rfl, rfl, rfl, rfl, rfl, rfl, rfl, rfl, rfl, rfl, rfl, rfl, rfl, ?_⟩
  · have lane : State.reset.lanes.get l = LaneRec.reset := replicate_get 4 _ l
    rw [lane]
    exact ⟨rfl, rfl, rfl⟩
  · have port : State.reset.scan.get l = ScanPort.fresh false := replicate_get 4 _ l
    rw [port]
    exact ⟨rfl, rfl, rfl, rfl, rfl⟩
  · cases r with
    | w l => exact replicate_get 4 false l
    | cu u => exact replicate_get 4 false _
    | xr p => exact replicate_get 4 false _
  · have unit : State.reset.units.get u = CodingUnit.idle := replicate_get 2 _ u
    rw [unit]
    rfl
  · have port : State.reset.exchange.get p = ExchangePort.fresh false 0xF := replicate_get 2 _ p
    rw [port]
    exact ⟨rfl, rfl, rfl, rfl, rfl, rfl⟩
  · exact (List.getElem?_replicate).trans (if_pos inside)
  · decide

/-! ### Power-on and pin reset -/

section
variable (s : State)

/-- The ports of a reset that keeps no produced frame are fresh. -/
theorem coldReset_scan (latch : Bool) (cause : BitVec 3) :
    (s.coldReset latch cause).scan = s.scan.map fun p => ScanPort.fresh p.link :=
  spelled_four s.scan fun p => ScanPort.fresh p.link

theorem coldReset_exchange (latch : Bool) (cause : BitVec 3) :
    (s.coldReset latch cause).exchange = s.exchange.map fun x => ExchangePort.fresh x.link 0xF :=
  spelled_two s.exchange fun x => ExchangePort.fresh x.link 0xF

theorem coldReset_store (latch : Bool) (cause : BitVec 3) : (s.coldReset latch cause).store = { State.reset.store with
    blocks := s.store.blocks.map fun b => { b with state := .busy }
    latch := latch } := by
  have blocks := started_blocks s.store.blocks latch
  have rest : Store.started s.store.blocks latch = { State.reset.store with
      blocks := (Store.started s.store.blocks latch).blocks
      latch := latch } := rfl
  rw [blocks] at rest
  exact rest

/-- What the two resets share: every value of power-on but the links and pins, the blocks' bytes and marks, the latch and
reset cause they are given, the buffer memory, and the burst under way (R87, R171 to R173). -/
theorem coldReset_eq (latch : Bool) (cause : BitVec 3) : s.coldReset latch cause = { State.reset with
    pending := s.pending
    pins := s.pins
    scan := s.scan.map fun p => ScanPort.fresh p.link
    mem := s.mem
    arbiter := Arbiter.fresh (s.arbiter.burst.map fun b => { b with live := false })
    exchange := s.exchange.map fun x => ExchangePort.fresh x.link 0xF
    store := { State.reset.store with
      blocks := s.store.blocks.map fun b => { b with state := .busy }
      latch := latch }
    sup := { State.reset.sup with resetCause := cause }
    free := s.free } := by
  rw [← coldReset_scan s latch cause, ← coldReset_exchange s latch cause, ← coldReset_store s latch cause]
  rfl

end

/-- The latch and the reset cause that power-on leaves are those of `State.reset` (R172, R186). -/
theorem reset_latch (blocks : Vector Block 8) : ({ State.reset.store with blocks := blocks, latch := false } : Store) =
    { State.reset.store with blocks := blocks } := rfl

theorem reset_resetCause : ({ State.reset.sup with resetCause := powerCause } : Supervisor) = State.reset.sup := rfl

/-- Settles O4. -/
theorem powerOnResult : Obligations.PowerOnResult := by
  intro s
  show Host.Outcome.next s.powerOn = _
  unfold State.powerOn
  rw [coldReset_eq, reset_latch, reset_resetCause]

theorem exec_pinReset {s : State} (running : Running s) : exec .pinReset s = .next s.pinReset :=
  congrArg Host.Outcome.next (if_neg (Bool.eq_false_iff.mp running))

/-- Settles O5. -/
theorem pinResetAndRelease : Obligations.PinResetAndRelease := by
  refine ⟨fun s running => ?_, fun s low => ?_⟩
  · rw [exec_pinReset running]
    unfold State.pinReset
    have pin : pinCause = 2 := rfl
    rw [coldReset_eq, pin]
  · have released : exec .resetNRelease s = .next s.releaseReset := congrArg Host.Outcome.next (if_pos low)
    have scan : s.releaseReset.scan = s.scan.map fun p => ScanPort.fresh p.link := spelled_four s.scan fun p => ScanPort.fresh p.link
    have exchange : s.releaseReset.exchange = s.exchange.map fun x => ExchangePort.fresh x.link x.mask :=
      spelled_two s.exchange fun x => ExchangePort.fresh x.link x.mask
    have blocks : s.releaseReset.store.blocks = s.store.blocks.map fun b => { b with state := .busy } :=
      mapBlocks_blocks s.store fun b => { b with state := .busy }
    rw [released, ← scan, ← exchange, ← blocks]
    rfl

/-! ### SOFT RESET -/

theorem command_softReset {s : State} (running : Running s) :
    exec .softReset s = .next (withAnswer (given s 0x0011).softReset .ok) :=
  congrArg Host.Outcome.next (Laws.giveCommand_running running _ _)

theorem keepBegun_empty {α : Type} (begun : Bool) (produced : List α) :
    (!(keepBegun begun produced).isEmpty) = (begun && !produced.isEmpty) := by
  unfold keepBegun
  cases begun with
  | false => rfl
  | true => cases produced <;> rfl

/-- A port that a reset rebuilds keeps its first produced frame if its sending had begun (R52). -/
theorem scanKeeping_keepBegun (link begun : Bool) (produced : List ScanMsg) :
    ScanPort.keeping link (keepBegun begun produced) = { ScanPort.fresh link with
      produced := if begun then produced.take 1 else []
      begun := begun && !produced.isEmpty } := by
  rw [← keepBegun_empty]
  rfl

theorem exchangeKeeping_keepBegun (link begun : Bool) (mask : BitVec 4) (produced : List ExchangeMsg) :
    ExchangePort.keeping link mask (keepBegun begun produced) = { ExchangePort.fresh link mask with
      produced := if begun then produced.take 1 else []
      begun := begun && !produced.isEmpty } := by
  rw [← keepBegun_empty]
  rfl

theorem hasBegun_known {known : Bool} (n : Nat) (h : known = true) : hasBegun known n = true := by
  rw [hasBegun, h]
  rfl

/-- Settles O6: whether a frame had begun is what `hasBegun` says of each port. -/
theorem softResetResult : Obligations.SoftResetResult := by
  intro s running
  refine ⟨fun l => hasBegun (s.scan.get l).begun (s.free + l.val),
    fun p => hasBegun (s.exchange.get p).begun (s.free + 4 + p.val), s.free + 6,
    fun l known => hasBegun_known _ known, fun p known => hasBegun_known _ known, ?_⟩
  have scan : (given s 0x0011).softReset.scan = Vector.ofFn fun l => { ScanPort.fresh (s.scan.get l).link with
      produced := if hasBegun (s.scan.get l).begun (s.free + l.val) then (s.scan.get l).produced.take 1 else []
      begun := hasBegun (s.scan.get l).begun (s.free + l.val) && !(s.scan.get l).produced.isEmpty } := by
    simp only [← scanKeeping_keepBegun]
    exact spelled_ofFn_four fun l => ScanPort.keeping (s.scan.get l).link
      (keepBegun (hasBegun (s.scan.get l).begun (s.free + l.val)) (s.scan.get l).produced)
  have exchange : (given s 0x0011).softReset.exchange = Vector.ofFn fun p =>
      { ExchangePort.fresh (s.exchange.get p).link (s.exchange.get p).mask with
        produced := if hasBegun (s.exchange.get p).begun (s.free + 4 + p.val) then (s.exchange.get p).produced.take 1
          else []
        begun := hasBegun (s.exchange.get p).begun (s.free + 4 + p.val) && !(s.exchange.get p).produced.isEmpty } := by
    simp only [← exchangeKeeping_keepBegun]
    exact spelled_ofFn_two fun p => ExchangePort.keeping (s.exchange.get p).link (s.exchange.get p).mask
      (keepBegun (hasBegun (s.exchange.get p).begun (s.free + 4 + p.val)) (s.exchange.get p).produced)
  have lanes : (given s 0x0011).softReset.lanes = s.lanes.map fun r => { r with queue := [] } :=
    spelled_four s.lanes fun r => { r with queue := [] }
  have strips : (given s 0x0011).softReset.strips = List.range 2048 := by
    dsimp only [State.softReset, State.rebuild]
    exact congrArg List.range (by decide)
  have pages : (given s 0x0011).softReset.pages =
      { free := List.range 8192, freeCount := 8192, reserved := 0, headReserve := s.pages.headReserve } := by
    have count : Config.pages = 8192 := by decide
    dsimp only [State.softReset, State.rebuild, PagePool.fresh]
    rw [count]
    rfl
  rw [command_softReset running, ← scan, ← exchange, ← lanes, ← strips, ← pages]
  rfl

/-! ### RESET_N held low -/

/-- Every command that RESET_N held low keeps out tests the pin before anything else (R190). -/
theorem exec_keptOut {s : State} (low : s.pins.resetLow = true) {c : Instr} (out : takenInReset c = false) :
    exec c s = .next s := by
  have held (f : State → State) : (Host.Outcome.next (s.whileRunning f) : Host.Outcome State Fault Refusal) = .next s :=
    congrArg _ (Laws.whileRunning_reset low f)
  cases c with
  | powerOn | resetNRelease | burstComplete | scanLinkUp | scanLinkLost | exchangeLinkUp | exchangeLinkLost
  | stagingDataRead | itemDataRead | storeWeFall => exact Bool.noConfusion out
  | pinReset => exact congrArg Host.Outcome.next (if_pos low)
  | exchangeFailedFrame => rfl
  | itemOpen | faceOpen | row | faceClose | itemClose | itemAbandon | scanFailedFrame | pocketTimerExpiry | memoryGrant
  | segmentBoundary | claim | cancel | hold | go | delivered | returnItem | stallTimerExpiry | storeEditOn
  | storeEditOff | load | validate | program | erase | bind | laneClose | laneOpen | laneReset | setQuota | purge
  | xportReset | setMask | setStall | setReserve | softReset | unknownCommandCode | stagingDataWrite
  | stagingAddressWrite | itemSelectWrite | interruptCausesWrite | interruptEnablesWrite | interruptControlWrite
  | resetCauseWrite | registerWrite | startUpScanEnd | erasingComplete | programmingComplete | verifyEnd =>
    exact held _

/-- What the port status registers make of a port while RESET_N is low does not depend on its link (log 15). -/
theorem statuses_put {α : Type} {n : Nat} (v : Vector α n) (i : Fin n) (x : α) (bits : α → Nat)
    (same : bits x = bits (v.get i)) :
    (put v i x).toList.foldr (fun p n => bits p + 16 * n) 0 = v.toList.foldr (fun p n => bits p + 16 * n) 0 := by
  have mapped : (put v i x).map bits = v.map bits := by
    refine Laws.vector_ext_get fun j => ?_
    rw [map_get, map_get, Laws.get_put]
    split
    · rename_i e
      rw [same, e]
    · rfl
  have folded (w : Vector α n) : w.toList.foldr (fun p n => bits p + 16 * n) 0 =
      (w.map bits).toList.foldr (fun b n => b + 16 * n) 0 := by
    rw [Vector.toList_map, List.foldr_map]
  rw [folded, folded, mapped]

/-- The level of a scan link that changes while RESET_N is low is read in no register. -/
theorem readRegister_scanLevel {s : State} (low : s.pins.resetLow = true) (l : Lane) (level : Bool) (r : Fin 32) :
    ({ s with scan := put s.scan l { s.scan.get l with link := level } } : State).readRegister r = s.readRegister r := by
  unfold State.readRegister
  dsimp only
  rw [low, statuses_put s.scan l { s.scan.get l with link := level } (·.statusBits true) rfl]
  rfl

theorem mask_put (v : Vector ExchangePort 2) (p q : Port) (level : Bool) :
    ((put v p { v.get p with link := level }).get q).mask = (v.get q).mask := by
  rw [Laws.get_put]
  split
  · rename_i e
    rw [e]
  · rfl

theorem readRegister_exchangeLevel {s : State} (low : s.pins.resetLow = true) (p : Port) (level : Bool) (r : Fin 32) :
    ({ s with exchange := put s.exchange p { s.exchange.get p with link := level } } : State).readRegister r =
      s.readRegister r := by
  unfold State.readRegister
  dsimp only
  rw [low, statuses_put s.exchange p { s.exchange.get p with link := level } (·.statusBits true) rfl, mask_put, mask_put]
  rfl

/-- Settles O7: every meaning tests RESET_N. -/
theorem resetHoldsEverything : Obligations.ResetHoldsEverything := by
  intro s low
  exact ⟨fun c => exec_keptOut low, fun l => ⟨congrArg Host.Outcome.next (if_pos low), congrArg Host.Outcome.next (if_pos low)⟩,
    fun p => ⟨congrArg Host.Outcome.next (if_pos low), congrArg Host.Outcome.next (if_pos low)⟩,
    congrArg Host.Outcome.next (if_pos low), congrArg Host.Outcome.next (if_pos low),
    fun r level => ⟨fun l => readRegister_scanLevel low l level r, fun p => readRegister_exchangeLevel low p level r⟩⟩

/-! ### The reset cause flags -/

/-- Settles O9: each reset sets its one bit, and a write takes bits away (R186). -/
theorem resetCauseFlags : Obligations.ResetCauseFlags := by
  intro s
  have powered : s.powerOn.sup.resetCause = 1 := rfl
  have pinned : s.pinReset.sup.resetCause = s.sup.resetCause ||| 2 := rfl
  have softened : (withAnswer (given s 0x0011).softReset .ok).sup.resetCause = s.sup.resetCause ||| 4 := rfl
  refine ⟨⟨s.powerOn, rfl, ?_⟩, fun running => ⟨_, exec_pinReset running, ?_⟩,
    fun running => ⟨_, command_softReset running, ?_⟩,
    fun v running => ⟨s.sup.resetCause &&& ~~~(v.setWidth 3), ?_, fun i => ?_⟩⟩
  · rw [powered]
    decide
  · rw [pinned]
    simp
  · rw [softened]
    simp
  · exact congrArg Host.Outcome.next (Laws.whileRunning_running running (·.modSup (·.clearResetCause v)))
  · exact InterruptRegisters.getLsbD_and_not_setWidth _ v

end Sys2Proof.Resets
end

