-- ==== Sys2Proof/Proofs/CommandAnswers.lean ====
section
/-! PROOF. Answers of the supervisor's commands: bad codes and operands, LOAD and VALIDATE, BIND and users, edit enable,
ERASE and PROGRAM, lanes and settings, the store's own events, and the item window. -/

namespace Sys2Proof.CommandAnswers
open Sys2Proof.Machine Sys2Proof.Safety

/-! ### A command given while the part runs -/

section
variable {s : State} {code : Word} {command : State → Answer × State}

/-- A command that is answered and changes nothing else. -/
theorem given_answered (running : Running s) {a : Answer} (does : command (given s code) = (a, given s code)) :
    (Host.Outcome.next (s.giveCommand code command) : Host.Outcome State Fault Refusal) = .next (answered s code a) :=
  congrArg _ (Laws.giveCommand_answered running does)

/-- A command that is answered with the state it leaves. -/
theorem given_does (code : Word) (running : Running s) {a : Answer} {t : State} (does : command (given s code) = (a, t)) :
    (Host.Outcome.next (s.giveCommand code command) : Host.Outcome State Fault Refusal) = .next (withAnswer t a) := by
  rw [Laws.giveCommand_running running, does]

/-- A command that is answered and changes the store. -/
theorem given_stores (code : Word) (running : Running s) {a : Answer} {st : Store}
    (does : command (given s code) = (a, { given s code with store := st })) :
    (Host.Outcome.next (s.giveCommand code command) : Host.Outcome State Fault Refusal) =
      .next (answered { s with store := st } code a) := by
  rw [Laws.giveCommand_running running, does]
  rfl

end

/-! ### Operands out of range -/

section
variable {s : State}

theorem load_noBlock (h : blockOperand s.sup.operandA = none) : commandLoad s = (.invalidArg, s) := by
  rw [commandLoad, h]

theorem program_noBlock (h : blockOperand s.sup.operandA = none) : commandProgram s = (.invalidArg, s) := by
  rw [commandProgram, h]

theorem erase_noBlock (h : blockOperand s.sup.operandA = none) : commandErase s = (.invalidArg, s) := by
  rw [commandErase, h]

theorem laneClose_noLane (h : laneOperand s.sup.operandA = none) : commandLaneClose s = (.invalidArg, s) := by
  rw [commandLaneClose, h]

theorem laneOpen_noLane (h : laneOperand s.sup.operandA = none) : commandLaneOpen s = (.invalidArg, s) := by
  rw [commandLaneOpen, h]

theorem laneReset_noLane (h : laneOperand s.sup.operandA = none) : commandLaneReset s = (.invalidArg, s) := by
  rw [commandLaneReset, h]

theorem bind_bad (h : laneOperand s.sup.operandA = none ∨ targetOperand s.sup.operandB = none) :
    commandBind s = (.invalidArg, s) := by
  rcases h with h | h <;> simp [commandBind, h]

theorem setQuota_bad (h : laneOperand s.sup.operandA = none ∨ quotaOperand s.sup.operandB = none) :
    commandSetQuota s = (.invalidArg, s) := by
  rcases h with h | h <;> simp [commandSetQuota, h]

theorem purge_noSlot (h : slotOperand s.sup.operandA = none) : commandPurge s = (.invalidArg, s) := by
  rw [commandPurge, h]

theorem xportReset_noPort (h : portOperand s.sup.operandA = none) : commandXportReset s = (.invalidArg, s) := by
  rw [commandXportReset, h]

theorem setMask_bad (h : portOperand s.sup.operandA = none ∨ maskOperand s.sup.operandB = none) :
    commandSetMask s = (.invalidArg, s) := by
  rcases h with h | h <;> simp [commandSetMask, h]

theorem setStall_bad (h : stallOperand s.sup.operandA = none) : commandSetStall s = (.invalidArg, s) := by
  rw [commandSetStall, h]

theorem setReserve_bad (h : reserveOperand s.sup.operandA = none) : commandSetReserve s = (.invalidArg, s) := by
  rw [commandSetReserve, h]

end

/-- Settles O11: each command reads its operands before anything else. -/
theorem badCodeOrOperandChangesNothing : Obligations.BadCodeOrOperandChangesNothing := by
  intro s running
  refine ⟨fun code unknown => ?_, fun big => ⟨?_, ?_, ?_⟩, fun big => ⟨?_, ?_, ?_⟩, fun bad => ?_, fun bad => ?_,
    fun big => ?_, fun big => ?_, fun bad => ?_, fun bad => ?_, fun big => ?_⟩
  · exact given_answered running (congrFun (Laws.commandOf_unknown unknown) _)
  · exact given_answered running (load_noBlock (Laws.blockOperand_none big))
  · exact given_answered running (program_noBlock (Laws.blockOperand_none big))
  · exact given_answered running (erase_noBlock (Laws.blockOperand_none big))
  · exact given_answered running (laneClose_noLane (Laws.laneOperand_none big))
  · exact given_answered running (laneOpen_noLane (Laws.laneOperand_none big))
  · exact given_answered running (laneReset_noLane (Laws.laneOperand_none big))
  · exact given_answered running (bind_bad (bad.imp Laws.laneOperand_none Laws.targetOperand_none))
  · refine given_answered running (setQuota_bad (bad.imp Laws.laneOperand_none fun quota => Laws.rangeOperand_none ?_))
    exact quota.imp_left fun zero => by rw [show (given s 0x000B).sup.operandB.toNat = 0 from zero]; decide
  · exact given_answered running (purge_noSlot (Laws.slotOperand_none big))
  · exact given_answered running (xportReset_noPort (Laws.portOperand_none big))
  · exact given_answered running (setMask_bad (bad.imp Laws.portOperand_none Laws.maskOperand_none))
  · exact given_answered running (setStall_bad (Laws.rangeOperand_none bad))
  · exact given_answered running (setReserve_bad (Laws.rangeOperand_none (.inr big)))

/-! ### The item window -/

theorem selectItem_slot {s : State} {v : Word} {k : Slot} (named : v.toNat = k.val) : s.selectItem v = { s with
    sup := { s.sup with selected := k, snapshot := snapshotImage k (s.items.get k), readIndex := 0, result := .ok } } := by
  rw [State.selectItem, Laws.slotOperand_some named]
  rfl

theorem selectItem_none {s : State} {v : Word} (big : 256 ≤ v.toNat) : s.selectItem v = withAnswer s .invalidArg := by
  rw [State.selectItem, Laws.slotOperand_none big]
  rfl

/-- Settles O12. -/
theorem itemWindow : Obligations.ItemWindow := by
  intro s running
  refine ⟨fun v k named => ?_, fun v big => ?_, ?_⟩
  · exact congrArg Host.Outcome.next ((Laws.whileRunning_running running _).trans (selectItem_slot named))
  · exact congrArg Host.Outcome.next ((Laws.whileRunning_running running _).trans (selectItem_none big))
  · exact congrArg Host.Outcome.next (if_neg (Bool.eq_false_iff.mp running))

/-! ### LOAD, VALIDATE and BIND -/

section
variable {s : State} {b : BlockNo}

theorem commandLoad_block (named : s.sup.operandA.toNat = b.val) : commandLoad s =
    if (s.store.blocks.get b).state ≠ .valid then (.badState, s)
    else if s.store.inUse .staging then (.inUse, s)
    else if s.store.readingStaging then (.storeBusy, s)
    else (.ok, { s with store := { s.store with staging :=
      { s.store.staging with bytes := (s.store.blocks.get b).bytes, state := .validated } } }) := by
  rw [commandLoad, Laws.blockOperand_some named]
  rfl

/-- Settles O15, refusal by refusal. -/
theorem loadAndValidate : Obligations.LoadAndValidate := by
  refine ⟨fun s b running named => ?_, fun s running => ⟨fun empty => ?_, fun some passes => ?_, fun some fails => ?_⟩⟩
  · have load := commandLoad_block (s := given s 0x0003) named
    refine ⟨fun bad => ?_, fun valid => ⟨fun used => ?_, fun unused => ⟨fun reading => ?_, fun idle => ?_⟩⟩⟩
    · exact given_answered running (load.trans (if_pos bad))
    · exact given_answered running (load.trans ((if_neg (not_not_intro valid)).trans (if_pos used)))
    · exact given_answered running (load.trans ((if_neg (not_not_intro valid)).trans
        ((if_neg (Bool.eq_false_iff.mp unused)).trans (if_pos reading))))
    · exact given_stores 0x0003 running (load.trans ((if_neg (not_not_intro valid)).trans
        ((if_neg (Bool.eq_false_iff.mp unused)).trans (if_neg (Bool.eq_false_iff.mp idle)))))
  · exact given_answered running (if_pos empty)
  · exact given_stores 0x0004 running ((if_neg some).trans (if_pos passes))
  · exact given_answered running ((if_neg some).trans (if_neg (Bool.eq_false_iff.mp fails)))

theorem commandBind_target {l : Lane} {target : Option Source} (lane : s.sup.operandA.toNat = l.val)
    (named : targetOperand s.sup.operandB = some target) : commandBind s =
    match s.store.bindRefusal target with
    | some a => (a, s)
    | none => (.ok, { s with store := { s.store with bindings := put s.store.bindings l target } }) := by
  rw [commandBind, Laws.laneOperand_some lane, named]
  rfl

theorem commandBind_refused {l : Lane} {target : Option Source} {a : Answer} (lane : s.sup.operandA.toNat = l.val)
    (named : targetOperand s.sup.operandB = some target) (refused : s.store.bindRefusal target = some a) :
    commandBind s = (a, s) := by
  rw [commandBind_target lane named, refused]

theorem commandBind_taken {l : Lane} {target : Option Source} (lane : s.sup.operandA.toNat = l.val)
    (named : targetOperand s.sup.operandB = some target) (taken : s.store.bindRefusal target = none) :
    commandBind s = (.ok, { s with store := { s.store with bindings := put s.store.bindings l target } }) := by
  rw [commandBind_target lane named, taken]

end

/-- Settles O18: the target's state decides, and the users are the pin count and the bindings. -/
theorem bindingsAndUsers : Obligations.BindingsAndUsers := by
  refine ⟨fun s l running lane => ⟨fun b named => ⟨fun bad => ?_, fun valid => ?_⟩, fun named => ⟨fun bad => ?_, fun valid => ?_⟩,
    fun named => ?_⟩, fun st b => ⟨?_, ?_⟩⟩
  · exact given_answered running (commandBind_refused lane (Laws.targetOperand_block named) (if_neg bad))
  · exact given_stores 0x0007 running (commandBind_taken lane (Laws.targetOperand_block named) (if_pos valid))
  · exact given_answered running (commandBind_refused lane (Laws.targetOperand_staging named) (if_neg bad))
  · exact given_stores 0x0007 running (commandBind_taken lane (Laws.targetOperand_staging named) (if_pos valid))
  · exact given_stores 0x0007 running (commandBind_taken lane (Laws.targetOperand_unbound named) rfl)
  · exact SourcesGuarded.inUse_iff st (.block b)
  · exact SourcesGuarded.inUse_iff st .staging

/-! ### Edit enable, ERASE and PROGRAM -/

section
variable {st : Store} {b : BlockNo}

theorem editRefusal_busy (busy : st.phase ≠ .idle) : st.editRefusal = some .busy := if_pos busy

theorem editRefusal_latched (idle : st.phase = .idle) (latched : st.latch = true) :
    st.editRefusal = some .protectedStore := (if_neg (not_not_intro idle)).trans (if_pos latched)

theorem editRefusal_notEnabled (idle : st.phase = .idle) (free : st.latch = false) (off : st.editEnable = false) :
    st.editRefusal = some .notEnabled := by
  simp [Store.editRefusal, idle, free, off]

theorem editRefusal_ready (idle : st.phase = .idle) (free : st.latch = false) (on : st.editEnable = true) :
    st.editRefusal = none := by
  simp [Store.editRefusal, idle, free, on]

theorem eraseRefusal_edit {a : Answer} (refused : st.editRefusal = some a) : st.eraseRefusal b = some a := by
  rw [Store.eraseRefusal, refused]

theorem eraseRefusal_enabled (enabled : st.editRefusal = none) :
    st.eraseRefusal b = if st.inUse (.block b) then some .inUse else none := by
  rw [Store.eraseRefusal, enabled]

theorem programRefusal_edit {a : Answer} (refused : st.editRefusal = some a) : st.programRefusal b = some a := by
  rw [Store.programRefusal, refused]

theorem programRefusal_enabled (enabled : st.editRefusal = none) :
    st.programRefusal b =
      if (st.blocks.get b).state ≠ .empty then some .badState
      else if st.inUse (.block b) then some .inUse
      else if st.staging.state ≠ .validated then some .stagingNotValid
      else if st.duplicate then some .duplicate
      else none := by
  rw [Store.programRefusal, enabled]

/-- A VALID block of the staging area's name and edition (R152). -/
theorem duplicate_iff : st.duplicate = true ↔ ∃ c, (st.blocks.get c).state = .valid ∧
    (st.blocks.get c).bytes.take 10 = st.staging.bytes.take 10 := by
  unfold Store.duplicate profileIdentity
  rw [List.any_eq_true]
  constructor
  · rintro ⟨x, listed, same⟩
    obtain ⟨n, inside, rfl⟩ := List.getElem_of_mem listed
    rw [Vector.length_toList] at inside
    rw [Vector.getElem_toList, Bool.and_eq_true, decide_eq_true_iff, decide_eq_true_iff] at same
    exact ⟨⟨n, inside⟩, same⟩
  · rintro ⟨c, same⟩
    refine ⟨st.blocks.get c, ?_, ?_⟩
    · rw [Vector.mem_toList_iff, Laws.get_eq_getElem]
      exact Vector.getElem_mem _
    · rw [Bool.and_eq_true, decide_eq_true_iff, decide_eq_true_iff]
      exact same

end

section
variable {s : State} {b : BlockNo}

theorem commandErase_refused (named : s.sup.operandA.toNat = b.val) {a : Answer}
    (refused : s.store.eraseRefusal b = some a) : commandErase s = (a, s) := by
  rw [commandErase, Laws.blockOperand_some named]
  dsimp only
  rw [refused]

theorem commandErase_started (named : s.sup.operandA.toNat = b.val) (taken : s.store.eraseRefusal b = none) :
    commandErase s = (.ok, { s with store := s.store.start .erase b }) := by
  rw [commandErase, Laws.blockOperand_some named]
  dsimp only
  rw [taken]
  rfl

theorem commandProgram_refused (named : s.sup.operandA.toNat = b.val) {a : Answer}
    (refused : s.store.programRefusal b = some a) : commandProgram s = (a, s) := by
  rw [commandProgram, Laws.blockOperand_some named]
  dsimp only
  rw [refused]

theorem commandProgram_started (named : s.sup.operandA.toNat = b.val) (taken : s.store.programRefusal b = none) :
    commandProgram s = (.ok, { s with store := s.store.start .program b }) := by
  rw [commandProgram, Laws.blockOperand_some named]
  dsimp only
  rw [taken]
  rfl

end

section
variable {s : State} {b : BlockNo} (running : Running s) (named : s.sup.operandA.toNat = b.val)
include running named

theorem exec_erase_refused {a : Answer} (refused : s.store.eraseRefusal b = some a) :
    exec .erase s = .next (answered s 0x0006 a) :=
  given_answered running (commandErase_refused (s := given s 0x0006) named refused)

theorem exec_erase_started (taken : s.store.eraseRefusal b = none) :
    exec .erase s = .next (answered { s with store := s.store.start .erase b } 0x0006 .ok) :=
  given_stores 0x0006 running (commandErase_started (s := given s 0x0006) named taken)

theorem exec_program_refused {a : Answer} (refused : s.store.programRefusal b = some a) :
    exec .program s = .next (answered s 0x0005 a) :=
  given_answered running (commandProgram_refused (s := given s 0x0005) named refused)

theorem exec_program_started (taken : s.store.programRefusal b = none) :
    exec .program s = .next (answered { s with store := s.store.start .program b } 0x0005 .ok) :=
  given_stores 0x0005 running (commandProgram_started (s := given s 0x0005) named taken)

/-- ERASE and PROGRAM share their first refusals (Table 8.5). -/
theorem exec_edits_refused {a : Answer} (refused : s.store.editRefusal = some a) :
    exec .erase s = .next (answered s 0x0006 a) ∧ exec .program s = .next (answered s 0x0005 a) :=
  ⟨exec_erase_refused running named (eraseRefusal_edit refused),
    exec_program_refused running named (programRefusal_edit refused)⟩

end

theorem exec_storeEditOn {s : State} (running : Running s) (level : Bool) : exec (.storeEditOn level) s =
    .next ((s.modPins fun x => { x with storeWe := level }).giveCommand 0x0001 commandStoreEditOn) :=
  congrArg _ (Laws.whileRunning_running running _)

/-- Settles O19, refusal by refusal in the order of Table 8.5. -/
theorem editEnableEraseProgram : Obligations.EditEnableEraseProgram := by
  refine ⟨fun s => ⟨fun running => ⟨?_, ?_, ?_⟩, rfl⟩, fun s b running named => ⟨fun busy => ?_, fun idle =>
    ⟨fun latched => ?_, fun free => ⟨fun off => ?_, fun on => ?_⟩⟩⟩⟩
  · rw [exec_storeEditOn running]
    exact given_stores (s := s.modPins fun x => { x with storeWe := true }) 0x0001 running rfl
  · rw [exec_storeEditOn running]
    exact given_stores (s := s.modPins fun x => { x with storeWe := false }) 0x0001 running rfl
  · exact given_stores 0x0002 running rfl
  · exact exec_edits_refused running named (editRefusal_busy busy)
  · exact exec_edits_refused running named (editRefusal_latched idle latched)
  · exact exec_edits_refused running named (editRefusal_notEnabled idle free off)
  · have enabled := editRefusal_ready idle free on
    have erase := eraseRefusal_enabled (b := b) enabled
    have program := programRefusal_enabled (b := b) enabled
    refine ⟨fun used => ?_, fun unused => ?_, fun bad => ?_, fun empty => ⟨fun used => ?_, fun unused => ⟨fun bad => ?_,
      fun validated => ⟨fun twin => ?_, fun single => ?_⟩⟩⟩⟩
    · exact exec_erase_refused running named (erase.trans (if_pos used))
    · exact exec_erase_started running named (erase.trans (if_neg (Bool.eq_false_iff.mp unused)))
    · exact exec_program_refused running named (program.trans (if_pos bad))
    · rw [if_neg (not_not_intro empty)] at program
      exact exec_program_refused running named (program.trans (if_pos used))
    · rw [if_neg (not_not_intro empty), if_neg (Bool.eq_false_iff.mp unused)] at program
      exact exec_program_refused running named (program.trans (if_pos bad))
    · rw [if_neg (not_not_intro empty), if_neg (Bool.eq_false_iff.mp unused), if_neg (not_not_intro validated)] at program
      exact exec_program_refused running named (program.trans (if_pos (duplicate_iff.mpr twin)))
    · rw [if_neg (not_not_intro empty), if_neg (Bool.eq_false_iff.mp unused), if_neg (not_not_intro validated)] at program
      have none : ¬ s.store.duplicate = true := fun twin =>
        have ⟨c, valid, same⟩ := duplicate_iff.mp twin
        single c valid same
      exact exec_program_started running named (program.trans (if_neg none))

/-! ### The store's own events -/

theorem endWrite_eq {st : Store} {op : StoreOp} {b : BlockNo} (operation : st.operation = some (op, b)) :
    st.endWrite = { st with
      blocks := put st.blocks b { st.blocks.get b with bytes := st.written op }
      phase := .verifying
      phaseLeft := 5 } := by
  unfold Store.endWrite
  split
  · rename_i none
    rw [operation] at none
    cases none
  · rename_i found
    obtain ⟨rfl, rfl⟩ := Prod.mk.inj (Option.some.inj (operation.symm.trans found))
    rfl

/-- Settles O20. -/
theorem writeCompletes : Obligations.WriteCompletes := by
  refine fun s b running => ⟨fun phase operation => ?_, fun phase operation => ?_, fun other => ?_, fun other => ?_⟩
  · rw [Time.exec_erasingComplete running phase, State.modStore, endWrite_eq operation]
    rfl
  · rw [Time.exec_programmingComplete running phase, State.modStore, endWrite_eq operation]
    rfl
  · exact congrArg Host.Outcome.next ((Laws.whileRunning_running running _).trans (if_neg other))
  · exact congrArg Host.Outcome.next ((Laws.whileRunning_running running _).trans (if_neg other))

section
variable {s : State} {op : StoreOp} {b : BlockNo} {lost : List (Nat × Byte)}

/-- A verify that reads back what was written (R166). -/
theorem endVerify_passes (operation : s.store.operation = some (op, b))
    (passes : lose (s.store.blocks.get b).bytes lost = s.store.written op) : s.endVerify lost = { s with
      store := Access.verifyPassed s.store op b
      sup := { s.sup with causes := s.sup.causes ||| 1 } } := by
  unfold State.endVerify
  rw [operation]
  simp only [passes, decide_true, if_true, Bool.not_true, Bool.or_false]
  rfl

/-- A verify that reads back something else (R166, R167). -/
theorem endVerify_fails (operation : s.store.operation = some (op, b))
    (fails : lose (s.store.blocks.get b).bytes lost ≠ s.store.written op) : s.endVerify lost = { s with
      store := Access.verifyFailed s.store op b (lose (s.store.blocks.get b).bytes lost)
      sup := { s.sup with causes := s.sup.causes ||| 3 } } := by
  have causes : s.sup.causes ||| 1 ||| 2 = s.sup.causes ||| 3 := BitVec.or_assoc ..
  unfold State.endVerify
  rw [operation, ← causes]
  simp only [fails, decide_false, Bool.false_eq_true, if_false, Bool.not_false, Bool.or_true]
  rfl

end

/-- Settles O21: what is read back passes exactly when it is what was written (R166, R167). -/
theorem verifyEndResult : Obligations.VerifyEndResult := by
  intro s op b lost running phase operation written read
  have writtenEq : s.store.written op = written := by cases op <;> rfl
  rw [Time.exec_verifyEnd running phase]
  refine ⟨fun same => ?_, fun differs => ?_⟩
  · rw [endVerify_passes operation (same.trans writtenEq.symm), same, ← writtenEq]
    rfl
  · rw [endVerify_fails operation fun same => differs (same.trans writtenEq)]
    rfl

/-- Settles O22. -/
theorem startUpScanResult : Obligations.StartUpScanResult := by
  intro s running
  refine ⟨fun phase => ?_, fun other => ?_⟩
  · have blocks : s.store.endScan.blocks = s.store.blocks.map fun b => { b with state := b.classify } :=
      Resets.mapBlocks_blocks s.store fun b => { b with state := b.classify }
    rw [Time.exec_startUpScanEnd running phase]
    have scanned : s.store.endScan = { s.store with blocks := s.store.endScan.blocks, phase := .idle, phaseLeft := 0 } := rfl
    rw [State.modStore, scanned, blocks]
    rfl
  · exact congrArg Host.Outcome.next ((Laws.whileRunning_running running _).trans (if_neg other))

/-! ### Lanes and settings -/

theorem drainedTest_queue {s : State} {l : Lane} (queue : (s.lanes.get l).queue ≠ []) : s.drainedTest l = s :=
  if_neg fun test => queue test.2

theorem drainedTest_empty {s : State} {l : Lane} (closed : (s.lanes.get l).closed = true)
    (queue : (s.lanes.get l).queue = []) : s.drainedTest l = s.setCause .drained := if_pos ⟨closed, queue⟩

section
variable {s : State}

theorem commandLaneOpen_lane {l : Lane} (lane : s.sup.operandA.toNat = l.val) : commandLaneOpen s =
    (.ok, { s with lanes := put s.lanes l { s.lanes.get l with closed := false } }) := by
  rw [commandLaneOpen, Laws.laneOperand_some lane]
  rfl

theorem commandLaneClose_lane {l : Lane} (lane : s.sup.operandA.toNat = l.val) : commandLaneClose s =
    (.ok, ({ s with lanes := put s.lanes l { s.lanes.get l with closed := true } } : State).drainedTest l) := by
  rw [commandLaneClose, Laws.laneOperand_some lane]
  rfl

theorem commandSetQuota_lane {l : Lane} (lane : s.sup.operandA.toNat = l.val) (low : 1 ≤ s.sup.operandB.toNat)
    (high : s.sup.operandB.toNat ≤ 256) : commandSetQuota s =
      (.ok, { s with lanes := put s.lanes l { s.lanes.get l with quota := s.sup.operandB.toNat } }) := by
  have quota : quotaOperand s.sup.operandB = some s.sup.operandB.toNat := Laws.rangeOperand_some low high
  rw [commandSetQuota, Laws.laneOperand_some lane, quota]
  rfl

theorem commandSetMask_port {p : Port} {mask : BitVec 4} (port : s.sup.operandA.toNat = p.val)
    (named : s.sup.operandB.toNat = mask.toNat) : commandSetMask s =
      (.ok, { s with exchange := put s.exchange p { s.exchange.get p with mask := mask } }) := by
  have operand : maskOperand s.sup.operandB = some mask := by
    rw [Laws.maskOperand_some (by omega)]
    refine congrArg some (BitVec.eq_of_toNat_eq ?_)
    rw [BitVec.toNat_setWidth, named]
    omega
  rw [commandSetMask, Laws.portOperand_some port, operand]
  rfl

theorem commandSetStall_limit (low : 10 ≤ s.sup.operandA.toNat) (high : s.sup.operandA.toNat ≤ 60000) :
    commandSetStall s = (.ok, { s with stallLimit := s.sup.operandA.toNat }) := by
  have limit : stallOperand s.sup.operandA = some s.sup.operandA.toNat := Laws.rangeOperand_some low high
  rw [commandSetStall, limit]
  rfl

theorem commandSetReserve_pages (high : s.sup.operandA.toNat ≤ 2048) : commandSetReserve s =
    (.ok, ({ s with pages := { s.pages with headReserve := s.sup.operandA.toNat } } : State).dispatchAct) := by
  have reserve : reserveOperand s.sup.operandA = some s.sup.operandA.toNat :=
    Laws.rangeOperand_some (Nat.zero_le _) high
  rw [commandSetReserve, reserve]
  rfl

end

/-- Settles O23. -/
theorem laneAndSettingsCommands : Obligations.LaneAndSettingsCommands := by
  refine ⟨fun s l running lane => ⟨?_, fun some => ?_, fun empty => ?_⟩,
    fun s running => ⟨fun l lane low high => ?_, fun p mask port named => ?_, fun low high => ?_⟩,
    fun s running high => ?_⟩
  · exact given_does 0x0009 running (commandLaneOpen_lane (s := given s 0x0009) lane)
  · have close := commandLaneClose_lane (s := given s 0x0008) lane
    rw [drainedTest_queue (by rw [Laws.get_put_same]; exact some)] at close
    exact given_does 0x0008 running close
  · have close := commandLaneClose_lane (s := given s 0x0008) lane
    rw [drainedTest_empty (by rw [Laws.get_put_same]) (by rw [Laws.get_put_same]; exact empty)] at close
    exact given_does 0x0008 running close
  · exact given_does 0x000B running (commandSetQuota_lane (s := given s 0x000B) lane low high)
  · exact given_does 0x000E running (commandSetMask_port (s := given s 0x000E) port named)
  · exact given_does 0x000F running (commandSetStall_limit (s := given s 0x000F) low high)
  · exact given_does 0x0010 running (commandSetReserve_pages (s := given s 0x0010) high)

end Sys2Proof.CommandAnswers
end

