-- ==== Sys2Proof/Proofs/Registers.lean ====
section
/-! PROOF. The register window: what a write of each register does, and what each register reads back. -/

namespace Sys2Proof.Registers
open Sys2Proof.Machine Sys2Proof.Safety

/-! ### Numbers in the bits of a register -/

theorem bitsOf_num {n : Nat} (small : n < 65536) (low width : Nat) :
    bitsOf (num n) low width = n / 2 ^ low % 2 ^ width := by
  have value : (num n).toNat = n := by
    rw [num, BitVec.toNat_ofNat]
    exact Nat.mod_eq_of_lt small
  rw [bitsOf, value]

/-- The fields of a register, from the number it shows. -/
theorem bitsOf_eq {w : Word} {n : Nat} (shows : w = num n) (small : n < 65536) (low width : Nat) :
    bitsOf w low width = n / 2 ^ low % 2 ^ width := shows ▸ bitsOf_num small low width

/-- Digits of a base, the first the lowest. -/
def digits (base : Nat) (l : List Nat) : Nat := l.foldr (fun d n => d + base * n) 0

theorem digits_lt {base : Nat} {l : List Nat} (small : ∀ d ∈ l, d < base) : digits base l < base ^ l.length := by
  induction l with
  | nil => exact Nat.one_pos
  | cons d l ih =>
    have first := small d (List.mem_cons_self)
    have rest := ih fun x listed => small x (List.mem_cons_of_mem _ listed)
    show d + base * digits base l < base ^ (l.length + 1)
    calc d + base * digits base l < base + base * digits base l := by omega
      _ = base * (digits base l + 1) := by rw [Nat.mul_add, Nat.mul_one, Nat.add_comm]
      _ ≤ base * base ^ l.length := Nat.mul_le_mul_left _ rest
      _ = base ^ (l.length + 1) := by rw [Nat.pow_succ, Nat.mul_comm]

theorem digits_place {base : Nat} {l : List Nat} (small : ∀ d ∈ l, d < base) (i : Nat) (inside : i < l.length) :
    digits base l / base ^ i % base = l[i] := by
  induction l generalizing i with
  | nil => cases inside
  | cons d l ih =>
    have first := small d (List.mem_cons_self)
    have positive : 0 < base := Nat.zero_lt_of_lt first
    show (d + base * digits base l) / base ^ i % base = _
    cases i with
    | zero =>
      rw [Nat.pow_zero, Nat.div_one, Nat.add_mul_mod_self_left, Nat.mod_eq_of_lt first]
      rfl
    | succ i =>
      have shifted : (d + base * digits base l) / base ^ (i + 1) = digits base l / base ^ i := by
        rw [Nat.pow_succ, Nat.mul_comm (base ^ i), ← Nat.div_div_eq_div_mul, Nat.add_mul_div_left _ _ positive,
          Nat.div_eq_of_lt first, Nat.zero_add]
      rw [shifted]
      exact ih (fun x listed => small x (List.mem_cons_of_mem _ listed)) i (Nat.lt_of_succ_lt_succ inside)

section
variable {α : Type} {n base : Nat} (v : Vector α n) (code : α → Nat)

theorem foldr_digits :
    v.toList.foldr (fun x n => code x + base * n) 0 = digits base (v.toList.map code) := by
  rw [digits, List.foldr_map]

theorem foldr_lt (small : ∀ x, code x < base) : v.toList.foldr (fun x n => code x + base * n) 0 < base ^ n := by
  have bound := digits_lt (base := base) (l := v.toList.map code) (by simp [small])
  rwa [List.length_map, Vector.length_toList, ← foldr_digits] at bound

/-- A port's or block's place in a register that lists them all. -/
theorem foldr_place (small : ∀ x, code x < base) (i : Fin n) :
    v.toList.foldr (fun x n => code x + base * n) 0 / base ^ i.val % base = code (v.get i) := by
  rw [foldr_digits, digits_place (by simp [small]) i.val (by simp), List.getElem_map, Vector.getElem_toList,
    Laws.get_eq_getElem]

end

/-! ### Writes -/

section
variable {s : State} (v : Word)

theorem exec_registerWrite (running : Running s) (r : Fin 32) : exec (.registerWrite r v) s = .next (s.writeRegister r v) :=
  congrArg _ (Laws.whileRunning_running running _)

/-- A register that is read only takes nothing (R175). -/
theorem writeRegister_readOnly {r : Fin 32} (other : registerHasOwnRow r = false) (notA : r ≠ 0x01) (notB : r ≠ 0x02) :
    s.writeRegister r v = s := by
  have notIn (n : Fin 32) (row : registerHasOwnRow n = true) : r ≠ n := by
    rintro rfl
    rw [row] at other
    cases other
  have named {n : Nat} (inside : n < 32) (e : r.val = n) : r = ⟨n, inside⟩ := Fin.ext e
  unfold State.writeRegister
  split <;> rename_i e
  · exact absurd (named (by decide) e) (notIn 0x00 rfl)
  · exact absurd (named (by decide) e) notA
  · exact absurd (named (by decide) e) notB
  · exact absurd (named (by decide) e) (notIn 0x04 rfl)
  · exact absurd (named (by decide) e) (notIn 0x05 rfl)
  · exact absurd (named (by decide) e) (notIn 0x06 rfl)
  · exact absurd (named (by decide) e) (notIn 0x07 rfl)
  · exact absurd (named (by decide) e) (notIn 0x1C rfl)
  · exact absurd (named (by decide) e) (notIn 0x1D rfl)
  · exact absurd (named (by decide) e) (notIn 0x1E rfl)
  · rfl

/-- A register with a row of its own is written as that row says (log 20). -/
theorem exec_ownRow (running : Running s) {r : Fin 32} {c : Instr} {f : State → State} (row : exec c s = .next (s.whileRunning f))
    (same : s.writeRegister r v = f s) : exec (.registerWrite r v) s = exec c s := by
  rw [exec_registerWrite v running, row, Laws.whileRunning_running running, same]

theorem exec_commandRegister (running : Running s) :
    exec (.registerWrite 0x00 v) s = exec (.unknownCommandCode v) s := exec_registerWrite v running 0x00

end

/-! ### The store's registers -/

theorem toNat_le (b : Bool) : b.toNat ≤ 1 := by cases b <;> decide

theorem phase_code_le (p : StorePhase) : p.code ≤ 4 := by cases p <;> decide

theorem staging_code_le (p : StagingState) : p.code ≤ 2 := by cases p <;> decide

/-- The operation field of the store status register (R196). -/
def operationField : Option (StoreOp × BlockNo) → Nat
  | none => 0
  | some (.erase, b) => b.val
  | some (.program, b) => b.val + 8

theorem operationField_lt (o : Option (StoreOp × BlockNo)) : operationField o < 16 := by
  match o with
  | none => decide
  | some (.erase, b) =>
    show b.val < 16
    omega
  | some (.program, b) =>
    show b.val + 8 < 16
    omega

/-- The fields of the store status register, each in its place. -/
theorem status_eq (st : Store) : st.status = num (st.phase.code + operationField st.operation * 8 + st.latch.toNat * 128 +
    st.editEnable.toNat * 256 + st.staging.state.code * 512) := by
  unfold Store.status
  cases st.operation with
  | none => rfl
  | some x =>
    obtain ⟨op, b⟩ := x
    cases op with
    | erase => rfl
    | program =>
      have place : b.val * 8 + 64 = (b.val + 8) * 8 := by omega
      dsimp only [operationField]
      rw [place]

section
variable (st : Store)

theorem status_bits (low width : Nat) : bitsOf st.status low width = (st.phase.code + operationField st.operation * 8 +
    st.latch.toNat * 128 + st.editEnable.toNat * 256 + st.staging.state.code * 512) / 2 ^ low % 2 ^ width := by
  have phase := phase_code_le st.phase
  have operation := operationField_lt st.operation
  have latch := toNat_le st.latch
  have edit := toNat_le st.editEnable
  have staging := staging_code_le st.staging.state
  rw [status_eq, bitsOf_num (by omega)]

theorem status_fields :
    bitsOf st.status 0 3 = st.phase.code ∧ bitsOf st.status 3 4 = operationField st.operation ∧
    bitsOf st.status 7 1 = st.latch.toNat ∧ bitsOf st.status 8 1 = st.editEnable.toNat ∧
    bitsOf st.status 9 2 = st.staging.state.code ∧ bitsOf st.status 11 5 = 0 := by
  have phase := phase_code_le st.phase
  have operation := operationField_lt st.operation
  have latch := toNat_le st.latch
  have edit := toNat_le st.editEnable
  have staging := staging_code_le st.staging.state
  simp only [status_bits, Nat.reducePow]
  omega

theorem outcome_fields (o : StoreOutcome) :
    bitsOf (outcomeCode (some o)) 0 2 = (match o.op with
      | .erase => 1
      | .program => 2) ∧
    bitsOf (outcomeCode (some o)) 2 3 = o.block.val ∧ bitsOf (outcomeCode (some o)) 5 1 = o.failed.toNat ∧
    bitsOf (outcomeCode (some o)) 6 10 = 0 := by
  have failed := toNat_le o.failed
  have shows (op : Nat) (e : (match o.op with
      | .erase => 1
      | .program => 2) = op) : outcomeCode (some o) = num (op + o.block.val * 4 + o.failed.toNat * 32) := e ▸ rfl
  cases op : o.op with
  | erase =>
    have bits := bitsOf_eq (shows 1 (by rw [op])) (by omega)
    simp only [bits, Nat.reducePow]
    omega
  | program =>
    have bits := bitsOf_eq (shows 2 (by rw [op])) (by omega)
    simp only [bits, Nat.reducePow]
    omega

theorem block_code_lt (p : BlockState) : p.code < 4 := by cases p <;> decide

theorem blockStates_field (b : BlockNo) : bitsOf st.blockStates (2 * b.val) 2 = (st.blocks.get b).state.code := by
  have bound := foldr_lt st.blocks (fun b => b.state.code) (base := 4) fun x => block_code_lt x.state
  have place := foldr_place st.blocks (fun b => b.state.code) (base := 4) (fun x => block_code_lt x.state) b
  rw [Store.blockStates, bitsOf_num (Nat.lt_of_lt_of_le bound (by decide)), Nat.pow_mul]
  exact place

end

/-! ### Port status -/

/-- Four bits of a port: three for its state, one for its link (Table 10.11). -/
theorem portBits_fields {n code : Nat} {link : Bool} (small : code < 8) (four : n % 16 = portBits code link) :
    n % 8 = code ∧ n / 8 % 2 = link.toNat := by
  have bit := toNat_le link
  rw [portBits] at four
  omega

theorem scan_code_lt (p : ScanState) : p.code < 8 := by cases p <;> decide
theorem exchange_code_lt (p : ExchangeState) : p.code < 8 := by cases p <;> decide

theorem portBits_lt {code : Nat} (small : code < 8) (link : Bool) : portBits code link < 16 := by
  have bit := toNat_le link
  rw [portBits]
  omega

/-- A port's place in a status register. -/
theorem status_place {α : Type} {m : Nat} (v : Vector α m) (state : α → Nat) (link : α → Bool) (few : m ≤ 4)
    (small : ∀ x, state x < 8) (i : Fin m) :
    let word := num (v.toList.foldr (fun x n => portBits (state x) (link x) + 16 * n) 0)
    bitsOf word (4 * i.val) 3 = state (v.get i) ∧ bitsOf word (4 * i.val + 3) 1 = (link (v.get i)).toNat := by
  intro word
  have bits (x : α) := portBits_lt (small x) (link x)
  have bound := foldr_lt v (fun x => portBits (state x) (link x)) (base := 16) bits
  have place := foldr_place v (fun x => portBits (state x) (link x)) (base := 16) bits i
  have total : v.toList.foldr (fun x n => portBits (state x) (link x) + 16 * n) 0 < 65536 :=
    Nat.lt_of_lt_of_le bound (Nat.pow_le_pow_right (by decide) few)
  obtain ⟨low, high⟩ := portBits_fields (small _) place
  rw [bitsOf_num total, bitsOf_num total, Nat.pow_add, ← Nat.div_div_eq_div_mul, Nat.pow_mul]
  exact ⟨low, high⟩

section
variable (s : State)

theorem scanStatus (l : Lane) : bitsOf (s.readRegister 0x0B) (4 * l.val) 3 = (s.scan.get l).state.code ∧
    bitsOf (s.readRegister 0x0B) (4 * l.val + 3) 1 =
      (shownLink s.pins.resetLow ((s.scan.get l).state = .down) (s.scan.get l).link).toNat :=
  status_place s.scan (fun p => p.state.code) (fun p => shownLink s.pins.resetLow (p.state = .down) p.link) (by decide)
    (fun p => scan_code_lt p.state) l

theorem exchangeStatus (p : Port) : bitsOf (s.readRegister 0x0C) (4 * p.val) 3 = (s.exchange.get p).state.code ∧
    bitsOf (s.readRegister 0x0C) (4 * p.val + 3) 1 =
      (shownLink s.pins.resetLow ((s.exchange.get p).state = .down) (s.exchange.get p).link).toNat :=
  status_place s.exchange (fun x => x.state.code) (fun x => shownLink s.pins.resetLow (x.state = .down) x.link) (by decide)
    (fun x => exchange_code_lt x.state) p

theorem exchangeStatus_high : bitsOf (s.readRegister 0x0C) 8 8 = 0 := by
  have bits (x : ExchangePort) : x.statusBits s.pins.resetLow < 16 := portBits_lt (exchange_code_lt x.state) _
  have bound := foldr_lt s.exchange (fun x => x.statusBits s.pins.resetLow) (base := 16) bits
  have small : s.exchange.toList.foldr (fun x n => x.statusBits s.pins.resetLow + 16 * n) 0 < 256 := bound
  show bitsOf (num (s.exchange.toList.foldr (fun x n => x.statusBits s.pins.resetLow + 16 * n) 0)) 8 8 = 0
  rw [bitsOf_num (by omega), Nat.div_eq_of_lt (show _ < 2 ^ 8 from small), Nat.zero_mod]

end

/-- The link shown while the part runs is the detector's (R180). -/
theorem shownLink_running {s : State} (running : Running s) (down link : Bool) :
    shownLink s.pins.resetLow down link = link := if_neg (Bool.eq_false_iff.mp running)

/-- In reset, and wherever a running port is DOWN exactly while its link is, the link shown is down for a port in DOWN
(R190, log 15). -/
theorem shownLink_down {s : State} {link : Bool} {down : Prop} [Decidable down]
    (agree : s.pins.resetLow = true ∨ (Running s → (link = true ↔ ¬ down))) :
    (shownLink s.pins.resetLow down link).toNat = if down then 0 else 1 := by
  by_cases low : s.pins.resetLow = true
  · rw [shownLink, if_pos low]
    by_cases h : down <;> simp [h]
  · have running : Running s := Bool.eq_false_iff.mpr low
    have linked := agree.resolve_left low running
    rw [shownLink_running running]
    by_cases h : down
    · have off : link = false := Bool.eq_false_iff.mpr fun on => linked.mp on h
      simp [h, off]
    · simp [h, linked.mpr h]

/-! ### Lanes, jobs and masks -/

theorem binding_code_lt (target : Option Source) : bindingCode target < 10 := by
  match target with
  | none => decide
  | some .staging => decide
  | some (.block b) =>
    show (BitVec.ofNat 8 b.val).toNat < 10
    rw [BitVec.toNat_ofNat]
    omega

theorem bindingCode_eq (target : Option Source) : bindingCode target = match target with
    | none => 9
    | some .staging => 8
    | some (.block b) => b.val := by
  match target with
  | none => rfl
  | some .staging => rfl
  | some (.block b) =>
    show (BitVec.ofNat 8 b.val).toNat = b.val
    rw [BitVec.toNat_ofNat]
    omega

section
variable (s : State)

theorem readRegister_lane {l : Lane} {r : Fin 32} (named : r.val = 0x12 + l.val) : s.readRegister r = s.laneStatus l := by
  match l with
  | 0 | 1 | 2 | 3 =>
    rw [Fin.ext (b := ⟨_, by decide⟩) named]
    rfl

theorem readRegister_quota {l : Lane} {r : Fin 32} (named : r.val = 0x16 + l.val) :
    s.readRegister r = num (s.lanes.get l).quota := by
  match l with
  | 0 | 1 | 2 | 3 =>
    rw [Fin.ext (b := ⟨_, by decide⟩) named]
    rfl

theorem laneStatus_fields (l : Lane) (short : (s.lanes.get l).queue.length < 512) :
    bitsOf (s.laneStatus l) 0 9 = (s.lanes.get l).queue.length ∧
    bitsOf (s.laneStatus l) 9 1 = (s.lanes.get l).closed.toNat ∧ bitsOf (s.laneStatus l) 10 2 = 0 ∧
    bitsOf (s.laneStatus l) 12 4 = bindingCode (s.store.bindings.get l) := by
  have closed := toNat_le (s.lanes.get l).closed
  have binding := binding_code_lt (s.store.bindings.get l)
  have bits := bitsOf_eq (w := s.laneStatus l) rfl (by omega)
  simp only [bits, Nat.reducePow]
  omega

theorem jobStatus_fields (short : s.jobs.length < 2048) :
    bitsOf (s.readRegister 0x11) 0 11 = s.jobs.length ∧ bitsOf (s.readRegister 0x11) 11 3 = 0 ∧
    ∀ u : UnitNo, bitsOf (s.readRegister 0x11) (14 + u.val) 1 = if (s.units.get u).job = none then 0 else 1 := by
  have first := toNat_le (s.units.get 0).job.isSome
  have second := toNat_le (s.units.get 1).job.isSome
  have read : s.readRegister 0x11 = num (s.jobs.length + (s.units.get 0).job.isSome.toNat * 16384 +
    (s.units.get 1).job.isSome.toNat * 32768) := rfl
  have busy (u : UnitNo) : (s.units.get u).job.isSome.toNat = if (s.units.get u).job = none then 0 else 1 := by
    cases (s.units.get u).job <;> rfl
  have bits := bitsOf_eq read (by omega)
  simp only [bits]
  refine ⟨by omega, by omega, fun u => ?_⟩
  match u with
  | 0 =>
    rw [← busy 0]
    show _ / 2 ^ 14 % 2 ^ 1 = _
    omega
  | 1 =>
    rw [← busy 1]
    show _ / 2 ^ 15 % 2 ^ 1 = _
    omega

theorem mask_fields : (∀ p : Port, bitsOf (s.readRegister 0x1B) (4 * p.val) 4 = (s.exchange.get p).mask.toNat) ∧
    bitsOf (s.readRegister 0x1B) 8 8 = 0 := by
  have read : s.readRegister 0x1B = num ((s.exchange.get 0).mask.toNat + (s.exchange.get 1).mask.toNat * 16) := rfl
  have first := (s.exchange.get 0).mask.isLt
  have second := (s.exchange.get 1).mask.isLt
  have bits := bitsOf_eq read (by omega)
  simp only [bits]
  refine ⟨fun p => ?_, by omega⟩
  match p with
  | 0 =>
    show _ / 2 ^ 0 % 2 ^ 4 = _
    omega
  | 1 =>
    show _ / 2 ^ 4 % 2 ^ 4 = _
    omega

end

/-- Settles O10: the writes row by row, then the registers in the order of Table 10.11. -/
theorem registerAccess : Obligations.RegisterAccess := by
  refine ⟨fun s v running => ⟨exec_registerWrite v running _, exec_registerWrite v running _, fun r other notA notB => ?_,
    exec_commandRegister v running, exec_ownRow v running rfl rfl, exec_ownRow v running rfl rfl,
    exec_ownRow v running rfl rfl, exec_ownRow v running rfl rfl, exec_ownRow v running rfl rfl,
    exec_ownRow v running rfl rfl, exec_ownRow v running rfl rfl⟩, fun s => ?_⟩
  · rw [exec_registerWrite v running, writeRegister_readOnly v other notA notB]
  · intro read
    obtain ⟨phase, operation, latch, edit, staging, spare⟩ := status_fields s.store
    refine ⟨rfl, rfl, rfl, ?_, rfl, rfl, ?_, rfl, phase.trans ?_, operation.trans ?_, latch, edit, staging.trans ?_, spare,
      fun none => ?_, fun o last => ?_, fun b => (blockStates_field s.store b).trans ?_,
      fun l => ⟨(scanStatus s l).1.trans ?_, fun running => ?_, fun agree => ?_⟩,
      fun p => ⟨(exchangeStatus s p).1.trans ?_, fun running => ?_, fun agree => ?_⟩,
      exchangeStatus_high s, rfl, rfl, rfl, rfl, jobStatus_fields s, fun l r named short => ?_,
      fun l r named => readRegister_quota s named, rfl, (mask_fields s).1, (mask_fields s).2, rfl, rfl, rfl, rfl⟩
    · show num s.sup.result.code = _
      cases s.sup.result <;> rfl
    · show num s.sup.master.toNat = _
      cases s.sup.master <;> rfl
    · cases s.store.phase <;> rfl
    · rfl
    · cases s.store.staging.state <;> rfl
    · show outcomeCode s.store.last = 0
      rw [none]
      rfl
    · have outcome := outcome_fields o
      rw [← last] at outcome
      exact outcome
    · cases (s.store.blocks.get b).state <;> rfl
    · cases (s.scan.get l).state <;> rfl
    · exact (scanStatus s l).2.trans (congrArg Bool.toNat (shownLink_running running _ _))
    · exact (scanStatus s l).2.trans (shownLink_down (agree.imp_right fun ports running => ports.scanLink running l))
    · cases (s.exchange.get p).state <;> rfl
    · exact (exchangeStatus s p).2.trans (congrArg Bool.toNat (shownLink_running running _ _))
    · exact (exchangeStatus s p).2.trans (shownLink_down (agree.imp_right fun ports running => ports.exchangeLink running p))
    · obtain ⟨length, closed, spare, binding⟩ := laneStatus_fields s l short
      rw [← readRegister_lane s named] at length closed spare binding
      exact ⟨length, closed, spare, binding.trans (bindingCode_eq _)⟩

end Sys2Proof.Registers
end

