-- ==== Sys2Proof/Proofs/Layouts.lean ====
section
/-! PROOF. The bytes of the release record, the snapshot image and the rendition header stand at their offsets. -/

namespace Sys2Proof.Layouts
open Sys2Proof.Machine Sys2Proof.Safety

/-! ### Parts of a record -/

section
variable {r front back : List Byte}

theorem part_append_right {o : Nat} (size n : Nat) (length : front.length = o) :
    part (front ++ back) (o + n) size = part back n size := by
  rw [part, part, ← List.drop_drop, ← length, List.drop_left]

theorem part_append_left {o size : Nat} (inside : o + size ≤ front.length) :
    part (front ++ back) o size = part front o size := by
  rw [part, part, List.drop_append_of_le_length (by omega), List.take_append_of_le_length]
  rw [List.length_drop]
  omega

theorem part_take {n o size : Nat} (inside : o + size ≤ n) : part (r.take n) o size = part r o size := by
  rw [part, part, List.drop_take, List.take_take, Nat.min_eq_left (by omega)]

theorem part_padTo {n o size : Nat} (l : List Byte) (inside : o + size ≤ n) :
    part (padTo n l) o size = part (l ++ List.replicate n 0) o size := part_take inside

theorem length_padTo (n : Nat) (l : List Byte) : (padTo n l).length = n := by
  rw [padTo, List.length_take, List.length_append, List.length_replicate]
  omega

theorem padTo_whole {n : Nat} {l : List Byte} (length : l.length = n) : padTo n l = l := by
  rw [padTo, ← length, List.take_left]

/-- Beyond what is written a place reads 0 (R197). -/
theorem part_zeros {n o size : Nat} (l : List Byte) (beyond : l.length ≤ o) (inside : o + size ≤ n) :
    part (l ++ List.replicate n 0) o size = List.replicate size 0 := by
  obtain ⟨d, rfl⟩ := Nat.le.dest beyond
  rw [part_append_right size d rfl, part, List.drop_replicate, List.take_replicate, Nat.min_eq_left (by omega)]

end

/-! ### Lists of entries of one size -/

section
variable {α : Type} {entry : α → List Byte} {size : Nat} (sized : ∀ x, (entry x).length = size)
include sized

theorem length_entries (l : List α) : (l.flatMap entry).length = size * l.length := by
  induction l with
  | nil => rfl
  | cons x l ih =>
    rw [List.flatMap_cons, List.length_append, sized, ih, List.length_cons, Nat.mul_succ]
    omega

/-- The entry at a place of the list stands at that place times the size. -/
theorem part_entry {l : List α} {m : Nat} {x : α} (at_ : l[m]? = some x) (tail : List Byte) :
    part (l.flatMap entry ++ tail) (size * m) size = entry x := by
  induction l generalizing m with
  | nil => cases at_
  | cons y l ih =>
    rw [List.flatMap_cons, List.append_assoc]
    cases m with
    | zero =>
      obtain rfl := Option.some.inj at_
      rw [Nat.mul_zero, part, List.drop_zero, ← sized y, List.take_left]
    | succ m =>
      rw [Nat.mul_succ, Nat.add_comm, part_append_right size _ (sized y)]
      exact ih at_

theorem part_padded_entry {l : List α} {m n : Nat} {x : α} (at_ : l[m]? = some x) (inside : size * m + size ≤ n) :
    part (padTo n (l.flatMap entry)) (size * m) size = entry x := by
  rw [part_padTo _ inside, part_entry sized at_]

theorem part_padded_none {l : List α} {m n : Nat} (none : l[m]? = none) (inside : size * m + size ≤ n) :
    part (padTo n (l.flatMap entry)) (size * m) size = List.replicate size 0 := by
  rw [part_padTo _ inside]
  refine part_zeros _ ?_ inside
  rw [length_entries sized]
  exact Nat.mul_le_mul_left _ (List.getElem?_eq_none_iff.mp none)

end

/-! ### The entries -/

theorem faceEntry_eq (f : Face) : faceEntry f = faceFields f := rfl
theorem findingEntry_eq (f : Finding) : findingEntry f = findingFields f := rfl

theorem renditionEntry_eq (r : Rendition) : renditionEntry r = renditionFields r := by
  cases output : r.output <;> (unfold renditionEntry renditionFields; rw [output]; rfl)

theorem length_faceEntry (f : Face) : (faceEntry f).length = 8 := rfl
theorem length_findingEntry (f : Finding) : (findingEntry f).length = 5 := rfl

theorem length_renditionEntry (r : Rendition) : (renditionEntry r).length = 12 := by
  unfold renditionEntry
  cases r.output <;> rfl

/-! ### The fixed fields of an item -/

/-- The fields that a release record and a snapshot image have in common. -/
def itemFields (i : Item) (name : List Byte) : List Byte :=
  longBytes i.bundle ++ wordBytes i.position ++ longBytes i.stamp ++
    [i.facesExpected, dispositionCode i.disposition, i.pocket.code, reasonCode i.reason, itemFlags i,
      numByte i.retries] ++ num16Bytes (i.latency.getD 0) ++ [snapshotSourceCode i.source] ++ name ++
    wordBytes i.edition ++ [numByte i.faces.length, numByte i.findings.length, numByte i.renditions.length]

theorem length_itemFields {i : Item} {name : List Byte} (length : name.length = 8) :
    (itemFields i name).length = 32 := by
  simp [itemFields, longBytes, wordBytes, num16Bytes, length]

/-- The flags byte: delivered, trial, purged, overflow (Table 10.1). -/
theorem itemFlags_bit (i : Item) (n : Nat) (inside : n < 8) : (itemFlags i).getLsbD n =
    ((n = 0 && i.delivered) || (n = 1 && i.trial) || (n = 2 && i.purged) || (n = 3 && i.overflow)) := by
  have table : ∀ (d t p o : Bool) (n : Fin 8),
      (((if d then 1 else 0) ||| (if t then 2 else 0) ||| (if p then 4 else 0) ||| (if o then 8 else 0) : Byte)).getLsbD n.val =
        ((n.val = 0 && d) || (n.val = 1 && t) || (n.val = 2 && p) || (n.val = 3 && o)) := by decide
  exact table i.delivered i.trial i.purged i.overflow ⟨n, inside⟩

theorem snapshotSourceCode_eq (source : Option Source) : snapshotSourceCode source = match source with
    | none => 0xFF
    | some (.block b) => BitVec.ofNat 8 b.val
    | some .staging => 8 := by
  match source with
  | none | some (.block _) | some .staging => rfl

theorem itemFieldsAt_itemFields {i : Item} (length : i.name.length = 8) (front back : List Byte) {o : Nat}
    (placed : front.length = o) : ItemFieldsAt (front ++ (itemFields i i.name ++ back)) o i := by
  obtain ⟨a, b, c, d, e, f, g, h, name⟩ : ∃ a b c d e f g h, i.name = [a, b, c, d, e, f, g, h] := by
    match i.name, length with
    | [a, b, c, d, e, f, g, h], _ => exact ⟨a, b, c, d, e, f, g, h, rfl⟩
  have field (n size : Nat) : part (front ++ (itemFields i i.name ++ back)) (o + n) size =
      part (itemFields i i.name ++ back) n size := part_append_right size n placed
  have first := field 0 4
  rw [Nat.add_zero] at first
  unfold ItemFieldsAt
  simp only [first, field]
  rw [name]
  refine ⟨rfl, rfl, rfl, rfl, rfl, rfl, rfl, fun n inside => ?_, rfl, rfl, ?_, rfl, rfl, rfl⟩
  · exact itemFlags_bit i n inside
  · exact congrArg (fun c => [c]) (snapshotSourceCode_eq i.source)

/-! ### The records -/

theorem releaseRecord_eq (k : Slot) (i : Item) : releaseRecord k i = [numByte k.val, numByte i.lane.val] ++
    (itemFields i i.name ++ (i.faces.flatMap faceEntry ++ (i.findings.flatMap findingEntry ++
      (i.renditions.flatMap renditionEntry ++ [])))) := by
  simp [releaseRecord, itemFields]

theorem snapshotImage_eq (k : Slot) (i : Item) : snapshotImage k i =
    [numByte k.val, i.state.code, holderCode i.holder, numByte i.lane.val] ++ (itemFields i (padTo 8 i.name) ++
      (padTo 20 (i.faces.flatMap fun f => faceEntry f ++ num16Bytes f.strips.length) ++
        (padTo 40 (i.findings.flatMap findingEntry) ++
          padTo 56 (i.renditions.flatMap fun r => renditionEntry r ++ num16Bytes r.chain.length)))) := by
  simp [snapshotImage, itemFields]

theorem length_faceImage (f : Face) : (faceEntry f ++ num16Bytes f.strips.length).length = 10 := rfl

theorem length_renditionImage (r : Rendition) : (renditionEntry r ++ num16Bytes r.chain.length).length = 14 := by
  rw [List.length_append, length_renditionEntry]
  rfl

theorem releaseRecord_layout (k : Slot) (i : Item) (name : i.name.length = 8) :
    let r := releaseRecord k i
    let f := i.faces.length
    let n := i.findings.length
    r.length = 34 + 8 * f + 5 * n + 12 * i.renditions.length ∧
    part r 0 2 = [BitVec.ofNat 8 k.val, BitVec.ofNat 8 i.lane.val] ∧ ItemFieldsAt r 2 i ∧
    (∀ m x, i.faces[m]? = some x → part r (34 + 8 * m) 8 = faceFields x) ∧
    (∀ m x, i.findings[m]? = some x → part r (34 + 8 * f + 5 * m) 5 = findingFields x) ∧
    (∀ m x, i.renditions[m]? = some x → part r (34 + 8 * f + 5 * n + 12 * m) 12 = renditionFields x) := by
  intro r f n
  have fixed := length_itemFields (i := i) name
  have faces := length_entries length_faceEntry i.faces
  have findings := length_entries length_findingEntry i.findings
  have renditions := length_entries length_renditionEntry i.renditions
  have spelled : r = _ := releaseRecord_eq k i
  refine ⟨?_, ?_, ?_, fun m x at_ => ?_, fun m x at_ => ?_, fun m x at_ => ?_⟩
  · rw [spelled]
    simp only [List.length_append, fixed, faces, findings, renditions, List.length_cons, List.length_nil]
    omega
  · rw [spelled]
    rfl
  · rw [spelled]
    exact itemFieldsAt_itemFields name _ _ rfl
  · rw [spelled, show 34 + 8 * m = 2 + (32 + 8 * m) by omega, part_append_right 8 _ (o := 2) rfl,
      part_append_right 8 _ fixed, part_entry length_faceEntry at_]
    rfl
  · rw [spelled, show 34 + 8 * f + 5 * m = 2 + (32 + (8 * f + 5 * m)) by omega, part_append_right 5 _ (o := 2) rfl,
      part_append_right 5 _ fixed, part_append_right 5 _ faces, part_entry length_findingEntry at_]
    rfl
  · rw [spelled, show 34 + 8 * f + 5 * n + 12 * m = 2 + (32 + (8 * f + (5 * n + 12 * m))) by omega,
      part_append_right 12 _ (o := 2) rfl, part_append_right 12 _ fixed, part_append_right 12 _ faces,
      part_append_right 12 _ findings, part_entry length_renditionEntry at_]
    exact renditionEntry_eq x

theorem length_snapshotImage (k : Slot) (i : Item) : (snapshotImage k i).length = 152 := by
  rw [snapshotImage_eq]
  simp only [List.length_append, length_itemFields (length_padTo 8 i.name), length_padTo, List.length_cons, List.length_nil]

/-- Settles O13, record by record. -/
theorem recordLayouts : Obligations.RecordLayouts := by
  refine ⟨releaseRecord_layout, length_snapshotImage, fun k i name => ?_, fun k => ?_, fun h => ?_⟩
  · intro r
    have fixed := length_itemFields (i := i) name
    have spelled : r = _ := snapshotImage_eq k i
    rw [padTo_whole name] at spelled
    refine ⟨?_, ?_, fun m inside => ⟨fun x at_ => ?_, fun none => ?_⟩, fun m inside => ⟨fun x at_ => ?_, fun none => ?_⟩,
      fun m inside => ⟨fun x at_ => ?_, fun none => ?_⟩⟩
    · rw [spelled]
      cases i.holder <;> rfl
    · rw [spelled]
      exact itemFieldsAt_itemFields name _ _ rfl
    · rw [spelled, show 36 + 10 * m = 4 + (32 + 10 * m) by omega, part_append_right 10 _ (o := 4) rfl,
        part_append_right 10 _ fixed, part_append_left (by rw [length_padTo]; omega),
        part_padded_entry length_faceImage at_ (by omega)]
      rfl
    · rw [spelled, show 36 + 10 * m = 4 + (32 + 10 * m) by omega, part_append_right 10 _ (o := 4) rfl,
        part_append_right 10 _ fixed, part_append_left (by rw [length_padTo]; omega),
        part_padded_none length_faceImage none (by omega)]
    · rw [spelled, show 56 + 5 * m = 4 + (32 + (20 + 5 * m)) by omega, part_append_right 5 _ (o := 4) rfl,
        part_append_right 5 _ fixed, part_append_right 5 _ (length_padTo 20 _),
        part_append_left (by rw [length_padTo]; omega), part_padded_entry length_findingEntry at_ (by omega)]
      rfl
    · rw [spelled, show 56 + 5 * m = 4 + (32 + (20 + 5 * m)) by omega, part_append_right 5 _ (o := 4) rfl,
        part_append_right 5 _ fixed, part_append_right 5 _ (length_padTo 20 _),
        part_append_left (by rw [length_padTo]; omega), part_padded_none length_findingEntry none (by omega)]
    · rw [spelled, show 96 + 14 * m = 4 + (32 + (20 + (40 + 14 * m))) by omega, part_append_right 14 _ (o := 4) rfl,
        part_append_right 14 _ fixed, part_append_right 14 _ (length_padTo 20 _),
        part_append_right 14 _ (length_padTo 40 _), part_padded_entry length_renditionImage at_ (by omega),
        renditionEntry_eq]
      rfl
    · rw [spelled, show 96 + 14 * m = 4 + (32 + (20 + (40 + 14 * m))) by omega, part_append_right 14 _ (o := 4) rfl,
        part_append_right 14 _ fixed, part_append_right 14 _ (length_padTo 20 _),
        part_append_right 14 _ (length_padTo 40 _), part_padded_none length_renditionImage none (by omega)]
  · exact congrArg (List.cons (BitVec.ofNat 8 k.val)) (by decide : (snapshotImage 0 Item.empty).tail = _)
  · refine ⟨rfl, ?_, rfl, rfl, rfl, rfl, rfl⟩
    exact congrArg (fun c => [h.kind.code, h.face.code, BitVec.ofNat 8 h.rung, c]) (snapshotSourceCode_eq h.source)

end Sys2Proof.Layouts
end

