-- ==== Sys2Proof/Proofs/FrameResults.lean ====
section
/-! PROOF. What the frames of a scan link do at a clear port, state by state: passed over, admitted or refused, opened, lost
or held, closed, rejected. -/

namespace Sys2Proof.FrameResults
open Sys2Proof.Machine Sys2Proof.Safety

/-! ### Contents out of range -/

theorem itemOpen_failed {l : Lane} {bundle : Long} {position : Word} {faces : Byte}
    (bad : position = 0 ∨ (faces ≠ 1 ∧ faces ≠ 2)) : scanFrameOf (.itemOpen l bundle position faces) = some (l, .failed) := by
  unfold scanFrameOf
  dsimp only
  rw [if_neg]
  rintro ⟨some, one | two⟩
  · exact bad.elim some fun none => none.1 one
  · exact bad.elim some fun none => none.2 two

/-- Settles O34. -/
theorem outOfRangeContentsFail : Obligations.OutOfRangeContentsFail := by
  intro s
  have same {c : Instr} {l : Lane} (failed : scanFrameOf c = some (l, .failed)) : exec c s = exec (.scanFailedFrame l) s :=
    (Laws.exec_scanFrame s failed).trans (Laws.exec_scanFrame s rfl).symm
  refine ⟨fun l bundle position faces bad => same (itemOpen_failed bad), fun l code width notFront notRear => same ?_,
    fun l pixels bad => same ?_, fun p mask bad => ?_, fun p => rfl⟩
  · unfold scanFrameOf
    dsimp only
    rw [if_neg notFront, if_neg notRear]
  · unfold scanFrameOf
    dsimp only
    rw [if_neg]
    rintro ⟨some, short⟩
    rcases bad with rfl | long
    · exact absurd some (by decide)
    · omega
  · have fails : claimMaskOk mask = false := by
      rw [claimMaskOk, Bool.and_eq_false_iff, decide_eq_false_iff_not, decide_eq_false_iff_not]
      rcases bad with rfl | wide
      · exact .inl (by decide)
      · exact .inr (by omega)
    have nothing : (s.whileRunning fun s => if claimMaskOk mask then s.takeClaim p mask else s) = s := by
      unfold State.whileRunning
      rw [fails]
      exact ite_self s
    exact congrArg Host.Outcome.next nothing

/-! ### Frames passed over -/

section
variable {s : State} {l : Lane}

theorem takeFrame_idle (idle : (s.scan.get l).state = .idle) (f : ScanFrame) : s.takeFrame l f = s.takeInIdle l f := by
  unfold State.takeFrame
  dsimp only
  rw [idle]

theorem takeFrame_discard (discard : (s.scan.get l).state = .discard) (f : ScanFrame) :
    s.takeFrame l f = s.takeInDiscard l f := by
  unfold State.takeFrame
  dsimp only
  rw [discard]

/-- In IDLE every frame but ITEM OPEN is passed over (R34). -/
theorem takeInIdle_other {f : ScanFrame} (other : ∀ bundle position faces, f ≠ .itemOpen bundle position faces) :
    s.takeInIdle l f = s := by
  cases f with
  | itemOpen bundle position faces => exact absurd rfl (other bundle position faces)
  | faceOpen | row | faceClose | itemClose | itemAbandon | failed => rfl

/-- Settles O25: the port's state names what it passes over. -/
theorem framesPassedOver : Obligations.FramesPassedOver := by
  intro s c l f running clear frame other
  refine ⟨fun idle => ?_, fun discard => ⟨fun ends => ?_, fun notClose notAbandon => ?_⟩⟩
  · rw [Laws.exec_scanFrame_clear frame running clear (by rw [idle]; decide), takeFrame_idle idle, takeInIdle_other other]
  · rw [Laws.exec_scanFrame_clear frame running clear (by rw [discard]; decide), takeFrame_discard discard]
    rcases ends with rfl | ⟨reason, rfl⟩ <;> rfl
  · rw [Laws.exec_scanFrame_clear frame running clear (by rw [discard]; decide), takeFrame_discard discard]
    cases f with
    | itemOpen bundle position faces => exact absurd rfl (other bundle position faces)
    | itemClose => exact absurd rfl notClose
    | itemAbandon reason => exact absurd rfl (notAbandon reason)
    | faceOpen | row | faceClose | failed => rfl

/-! ### ITEM OPEN -/

theorem itemOpen_frame {bundle : Long} {position : Word} {faces : Byte} (some_ : position ≠ 0)
    (few : faces = 1 ∨ faces = 2) :
    scanFrameOf (.itemOpen l bundle position faces) = some (l, .itemOpen bundle position faces) := by
  unfold scanFrameOf
  dsimp only
  rw [if_pos ⟨some_, few⟩]

/-- An ITEM OPEN at a clear port in IDLE or DISCARD is taken as new (R34, R43). -/
theorem exec_itemOpen_new {bundle : Long} {position : Word} {faces : Byte} (running : Running s) (clear : PortClear s l)
    (waits : (s.scan.get l).state = .idle ∨ (s.scan.get l).state = .discard) (some_ : position ≠ 0)
    (few : faces = 1 ∨ faces = 2) :
    exec (.itemOpen l bundle position faces) s = .next (s.takeAsNew l bundle position faces) := by
  have up : (s.scan.get l).state ≠ .down := by
    rcases waits with e | e <;> rw [e] <;> decide
  rw [Laws.exec_scanFrame_clear (itemOpen_frame some_ few) running clear up, Laws.takeFrame_open waits]

/-- An admitted item before the dispatcher is told of a new lane head (R9). -/
def admitted (s : State) (l : Lane) (k : Slot) (src : Source) (bundle : Long) (position : Word) (faces : Byte) : State :=
  { s with
    items := put s.items k (newItem s l src bundle position faces)
    stamp := s.stamp + 1
    lanes := put s.lanes l { s.lanes.get l with queue := (s.lanes.get l).queue ++ [k] }
    store := s.store.modPins src (· + 1)
    scan := put s.scan l { s.scan.get l with
      attached := some k, state := .item, current := none
      timer := some ⟨profileDeadline (s.store.record src), profileDeadline (s.store.record src)⟩
      produced := sentOn (s.scan.get l).link (s.scan.get l).produced (.slotGiven position k) } }

theorem giveSlot_eq (k : Slot) (src : Source) (bundle : Long) (position : Word) (faces : Byte) :
    s.giveSlot l k src bundle position faces =
      if (s.lanes.get l).queue = [] then (admitted s l k src bundle position faces).dispatchAct
      else admitted s l k src bundle position faces := by
  unfold State.giveSlot
  dsimp only
  rw [Laws.scanProduce_eq]
  have given : ∀ t : State, t = admitted s l k src bundle position faces →
      (if (s.lanes.get l).queue.isEmpty = true then t.dispatchAct else t) =
        if (s.lanes.get l).queue = [] then (admitted s l k src bundle position faces).dispatchAct
        else admitted s l k src bundle position faces := by
    rintro t rfl
    simp only [List.isEmpty_iff]
  refine given _ ?_
  simp only [State.modScan, State.modStore, State.modLane, State.withStamp, State.modItem, Laws.get_put_same, Laws.put_put,
    admitted]

theorem slotRefusal_admits {src : Source} {k : Slot} (isOpen : (s.lanes.get l).closed = false)
    (bound : s.store.bindings.get l = some src) (usable : s.store.usable src = true)
    (room : (s.lanes.get l).queue.length < (s.lanes.get l).quota) (free : s.freeSlot = some k) : s.slotRefusal l = none := by
  simp [State.slotRefusal, isOpen, bound, usable, Nat.not_le.mpr room, free]

/-- Settles O26. -/
theorem itemOpenAdmitted : Obligations.ItemOpenAdmitted := by
  intro s l bundle position faces k src running clear waits some_ few isOpen bound usable room lowest p record t
  have free := (Laws.freeSlot_eq_some s k).mpr lowest
  have same : t = admitted s l k src bundle position faces := by cases src <;> rfl
  rw [exec_itemOpen_new running clear waits some_ few, State.takeAsNew, slotRefusal_admits isOpen bound usable room free, free,
    bound, same]
  exact congrArg Host.Outcome.next (giveSlot_eq k src bundle position faces)

theorem takeAsNew_refused {bundle : Long} {position : Word} {faces : Byte} {why : SlotRefusal}
    (refused : s.slotRefusal l = some why) : s.takeAsNew l bundle position faces = { s with
      scan := put s.scan l { s.scan.get l with
        state := .idle
        produced := sentOn (s.scan.get l).link (s.scan.get l).produced (.slotRefused position why) } } := by
  unfold State.takeAsNew
  rw [refused]
  dsimp only
  rw [Laws.scanProduce_eq]
  simp only [State.modScan, Laws.get_put_same, Laws.put_put]

/-- A lane bound to a usable source (R17). -/
theorem bound_usable_iff : ((s.store.bindings.get l).any s.store.usable) = true ↔
    ¬ ∀ src, s.store.bindings.get l = some src → s.store.usable src = false := by
  cases bound : s.store.bindings.get l with
  | none => simp
  | some src => simp

/-- Settles O27, reason by reason in the order of Table 1.4. -/
theorem itemOpenRefused : Obligations.ItemOpenRefused := by
  intro s l bundle position faces running clear waits some_ few refused unbound
  rw [exec_itemOpen_new running clear waits some_ few]
  have answer {why : SlotRefusal} (h : s.slotRefusal l = some why) :
      (Host.Outcome.next (s.takeAsNew l bundle position faces) : Host.Outcome State Fault Refusal) =
        .next (refused why) := congrArg _ (takeAsNew_refused h)
  refine ⟨fun closed => answer ?_, fun isOpen => ⟨fun none => answer ?_, fun usable => ⟨fun full => answer ?_,
    fun room taken => answer ?_⟩⟩⟩
  · simp [State.slotRefusal, closed]
  · have no : (s.store.bindings.get l).any s.store.usable = false :=
      Bool.eq_false_iff.mpr fun yes => bound_usable_iff.mp yes none
    simp [State.slotRefusal, isOpen, no]
  · have yes := bound_usable_iff.mpr usable
    simp [State.slotRefusal, isOpen, yes, full]
  · have yes := bound_usable_iff.mpr usable
    have none := (Laws.freeSlot_eq_none s).mpr taken
    simp [State.slotRefusal, isOpen, yes, Nat.not_le.mpr room, none]

end

end Sys2Proof.FrameResults
end

