-- ==== Sys2Proof/Proofs/FaceResults.lean ====
section
/-! PROOF. Faces and rows: FACE OPEN, ROW, FACE CLOSE, ITEM CLOSE, and the frames that reject the attached item. -/

namespace Sys2Proof.FaceResults
open Sys2Proof.Machine Sys2Proof.Safety

variable {s : State} {l : Lane} {k : Slot}

/-- A message at a clear port in ITEM. -/
theorem exec_inItem {c : Instr} {f : ScanFrame} (frame : scanFrameOf c = some (l, f)) (running : Running s)
    (clear : PortClear s l) (attached : (s.scan.get l).attached = some k) (item : (s.scan.get l).state = .item) :
    exec c s = .next (s.takeInItem l k f) := by
  rw [Laws.exec_scanFrame_clear frame running clear (by rw [item]; decide), Laws.takeFrame_item attached item]

/-- A message at a clear port in FACE. -/
theorem exec_inFace {c : Instr} {f : ScanFrame} {kind : FaceKind} (frame : scanFrameOf c = some (l, f))
    (running : Running s) (clear : PortClear s l) (attached : (s.scan.get l).attached = some k)
    (face : (s.scan.get l).state = .face) (current : (s.scan.get l).current = some kind) :
    exec c s = .next (s.takeInFace l k kind f) := by
  rw [Laws.exec_scanFrame_clear frame running clear (by rw [face]; decide), Laws.takeFrame_face attached face current]

/-- A protocol fault of the attached item (R39). -/
theorem protocolFault_attached (attached : Attached s l k) :
    s.protocolFault l k = (rejected s l k .protocol 0 true .idle).rejectRenditions k :=
  Laws.rejectSent_attached attached _ _ _

/-! ### FACE OPEN -/

theorem faceOpen_frame (kind : FaceKind) (width : Word) :
    scanFrameOf (.faceOpen l kind.code width) = some (l, .faceOpen kind width.toNat) := by
  cases kind <;> rfl

theorem face_isNone_iff (i : Item) (kind : FaceKind) : (i.face? kind).isNone = true ↔ ∀ f ∈ i.faces, f.kind ≠ kind := by
  rw [Option.isNone_iff_eq_none, Item.face?, List.find?_eq_none]
  simp only [decide_eq_true_eq, ne_eq]

theorem faceOpenAccepted_iff (i : Item) (kind : FaceKind) (width : Nat) : faceOpenAccepted i kind width = true ↔
    64 ≤ width ∧ width ≤ 2048 ∧ (∀ f ∈ i.faces, f.kind ≠ kind) ∧ i.faces.length < i.facesExpected.toNat := by
  unfold faceOpenAccepted
  rw [Bool.and_eq_true, Bool.and_eq_true, Bool.and_eq_true, face_isNone_iff, decide_eq_true_iff, decide_eq_true_iff,
    decide_eq_true_iff, and_assoc, and_assoc]

/-- A WAITING rendition record as FACE OPEN makes it (R7). -/
def waitingRendition (face : FaceKind) (kind : RenditionKind) (budget : Nat) : Rendition :=
  { face := face, kind := kind, state := .waiting, rung := 0, budget := budget, chain := [], output := none }

/-- BITONAL before GRAY, each as the profile selects it (R7, R35). -/
theorem newRenditions_eq (record : List Byte) (kind : FaceKind) : newRenditions record kind =
    (if (byteAt record 10).getLsbD (match kind with | .front => 0 | .rear => 2) then
      [waitingRendition kind .bitonal (num16At record 12)] else []) ++
    (if (byteAt record 10).getLsbD (match kind with | .front => 1 | .rear => 3) then
      [waitingRendition kind .gray (num16At record 14)] else []) := by
  have listed (bitonal gray : Bool) (selects : RenditionKind → Bool) (first : selects .bitonal = bitonal)
      (second : selects .gray = gray) : ([RenditionKind.bitonal, .gray].filter selects).map
        (fun r => waitingRendition kind r (profileBudget record r)) =
          (if bitonal then [waitingRendition kind .bitonal (num16At record 12)] else []) ++
            (if gray then [waitingRendition kind .gray (num16At record 14)] else []) := by
    cases bitonal <;> cases gray <;> simp [List.filter, first, second, profileBudget]
  cases kind with
  | front => exact listed _ _ (profileSelects record .front) rfl rfl
  | rear => exact listed _ _ (profileSelects record .rear) rfl rfl

/-- Settles O28. -/
theorem faceOpenResult : Obligations.FaceOpenResult := by
  intro s l k code kind width running clear attached item named i record made accepted
  obtain ⟨held, lane, landing, pending⟩ := attached
  rw [named, exec_inItem (faceOpen_frame kind width) running clear held item, State.takeInItem]
  have test := faceOpenAccepted_iff i kind width.toNat
  refine ⟨fun yes => ?_, fun no => ?_⟩
  · rw [if_pos (test.mpr yes)]
    have opened : s.openFace l k kind width.toNat = { s with
        items := put s.items k { i with
          faces := i.faces ++ [newFace record kind width.toNat]
          renditions := i.renditions ++ newRenditions record kind }
        scan := put s.scan l { s.scan.get l with state := .face, current := some kind } } := rfl
    rw [opened, newRenditions_eq, List.append_assoc]
    rfl
  · rw [if_neg fun yes => no (test.mp yes), protocolFault_attached ⟨held, lane, landing, pending⟩]

/-! ### ROW -/

theorem row_frame {pixels : List Byte} (some_ : 1 ≤ pixels.length) (short : pixels.length ≤ 2048) :
    scanFrameOf (.row l pixels) = some (l, .row pixels) := by
  unfold scanFrameOf
  dsimp only
  rw [if_pos ⟨some_, short⟩]

/-- A ROW is taken when it arrives, held row or not, if none waits (R33, R40). -/
theorem exec_row {kind : FaceKind} {f : Face} {pixels : List Byte} (running : Running s)
    (gathering : (s.scan.get l).gathering = []) (waiting : (s.scan.get l).waiting = [])
    (face : (s.scan.get l).state = .face) (attached : (s.scan.get l).attached = some k)
    (current : (s.scan.get l).current = some kind) (found : (s.items.get k).face? kind = some f)
    (some_ : 1 ≤ pixels.length) (short : pixels.length ≤ 2048) :
    exec (.row l pixels) s =
      .next (if pixels.length = f.width then s.landRow l k kind f pixels else s.loseRow k kind) := by
  have unchanged : (s.modScan l fun p => { p with gathering := [] }) = s := by
    have same : ({ s.scan.get l with gathering := [] } : ScanPort) = s.scan.get l := by rw [← gathering]
    simp only [State.modScan, same, Laws.put_get_self]
  rw [Laws.exec_scanFrame s (row_frame some_ short), State.frameArrives, Laws.whileRunning_running running]
  dsimp only
  rw [if_neg (by rw [face]; decide), unchanged, if_neg]
  · rw [Laws.takeFrame_face attached face current, State.takeInFace, State.takeRow, found]
  · rintro (some | ⟨notRow, _⟩)
    · exact some waiting
    · cases notRow

/-- Settles O29, clause by clause. -/
theorem rowResult : Obligations.RowResult := by
  intro s l k kind f pixels running gathering waiting face attached current found some_ short i lost holding
  rw [exec_row running gathering waiting face attached current found some_ short]
  refine ⟨fun other => ?_, fun same => ⟨fun h held => ?_, fun empty => ⟨fun full => ?_, fun room first famine => ?_,
    fun strip rest room first free => ?_, fun room later => ?_⟩⟩⟩
  · rw [if_neg other]
    rfl
  · rw [if_pos same, State.landRow, held]
    rfl
  · rw [if_pos same, State.landRow, empty]
    exact congrArg Host.Outcome.next (if_pos full)
  all_goals
    rw [if_pos same, State.landRow, empty]
    dsimp only
    rw [if_neg (show ¬ Config.maxRows ≤ f.rowsLanded from Nat.not_le.mpr room)]
  · rw [if_pos first]
    split
    · rfl
    · rename_i some
      rw [famine] at some
      cases some
  · rw [if_pos first]
    split
    · rename_i none
      rw [free] at none
      cases none
    · rename_i some
      obtain ⟨rfl, rfl⟩ := List.cons.inj (free.symm.trans some)
      rfl
  · rw [if_neg later]
    rfl

/-! ### FACE CLOSE -/

/-- Findings added one after another to a PENDING item of lane `l`: the first of REJECT severity decides it and stops the
timer (R61, R63). -/
theorem addFindings_eq (findings : List Finding) {i : Item} {t : State} {p : ScanPort} (item : t.items.get k = i)
    (port : t.scan.get l = p) (lane : i.lane = l) (pending : i.pocket = .pending) :
    findings.foldl (fun u f => u.addFinding k f) t = { t with
      items := put t.items k (findings.foldl (findingJudged (elapsed p.timer)) i)
      scan := put t.scan l { p with
        timer := if (findings.foldl (findingJudged (elapsed p.timer)) i).pocket = .pending then p.timer else none } } := by
  have decided (l' : List Finding) (j : Item) (h : j.pocket ≠ .pending) (u : State) (own : u.items.get k = j) (ms : Nat) :
      l'.foldl (fun u f => u.addFinding k f) u = { u with items := put u.items k (l'.foldl (findingJudged ms) j) } ∧
        (l'.foldl (findingJudged ms) j).pocket ≠ .pending := by
    induction l' generalizing u j with
    | nil =>
      subst own
      exact ⟨by rw [List.foldl_nil, List.foldl_nil, Laws.put_get_self], h⟩
    | cons f rest ih =>
      subst own
      have added : u.addFinding k f = { u with items := put u.items k (findingAdded (u.items.get k) f) } :=
        Laws.addFinding_notes fun both => h both.2
      have judged : findingJudged ms (u.items.get k) f = findingAdded (u.items.get k) f := if_neg fun both => h both.2
      rw [List.foldl_cons, List.foldl_cons, added, judged]
      have next := ih (findingAdded (u.items.get k) f) (by rw [Laws.findingAdded_pocket]; exact h)
        { u with items := put u.items k (findingAdded (u.items.get k) f) } (Laws.get_put_same _ _ _)
      refine ⟨next.1.trans ?_, next.2⟩
      rw [Laws.put_put]
  subst item port
  induction findings generalizing t with
  | nil =>
    rw [List.foldl_nil, List.foldl_nil, if_pos pending, Laws.put_get_self, Laws.put_get_self]
  | cons f rest ih =>
    rw [List.foldl_cons, List.foldl_cons]
    by_cases rejects : f.severity = .reject
    · have judged : (findingJudged (elapsed (t.scan.get l).timer) (t.items.get k) f).pocket ≠ .pending := by
        rw [findingJudged, if_pos ⟨rejects, pending⟩]
        exact nofun
      rw [Laws.addFinding_decides lane rejects pending]
      obtain ⟨e, stays⟩ := decided rest _ judged { t with
        items := put t.items k (findingJudged (elapsed (t.scan.get l).timer) (t.items.get k) f)
        scan := put t.scan l { t.scan.get l with timer := none } } (Laws.get_put_same _ _ _) (elapsed (t.scan.get l).timer)
      rw [e, if_neg stays, Laws.put_put]
    · have notes : ¬ (f.severity = .reject ∧ (t.items.get k).pocket = .pending) := fun both => rejects both.1
      have judged : findingJudged (elapsed (t.scan.get l).timer) (t.items.get k) f = findingAdded (t.items.get k) f :=
        if_neg notes
      rw [Laws.addFinding_notes notes, judged]
      have next := ih (t := { t with items := put t.items k (findingAdded (t.items.get k) f) })
      simp only [Laws.get_put_same, Laws.findingAdded_lane, Laws.findingAdded_pocket, Laws.put_put] at next
      exact next lane pending

theorem modFace_lane (i : Item) (kind : FaceKind) (f : Face → Face) : (i.modFace kind f).lane = i.lane := rfl

/-- What a FACE CLOSE in FACE leaves once its findings are judged, before the renditions are dealt with. -/
def faceJudged (s : State) (l : Lane) (k : Slot) (i : Item) : State :=
  { s with
    items := put s.items k i
    scan := put s.scan l { s.scan.get l with
      current := none, timer := if i.pocket = .pending then (s.scan.get l).timer else none } }

/-- `landingEnded` at a port with no held row does not see which face was current, nor the timer. -/
theorem landingEnded_faceJudged {i : Item} {next : ScanState} (empty : (s.scan.get l).held = none) :
    landingEnded (faceJudged s l k i) l k i true next = landingEnded s l k i true next := by
  have ended : faceEnded { s.scan.get l with
      current := none, timer := if i.pocket = .pending then (s.scan.get l).timer else none } = faceEnded (s.scan.get l) := by
    funext f
    simp only [faceEnded, empty, Option.isSome_none, Bool.false_eq_true, false_and, if_false]
  unfold landingEnded faceJudged
  simp only [Laws.get_put_same, Laws.put_put, portLeft, ended]

/-- FACE CLOSE of a face that receives rows, by the pocket its findings leave (R41). -/
theorem closeFace_eq {kind : FaceKind} {f : Face} {a : Accumulators} (attached : Attached s l k)
    (found : (s.items.get k).face? kind = some f) (measured : f.accum = some a) :
    let judged := (evaluate (s.itemRecord k) f a).foldl (findingJudged (elapsed (s.scan.get l).timer))
      ((s.items.get k).modFace kind fun x => { x with state := .landed, accum := none })
    s.closeFace l k kind =
      if judged.pocket = .pending then
        ((((faceJudged s l k judged).queueRenditions k kind).modScan l fun p => { p with state := .item }).returnStrips k
          kind).dispatchAct
      else ((faceJudged s l k judged).producePocket l k).endRejected l k .discard := by
  intro judged
  obtain ⟨_, lane, _, pending⟩ := attached
  have added := addFindings_eq (k := k) (evaluate (s.itemRecord k) f a)
    (t := (s.modItem k (·.modFace kind fun x => { x with state := .landed, accum := none })).modScan l fun p =>
      { p with current := none })
    (i := (s.items.get k).modFace kind fun x => { x with state := .landed, accum := none })
    (p := { s.scan.get l with current := none }) (by simp) (by simp) lane pending
  have result : _ = faceJudged s l k judged := added.trans (by
    simp only [faceJudged, Laws.modScan_items, Laws.modItem_items, Laws.put_put, Laws.modScan_scan, Laws.modItem_scan]
    rfl)
  unfold State.closeFace
  rw [found]
  dsimp only
  rw [measured, Option.getD_some, result]
  have own : (faceJudged s l k judged).items.get k = judged := Laws.get_put_same _ _ _
  rw [own]

/-- A rendition of a face that its FACE CLOSE queues (R89). -/
def waitsFor (kind : FaceKind) (r : Rendition) : Bool := decide (r.face = kind) && decide (r.state = .waiting)

/-- The WAITING renditions of a closed face QUEUED, their jobs appended, and the port in ITEM (R41, R89). -/
theorem faceQueued_eq {kind : FaceKind} {judged : Item} (pending : judged.pocket = .pending) :
    ((faceJudged s l k judged).queueRenditions k kind).modScan l (fun p => { p with state := .item }) = { s with
      items := put s.items k { judged with
        renditions := judged.renditions.map fun r => if waitsFor kind r then { r with state := .queued } else r }
      jobs := s.jobs ++ (judged.renditions.filter (waitsFor kind)).map fun r => Job.mk k r.face r.kind
      scan := put s.scan l { s.scan.get l with state := .item, current := none } } := by
  unfold State.queueRenditions faceJudged
  simp only [State.modScan, State.modItem, State.withJobs, Laws.get_put_same, Laws.put_put, if_pos pending, waitsFor,
    Bool.and_eq_true, decide_eq_true_eq]
  rfl

/-- Settles O31. -/
theorem faceCloseResult : Obligations.FaceCloseResult := by
  intro s l k kind f a running clear attached face current found measured closed judged waits
  have close := closeFace_eq attached found measured
  have taken : exec (.faceClose l) s = .next (s.closeFace l k kind) :=
    exec_inFace (f := .faceClose) rfl running clear attached.1 face current
  refine ⟨fun pending => ?_, fun decided => ?_⟩
  · intro t
    rw [taken, close, if_pos pending, faceQueued_eq pending]
    rfl
  · have own : (faceJudged s l k judged).items.get k = judged := Laws.get_put_same _ _ _
    rw [taken, close, if_neg decided, State.endRejected, Laws.producePocket_detach, own, landingEnded_faceJudged clear.2.2]

/-! ### ITEM CLOSE -/

/-- The pocket decision of an item of lane `l` (R62, R66). -/
theorem decidePocket_eq (lane : (s.items.get k).lane = l) (pocket : Pocket) (reason : Option FindingKind) :
    s.decidePocket k pocket reason = { s with
      items := put s.items k { s.items.get k with
        pocket := pocket, reason := reason, latency := some (elapsed (s.scan.get l).timer) }
      scan := put s.scan l { s.scan.get l with timer := none } } := by
  subst lane
  rfl

/-- Settles O32: the faces missing are those expected less those landed. -/
theorem itemCloseResult : Obligations.ItemCloseResult := by
  intro s l k running clear attached item i landed
  have taken : exec (.itemClose l) s = .next (s.closeItem l k) :=
    exec_inItem (f := .itemClose) rfl running clear attached.1 item
  have missing : i.missing = i.facesExpected.toNat - landed := rfl
  refine ⟨fun short => ?_, fun whole => ?_⟩
  · rw [taken, State.closeItem]
    dsimp only
    rw [if_pos (by rw [missing]; omega), Laws.rejectSent_attached attached]
    rfl
  · obtain ⟨_, lane, _, pending⟩ := attached
    rw [taken, State.closeItem]
    dsimp only
    rw [if_neg (by rw [missing]; omega), if_pos pending, Laws.producePocket_detach, decidePocket_eq lane]
    dsimp only
    rw [Laws.get_put_same, Laws.landingEnded_timer]

/-! ### Frames that reject -/

theorem behind_running {t : State} (running : Running s) (behind : Laws.Behind s t) : Running t := by
  rw [Running, behind.pins]
  exact running

/-- Settles O33: each of them is a rejection of the attached item, after which an ITEM OPEN is taken as new. -/
theorem framesThatReject : Obligations.FramesThatReject := by
  intro s l k running clear attached serves
  have inItem {c : Instr} {f : ScanFrame} (item : (s.scan.get l).state = .item) (frame : scanFrameOf c = some (l, f)) :=
    exec_inItem frame running clear attached.1 item
  have inFace {c : Instr} {f : ScanFrame} {kind : FaceKind} (face : (s.scan.get l).state = .face)
      (current : (s.scan.get l).current = some kind) (frame : scanFrameOf c = some (l, f)) :=
    exec_inFace frame running clear attached.1 face current
  have both {c : Instr} {f : ScanFrame} {t : State} (frame : scanFrameOf c = some (l, f)) (item : s.takeInItem l k f = t)
      (face : ∀ kind, s.takeInFace l k kind f = t) : exec c s = .next t := by
    rcases serves with state | ⟨state, current⟩
    · rw [inItem state frame, item]
    · obtain ⟨kind, current⟩ := Option.isSome_iff_exists.mp current
      rw [inFace state current frame, face]
  have fault := protocolFault_attached attached
  refine ⟨fun reason => ?_, ?_, fun c f frame notOpen notAbandon notFailed => ⟨fun state notFaceOpen notClose => ?_,
    fun state notRow notClose => ?_⟩, fun bundle position faces some_ few => ?_⟩
  · exact both (f := .itemAbandon reason) rfl (Laws.rejectSent_attached attached _ _ _)
      fun _ => Laws.rejectSent_attached attached _ _ _
  · exact both (f := .failed) rfl (Laws.rejectSent_attached attached _ _ _) fun _ => Laws.rejectSent_attached attached _ _ _
  · rw [inItem state frame, ← fault]
    cases f with
    | itemOpen bundle position faces => exact absurd rfl (notOpen bundle position faces)
    | faceOpen kind width => exact absurd rfl (notFaceOpen kind width)
    | itemClose => exact absurd rfl notClose
    | itemAbandon reason => exact absurd rfl (notAbandon reason)
    | failed => exact absurd rfl notFailed
    | row | faceClose => rfl
  · have current : (s.scan.get l).current.isSome = true := serves.elim (fun item => by rw [item] at state; cases state) (·.2)
    obtain ⟨kind, current⟩ := Option.isSome_iff_exists.mp current
    rw [inFace state current frame, ← fault]
    cases f with
    | itemOpen bundle position faces => exact absurd rfl (notOpen bundle position faces)
    | row pixels => exact absurd rfl (notRow pixels)
    | faceClose => exact absurd rfl notClose
    | itemAbandon reason => exact absurd rfl (notAbandon reason)
    | failed => exact absurd rfl notFailed
    | faceOpen | itemClose => rfl
  · intro t
    obtain ⟨gathering, waiting, _⟩ := clear
    obtain ⟨idle, empty⟩ := Laws.rejected_port s l k .protocol 0 true .idle
    have behind : Laws.Behind (rejected s l k .protocol 0 true .idle) t := (Laws.Behind.refl _).rejectRenditions k
    have port : t.scan.get l = portLeft (s.scan.get l) .idle (t.scan.get l).produced := by
      rw [behind.scan]
      simp [rejected, landingEnded, portLeft]
    have clearT : PortClear t l := by
      refine ⟨?_, ?_, empty⟩
      · rw [port]
        exact gathering
      · rw [port]
        exact waiting
    have runningT : Running t := behind_running (s := rejected s l k .protocol 0 true .idle) running behind
    refine ⟨?_, idle, clearT⟩
    rw [FrameResults.exec_itemOpen_new runningT clearT (.inl idle) some_ few]
    have new : (s.protocolFault l k).takeAsNew l bundle position faces = t.takeAsNew l bundle position faces := by rw [fault]
    exact both (FrameResults.itemOpen_frame some_ few) new fun _ => new

end Sys2Proof.FaceResults
end

