-- ==== Sys2Proof/Proofs/LandingEnds.lean ====
section
/-! PROOF. What ends an item's landing apart from its frames: the pocket timer, the loss of the link, LANE RESET, PURGE. -/

namespace Sys2Proof.LandingEnds
open Sys2Proof.Machine Sys2Proof.Safety

variable {s : State} {l : Lane} {k : Slot}

/-! ### The pocket timer -/

/-- Settles O35: the expired timer stands at 0, so the latency is the deadline. -/
theorem pocketTimerExpiry : Obligations.PocketTimerExpiry := by
  intro s l running
  have expires : exec (.pocketTimerExpiry l) s = .next (s.expirePocket l) :=
    congrArg _ (Laws.whileRunning_running running _)
  refine ⟨fun k t attached timer => ?_, fun stopped => ?_⟩
  · obtain ⟨held, lane, _, pending⟩ := attached
    have rejects := Laws.rejectSent_eq (s := s.modScan l fun p => { p with timer := some { t with remaining := 0 } })
      (f := itemFinding .late t.deadline) (next := .discard) lane rfl pending
    have late : elapsed ((s.modScan l fun p => { p with timer := some { t with remaining := 0 } }).scan.get l).timer =
        t.deadline := by
      rw [Laws.modScan_scan, Laws.get_put_same]
      rfl
    have ended (i : Item) : landingEnded (s.modScan l fun p => { p with timer := some { t with remaining := 0 } }) l k i
        true .discard = landingEnded s l k i true .discard := by
      have e := Laws.landingEnded_timer s l k i (s.items.get k) (some { t with remaining := 0 }) true .discard
      rw [Laws.put_get_self] at e
      exact e
    rw [late, ended] at rejects
    rw [expires, State.expirePocket, timer, held]
    dsimp only
    rw [rejects]
    rfl
  · rw [expires, State.expirePocket, stopped]

/-! ### The scan link -/

theorem exec_scanLinkLost (running : Running s) (up : (s.scan.get l).state ≠ .down) :
    exec (.scanLinkLost l) s = .next (s.loseScanLink l) :=
  congrArg _ ((if_neg (Bool.eq_false_iff.mp running)).trans (if_neg up))

/-- The port as the loss of its link or its coming up leaves it (R31). -/
def linkChanged (s : State) (l : Lane) (link : Bool) (state : ScanState) : State :=
  { s with
    scan := put s.scan l { s.scan.get l with
      link := link, state := state, gathering := [], waiting := [], held := none, produced := [], begun := false }
    sup := { s.sup with causes := s.sup.causes ||| 4 } }

theorem loseScanLink_eq : s.loseScanLink l =
    linkChanged (match (s.scan.get l).attached with
      | some k => s.rejectUnsent l k (itemFinding .linkLost 0) .down
      | none => s) l false .down := rfl

theorem loseScanLink_detached (detached : (s.scan.get l).attached = none) :
    s.loseScanLink l = linkChanged s l false .down := by
  rw [loseScanLink_eq, detached]

theorem loseScanLink_attached (attached : Attached s l k) :
    s.loseScanLink l = linkChanged ((rejected s l k .linkLost 0 false .down).rejectRenditions k) l false .down := by
  rw [loseScanLink_eq, attached.1, ← Laws.rejectUnsent_attached attached .linkLost 0 .down]

/-- Settles O36. -/
theorem scanLinkChanges : Obligations.ScanLinkChanges := by
  intro s l running emptied
  have high : ¬ s.pins.resetLow = true := Bool.eq_false_iff.mp running
  refine ⟨fun down => ⟨?_, ?_⟩, fun up => ⟨?_, fun detached => ?_, fun k attached => ?_⟩⟩
  · exact congrArg Host.Outcome.next ((if_neg high).trans (if_pos down))
  · exact congrArg Host.Outcome.next ((if_neg high).trans (if_pos down))
  · exact congrArg Host.Outcome.next ((if_neg high).trans (if_neg up))
  · exact (exec_scanLinkLost running up).trans (congrArg _ (loseScanLink_detached detached))
  · exact (exec_scanLinkLost running up).trans (congrArg _ (loseScanLink_attached attached))

/-! ### LANE RESET -/

/-- The port's frames discarded, the first act of LANE RESET (R46). -/
def framesDiscarded (s : State) (l : Lane) : State :=
  { s with scan := put s.scan l { s.scan.get l with gathering := [], waiting := [] } }

/-- The last acts of LANE RESET: the writer's request withdrawn, the held row discarded, the port to `next` (R46, R87). -/
def portReset (s : State) (l : Lane) (next : ScanState) : State :=
  { s with
    arbiter := (s.arbiter.mark (.w l) false).forsake (.w l)
    scan := put s.scan l { s.scan.get l with held := none, state := next } }

theorem framesDiscarded_attached : ((framesDiscarded s l).scan.get l).attached = (s.scan.get l).attached := by
  rw [framesDiscarded, Laws.get_put_same]

theorem resetLane_eq : s.resetLane l =
    portReset (match ((framesDiscarded s l).scan.get l).attached with
      | some k => (framesDiscarded s l).rejectUnsent l k (itemFinding .laneReset 0)
          (if (s.scan.get l).link then .idle else .down)
      | none => framesDiscarded s l) l (if (s.scan.get l).link then .idle else .down) := rfl

theorem exec_laneReset (running : Running s) (lane : s.sup.operandA.toNat = l.val) :
    exec .laneReset s = .next (withAnswer ((given s 0x000A).resetLane l) .ok) := by
  refine CommandAnswers.given_does 0x000A running ?_
  have named : laneOperand (given s 0x000A).sup.operandA = some l := Laws.laneOperand_some lane
  rw [commandLaneReset, named]

/-- Settles O37. -/
theorem laneResetResult : Obligations.LaneResetResult := by
  intro s l running lane next cleared reset
  rw [exec_laneReset running lane, resetLane_eq]
  refine ⟨fun detached => ?_, fun k attached => ?_⟩
  · have port : ((framesDiscarded (given s 0x000A) l).scan.get l).attached = none :=
      framesDiscarded_attached.trans detached
    rw [port]
    rfl
  · have port : ((framesDiscarded (given s 0x000A) l).scan.get l).attached = some k :=
      framesDiscarded_attached.trans attached.1
    have still : Attached (framesDiscarded (given s 0x000A) l) l k := ⟨port, attached.2⟩
    rw [port]
    exact congrArg (fun t => Host.Outcome.next (reset t)) (Laws.rejectUnsent_attached still .laneReset 0 next)

/-! ### PURGE -/

section
variable (running : Running s) (slot : s.sup.operandA.toNat = k.val)
include running slot

theorem exec_purge_free (free : (s.items.get k).state = .free) :
    exec .purge s = .next (answered s 0x000C .notInUse) := by
  refine CommandAnswers.given_answered running ?_
  have named : slotOperand (given s 0x000C).sup.operandA = some k := Laws.slotOperand_some slot
  have free : ((given s 0x000C).items.get k).state = .free := free
  rw [commandPurge, named]
  dsimp only
  rw [free]

theorem exec_purge_claimed (claimed : (s.items.get k).state = .claimed) :
    exec .purge s = .next (answered s 0x000C .claimed) := by
  refine CommandAnswers.given_answered running ?_
  have named : slotOperand (given s 0x000C).sup.operandA = some k := Laws.slotOperand_some slot
  have claimed : ((given s 0x000C).items.get k).state = .claimed := claimed
  rw [commandPurge, named]
  dsimp only
  rw [claimed]

theorem exec_purge_again (purged : (s.items.get k).purged = true)
    (used : (s.items.get k).state = .landing ∨ (s.items.get k).state = .settling ∨ (s.items.get k).state = .ready) :
    exec .purge s = .next (answered s 0x000C .ok) := by
  refine CommandAnswers.given_answered running ?_
  have named : slotOperand (given s 0x000C).sup.operandA = some k := Laws.slotOperand_some slot
  have used : ((given s 0x000C).items.get k).state = .landing ∨ ((given s 0x000C).items.get k).state = .settling ∨
      ((given s 0x000C).items.get k).state = .ready := used
  rw [commandPurge, named]
  dsimp only
  rcases used with state | state | state <;> rw [state] <;> exact if_pos purged

theorem exec_purge_landing (state : (s.items.get k).state = .landing) (first : (s.items.get k).purged = false) :
    exec .purge s = .next (withAnswer ((given s 0x000C).purgeLanding k) .ok) := by
  refine CommandAnswers.given_does 0x000C running ?_
  have named : slotOperand (given s 0x000C).sup.operandA = some k := Laws.slotOperand_some slot
  have state : ((given s 0x000C).items.get k).state = .landing := state
  rw [commandPurge, named]
  dsimp only
  rw [state]
  exact if_neg (Bool.eq_false_iff.mp first)

theorem exec_purge_settling (state : (s.items.get k).state = .settling) (first : (s.items.get k).purged = false) :
    exec .purge s = .next (withAnswer ((given s 0x000C).purgeSettling k) .ok) := by
  refine CommandAnswers.given_does 0x000C running ?_
  have named : slotOperand (given s 0x000C).sup.operandA = some k := Laws.slotOperand_some slot
  have state : ((given s 0x000C).items.get k).state = .settling := state
  rw [commandPurge, named]
  dsimp only
  rw [state]
  exact if_neg (Bool.eq_false_iff.mp first)

theorem exec_purge_ready (state : (s.items.get k).state = .ready) (first : (s.items.get k).purged = false) :
    exec .purge s = .next (withAnswer ((given s 0x000C).purgeReady k) .ok) := by
  refine CommandAnswers.given_does 0x000C running ?_
  have named : slotOperand (given s 0x000C).sup.operandA = some k := Laws.slotOperand_some slot
  have state : ((given s 0x000C).items.get k).state = .ready := state
  rw [commandPurge, named]
  dsimp only
  rw [state]
  exact if_neg (Bool.eq_false_iff.mp first)

end

/-- What ends a landing overwrites the item's record. -/
theorem landingEnded_put (j i : Item) (sent : Bool) (next : ScanState) :
    landingEnded { s with items := put s.items k j } l k i sent next = landingEnded s l k i sent next := by
  unfold landingEnded
  simp only [Laws.put_put]

/-- PURGE of a LANDING item (R24). -/
theorem purgeLanding_attached (attached : Attached s l k) : s.purgeLanding k =
    ((landingEnded s l k (findingJudged (elapsed (s.scan.get l).timer) { s.items.get k with purged := true }
      (itemFinding .purged 0)) true .discard).rejectRenditions k).drainWaiting l := by
  obtain ⟨_, lane, _, pending⟩ := attached
  have record : ((s.modItem k Item.markPurged).items.get k) = { s.items.get k with purged := true } :=
    Laws.get_put_same _ _ _
  have rejects := Laws.rejectSent_eq (s := s.modItem k Item.markPurged) (l := l) (k := k)
    (f := itemFinding .purged 0) (next := .discard) (by rw [record]; exact lane) rfl (by rw [record]; exact pending)
  rw [record] at rejects
  have ended := landingEnded_put (s := s) (l := l) (k := k) (Item.markPurged (s.items.get k))
    (findingJudged (elapsed (s.scan.get l).timer) { s.items.get k with purged := true } (itemFinding .purged 0)) true
    .discard
  rw [State.purgeLanding, lane, rejects, ← ended]
  rfl

/-- The finding of PURGE on a decided item decides nothing (R61, R63). -/
theorem addFinding_purged (decided : (s.items.get k).pocket ≠ .pending) (f : Finding) :
    (s.modItem k Item.markPurged).addFinding k f =
      { s with items := put s.items k (findingAdded { s.items.get k with purged := true } f) } := by
  have record : ((s.modItem k Item.markPurged).items.get k) = { s.items.get k with purged := true } :=
    Laws.get_put_same _ _ _
  rw [Laws.addFinding_notes fun both => decided (by rw [record] at both; exact both.2), record, State.modItem,
    Laws.put_put]

/-- PURGE of a SETTLING item (R25). -/
theorem purgeSettling_decided (decided : (s.items.get k).pocket ≠ .pending) : s.purgeSettling k =
    State.rejectRenditions { s with
      items := put s.items k (findingAdded { s.items.get k with purged := true } (itemFinding .purged 0)) } k := by
  rw [State.purgeSettling, addFinding_purged decided]

/-- The chains of an item given back one after another (R83). -/
theorem giveBack_foldl (chains : List (List Nat)) (p : PagePool) :
    chains.foldl PagePool.giveBack p = pagesReturned p chains.flatten := by
  induction chains generalizing p with
  | nil => rfl
  | cons c rest ih =>
    rw [List.foldl_cons, ih]
    simp only [pagesReturned, PagePool.giveBack, stack, List.flatten_cons, List.reverse_append, List.append_assoc,
      List.length_append, Nat.add_assoc]

/-- The pages of an item given back (R15, R26, R83). -/
theorem givePagesBack_eq (k : Slot) : s.givePagesBack k = { s with
    pages := pagesReturned s.pages ((s.items.get k).renditions.map fun r => r.chain).flatten
    items := put s.items k { s.items.get k with
      renditions := (s.items.get k).renditions.map fun r => { r with chain := [] } } } := by
  simp only [State.givePagesBack, State.modPages, giveBack_foldl]
  rfl

theorem findingAdded_records (i : Item) (f : Finding) :
    (findingAdded i f).renditions = i.renditions ∧ (findingAdded i f).purged = i.purged := by
  unfold findingAdded
  split <;> exact ⟨rfl, rfl⟩

/-- A purged item is REJECTED (R12). -/
theorem judge_purged {i : Item} (purged : i.purged = true) : i.judge = .rejected :=
  if_pos (.inr purged)

/-- PURGE of a READY item (R26). -/
theorem purgeReady_decided (decided : (s.items.get k).pocket ≠ .pending) : s.purgeReady k =
    State.dispatchAct { s with
      pages := pagesReturned s.pages ((s.items.get k).renditions.map fun r => r.chain).flatten
      items := put s.items k { findingAdded { s.items.get k with purged := true } (itemFinding .purged 0) with
        disposition := some .rejected
        renditions := (s.items.get k).renditions.map fun r =>
          if r.state = .done then { r with state := .cancelled, output := none, chain := [] }
          else { r with chain := [] } } } := by
  obtain ⟨renditions, purged⟩ :=
    findingAdded_records { s.items.get k with purged := true } (itemFinding .purged 0)
  have cancelled (r : Rendition) : Rendition.cancelDone { r with chain := [] } =
      if r.state = .done then { r with state := .cancelled, output := none, chain := [] } else { r with chain := [] } :=
    rfl
  rw [State.purgeReady, addFinding_purged decided]
  dsimp only
  rw [givePagesBack_eq]
  simp only [State.modItem, Laws.get_put_same, Laws.put_put, renditions, List.map_map, Function.comp_def, cancelled]
  rw [judge_purged (by exact purged)]

/-- Settles O38. -/
theorem purgeResult : Obligations.PurgeResult := by
  intro s k running slot i finding marked
  refine ⟨exec_purge_free running slot, exec_purge_claimed running slot, exec_purge_again running slot,
    fun first => ⟨fun l attached => ?_, fun state decided => ?_, fun state decided => ?_⟩⟩
  · rw [exec_purge_landing running slot attached.2.2.1 first]
    have attached : Attached (given s 0x000C) l k := attached
    exact congrArg (fun t => Host.Outcome.next (withAnswer t .ok)) (purgeLanding_attached attached)
  · rw [exec_purge_settling running slot state first]
    exact congrArg (fun t => Host.Outcome.next (withAnswer t .ok)) (purgeSettling_decided (s := given s 0x000C) decided)
  · rw [exec_purge_ready running slot state first]
    exact congrArg (fun t => Host.Outcome.next (withAnswer t .ok)) (purgeReady_decided (s := given s 0x000C) decided)

end Sys2Proof.LandingEnds
end

