-- ==== Sys2Proof/Proofs/Settling.lean ====
section
/-! PROOF. The settling test, strip return and the cancellation of renditions (R11, R12, R77, R106 to R108). -/

namespace Sys2Proof.Settling
open Sys2Proof.Machine Sys2Proof.Safety

variable {s t : State} {k : Slot} {i : Item}

theorem onlyBehind_of_behind (behind : Laws.Behind s t) : OnlyBehind s t :=
  ⟨behind.rest, fun k => (behind.item k).rest⟩

/-! ### The settling test -/

theorem final_iff (state : RenditionState) : state.final = true ↔
    state = .done ∨ state = .oversize ∨ state = .fault ∨ state = .cancelled := by
  cases state <;> decide

theorem settled_iff (i : Item) : i.settled = true ↔ i.state = .settling ∧ i.pocket ≠ .pending ∧
    ∀ r ∈ i.renditions, r.state = .done ∨ r.state = .oversize ∨ r.state = .fault ∨ r.state = .cancelled := by
  unfold Item.settled
  rw [Bool.and_eq_true, Bool.and_eq_true, decide_eq_true_iff, decide_eq_true_iff, List.all_eq_true, and_assoc]
  simp only [final_iff]

/-- The item made READY with its disposition, then an act of the release arbiter for a lane head (R11). -/
theorem settle_settled (settles : (s.items.get k).settled = true) : s.settle k =
    let t : State := { s with
      items := put s.items k { s.items.get k with state := .ready, disposition := some (s.items.get k).judge } }
    if (s.lanes.get (s.items.get k).lane).queue.head? = some k then t.releaseAct else t := by
  have record : (s.modItem k fun i => { i with state := .ready, disposition := some i.judge }).items.get k =
      { s.items.get k with state := .ready, disposition := some (s.items.get k).judge } := Laws.get_put_same _ _ _
  rw [State.settle, if_pos settles]
  dsimp only
  rw [State.isLaneHead, record]
  simp only [decide_eq_true_eq]
  rfl

theorem settle_waits (waits : (s.items.get k).settled = false) : s.settle k = s := by
  rw [State.settle, if_neg (Bool.eq_false_iff.mp waits)]

theorem judge_rejected (rejected : i.pocket = .reject ∨ i.purged = true) : i.judge = .rejected := if_pos rejected

theorem judge_unfit (kept : ¬ (i.pocket = .reject ∨ i.purged = true))
    (spoilt : ∃ r ∈ i.renditions, r.state = .oversize ∨ r.state = .fault) : i.judge = .unfit := by
  rw [Item.judge, if_neg kept, if_pos]
  simpa using spoilt

theorem judge_accepted (kept : ¬ (i.pocket = .reject ∨ i.purged = true))
    (sound : ¬ ∃ r ∈ i.renditions, r.state = .oversize ∨ r.state = .fault) : i.judge = .accepted := by
  rw [Item.judge, if_neg kept, if_neg]
  simpa using sound

/-! ### Strip return -/

theorem faceIdle_iff (i : Item) (kind : FaceKind) : i.faceIdle kind = true ↔
    ¬ ∃ r ∈ i.renditions, r.face = kind ∧ (r.state = .queued ∨ r.state = .coding) := by
  simp only [Item.faceIdle, List.all_eq_true, Bool.or_eq_true, Bool.and_eq_true, decide_eq_true_eq]
  constructor
  · rintro idle ⟨r, held, face, busy⟩
    rcases idle r held with other | ⟨notQueued, notCoding⟩
    · exact other face
    · exact busy.elim notQueued notCoding
  · intro idle r held
    by_cases face : r.face = kind
    · exact .inr ⟨fun queued => idle ⟨r, held, face, .inl queued⟩, fun coding => idle ⟨r, held, face, .inr coding⟩⟩
    · exact .inl face

section
variable {kind : FaceKind} {f : Face} (named : (s.items.get k).face? kind = some f)
include named

theorem returnStrips_waits (waits : ¬ (f.state ≠ .landing ∧ (s.items.get k).faceIdle kind = true)) :
    s.returnStrips k kind = s := by
  rw [State.returnStrips, named]
  exact if_neg waits

theorem returnStrips_returns (ended : f.state ≠ .landing) (idle : (s.items.get k).faceIdle kind = true) :
    s.returnStrips k kind = { s with
      strips := f.strips.reverse ++ s.strips
      items := put s.items k ((s.items.get k).modFace kind fun x => { x with strips := [] }) } := by
  rw [State.returnStrips, named]
  exact if_pos ⟨ended, idle⟩

end

/-! ### What a REJECT or PURGE does to a rendition -/

/-- Two changes of one rendition, the first of which keeps its face and kind. -/
theorem modRendition_twice (i : Item) (face : FaceKind) (kind : RenditionKind) (f g : Rendition → Rendition)
    (keeps : ∀ r, (f r).face = r.face ∧ (f r).kind = r.kind) :
    (i.modRendition face kind f).modRendition face kind g = i.modRendition face kind fun r => g (f r) := by
  unfold Item.modRendition
  simp only [List.map_map, Item.mk.injEq, true_and, and_true]
  refine List.map_congr_left fun r _ => ?_
  by_cases named : r.face = face ∧ r.kind = kind
  · have still : (f r).face = face ∧ (f r).kind = kind := ⟨(keeps r).1.trans named.1, (keeps r).2.trans named.2⟩
    simp [named, still]
  · simp [named]

section
variable {j : Job} {r : Rendition} (named : (s.items.get j.slot).rendition? j.face j.kind = some r)
include named

theorem jobChain_named : s.jobChain j = r.chain := by
  rw [State.jobChain, named]
  rfl

/-- A unit's job ended without output: its chain and undrawn reservation free, the rendition in a final state, the unit
IDLE (R82, R102, R104, R107). -/
theorem unitGivesUp_eq (u : UnitNo) (last : RenditionState) :
    ((s.giveUpPages u j).modRendition j fun r => { r with state := last }).idleUnit u = { s with
      items := put s.items j.slot ((s.items.get j.slot).modRendition j.face j.kind fun x =>
        { x with state := last, chain := [] })
      pages := { pagesReturned s.pages r.chain with
        freeCount := s.pages.freeCount + r.chain.length + (s.units.get u).undrawn
        reserved := s.pages.reserved - (s.units.get u).undrawn }
      units := put s.units u CodingUnit.idle
      arbiter := (s.arbiter.mark (.cu u) false).forsake (.cu u) } := by
  unfold State.giveUpPages
  rw [jobChain_named named]
  simp only [State.idleUnit, State.withdraw, State.modArbiter, State.modUnit, State.modRendition, State.modItem,
    State.modPages, Laws.get_put_same, Laws.put_put]
  rw [modRendition_twice _ _ _ (fun r => { r with chain := [] }) _ fun _ => ⟨rfl, rfl⟩]
  rfl

theorem cancelRendition_waiting (waiting : r.state = .waiting) : s.cancelRendition j = { s with
    items := put s.items j.slot ((s.items.get j.slot).modRendition j.face j.kind fun x =>
      { x with state := .cancelled }) } := by
  rw [State.cancelRendition, named]
  dsimp only
  rw [waiting]
  rfl

theorem cancelRendition_queued (queued : r.state = .queued) : s.cancelRendition j = { s with
    items := put s.items j.slot ((s.items.get j.slot).modRendition j.face j.kind fun x =>
      { x with state := .cancelled })
    jobs := s.jobs.filter (· ≠ j) } := by
  rw [State.cancelRendition, named]
  dsimp only
  rw [queued]
  rfl

theorem cancelRendition_coding {u : UnitNo} (coding : r.state = .coding) (unit : s.unitOf j = some u) :
    s.cancelRendition j = { s with
      items := put s.items j.slot ((s.items.get j.slot).modRendition j.face j.kind fun x =>
        { x with state := .cancelled, chain := [] })
      pages := { pagesReturned s.pages r.chain with
        freeCount := s.pages.freeCount + r.chain.length + (s.units.get u).undrawn
        reserved := s.pages.reserved - (s.units.get u).undrawn }
      units := put s.units u CodingUnit.idle
      arbiter := (s.arbiter.mark (.cu u) false).forsake (.cu u) } := by
  rw [State.cancelRendition, named]
  dsimp only
  rw [coding, unit]
  exact unitGivesUp_eq named u .cancelled

theorem cancelRendition_final (final : r.state.final = true) : s.cancelRendition j = s := by
  rw [State.cancelRendition, named]
  dsimp only
  rcases (final_iff r.state).mp final with state | state | state | state <;> rw [state]

end

/-- Settles O39. -/
theorem settlingStages : Obligations.SettlingStages := by
  intro s k i final settles disposed settled spoilt
  have settles_iff : i.settled = true ↔ settles := settled_iff i
  have settled_eq (met : settles) : s.settle k = settled i.judge := settle_settled (settles_iff.mpr met)
  refine ⟨fun unmet => ?_, fun met => ⟨fun out => ?_, fun decided unpurged spoilt => ?_,
    fun decided unpurged sound => ?_⟩, ?_, ?_, rfl, onlyBehind_of_behind ((Laws.Behind.refl s).settle k),
    onlyBehind_of_behind ((Laws.Behind.refl s).rejectRenditions k)⟩
  · exact settle_waits (Bool.eq_false_iff.mpr fun met => unmet (settles_iff.mp met))
  · rw [settled_eq met, judge_rejected out]
  · rw [settled_eq met, judge_unfit (by simp [decided, unpurged]) spoilt]
  · rw [settled_eq met, judge_accepted (by simp [decided, unpurged]) sound]
  · intro kind f named busy
    refine ⟨fun held => returnStrips_waits named fun both => ?_, fun ended idle =>
      returnStrips_returns named ended ((faceIdle_iff i kind).mpr idle)⟩
    exact held.elim both.1 ((faceIdle_iff i kind).mp both.2)
  · intro kind rendition r named j cancelled
    exact ⟨fun waiting => cancelRendition_waiting (j := j) named waiting,
      fun queued => cancelRendition_queued (j := j) named queued,
      fun u coding unit => cancelRendition_coding (j := j) named coding unit,
      fun last => cancelRendition_final (j := j) named ((final_iff _).mpr last)⟩

end Sys2Proof.Settling
end

