-- ==== Sys2Proof/Proofs/ClaimMessages.lean ====
section
/-! PROOF. CLAIM, CANCEL, HOLD and GO at an exchange port (R132, R133, R136, R140). -/

namespace Sys2Proof.ClaimMessages
open Sys2Proof.Machine Sys2Proof.Safety

variable {s : State} {p : Port}

theorem produced_eq (x : ExchangePort) (m : ExchangeMsg) :
    (if x.link then { x with produced := x.produced ++ [m] } else x) =
      { x with produced := sentOn x.link x.produced m } := by
  unfold sentOn
  split <;> rfl

/-- A frame is produced while the link is up (R128). -/
theorem exchangeProduce_eq (s : State) (p : Port) (m : ExchangeMsg) : s.exchangeProduce p m = { s with
    exchange := put s.exchange p { s.exchange.get p with
      produced := sentOn (s.exchange.get p).link (s.exchange.get p).produced m } } :=
  congrArg (fun x => { s with exchange := put s.exchange p x }) (produced_eq (s.exchange.get p) m)

/-- An event of an exchange link while no reset holds the machine. -/
theorem exec_running {f : State → State} {t : State} (running : Running s) (does : f s = t) :
    (Host.Outcome.next (s.whileRunning f) : Host.Outcome State Fault Refusal) = .next t :=
  congrArg _ ((Laws.whileRunning_running running f).trans does)

/-! ### CLAIM -/

section
variable {mask : Byte}

theorem exec_claim (running : Running s) (low : 1 ≤ mask.toNat) (high : mask.toNat ≤ 15) :
    exec (.claim p mask) s = .next (s.takeClaim p mask) :=
  exec_running running (if_pos (by simp only [claimMaskOk, low, high, decide_true, Bool.and_self]))

theorem takeClaim_down (down : (s.exchange.get p).state = .down) : s.takeClaim p mask = s := by
  rw [State.takeClaim]
  dsimp only
  rw [down]

theorem takeClaim_busy (up : (s.exchange.get p).state ≠ .down) (busy : (s.exchange.get p).state ≠ .idle) :
    s.takeClaim p mask = s.exchangeProduce p (.claimRefused .busy) := by
  rw [State.takeClaim]
  dsimp only
  cases state : (s.exchange.get p).state
  case down => exact absurd state up
  case idle => exact absurd state busy
  all_goals rfl

theorem takeClaim_noLanes (idle : (s.exchange.get p).state = .idle)
    (none : mask.extractLsb' 0 4 &&& (s.exchange.get p).mask = 0) :
    s.takeClaim p mask = s.exchangeProduce p (.claimRefused .noLanes) := by
  rw [← BitVec.setWidth_eq_extractLsb' (by omega)] at none
  rw [State.takeClaim]
  dsimp only
  rw [idle]
  exact if_pos none

theorem takeClaim_waits (idle : (s.exchange.get p).state = .idle)
    (some : mask.extractLsb' 0 4 &&& (s.exchange.get p).mask ≠ 0) :
    s.takeClaim p mask = State.releaseAct { s with
      claims := s.claims ++ [⟨p, mask.extractLsb' 0 4 &&& (s.exchange.get p).mask⟩]
      exchange := put s.exchange p { s.exchange.get p with state := .waiting } } := by
  rw [← BitVec.setWidth_eq_extractLsb' (by omega)] at some ⊢
  rw [State.takeClaim]
  dsimp only
  rw [idle]
  exact if_neg some

end

/-! ### CANCEL -/

theorem exec_cancel_waiting (running : Running s) (waiting : (s.exchange.get p).state = .waiting) :
    exec (.cancel p) s = .next { s with
      claims := s.claims.filter fun c => c.port ≠ p
      exchange := put s.exchange p { s.exchange.get p with
        state := .idle, produced := sentOn (s.exchange.get p).link (s.exchange.get p).produced .cancelled } } := by
  refine exec_running running ((if_pos waiting).trans ?_)
  rw [exchangeProduce_eq, State.modExchange]
  simp only [Laws.get_put_same, Laws.put_put]
  rfl

/-- Settles O47. -/
theorem claimMessages : Obligations.ClaimMessages := by
  intro s p running x sent
  refine ⟨?_, exec_cancel_waiting running, fun other => ?_, fun sending => ?_, fun other => ?_, fun held => ?_,
    fun other => ?_⟩
  · intro mask low high lanes
    refine ⟨fun down => ?_, fun up busy => ?_, fun idle none => ?_, fun idle some => ?_⟩
    · rw [exec_claim running low high, takeClaim_down down]
    · rw [exec_claim running low high, takeClaim_busy up busy, exchangeProduce_eq]
    · rw [exec_claim running low high, takeClaim_noLanes idle none, exchangeProduce_eq]
    · rw [exec_claim running low high, takeClaim_waits idle some]
  · exact exec_running running (if_neg other)
  · exact exec_running running (if_pos sending)
  · exact exec_running running (if_neg other)
  · exact exec_running running (if_pos held)
  · exact exec_running running (if_neg other)

end Sys2Proof.ClaimMessages
end

