-- ==== Sys2Proof/Proofs/ExchangeLinks.lean ====
section
/-! PROOF. A port's claim released: an exchange link lost and XPORT RESET, and a link coming up (R14, R146, R147). -/

namespace Sys2Proof.ExchangeLinks
open Sys2Proof.Machine Sys2Proof.Safety

variable {s : State} {p : Port}

/-- The claim and stream of a port ended, the port then `y` (R133, R146). -/
def released (s : State) (p : Port) (y : ExchangePort) (next : ExchangeState) : State :=
  { s with
    claims := s.claims.filter fun c => c.port ≠ p
    exchange := put s.exchange p (claimEnded y next)
    arbiter := readerWithdrawn s.arbiter p }

/-- A CLAIMED item put back to READY with its retries as they were (R14). -/
def putBack (s : State) (k : Slot) : State :=
  State.releaseAct { s with items := put s.items k { s.items.get k with state := .ready, holder := none } }

/-- What the release of a port's claim does, after its frames have been discarded (R14, R146, R147). -/
def claimReleased (s : State) (p : Port) (y : ExchangePort) (next : ExchangeState) : State :=
  match y.slot with
  | none => released s p y next
  | some k => putBack (released s p y next) k

theorem releaseClaim_eq (y : ExchangePort) (next : ExchangeState) :
    State.releaseClaim { s with exchange := put s.exchange p y } p next = claimReleased s p y next := by
  have ended : State.endClaim (State.dropClaim { s with exchange := put s.exchange p y } p) p next =
      released s p y next := by
    simp only [State.endClaim, State.dropClaim, State.withdraw, State.modArbiter, State.modExchange, State.withClaims,
      Laws.get_put_same, Laws.put_put]
    rfl
  rw [State.releaseClaim, Laws.get_put_same, ended, claimReleased]
  cases y.slot with
  | none => rfl
  | some k => rfl

theorem exec_exchangeLinkLost (running : Running s) (up : (s.exchange.get p).state ≠ .down) :
    exec (.exchangeLinkLost p) s = .next (s.loseExchangeLink p) :=
  congrArg Host.Outcome.next ((if_neg (Bool.eq_false_iff.mp running)).trans (if_neg up))

/-- XPORT RESET at the port operand A names (R147). -/
theorem exec_xportReset (running : Running s) (port : s.sup.operandA.toNat = p.val) :
    exec .xportReset s = .next (withAnswer ((given s 0x000D).resetExchange p) .ok) := by
  refine CommandAnswers.given_does 0x000D running ?_
  have named : portOperand (given s 0x000D).sup.operandA = some p := Laws.portOperand_some port
  rw [commandXportReset, named]

/-- The frames XPORT RESET leaves: a first one whose sending has begun (R147; log 8). -/
theorem resetExchange_eq (begun : Bool) (known : hasBegun (s.exchange.get p).begun s.free = begun) :
    s.resetExchange p = claimReleased { s with free := s.free + 1 } p
      { s.exchange.get p with
        gathering := []
        produced := if begun then (s.exchange.get p).produced.take 1 else []
        begun := begun && !(s.exchange.get p).produced.isEmpty }
      (if (s.exchange.get p).link then .idle else .down) := by
  rw [← releaseClaim_eq, ← Resets.keepBegun_empty begun, State.resetExchange, known]
  rfl

/-- Settles O50. -/
theorem exchangeLinkChanges : Obligations.ExchangeLinkChanges := by
  intro s p running x release linkSet
  have high : ¬ s.pins.resetLow = true := Bool.eq_false_iff.mp running
  refine ⟨fun down => ⟨?_, ?_⟩, fun up => ⟨?_, ?_⟩, fun port => ?_⟩
  · exact congrArg Host.Outcome.next ((if_neg high).trans (if_pos down))
  · exact congrArg Host.Outcome.next ((if_neg high).trans (if_pos down))
  · exact congrArg Host.Outcome.next ((if_neg high).trans (if_neg up))
  · rw [exec_exchangeLinkLost running up]
    exact congrArg Host.Outcome.next (releaseClaim_eq (s := linkSet) _ .down)
  · refine ⟨hasBegun x.begun s.free, s.free + 1, Resets.hasBegun_known s.free, ?_⟩
    rw [exec_xportReset running port]
    exact congrArg (fun t => Host.Outcome.next (withAnswer t .ok)) (resetExchange_eq (s := given s 0x000D) _ rfl)

end Sys2Proof.ExchangeLinks
end

