-- ==== Sys2Proof/Proofs/ClaimEnds.lean ====
section
/-! PROOF. How a claim ends: DELIVERED, RETURN and the stall timer's expiry (R14, R15, R141, R143, R144). -/

namespace Sys2Proof.ClaimEnds
open Sys2Proof.Machine Sys2Proof.Safety

variable {s : State} {p : Port} {k : Slot}

/-! ### The freeing of an item -/

/-- The store with the pin of a freed item's source taken off (R15). -/
def unpinned (st : Store) (source : Option Source) : Store :=
  match source with
  | some (.block b) => { st with pins := put st.pins b (st.pins.get b - 1) }
  | some .staging => { st with stagingPins := st.stagingPins - 1 }
  | none => st

/-- The item freed, up to the acts that follow (R1, R15, R22, R83). -/
def itemFreed (s : State) (k : Slot) : State :=
  let i := s.items.get k
  let queue := (s.lanes.get i.lane).queue.filter (· ≠ k)
  { s with
    pages := pagesReturned s.pages (i.renditions.map fun r => r.chain).flatten
    store := unpinned s.store i.source
    lanes := put s.lanes i.lane { s.lanes.get i.lane with queue := queue }
    items := put s.items k Item.empty
    sup := { s.sup with causes :=
      if (s.lanes.get i.lane).closed = true ∧ queue = [] then s.sup.causes ||| 16 else s.sup.causes } }

theorem drainedTest_eq (s : State) (l : Lane) : s.drainedTest l = { s with
    sup := { s.sup with causes :=
      if (s.lanes.get l).closed = true ∧ (s.lanes.get l).queue = [] then s.sup.causes ||| 16 else s.sup.causes } } := by
  unfold State.drainedTest
  split <;> rfl

/-- The pin of an item's source taken off (R15). -/
theorem unpinned_eq (s : State) (source : Option Source) :
    (match source with
      | some src => s.modStore fun st => st.modPins src (· - 1)
      | none => s) = { s with store := unpinned s.store source } := by
  cases source with
  | none => rfl
  | some src => cases src <;> rfl

theorem freeItem_eq (s : State) (k : Slot) : s.freeItem k =
    if ((itemFreed s k).dispatchAct.readyHead (s.items.get k).lane).isSome then (itemFreed s k).dispatchAct.releaseAct
    else (itemFreed s k).dispatchAct := by
  have freed : State.drainedTest ((((match (s.items.get k).source with
      | some src => (s.givePagesBack k).modStore fun st => st.modPins src (· - 1)
      | none => s.givePagesBack k).modLane (s.items.get k).lane fun r =>
        { r with queue := r.queue.filter (· ≠ k) }).modItem k fun _ => Item.empty)) (s.items.get k).lane =
      itemFreed s k := by
    rw [unpinned_eq, LandingEnds.givePagesBack_eq, drainedTest_eq]
    simp only [State.modLane, State.modItem, Laws.get_put_same, Laws.put_put]
    rfl
  rw [← freed]
  rfl

theorem readyHead_isSome (s : State) (l : Lane) : (s.readyHead l).isSome = true ↔
    ∃ h, (s.lanes.get l).queue.head? = some h ∧ (s.items.get h).state = .ready := by
  unfold State.readyHead
  cases (s.lanes.get l).queue.head? with
  | none => simp
  | some h => simp [Option.isSome_filter]

/-! ### The claim ended -/

/-- The claim and stream of a port ended with its frames as in `y` (R143, R146). -/
def claimOver (s : State) (p : Port) (y : ExchangePort) (n : Nat) : State :=
  { s with exchange := put s.exchange p (claimEnded y .idle), free := n, arbiter := readerWithdrawn s.arbiter p }

theorem endClaim_await : s.endClaim p .idle = claimOver s p (s.exchange.get p) s.free := rfl

/-- The rest of a stream is not sent (R143, R144; log 8). -/
theorem endClaim_cut (s : State) (p : Port) : ∃ begun : Bool, ((s.exchange.get p).begun = true → begun = true) ∧
    (s.cutStream p).endClaim p .idle = claimOver s p (streamCut (s.exchange.get p) begun) (s.free + 1) := by
  obtain ⟨begun, known, cut⟩ := Laws.cutStream_eq s p
  refine ⟨begun, known, ?_⟩
  rw [cut]
  simp only [State.endClaim, State.withdraw, State.modArbiter, State.modExchange, Laws.get_put_same, Laws.put_put]
  rfl

/-- What DELIVERED and RETURN do at a port that holds an item (R143, R144). -/
theorem taken_eq (slot : (s.exchange.get p).slot = some k)
    (holds : (s.exchange.get p).state = .sending ∨ (s.exchange.get p).state = .held ∨
      (s.exchange.get p).state = .await) :
    ∃ (y : ExchangePort) (n : Nat),
      ((s.exchange.get p).state = .await → y = s.exchange.get p ∧ n = s.free) ∧
      ((s.exchange.get p).state ≠ .await → ∃ begun : Bool, ((s.exchange.get p).begun = true → begun = true) ∧
        y = streamCut (s.exchange.get p) begun) ∧
      s.takeDelivered p = (claimOver s p y n).freeItem k ∧
      s.takeReturn p = (claimOver s p y n).returnItem k true := by
  unfold State.takeDelivered State.takeReturn
  dsimp only
  rw [slot]
  obtain ⟨begun, known, cut⟩ := endClaim_cut s p
  rcases holds with state | state | state <;> rw [state]
  · exact ⟨_, _, nofun, fun _ => ⟨begun, known, rfl⟩, congrArg (·.freeItem k) cut,
      congrArg (·.returnItem k true) cut⟩
  · exact ⟨_, _, nofun, fun _ => ⟨begun, known, rfl⟩, congrArg (·.freeItem k) cut,
      congrArg (·.returnItem k true) cut⟩
  · exact ⟨_, _, fun _ => ⟨rfl, rfl⟩, fun other => absurd rfl other, rfl, rfl⟩

theorem taken_stale (free : (s.exchange.get p).state = .idle ∨ (s.exchange.get p).state = .waiting) :
    s.takeDelivered p = s.exchangeProduce p (.stale .delivered) ∧
      s.takeReturn p = s.exchangeProduce p (.stale .returned) := by
  unfold State.takeDelivered State.takeReturn
  dsimp only
  rcases free with state | state <;> rw [state] <;> exact ⟨rfl, rfl⟩

theorem taken_down (down : (s.exchange.get p).state = .down) : s.takeDelivered p = s ∧ s.takeReturn p = s := by
  unfold State.takeDelivered State.takeReturn
  dsimp only
  rw [down]
  exact ⟨rfl, rfl⟩

/-! ### The stall timer -/

theorem expireStall_stopped (stopped : (s.exchange.get p).stall = none) : s.expireStall p = s := by
  rw [State.expireStall, stopped]

/-- The expired stall timer revokes the claim (R141). -/
theorem expireStall_revokes (slot : (s.exchange.get p).slot = some k)
    (runs : (s.exchange.get p).stall.isSome = true) : s.expireStall p =
    State.releaseAct { s with
      exchange := put s.exchange p { claimEnded (s.exchange.get p) .idle with
        produced := sentOn (s.exchange.get p).link (s.exchange.get p).produced (.revoked k (s.items.get k).stamp) }
      arbiter := readerWithdrawn s.arbiter p
      items := put s.items k { s.items.get k with
        state := .ready, holder := none, retries := min 255 ((s.items.get k).retries + 1) }
      sup := { s.sup with causes := s.sup.causes ||| 8 } } := by
  obtain ⟨n, stall⟩ := Option.isSome_iff_exists.mp runs
  rw [State.expireStall, stall, slot]
  dsimp only
  rw [ClaimMessages.exchangeProduce_eq]
  simp only [State.endClaim, State.withdraw, State.modArbiter, State.modExchange, State.setCause, State.modSup,
    State.returnItem, State.modItem, Laws.get_put_same, Laws.put_put]
  rfl

/-- Settles O49. -/
theorem claimEnds : Obligations.ClaimEnds := by
  intro s p running x sent
  have delivered {t : State} := ClaimMessages.exec_running (f := fun s => s.takeDelivered p) (t := t) running
  have returns {t : State} := ClaimMessages.exec_running (f := fun s => s.takeReturn p) (t := t) running
  have expires {t : State} := ClaimMessages.exec_running (f := fun s => s.expireStall p) (t := t) running
  refine ⟨fun down => ⟨delivered (taken_down down).1, returns (taken_down down).2⟩, fun free => ?_,
    fun stopped => expires (expireStall_stopped stopped), fun k slot holds => ?_⟩
  · obtain ⟨first, second⟩ := taken_stale free
    exact ⟨delivered (first.trans (ClaimMessages.exchangeProduce_eq ..)),
      returns (second.trans (ClaimMessages.exchangeProduce_eq ..))⟩
  · intro i queue freed ready returned
    refine ⟨?_, fun runs => expires (expireStall_revokes slot runs)⟩
    obtain ⟨y, n, await, early, frees, puts⟩ := taken_eq slot holds
    have lane : (claimOver s p y n).items.get k = i := rfl
    rw [freeItem_eq, lane] at frees
    have freed_eq : itemFreed (claimOver s p y n) k = freed y n := rfl
    rw [freed_eq] at frees
    refine ⟨y, n, await, early, fun head => delivered (frees.trans (if_pos ?_)),
      fun none => delivered (frees.trans (if_neg ?_)), returns puts⟩
    · exact (readyHead_isSome _ _).mpr head
    · exact fun some => none ((readyHead_isSome _ _).mp some)

end Sys2Proof.ClaimEnds
end

