-- ==== Sys2Proof/Proofs/StreamGoesOn.lean ====
section
/-! PROOF. Streams: where they start and go on, the segment boundaries, and what a reader does with its burst (R86, R130,
R137 to R141). -/

namespace Sys2Proof.StreamGoesOn
open Sys2Proof.Machine Sys2Proof.Safety

variable {s : State} {p : Port} {i : Item}

/-! ### The SEGMENTs of a stream -/

theorem doneAt_lt {n : Nat} (done : i.doneAt n = true) : n < i.renditions.length := by
  by_contra outside
  rw [Item.doneAt, List.getElem?_eq_none (Nat.le_of_not_lt outside)] at done
  cases done

theorem segmentFrom_none {from' : Nat} (idle : ∀ n, from' ≤ n → i.doneAt n = false) : i.segmentFrom from' = none := by
  rw [Item.segmentFrom, Option.map_eq_none_iff, List.find?_eq_none]
  intro n _ found
  rw [Bool.and_eq_true, decide_eq_true_iff] at found
  rw [idle n found.1] at found
  cases found.2

theorem segmentFrom_first {from' n : Nat} (after : from' ≤ n) (done : i.doneAt n = true)
    (first : ∀ m, from' ≤ m → m < n → i.doneAt m = false) : i.segmentFrom from' = some ⟨n, 0⟩ := by
  have found : (List.range i.renditions.length).find? (fun n => from' ≤ n && i.doneAt n) = some n := by
    rw [List.find?_range_eq_some]
    refine ⟨by simp [after, done], List.mem_range.mpr (doneAt_lt done), fun m before => ?_⟩
    by_cases late : from' ≤ m
    · simp [first m late before]
    · simp [late]
  rw [Item.segmentFrom, found]
  rfl

theorem segmentAfter_within {pos : StreamPos} (more : (pos.number + 1) * 4096 < i.lengthAt pos.rendition) :
    i.segmentAfter pos = some ⟨pos.rendition, pos.number + 1⟩ :=
  if_pos (by unfold pageCount; omega)

theorem segmentAfter_last {pos : StreamPos} (whole : i.lengthAt pos.rendition ≤ (pos.number + 1) * 4096) :
    i.segmentAfter pos = i.segmentFrom (pos.rendition + 1) :=
  if_neg (by unfold pageCount; omega)

/-! ### A segment boundary -/

theorem afterStreamFrame_none {produced : List ExchangeMsg} (answers : ∀ m ∈ produced, m.inStream = false) :
    afterStreamFrame produced = none := by
  induction produced with
  | nil => rfl
  | cons m rest ih =>
    rw [List.forall_mem_cons] at answers
    rw [afterStreamFrame, if_neg (Bool.eq_false_iff.mp answers.1), ih answers.2]

theorem afterStreamFrame_some {before rest : List ExchangeMsg} {m : ExchangeMsg}
    (answers : ∀ m ∈ before, m.inStream = false) (leaves : m.inStream = true) :
    afterStreamFrame (before ++ m :: rest) = some rest := by
  induction before with
  | nil => exact if_pos leaves
  | cons a before ih =>
    rw [List.forall_mem_cons] at answers
    rw [List.cons_append, afterStreamFrame, if_neg (Bool.eq_false_iff.mp answers.1), ih answers.2]

/-- A GRANT or SEGMENT has left the port, with all before it (R137). -/
def frameLeft (s : State) (p : Port) (rest : List ExchangeMsg) : State :=
  { s with exchange := put s.exchange p { s.exchange.get p with produced := rest, begun := false } }

/-- The store emptied at a segment boundary (R137). -/
def boundaryReached (s : State) (p : Port) (rest : List ExchangeMsg) : State :=
  { s with exchange := put s.exchange p { s.exchange.get p with produced := rest, begun := false, store := [] } }

section
variable {rest : List ExchangeMsg} (leaves : afterStreamFrame (s.exchange.get p).produced = some rest)
include leaves

theorem segmentLeaves_passes
    (within : ¬ ((s.exchange.get p).state = .sending ∧ ∀ m ∈ rest, m.inStream = false)) :
    s.segmentLeaves p = frameLeft s p rest := by
  rw [State.segmentLeaves, leaves]
  refine if_neg fun both => within ⟨?_, ?_⟩
  · have state := both.1
    rw [State.modExchange, Laws.get_put_same] at state
    exact state
  · simpa using both.2

theorem segmentLeaves_boundary (sending : (s.exchange.get p).state = .sending)
    (last : ∀ m ∈ rest, m.inStream = false) : s.segmentLeaves p =
      if (s.exchange.get p).holdPending then (boundaryReached s p rest).enterStalled p .held
      else (boundaryReached s p rest).streamOn p := by
  have met : ((s.modExchange p fun x => { x with produced := rest, begun := false }).exchange.get p).state = .sending ∧
      rest.all (fun m => !m.inStream) = true := by
    rw [State.modExchange, Laws.get_put_same]
    exact ⟨sending, by simpa using last⟩
  have emptied : ((s.modExchange p fun x => { x with produced := rest, begun := false }).modExchange p fun x =>
      { x with store := [] }) = boundaryReached s p rest := by
    simp only [State.modExchange, Laws.get_put_same, Laws.put_put, boundaryReached]
  have hold : ((boundaryReached s p rest).exchange.get p).holdPending = (s.exchange.get p).holdPending := by
    rw [boundaryReached, Laws.get_put_same]
  rw [State.segmentLeaves, leaves]
  refine (if_pos met).trans ?_
  rw [emptied]
  dsimp only
  rw [hold]

end

theorem enterStalled_eq (s : State) (p : Port) (next : ExchangeState) : s.enterStalled p next = { s with
    exchange := put s.exchange p { s.exchange.get p with
      state := next, holdPending := false, stall := some s.stallLimit } } := rfl

theorem streamOn_reads (more : (s.exchange.get p).position.isSome = true) :
    s.streamOn p = { s with arbiter := s.arbiter.mark (.xr p) true } := by
  obtain ⟨pos, position⟩ := Option.isSome_iff_exists.mp more
  rw [State.streamOn, position]
  rfl

theorem streamOn_ends (ends : (s.exchange.get p).position = none) : s.streamOn p = { s with
    exchange := put s.exchange p { s.exchange.get p with
      produced := sentOn (s.exchange.get p).link (s.exchange.get p).produced
        (.endOfStream (s.exchange.get p).segments)
      state := .await, holdPending := false, stall := some s.stallLimit } } := by
  have produced : s.streamOn p =
      (s.exchangeProduce p (.endOfStream (s.exchange.get p).segments)).enterStalled p .await := by
    rw [State.streamOn, ends]
  rw [produced, ClaimMessages.exchangeProduce_eq, enterStalled_eq]
  simp only [Laws.get_put_same, Laws.put_put]

/-! ### What a reader does with its burst -/

section
variable {k : Slot} {pos : StreamPos} (slot : (s.exchange.get p).slot = some k)
  (position : (s.exchange.get p).position = some pos)
include slot position

theorem segmentRead_partial {data : List Byte}
    (short : ((s.exchange.get p).store ++ data).length < (s.items.get k).segmentBytes pos) :
    s.readDone data (.xr p) = { s with
      exchange := put s.exchange p { s.exchange.get p with store := (s.exchange.get p).store ++ data }
      arbiter := s.arbiter.mark (.xr p) true } := by
  rw [State.readDone, State.segmentRead, slot, position]
  exact if_neg (Nat.not_le_of_lt short)

theorem segmentRead_whole {data : List Byte}
    (whole : (s.items.get k).segmentBytes pos ≤ ((s.exchange.get p).store ++ data).length) :
    s.readDone data (.xr p) = { s with
      exchange := put s.exchange p { s.exchange.get p with
        store := (s.exchange.get p).store ++ data
        position := (s.items.get k).segmentAfter pos
        segments := (s.exchange.get p).segments + 1
        produced := sentOn (s.exchange.get p).link (s.exchange.get p).produced
          (.segment pos.rendition pos.number ((s.exchange.get p).store ++ data)) } } := by
  rw [State.readDone, State.segmentRead, slot, position]
  refine (if_pos whole).trans ?_
  rw [ClaimMessages.exchangeProduce_eq]
  simp only [State.modExchange, Laws.get_put_same, Laws.put_put]

omit slot in
theorem breakStream_eq : s.readFault (.xr p) = { s with
    exchange := put s.exchange p { s.exchange.get p with
      store := [], state := .await, holdPending := false, stall := some s.stallLimit
      produced := sentOn (s.exchange.get p).link (s.exchange.get p).produced (.broken pos.rendition pos.number) }
    arbiter := readerWithdrawn s.arbiter p
    sup := { s.sup with causes := s.sup.causes ||| 64 } } := by
  rw [State.readFault, State.breakStream, position]
  dsimp only
  rw [ClaimMessages.exchangeProduce_eq, enterStalled_eq]
  simp only [State.withdraw, State.modArbiter, State.setCause, State.modSup, State.modExchange, Laws.get_put_same,
    Laws.put_put]
  rfl

end

/-- Settles O48. -/
theorem streamGoesOn : Obligations.StreamGoesOn := by
  intro s p x
  refine ⟨fun i => ?_, fun answers => ?_, ?_, ?_⟩
  · intro first
    have first_from (n : Nat) : first n (i.segmentFrom n) :=
      ⟨segmentFrom_none, fun m after done before => segmentFrom_first after done before⟩
    refine ⟨fun rejected => if_pos rejected, fun kept => ?_, fun pos more => segmentAfter_within more,
      fun pos whole => ?_⟩
    · rw [Item.streamStart, if_neg kept]
      exact first_from 0
    · rw [segmentAfter_last whole]
      exact first_from _
  · have stays : s.segmentLeaves p = s := by
      rw [State.segmentLeaves, afterStreamFrame_none answers]
    cases running : s.pins.resetLow
    · exact ClaimMessages.exec_running running stays
    · exact congrArg Host.Outcome.next (Laws.whileRunning_reset running _)
  · intro before m rest running produced answers leaves left boundary
    have after : afterStreamFrame x.produced = some rest := by
      rw [produced, afterStreamFrame_some answers leaves]
    have boundary_port : (boundaryReached s p rest).exchange.get p =
      { x with produced := rest, begun := false, store := [] } := Laws.get_put_same _ _ _
    refine ⟨fun within => ClaimMessages.exec_running running (segmentLeaves_passes after within),
      fun ⟨sending, last⟩ => ⟨fun hold => ?_, fun go => ⟨fun more => ?_, fun ends => ?_⟩⟩⟩
    all_goals refine ClaimMessages.exec_running running ((segmentLeaves_boundary after sending last).trans ?_)
    · rw [if_pos hold, enterStalled_eq, boundary_port, boundaryReached, Laws.put_put]
    · rw [if_neg (Bool.eq_false_iff.mp go), streamOn_reads (by rw [boundary_port]; exact more)]
      rfl
    · rw [if_neg (Bool.eq_false_iff.mp go), streamOn_ends (by rw [boundary_port]; exact ends), boundary_port,
        boundaryReached, Laws.put_put]
  · intro k pos data slot position i size
    exact ⟨segmentRead_partial slot position, segmentRead_whole slot position, breakStream_eq position⟩

end Sys2Proof.StreamGoesOn
end

