-- ==== Sys2Proof/Proofs/Bursts.lean ====
section
/-! PROOF. The completion of a burst (R71, R72, R74), and what a requester does with its result (R33, R49, R54, R85, R97,
R99, R103 to R105). -/

namespace Sys2Proof.Bursts
open Sys2Proof.Machine Sys2Proof.Safety

variable {s : State} {m : Memory}

/-! ### The buffer memory's parity and reads -/

theorem upset_writeBytes (bytes : List Byte) (m : Memory) (addr a : Nat) :
    a ∈ (m.writeBytes addr bytes).upset ↔ a ∈ m.upset ∧ ¬ (addr ≤ a ∧ a < addr + bytes.length) := by
  induction bytes generalizing m addr with
  | nil =>
    simp only [Memory.writeBytes, List.length_nil]
    constructor
    · exact fun upset => ⟨upset, by omega⟩
    · exact And.left
  | cons b rest ih =>
    have written : a ∈ (m.writeByte addr b).upset ↔ a ∈ m.upset ∧ a ≠ addr := by
      simp [Memory.writeByte]
    rw [Memory.writeBytes, ih, written, List.length_cons, and_assoc]
    refine and_congr_right fun _ => ?_
    omega

theorem mem_insertAddr {a x : Nat} {l : List Nat} : x ∈ insertAddr a l ↔ x = a ∨ x ∈ l := by
  refine ⟨Laws.insertAddr_mem, ?_⟩
  induction l with
  | nil => simp [insertAddr]
  | cons d rest ih =>
    simp only [insertAddr]
    intro either
    split
    · exact List.mem_cons.mpr either
    · split
      · next same => exact either.elim (fun named => List.mem_cons.mpr (.inl (named.trans same))) id
      · rw [List.mem_cons] at either ⊢
        rcases either with named | head | tail
        · exact .inr (ih (.inl named))
        · exact .inl head
        · exact .inr (ih (.inr tail))

theorem upset_upsetAt (m : Memory) (addr count : Nat) (upsets : List Nat) (a : Nat) :
    a ∈ (m.upsetAt addr count upsets).upset ↔ a ∈ m.upset ∨ ∃ n ∈ upsets, n < count ∧ a = addr + n := by
  have joined (l : List Nat) : a ∈ l.foldr insertAddr m.upset ↔ a ∈ m.upset ∨ a ∈ l := by
    induction l with
    | nil => simp
    | cons d rest ih =>
      rw [List.foldr_cons, mem_insertAddr, ih, List.mem_cons]
      exact or_left_comm
  unfold Memory.upsetAt
  rw [joined]
  simp only [List.mem_map, List.mem_filter, decide_eq_true_eq, and_assoc, @eq_comm _ a]

theorem parityFault_iff (m : Memory) (addr count : Nat) :
    m.parityFault addr count = true ↔ ∃ a ∈ m.upset, addr ≤ a ∧ a < addr + count := by
  simp [Memory.parityFault]

theorem readBytes_written {addr count : Nat} {data : List Byte} (length : data.length = count)
    (reads : ∀ n, n < count → m.read (addr + n) = data[n]?) : m.readBytes addr count = some data := by
  induction count generalizing addr data with
  | zero =>
    rw [List.eq_nil_of_length_eq_zero length]
    rfl
  | succ count ih =>
    cases data with
    | nil => cases length
    | cons b rest =>
      have first : m.read addr = some b := reads 0 (Nat.succ_pos count)
      have others : m.readBytes (addr + 1) count = some rest := by
        refine ih (Nat.succ.inj length) fun n within => ?_
        rw [Nat.add_right_comm]
        exact reads (n + 1) (Nat.succ_lt_succ within)
      rw [Memory.readBytes, first, others]
      rfl

theorem readBytes_unwritten {addr count n : Nat} (within : n < count) (unwritten : m.read (addr + n) = none) :
    m.readBytes addr count = none := by
  induction count generalizing addr n with
  | zero => cases within
  | succ count ih =>
    rw [Memory.readBytes]
    cases n with
    | zero =>
      rw [show m.read addr = none from unwritten]
      rfl
    | succ n =>
      rw [ih (Nat.lt_of_succ_lt_succ within) (by rw [Nat.add_right_comm]; exact unwritten)]
      cases m.read addr <;> rfl

/-! ### The completion -/

/-- The machine with no burst under way and its memory `mem` (R71). -/
def burstOver (s : State) (mem : Memory) : State :=
  { s with arbiter := { s.arbiter with burst := none }, mem := mem }

section
variable {upsets : List Nat} {b : Burst} (under : s.arbiter.burst = some b)
include under

theorem exec_burstComplete_outside (outside : 100663296 < b.addr + b.count) :
    exec (.burstComplete upsets) s = .fault .noSuchAddress := by
  have complete : exec (.burstComplete upsets) s = execBurstComplete upsets s := rfl
  rw [complete, execBurstComplete, under]
  exact if_pos outside

variable (inside : b.addr + b.count ≤ 100663296)
include inside

theorem exec_burstComplete_write (write : b.write = true) : exec (.burstComplete upsets) s = .next
    (if b.live then (burstOver s (s.mem.writeBytes b.addr (b.data.take b.count))).wrote b.who
      else burstOver s (s.mem.writeBytes b.addr (b.data.take b.count))) := by
  have complete : exec (.burstComplete upsets) s = execBurstComplete upsets s := rfl
  rw [complete, execBurstComplete, under]
  exact (if_neg (Nat.not_lt_of_le inside)).trans (if_pos write)

theorem exec_burstComplete_read (read : b.write = false) : exec (.burstComplete upsets) s =
    let mem := s.mem.upsetAt b.addr b.count upsets
    if b.live = false then .next (burstOver s mem)
    else if mem.parityFault b.addr b.count then .next ((burstOver s mem).readFault b.who)
    else match mem.readBytes b.addr b.count with
      | none => .fault .unwrittenByte
      | some data => .next ((burstOver s mem).readDone data b.who) := by
  have complete : exec (.burstComplete upsets) s = execBurstComplete upsets s := rfl
  rw [complete, execBurstComplete, under]
  refine (if_neg (Nat.not_lt_of_le inside)).trans ((if_neg (Bool.eq_false_iff.mp read)).trans ?_)
  cases b.live <;> rfl

end

/-- Settles O45. -/
theorem burstCompleteResult : Obligations.BurstCompleteResult := by
  intro s upsets
  refine ⟨fun idle => ?_, fun b under => ⟨exec_burstComplete_outside under, fun inside => ⟨fun write whole => ?_,
    fun read => ?_⟩⟩⟩
  · have complete : exec (.burstComplete upsets) s = execBurstComplete upsets s := rfl
    rw [complete, execBurstComplete, idle]
  · refine ⟨s.mem.writeBytes b.addr b.data, ?_, fun a => ?_, fun a => ?_⟩
    · rw [exec_burstComplete_write under inside write, List.take_of_length_le whole.le]
      rfl
    · rw [Laws.read_writeBytes, whole]
    · rw [upset_writeBytes, whole]
  · refine ⟨s.mem.upsetAt b.addr b.count upsets, fun a => Laws.read_upsetAt .., upset_upsetAt _ _ _ _, fun dead => ?_,
      fun live faulty => ?_, fun live sound => ⟨fun data length reads => ?_, fun ⟨n, within, unwritten⟩ => ?_⟩⟩
    all_goals rw [exec_burstComplete_read under inside read]
    · exact if_pos dead
    · exact (if_neg (by simp [live])).trans (if_pos ((parityFault_iff _ _ _).mpr faulty))
    · refine (if_neg (by simp [live])).trans ((if_neg fun faulty => sound ((parityFault_iff _ _ _).mp faulty)).trans ?_)
      rw [readBytes_written (m := s.mem.upsetAt b.addr b.count upsets) length reads]
      rfl
    · refine (if_neg (by simp [live])).trans ((if_neg fun faulty => sound ((parityFault_iff _ _ _).mp faulty)).trans ?_)
      rw [readBytes_unwritten (m := s.mem.upsetAt b.addr b.count upsets) within unwritten]

end Sys2Proof.Bursts
end

