-- ==== Sys2Proof/Proofs/BurstResults.lean ====
section
/-! PROOF. What a requester does with the result of its burst (R33, R49, R54, R85, R97, R99, R103 to R105). -/

namespace Sys2Proof.BurstResults
open Sys2Proof.Machine Sys2Proof.Safety

variable {s : State}

/-! ### The landing writers -/

section
variable {l : Lane} {k : Slot} {kind : FaceKind} {h : HeldRow} (attached : (s.scan.get l).attached = some k)
  (current : (s.scan.get l).current = some kind) (held : (s.scan.get l).held = some h)
include attached current held

theorem writerWrote_more (more : (h.written + 1) * 256 < h.pixels.length) : s.wrote (.w l) = { s with
    scan := put s.scan l { s.scan.get l with held := some { h with written := h.written + 1 } }
    arbiter := s.arbiter.mark (.w l) true } := by
  rw [State.wrote, State.writerWrote, held, attached, current]
  exact if_neg (Nat.not_le_of_lt more)

theorem writerWrote_whole (whole : h.pixels.length ≤ (h.written + 1) * 256) : s.wrote (.w l) =
    State.drainWaiting { s with
      items := put s.items k ((s.items.get k).modFace kind fun f => f.landRow h.pixels)
      scan := put s.scan l { s.scan.get l with held := none } } l := by
  rw [State.wrote, State.writerWrote, held, attached, current]
  exact if_pos whole

end

/-- A landed row is counted and measured (R49, R54). -/
theorem landRow_eq (f : Face) (pixels : List Byte) :
    let dark (a : Accumulators) (p : Byte) : Bool := decide (p.toNat < a.darkLevel)
    f.landRow pixels = { f with
      rowsLanded := f.rowsLanded + 1
      accum := f.accum.map fun a => { a with
        darkCount := a.darkCount + pixels.countP (dark a)
        columns := List.zipWith (fun n p => if dark a p then n + 1 else n) a.columns pixels } } := by
  intro dark
  unfold Face.landRow Accumulators.takeRow
  simp only [List.countP_eq_length_filter, dark, decide_eq_true_eq]

/-! ### The coding units -/

section
variable {u : UnitNo} {j : Job} (job : (s.units.get u).job = some j)
include job

theorem unitRead_partial {data : List Byte} (short : ((s.units.get u).rowSoFar ++ data).length < s.jobWidth j) :
    s.readDone data (.cu u) = { s with
      units := put s.units u { s.units.get u with rowSoFar := (s.units.get u).rowSoFar ++ data }
      arbiter := s.arbiter.mark (.cu u) true } := by
  rw [State.readDone, State.unitRead, job]
  exact if_neg (Nat.not_le_of_lt short)

theorem unitRead_whole {data : List Byte} (whole : s.jobWidth j ≤ ((s.units.get u).rowSoFar ++ data).length) :
    s.readDone data (.cu u) =
      (State.runUnit maxStepDowns (s.codeRow u j ((s.units.get u).rowSoFar ++ data)) u j).ifIdleDispatch u := by
  rw [State.readDone, State.unitRead, job]
  exact if_pos whole

theorem unitWrote_output (body : (s.units.get u).phase ≠ .header) : s.wrote (.cu u) =
    (State.runUnit maxStepDowns (s.modUnit u fun x => { x with outputBurst := [] }) u j).ifIdleDispatch u := by
  rw [State.wrote, State.unitWrote, job]
  dsimp only
  cases phase : (s.units.get u).phase
  case header => exact absurd phase body
  all_goals rfl

theorem unitWrote_header (header : (s.units.get u).phase = .header) :
    s.wrote (.cu u) = (s.doneJob u j).ifIdleDispatch u := by
  rw [State.wrote, State.unitWrote, job]
  dsimp only
  rw [header]

theorem unitFault_eq : s.readFault (.cu u) = ((s.setCause .memFault).failJob u j .fault).ifIdleDispatch u := by
  rw [State.readFault, State.unitFault, job]

end

/-! ### An ended job leaves its unit IDLE -/

theorem returnStrips_units (k : Slot) (kind : FaceKind) : (s.returnStrips k kind).units = s.units := by
  unfold State.returnStrips
  split
  · rfl
  · split <;> rfl

theorem grantUpTo_units (n : Nat) (s : State) : (State.grantUpTo n s).units = s.units := by
  induction n generalizing s with
  | zero => rfl
  | succ n ih =>
    rw [State.grantUpTo]
    split
    · rfl
    · split
      · rfl
      · rw [ih]
        rfl

theorem settle_units (k : Slot) : (s.settle k).units = s.units := by
  unfold State.settle
  split
  · dsimp only
    split
    · exact grantUpTo_units _ _
    · rfl
  · rfl

theorem afterJob_units (j : Job) : (s.afterJob j).units = s.units := by
  rw [State.afterJob, settle_units, returnStrips_units]

theorem idleUnit_job (u : UnitNo) : ((s.idleUnit u).units.get u).job = none :=
  congrArg CodingUnit.job (Laws.get_put_same s.units u CodingUnit.idle)

theorem doneJob_idle (u : UnitNo) (j : Job) : ((s.doneJob u j).units.get u).job = none := by
  rw [State.doneJob, afterJob_units, idleUnit_job]

theorem failJob_idle (u : UnitNo) (j : Job) (last : RenditionState) : ((s.failJob u j last).units.get u).job = none := by
  rw [State.failJob, afterJob_units, idleUnit_job]

theorem ifIdleDispatch_idle {u : UnitNo} (idle : (s.units.get u).job = none) : s.ifIdleDispatch u = s.dispatchAct :=
  if_pos idle

/-- Settles O46. -/
theorem burstResultsUsed : Obligations.BurstResultsUsed := by
  intro s
  refine ⟨fun l k kind f h attached current held _ => ⟨writerWrote_more attached current held, ?_⟩, ?_⟩
  · intro whole dark
    rw [writerWrote_whole attached current held whole]
    simp only [landRow_eq, dark]
  · intro u j job x after
    refine ⟨fun data => unitRead_partial job, ?_, unitWrote_output job, fun header => ?_, ?_⟩
    · intro data whole last coded
      exact unitRead_whole job whole
    · rw [unitWrote_header job header, ifIdleDispatch_idle (doneJob_idle u j)]
    · rw [unitFault_eq job, ifIdleDispatch_idle (failJob_idle u j .fault)]
      rfl

end Sys2Proof.BurstResults
end

