-- ==== Sys2Proof/Proofs/MemoryGrants.lean ====
section
/-! PROOF. The memory arbiter's grants and the bursts they begin (R49, R70 to R73, R97, R99, R103, R137). -/

namespace Sys2Proof.MemoryGrants
open Sys2Proof.Machine Sys2Proof.Safety

variable {s : State}

/-! ### The rotation -/

theorem nextWaiting_none {v : Vector Bool 4} (quiet : ∀ i, v.get i = false) (last : Fin 4) :
    nextWaiting v last = none := by
  rw [nextWaiting, List.find?_eq_none]
  exact fun i _ => Bool.eq_false_iff.mp (quiet i)

/-- The places after the last one granted, in the order of the rotation (R73). -/
theorem rotation_eq (last : Fin 4) :
    [last + 1, last + 2, last + 3, last] = [last + 1 + 0, last + 1 + 1, last + 1 + 2, last + 1 + 3] := by
  revert last
  decide

theorem nextWaiting_first {v : Vector Bool 4} {last d : Fin 4} (waits : v.get (last + 1 + d) = true)
    (first : ∀ e, e < d → v.get (last + 1 + e) = false) : nextWaiting v last = some (last + 1 + d) := by
  rw [nextWaiting, rotation_eq]
  match d with
  | 0 => simp only [List.find?_cons, waits]
  | 1 => simp only [List.find?_cons, waits, first 0 (by decide)]
  | 2 => simp only [List.find?_cons, waits, first 0 (by decide), first 1 (by decide)]
  | 3 => simp only [List.find?_cons, waits, first 0 (by decide), first 1 (by decide), first 2 (by decide)]

/-! ### The grant -/

/-- The request of a class B requester stands at its place of the rotation (Table 4.2). -/
theorem mark_classB (a : Arbiter) (n : Fin 4) (b : Bool) :
    a.mark (classBRequester n) b = { a with classB := put a.classB n b } := by
  match n with
  | 0 => rfl
  | 1 => rfl
  | 2 => rfl
  | 3 => rfl

theorem exec_memoryGrant (running : Running s) : exec .memoryGrant s = .next s.memoryGrant :=
  congrArg Host.Outcome.next (Laws.whileRunning_running running _)

theorem memoryGrant_busy (busy : s.arbiter.burst ≠ none) : s.memoryGrant = s := by
  obtain ⟨b, under⟩ := Option.ne_none_iff_exists'.mp busy
  rw [State.memoryGrant, under]

theorem memoryGrant_quiet (quiet : ∀ r, s.arbiter.waits r = false) : s.memoryGrant = s := by
  have classA (i : Fin 4) : s.arbiter.classA.get i = false := quiet (.w i)
  have classB (i : Fin 4) : s.arbiter.classB.get i = false := by
    match i with
    | 0 => exact quiet (.cu 0)
    | 1 => exact quiet (.cu 1)
    | 2 => exact quiet (.xr 0)
    | 3 => exact quiet (.xr 1)
  have chosen : s.arbiter.choose = none := by
    rw [Arbiter.choose, nextWaiting_none classA, nextWaiting_none classB]
  cases under : s.arbiter.burst with
  | some b => rw [State.memoryGrant, under]
  | none => rw [State.memoryGrant, under, chosen]

section
variable (free : s.arbiter.burst = none)
include free

theorem memoryGrant_classA {d : Fin 4} (waits : s.arbiter.classA.get (s.arbiter.lastA + 1 + d) = true)
    (first : ∀ e, e < d → s.arbiter.classA.get (s.arbiter.lastA + 1 + e) = false) :
    s.memoryGrant = { s with arbiter := { s.arbiter with
      classA := put s.arbiter.classA (s.arbiter.lastA + 1 + d) false
      lastA := s.arbiter.lastA + 1 + d
      burst := s.burstOf (.w (s.arbiter.lastA + 1 + d)) } } := by
  rw [State.memoryGrant, free, Arbiter.choose, nextWaiting_first waits first]
  rfl

theorem memoryGrant_classB {d : Fin 4} (quiet : ∀ l, s.arbiter.classA.get l = false)
    (waits : s.arbiter.classB.get (s.arbiter.lastB + 1 + d) = true)
    (first : ∀ e, e < d → s.arbiter.classB.get (s.arbiter.lastB + 1 + e) = false) :
    s.memoryGrant = { s with arbiter := { s.arbiter with
      classB := put s.arbiter.classB (s.arbiter.lastB + 1 + d) false
      lastB := s.arbiter.lastB + 1 + d
      burst := s.burstOf (classBRequester (s.arbiter.lastB + 1 + d)) } } := by
  rw [State.memoryGrant, free, Arbiter.choose, nextWaiting_none quiet, nextWaiting_first waits first]
  dsimp only
  rw [mark_classB]
  rfl

end

/-! ### The bursts -/

theorem getD_of_get {l : List Nat} {n x : Nat} (at' : l[n]? = some x) : l.getD n 0 = x := by
  rw [List.getD_eq_getElem?_getD, at']
  rfl

theorem burstOf_writer {l : Lane} {k : Slot} {kind : FaceKind} {f : Face} {h : HeldRow} {strip : Nat}
    (attached : (s.scan.get l).attached = some k) (current : (s.scan.get l).current = some kind)
    (held : (s.scan.get l).held = some h) (face : (s.items.get k).face? kind = some f)
    (at' : f.strips[h.position / 16]? = some strip) : s.burstOf (.w l) = some {
      who := .w l, write := true
      addr := strip * 32768 + h.position % 16 * 2048 + h.written * 256
      count := min 256 (h.pixels.length - h.written * 256)
      data := (h.pixels.drop (h.written * 256)).take 256, live := true } := by
  rw [State.burstOf, State.writerBurst, held, attached, current]
  dsimp only
  rw [face]
  dsimp only
  rw [getD_of_get at', List.length_take, List.length_drop]
  rfl

theorem length_headerBytes (h : Header) : (headerBytes h).length = 16 := rfl

section
variable {u : UnitNo} {j : Job} (job : (s.units.get u).job = some j)
include job

theorem burstOf_unitRead {f : Face} {strip : Nat} (face : (s.items.get j.slot).face? j.face = some f)
    (reads : (s.units.get u).phase = .read) (at' : f.strips[(s.units.get u).readRow / 16]? = some strip) :
    s.burstOf (.cu u) = some {
      who := .cu u, write := false
      addr := strip * 32768 + (s.units.get u).readRow % 16 * 2048 + (s.units.get u).rowSoFar.length
      count := min 256 (f.width - (s.units.get u).rowSoFar.length), data := [], live := true } := by
  rw [State.burstOf, State.unitBurst, job]
  dsimp only
  rw [reads]
  dsimp only
  rw [State.jobStrips, State.jobWidth, face]
  dsimp only [Option.map_some, Option.getD_some]
  rw [getD_of_get at']
  rfl

/-- A unit writes its output burst while rows remain and when they are over (R99). -/
theorem unitBurst_output (writes : (s.units.get u).phase = .write ∨ (s.units.get u).phase = .flush) :
    s.unitBurst u = some ⟨.cu u, true,
      pageAddr ((s.jobChain j).getD (((s.units.get u).length - (s.units.get u).outputBurst.length) / 4096) 0)
        (((s.units.get u).length - (s.units.get u).outputBurst.length) % 4096),
      (s.units.get u).outputBurst.length, (s.units.get u).outputBurst, true⟩ := by
  rw [State.unitBurst, job]
  dsimp only
  rcases writes with phase | phase
  · rw [phase]
  · rw [phase]

variable {r : Rendition} (rendition : (s.items.get j.slot).rendition? j.face j.kind = some r)
include rendition

theorem burstOf_unitWrite {page : Nat} (writes : (s.units.get u).phase = .write ∨ (s.units.get u).phase = .flush)
    (at' : r.chain[((s.units.get u).length - (s.units.get u).outputBurst.length) / 4096]? = some page) :
    s.burstOf (.cu u) = some {
      who := .cu u, write := true
      addr := 67108864 + page * 4096 + ((s.units.get u).length - (s.units.get u).outputBurst.length) % 4096
      count := (s.units.get u).outputBurst.length, data := (s.units.get u).outputBurst, live := true } := by
  rw [State.burstOf, unitBurst_output job writes, State.jobChain, rendition]
  dsimp only [Option.map_some, Option.getD_some]
  rw [getD_of_get at']
  rfl

theorem burstOf_unitHeader {f : Face} {page : Nat} (face : (s.items.get j.slot).face? j.face = some f)
    (header : (s.units.get u).phase = .header) (at' : r.chain[0]? = some page) :
    let x := s.units.get u
    let size := outputSize (s.itemRecord j.slot) j.kind x.rung f.width f.rowsLanded
    s.burstOf (.cu u) = some {
      who := .cu u, write := true, addr := 67108864 + page * 4096, count := 16 + x.firstPlace.length
      data := headerBytes {
        kind := j.kind, face := j.face, rung := x.rung, source := (s.items.get j.slot).source
        width := size.1, rows := size.2, dataLength := x.length - 16, edition := (s.items.get j.slot).edition
        check := x.coder.check } ++ x.firstPlace
      live := true } := by
  intro x size
  rw [State.burstOf, State.unitBurst, job]
  dsimp only
  rw [header]
  dsimp only
  rw [List.length_append, State.jobChain, rendition, State.jobHeader, length_headerBytes, State.jobWidth, State.jobRows,
    face]
  dsimp only [Option.map_some, Option.getD_some]
  rw [getD_of_get at']
  rfl

end

theorem burstOf_reader {p : Port} {k : Slot} {pos : StreamPos} {r : Rendition} {o : Output} {page : Nat}
    (slot : (s.exchange.get p).slot = some k) (position : (s.exchange.get p).position = some pos)
    (rendition : (s.items.get k).renditions[pos.rendition]? = some r) (output : r.output = some o)
    (at' : r.chain[pos.number]? = some page) : s.burstOf (.xr p) = some {
      who := .xr p, write := false
      addr := 67108864 + page * 4096 + (s.exchange.get p).store.length
      count := min 256 (min 4096 (o.length - pos.number * 4096) - (s.exchange.get p).store.length)
      data := [], live := true } := by
  have length : (s.items.get k).lengthAt pos.rendition = o.length := by
    rw [Item.lengthAt, rendition]
    dsimp only
    rw [output]
    rfl
  rw [State.burstOf, State.readerBurst, slot, position]
  dsimp only
  rw [rendition, Item.segmentBytes, length]
  dsimp only [Option.map_some, Option.getD_some]
  rw [getD_of_get at']
  rfl

/-- The class B requesters by their place of the rotation (Table 4.2). -/
theorem classBRequester_eq (n : Fin 4) : classBRequester n = match n with
    | 0 => .cu 0
    | 1 => .cu 1
    | 2 => .xr 0
    | 3 => .xr 1 := by
  match n with
  | 0 => rfl
  | 1 => rfl
  | 2 => rfl
  | 3 => rfl

/-- Settles O44. -/
theorem memoryGrantResult : Obligations.MemoryGrantResult := by
  intro s
  refine ⟨fun running => ⟨?_, fun free => ⟨?_, ?_⟩⟩, ?_, ?_, ?_⟩
  · rintro (busy | quiet)
    · rw [exec_memoryGrant running, memoryGrant_busy busy]
    · rw [exec_memoryGrant running, memoryGrant_quiet quiet]
  · intro d waits first l
    rw [exec_memoryGrant running, memoryGrant_classA free waits first]
  · intro d quiet waits first n who
    have who_eq : classBRequester (s.arbiter.lastB + 1 + d) = who := classBRequester_eq n
    rw [exec_memoryGrant running, memoryGrant_classB free quiet waits first, who_eq]
  · intro l k kind f h strip attached current held face at'
    exact burstOf_writer attached current held face at'
  · intro u j f r job face rendition x
    exact ⟨fun strip reads at' => burstOf_unitRead job face reads at',
      fun page writes at' => burstOf_unitWrite job rendition writes at',
      fun page header at' => burstOf_unitHeader job rendition face header at'⟩
  · intro p k pos r o page slot position rendition output at'
    exact burstOf_reader slot position rendition output at'

end Sys2Proof.MemoryGrants
end

