-- ==== Sys2Proof/Proofs/Grants.lean ====
section
/-! PROOF. An act of the release arbiter: which head it grants, to which claim, and what the grant changes (R2, R13, R134,
R135). -/

namespace Sys2Proof.Grants
open Sys2Proof.Machine Sys2Proof.Safety

variable {s : State} {k : Slot}

/-! ### Serial comparison of stamps -/

theorem older_iff (a b : Long) : older a b = true ↔
    (1 ≤ (b - a).toNat ∧ (b - a).toNat ≤ 2 ^ 31 - 1) ∨ ((b - a).toNat = 2 ^ 31 ∧ a.toNat < b.toNat) := by
  simp only [older, Bool.or_eq_true, Bool.and_eq_true, decide_eq_true_eq]

theorem older_total {a b : Long} (differ : a ≠ b) : older b a = true ↔ older a b = false := by
  have differ : a.toNat ≠ b.toNat := fun same => differ (BitVec.eq_of_toNat_eq same)
  rw [Bool.eq_false_iff, ne_eq, older_iff, older_iff, BitVec.toNat_sub, BitVec.toNat_sub]
  have := a.isLt
  have := b.isLt
  omega

theorem older_irrefl (a : Long) : older a a = false := by
  rw [Bool.eq_false_iff, ne_eq, older_iff, BitVec.sub_self]
  simp

theorem older_asymm {a b : Long} (first : older a b = true) : older b a = false := by
  by_cases same : a = b
  · rw [same, older_irrefl] at first
    cases first
  · exact (older_total (Ne.symm same)).mp first

/-! ### The head and the claim chosen -/

/-- The covered head older than every other (R134). -/
def Oldest (s : State) (k : Slot) : Prop :=
  ∀ j ∈ s.coveredHeads, j ≠ k → older (s.items.get k).stamp (s.items.get j).stamp = true

theorem all_older_iff : (s.coveredHeads.all fun b => k = b || older (s.items.get k).stamp (s.items.get b).stamp) = true ↔
    Oldest s k := by
  simp only [List.all_eq_true, Bool.or_eq_true, decide_eq_true_eq]
  constructor
  · intro all j covered other
    exact (all j covered).resolve_left (Ne.symm other)
  · intro oldest j covered
    by_cases same : k = j
    · exact .inl same
    · exact .inr (oldest j covered (Ne.symm same))

theorem oldest_unique {j : Slot} (covered : k ∈ s.coveredHeads) (oldest : Oldest s k) (also : j ∈ s.coveredHeads)
    (oldestToo : Oldest s j) : j = k := by
  by_contra differ
  have first := oldest j also differ
  have second := oldestToo k covered (Ne.symm differ)
  rw [older_asymm first] at second
  cases second

theorem chooseHead_oldest (covered : k ∈ s.coveredHeads) (oldest : Oldest s k) : s.chooseHead = some k := by
  cases found : s.coveredHeads.find? fun a => s.coveredHeads.all fun b =>
      a = b || older (s.items.get a).stamp (s.items.get b).stamp with
  | none => exact absurd (all_older_iff.mpr oldest) (List.find?_eq_none.mp found k covered)
  | some j =>
    have best : (s.coveredHeads.all fun b => j = b || older (s.items.get j).stamp (s.items.get b).stamp) = true :=
      List.find?_some (p := fun a => s.coveredHeads.all fun b =>
        a = b || older (s.items.get a).stamp (s.items.get b).stamp) found
    have same : j = k :=
      oldest_unique covered oldest (List.mem_of_find?_eq_some found) (all_older_iff.mp best)
    rw [State.chooseHead, found, same]

theorem chooseHead_first (none : ∀ j ∈ s.coveredHeads, ¬ Oldest s j) : s.chooseHead = s.coveredHeads.head? := by
  have found : (s.coveredHeads.find? fun a => s.coveredHeads.all fun b =>
      a = b || older (s.items.get a).stamp (s.items.get b).stamp) = Option.none :=
    List.find?_eq_none.mpr fun j covered all => none j covered (all_older_iff.mp all)
  rw [State.chooseHead, found]

theorem chooseHead_none (idle : ∀ k, k ∉ s.coveredHeads) : s.chooseHead = none := by
  rw [State.chooseHead, List.eq_nil_iff_forall_not_mem.mpr idle]
  rfl

theorem chooseClaim_first {before after : List Claim} {c : Claim} (claims : s.claims = before ++ c :: after)
    (covers : c.mask.getLsbD (s.items.get k).lane.val = true)
    (first : ∀ d ∈ before, d.mask.getLsbD (s.items.get k).lane.val = false) : s.chooseClaim k = some c := by
  have passed : (before.find? fun c => marks c.mask (s.items.get k).lane) = none :=
    List.find?_eq_none.mpr fun d held => Bool.eq_false_iff.mp (first d held)
  have here : marks c.mask (s.items.get k).lane = true := covers
  rw [State.chooseClaim, claims, List.find?_append, passed, List.find?_cons, here]
  rfl

/-! ### The grant -/

/-- The claims of different ports without one of them (R133). -/
theorem filter_claim {before after : List Claim} {c : Claim}
    (ports : (before ++ c :: after).Pairwise fun a b => a.port ≠ b.port) :
    (before ++ c :: after).filter (· ≠ c) = before ++ after := by
  obtain ⟨_, behind, apart⟩ := List.pairwise_append.mp ports
  obtain ⟨alone, _⟩ := List.pairwise_cons.mp behind
  have early : before.filter (· ≠ c) = before := by
    refine List.filter_eq_self.mpr fun d held => decide_eq_true fun same => ?_
    exact apart d held c List.mem_cons_self (congrArg Claim.port same)
  have late : after.filter (· ≠ c) = after := by
    refine List.filter_eq_self.mpr fun d held => decide_eq_true fun same => ?_
    exact alone d held (congrArg Claim.port same).symm
  rw [List.filter_append, List.filter_cons_of_neg (by simp), early, late]

/-- The state a grant leaves (R135). -/
def granted (s : State) (c : Claim) (k : Slot) (claims : List Claim) : State :=
  let i : Item := { s.items.get k with state := .claimed, holder := some c.port }
  let x := s.exchange.get c.port
  { s with
    claims := claims
    items := put s.items k i
    exchange := put s.exchange c.port { x with
      state := .sending, slot := some k, position := i.streamStart, segments := 0, store := []
      holdPending := false, produced := sentOn x.link x.produced (.grant (releaseRecord k i)) } }

theorem grant_eq (c : Claim) (k : Slot) : s.grant c k = granted s c k (s.claims.filter (· ≠ c)) := by
  rw [State.grant, ClaimMessages.exchangeProduce_eq]
  simp only [State.withClaims, State.modItem, State.modExchange, Laws.get_put_same, Laws.put_put]
  rfl

theorem releaseAct_grants {before after : List Claim} {c : Claim} (head : s.chooseHead = some k)
    (claim : s.chooseClaim k = some c) (claims : s.claims = before ++ c :: after)
    (ports : s.claims.Pairwise fun a b => a.port ≠ b.port) :
    s.releaseAct = (granted s c k (before ++ after)).releaseAct := by
  have length : s.claims.length = (before ++ after).length + 1 := by
    rw [claims, List.length_append, List.length_cons, List.length_append]
    rfl
  have left : s.claims.filter (· ≠ c) = before ++ after := by
    rw [claims] at ports ⊢
    exact filter_claim ports
  rw [State.releaseAct, length, State.grantUpTo, head]
  dsimp only
  rw [claim]
  dsimp only
  rw [grant_eq, left]
  rfl

theorem releaseAct_idle (idle : s.chooseHead = none) : s.releaseAct = s := by
  rw [State.releaseAct]
  cases s.claims.length with
  | zero => rfl
  | succ n => rw [State.grantUpTo, idle]

/-- Settles O40. -/
theorem grantRule : Obligations.GrantRule := by
  refine ⟨older_iff, fun a b differ => older_total differ, ?_⟩
  intro s coveredHead covered oldest
  have covered_iff (k : Slot) : k ∈ s.coveredHeads ↔ covered k := Laws.mem_coveredHeads s k
  have oldest_iff (k : Slot) : Oldest s k ↔ oldest k :=
    ⟨fun old j held other => (older_iff _ _).mp (old j ((covered_iff j).mpr held) other),
      fun old j held other => (older_iff _ _).mpr (old j ((covered_iff j).mp held) other)⟩
  refine ⟨fun idle => releaseAct_idle (chooseHead_none fun k held => idle k ((covered_iff k).mp held)), ?_,
    Settling.onlyBehind_of_behind (Laws.Behind.releaseAct (Laws.Behind.refl s))⟩
  intro k before c after l head ready choice claims ports covers first i x grant
  have here : Laws.CoveredHead s l k :=
    ⟨head, ready, c, claims ▸ List.mem_append_right before List.mem_cons_self, covers⟩
  have mem : k ∈ s.coveredHeads := (covered_iff k).mpr ⟨l, here⟩
  refine releaseAct_grants ?_ (chooseClaim_first claims covers first) claims ports
  rcases choice with old | ⟨none, low⟩
  · exact chooseHead_oldest mem ((oldest_iff k).mpr old)
  · rw [chooseHead_first fun j held old => none j ((covered_iff j).mp held) ((oldest_iff j).mp old)]
    exact Laws.head?_coveredHeads here low

end Sys2Proof.Grants
end

