-- ==== Sys2Proof/Proofs/Dispatch.lean ====
section
/-! PROOF. An act of the dispatcher: which job it starts on which unit, and what the start does (R79, R80, R92 to R96,
R113). -/

namespace Sys2Proof.Dispatch
open Sys2Proof.Machine Sys2Proof.Safety

variable {s : State} {u : UnitNo} {j : Job}

/-! ### The work of a unit leaves the job queue as it was -/

theorem returnStrips_jobs (k : Slot) (kind : FaceKind) : (s.returnStrips k kind).jobs = s.jobs := by
  unfold State.returnStrips
  split
  · rfl
  · split <;> rfl

theorem grantUpTo_jobs (n : Nat) (s : State) : (State.grantUpTo n s).jobs = s.jobs := by
  induction n generalizing s with
  | zero => rfl
  | succ n ih =>
    rw [State.grantUpTo]
    split
    · rfl
    · split
      · rfl
      · rw [ih]
        rfl

theorem settle_jobs (k : Slot) : (s.settle k).jobs = s.jobs := by
  unfold State.settle
  split
  · dsimp only
    split
    · exact grantUpTo_jobs _ _
    · rfl
  · rfl

theorem failJob_jobs (last : RenditionState) : (s.failJob u j last).jobs = s.jobs := by
  rw [State.failJob, State.afterJob, settle_jobs, returnStrips_jobs]
  rfl

theorem drawPage_jobs : (s.drawPage u j).jobs = s.jobs := by
  unfold State.drawPage
  split <;> rfl

theorem placeByte_jobs {b : Byte} {t : State} (placed : s.placeByte u j b = some t) : t.jobs = s.jobs := by
  unfold State.placeByte at placed
  dsimp only at placed
  split at placed
  · cases placed
  · cases placed
    split
    · exact drawPage_jobs
    · rfl

/-- The state placing ends in, whether or not the bytes fitted. -/
def placedState : Placed → State
  | .fitted t => t
  | .overBudget t => t

theorem placeBytes_jobs (bytes : List Byte) (s : State) : (placedState (State.placeBytes u j bytes s)).jobs = s.jobs := by
  induction bytes generalizing s with
  | nil => rfl
  | cons b rest ih =>
    rw [State.placeBytes]
    split
    · rfl
    · split
      · rfl
      · next placed => rw [ih, placeByte_jobs placed]

theorem stepDown_jobs : (s.stepDown u j).jobs = s.jobs := by
  rw [State.stepDown, State.startRung, drawPage_jobs]
  rfl

theorem runUnit_jobs (n : Nat) (s : State) : (State.runUnit n s u j).jobs = s.jobs := by
  induction n generalizing s with
  | zero =>
    have kept := placeBytes_jobs (u := u) (j := j) (s.units.get u).unplaced s
    rw [State.runUnit]
    split
    · next placed =>
      rw [placed] at kept
      exact kept
    · next placed =>
      rw [placed] at kept
      exact failJob_jobs _ |>.trans kept
  | succ n ih =>
    have kept := placeBytes_jobs (u := u) (j := j) (s.units.get u).unplaced s
    rw [State.runUnit]
    split
    · next placed =>
      rw [placed] at kept
      exact kept
    · next placed =>
      rw [placed] at kept
      split
      · rw [ih, stepDown_jobs]
        exact kept
      · exact failJob_jobs _ |>.trans kept

/-! ### The unit and the job -/

theorem idleUnit_none (busy : ∀ u, (s.units.get u).job ≠ none) : s.idleUnit? = none := by
  rw [State.idleUnit?, if_neg (busy 0), if_neg (busy 1)]

theorem idleUnit_first (idle : (s.units.get u).job = none) (first : ∀ v, v < u → (s.units.get v).job ≠ none) :
    s.idleUnit? = some u := by
  match u with
  | 0 => exact if_pos idle
  | 1 => exact (if_neg (first 0 (by decide))).trans (if_pos idle)

theorem pickJob_ordinary {rest : List Job} (jobs : s.jobs = j :: rest)
    (fits : s.pages.headReserve + need (s.jobBudget j) ≤ s.pages.freeCount) : s.pickJob = some j := by
  rw [State.pickJob, jobs]
  exact if_pos (by rw [Nat.add_comm]; exact fits)

/-- The lane-head bypass is tried when the head job does not fit (R94). -/
theorem pickJob_bypass {head : Job} {rest : List Job} (jobs : s.jobs = head :: rest)
    (short : ¬ s.pages.headReserve + need (s.jobBudget head) ≤ s.pages.freeCount) : s.pickJob =
      s.jobs.find? fun j => s.isLaneHead j.slot && need (s.jobBudget j) ≤ s.pages.freeCount := by
  rw [State.pickJob, jobs]
  exact if_neg (by rw [Nat.add_comm]; exact short)

/-- The bypass takes a job of a lane head whose need is free (R94). -/
theorem bypass_iff (j : Job) : (s.isLaneHead j.slot && decide (need (s.jobBudget j) ≤ s.pages.freeCount)) = true ↔
    (s.lanes.get (s.items.get j.slot).lane).queue.head? = some j.slot ∧ need (s.jobBudget j) ≤ s.pages.freeCount := by
  rw [Bool.and_eq_true, State.isLaneHead, decide_eq_true_iff, decide_eq_true_iff]

/-! ### The start of a job -/

theorem dispatchAct_idle (idle : s.idleUnit? = none ∨ s.pickJob = none) : s.dispatchAct = s := by
  rw [State.dispatchAct]
  cases s.jobs.length with
  | zero => rfl
  | succ n =>
    rw [State.startUpTo]
    rcases idle with idle | idle
    · rw [idle]
    · rw [idle]
      cases s.idleUnit? <;> rfl

theorem dispatchAct_starts {before after : List Job} (unit : s.idleUnit? = some u) (pick : s.pickJob = some j)
    (jobs : s.jobs = before ++ j :: after) (started : (s.startJob u j).jobs = before ++ after) :
    s.dispatchAct = (s.startJob u j).dispatchAct := by
  have length : s.jobs.length = (s.startJob u j).jobs.length + 1 := by
    rw [jobs, started, List.length_append, List.length_cons, List.length_append]
    rfl
  rw [State.dispatchAct, length, State.startUpTo, unit, pick]
  rfl

/-- A queue without one of its jobs (R96). -/
theorem filter_job {before after : List Job} (once : (before ++ j :: after).Nodup) :
    (before ++ j :: after).filter (· ≠ j) = before ++ after := by
  obtain ⟨_, behind, apart⟩ := List.pairwise_append.mp once
  obtain ⟨alone, _⟩ := List.pairwise_cons.mp behind
  have early : before.filter (· ≠ j) = before :=
    List.filter_eq_self.mpr fun e held => decide_eq_true (apart e held j List.mem_cons_self)
  have late : after.filter (· ≠ j) = after :=
    List.filter_eq_self.mpr fun e held => decide_eq_true (alone e held).symm
  rw [List.filter_append, List.filter_cons_of_neg (by simp), early, late]

/-- A unit that has just started a job at rung 0, its first page drawn (R79, R80, R96, R98, R113). -/
def jobStarted (s : State) (u : UnitNo) (j : Job) (jobs : List Job) (page : Nat) (rest : List Nat) : State :=
  let pages := need (s.jobBudget j)
  let record := s.itemRecord j.slot
  let c := Coder.fresh record j.kind 0 (s.jobWidth j)
  { s with
    jobs := jobs
    pages := { s.pages with
      free := rest
      freeCount := s.pages.freeCount - pages
      reserved := s.pages.reserved + pages - 1 }
    items := put s.items j.slot ((s.items.get j.slot).modRendition j.face j.kind fun r =>
      { r with state := .coding, rung := 0, chain := [page] })
    units := put s.units u { CodingUnit.idle with
      job := some j, undrawn := pages - 1, length := 16, coder := c
      unplaced := if s.jobRows j = 0 then c.finish record j.kind else [] } }

/-- A change of a job's rendition leaves what the job reads (R91, R97). -/
theorem jobReads_modRendition (t : State) (f : Rendition → Rendition) (same : t.items =
      put s.items j.slot ((s.items.get j.slot).modRendition j.face j.kind f)) (store : t.store = s.store) :
    t.jobRecord j = s.itemRecord j.slot ∧ t.jobWidth j = s.jobWidth j ∧ t.jobRows j = s.jobRows j := by
  unfold State.jobRecord State.itemRecord State.jobWidth State.jobRows
  rw [same, Laws.get_put_same, store]
  exact ⟨rfl, rfl, rfl⟩

/-- A job taken from the queue by an IDLE unit, as far as its first rung is begun (R96). -/
theorem begin_eq {page : Nat} {rest : List Nat} (free : s.pages.free = page :: rest) :
    ((((s.withJobs (s.jobs.filter (· ≠ j))).modPages (·.reserve (need (s.jobBudget j)))).modRendition j fun r =>
      { r with state := .coding, rung := 0, chain := [] }).modUnit u fun _ =>
        { CodingUnit.idle with job := some j, undrawn := need (s.jobBudget j) }).startRung u j 0 =
      jobStarted s u j (s.jobs.filter (· ≠ j)) page rest := by
  obtain ⟨record, width, rows⟩ := jobReads_modRendition (s := s) (j := j)
    (((((s.withJobs (s.jobs.filter (· ≠ j))).modPages (·.reserve (need (s.jobBudget j)))).modRendition j
      fun r => { r with state := .coding, rung := 0, chain := [] }).modUnit u fun _ =>
        { CodingUnit.idle with job := some j, undrawn := need (s.jobBudget j) }))
    (fun r => { r with state := .coding, rung := 0, chain := [] }) rfl rfl
  rw [State.startRung, record, width, rows, State.drawPage]
  simp only [State.withJobs, State.modPages, State.modRendition, State.modItem, State.modUnit, PagePool.reserve, free,
    Laws.get_put_same, Laws.put_put]
  rw [Settling.modRendition_twice _ _ _ (fun r => { r with state := .coding, rung := 0, chain := [] }) _
    fun _ => ⟨rfl, rfl⟩]
  simp only [PagePool.draw, List.nil_append, List.tail_cons, jobStarted]
  rfl

theorem startJob_eq {page : Nat} {rest : List Nat} (free : s.pages.free = page :: rest) :
    s.startJob u j =
      State.runUnit maxStepDowns (jobStarted s u j (s.jobs.filter (· ≠ j)) page rest) u j :=
  congrArg (fun t => State.runUnit maxStepDowns t u j) (begin_eq free)

/-! ### What a unit asks for next -/

/-- A unit in a phase, its request placed (R72, R97, R99, R103). -/
def asks (s : State) (u : UnitNo) (phase : UnitPhase) : State :=
  { s with units := put s.units u { s.units.get u with phase := phase }, arbiter := s.arbiter.mark (.cu u) true }

theorem nextRequest_eq : s.nextRequest u j = asks s u (if (s.units.get u).outputBurst.length = 256 then .write
    else if (s.units.get u).readRow < s.jobRows j then .read
    else if (s.units.get u).outputBurst ≠ [] then .flush
    else .header) := rfl

theorem nextRequest_write (full : (s.units.get u).outputBurst.length = 256) : s.nextRequest u j = asks s u .write := by
  rw [nextRequest_eq, if_pos full]

section
variable (short : (s.units.get u).outputBurst.length ≠ 256)
include short

theorem nextRequest_read (rows : (s.units.get u).readRow < s.jobRows j) : s.nextRequest u j = asks s u .read := by
  rw [nextRequest_eq, if_neg short, if_pos rows]

theorem nextRequest_flush (rowsOver : s.jobRows j ≤ (s.units.get u).readRow) (left : (s.units.get u).outputBurst ≠ []) :
    s.nextRequest u j = asks s u .flush := by
  rw [nextRequest_eq, if_neg short, if_neg (Nat.not_lt_of_le rowsOver), if_pos left]

end

theorem nextRequest_header (rowsOver : s.jobRows j ≤ (s.units.get u).readRow) (empty : (s.units.get u).outputBurst = []) :
    s.nextRequest u j = asks s u .header := by
  have short : (s.units.get u).outputBurst.length ≠ 256 := by
    rw [empty]
    decide
  rw [nextRequest_eq, if_neg short, if_neg (Nat.not_lt_of_le rowsOver), if_neg (not_not_intro empty)]

theorem asks_same {phase : UnitPhase} (same : (s.units.get u).phase = phase) :
    asks s u phase = { s with arbiter := s.arbiter.mark (.cu u) true } := by
  subst same
  exact congrArg (fun v => { s with units := v, arbiter := s.arbiter.mark (.cu u) true }) (Laws.put_get_self s.units u)

/-- With rows to code, the unit first asks for its first row (R97). -/
theorem runUnit_started {jobs : List Job} {page : Nat} {rest : List Nat} (rows : 0 < s.jobRows j) :
    State.runUnit maxStepDowns (jobStarted s u j jobs page rest) u j =
      { jobStarted s u j jobs page rest with arbiter := s.arbiter.mark (.cu u) true } := by
  have unit : (jobStarted s u j jobs page rest).units.get u = { CodingUnit.idle with
      job := some j, undrawn := need (s.jobBudget j) - 1, length := 16
      coder := Coder.fresh (s.itemRecord j.slot) j.kind 0 (s.jobWidth j) } := by
    rw [jobStarted]
    dsimp only
    rw [Laws.get_put_same, if_neg (Nat.ne_of_gt rows)]
    rfl
  have kept : (jobStarted s u j jobs page rest).modUnit u (fun x => { x with unplaced := [] }) =
      jobStarted s u j jobs page rest := by
    rw [State.modUnit, unit]
    exact congrArg (fun v => { jobStarted s u j jobs page rest with units := v })
      ((congrArg (put _ u) unit.symm).trans (Laws.put_get_self _ _))
  obtain ⟨_, _, sameRows⟩ := jobReads_modRendition (s := s) (j := j) (jobStarted s u j jobs page rest) _ rfl rfl
  have placed : State.placeBytes u j ((jobStarted s u j jobs page rest).units.get u).unplaced
      (jobStarted s u j jobs page rest) = .fitted (jobStarted s u j jobs page rest) := by
    rw [unit]
    exact congrArg Placed.fitted kept
  rw [maxStepDowns, State.runUnit, placed]
  dsimp only
  rw [nextRequest_read (by rw [unit]; exact Nat.zero_ne_add_one 255) (by rw [unit, sameRows]; exact rows), asks_same (by rw [unit]; rfl)]
  rfl

/-! ### The rule -/

section
variable {before after : List Job} (jobs : s.jobs = before ++ j :: after)
include jobs

/-- The job the dispatcher starts (R93, R94). -/
theorem pickJob_chosen (chosen :
      (before = [] ∧ s.pages.headReserve + need (s.jobBudget j) ≤ s.pages.freeCount) ∨
        ((∀ head, s.jobs.head? = some head → ¬ s.pages.headReserve + need (s.jobBudget head) ≤ s.pages.freeCount) ∧
          (s.lanes.get (s.items.get j.slot).lane).queue.head? = some j.slot ∧
          need (s.jobBudget j) ≤ s.pages.freeCount ∧
          ∀ e ∈ before, (s.lanes.get (s.items.get e.slot).lane).queue.head? = some e.slot →
            s.pages.freeCount < need (s.jobBudget e))) : s.pickJob = some j := by
  rcases chosen with ⟨front, fits⟩ | ⟨short, leads, fits, first⟩
  · rw [front] at jobs
    exact pickJob_ordinary jobs fits
  · have passed : (before.find? fun e => s.isLaneHead e.slot && decide (need (s.jobBudget e) ≤ s.pages.freeCount)) =
        none := by
      refine List.find?_eq_none.mpr fun e held bypass => ?_
      obtain ⟨leads, fits⟩ := (bypass_iff e).mp bypass
      exact Nat.not_le_of_lt (first e held leads) fits
    have here := (bypass_iff j).mpr ⟨leads, fits⟩
    obtain ⟨head, rest, queue⟩ : ∃ head rest, s.jobs = head :: rest := by
      rw [jobs]
      exact List.exists_cons_of_ne_nil (by simp)
    rw [pickJob_bypass queue (short head (by rw [queue]; rfl)), jobs, List.find?_append, passed, List.find?_cons, here]
    rfl

end

/-- Nothing starts when the head job's need and every lane head's are more than is free (R93, R94). -/
theorem pickJob_none {head : Job} {rest : List Job} (jobs : s.jobs = head :: rest)
    (short : ¬ s.pages.headReserve + need (s.jobBudget head) ≤ s.pages.freeCount)
    (none : ∀ j ∈ s.jobs, (s.lanes.get (s.items.get j.slot).lane).queue.head? = some j.slot →
      s.pages.freeCount < need (s.jobBudget j)) : s.pickJob = Option.none := by
  rw [pickJob_bypass jobs short, List.find?_eq_none]
  intro j held bypass
  obtain ⟨leads, fits⟩ := (bypass_iff j).mp bypass
  exact Nat.not_le_of_lt (none j held leads) fits

/-- Settles O41. -/
theorem dispatchRule : Obligations.DispatchRule := by
  intro s pages leads ordinary
  refine ⟨fun busy => dispatchAct_idle (.inl (idleUnit_none busy)), fun empty => ?_, ?_, ?_,
    Settling.onlyBehind_of_behind (Laws.Behind.dispatchAct (Laws.Behind.refl s))⟩
  · exact dispatchAct_idle (.inr (by rw [State.pickJob, empty]))
  · intro head rest jobs short none
    exact dispatchAct_idle (.inr (pickJob_none jobs short none))
  · intro before j after u page rest jobs once chosen idle first free i record c started
    have left : s.jobs.filter (· ≠ j) = before ++ after := by
      rw [jobs] at once ⊢
      exact filter_job once
    have starts : s.startJob u j = State.runUnit maxStepDowns started u j := by
      rw [startJob_eq free, left]
      rfl
    refine ⟨?_, fun rows => runUnit_started rows⟩
    rw [← starts]
    refine dispatchAct_starts (idleUnit_first idle first) (pickJob_chosen jobs chosen) jobs ?_
    rw [starts, runUnit_jobs]

end Sys2Proof.Dispatch
end

