-- ==== Sys2Proof/Proofs/CodedBytes.lean ====
section
/-! PROOF. Coded bytes placed by a unit, its step-downs and the ends of a job (R80 to R82, R97, R99 to R103, R105, R125). -/

namespace Sys2Proof.CodedBytes
open Sys2Proof.Machine Sys2Proof.Safety

variable {s t : State} {u : UnitNo} {j : Job}

/-! ### One byte -/

/-- A coded byte placed and passed through the data check (R99, R125); `x` is the unit before its page was drawn. -/
def placed (u : UnitNo) (x : CodingUnit) (b : Byte) (s : State) : State :=
  { s with units := put s.units u { s.units.get u with
      length := x.length + 1
      firstPlace := if x.length < 256 then x.firstPlace ++ [b] else x.firstPlace
      outputBurst := if x.length < 256 then x.outputBurst else x.outputBurst ++ [b]
      coder := { x.coder with check := crcByte x.coder.check b } } }

theorem placeByte_overBudget {b : Byte} (exceeds : s.jobBudget j * 1024 < (s.units.get u).length + 1) :
    s.placeByte u j b = none := if_pos exceeds

theorem drawPage_eq {page : Nat} {rest : List Nat} (free : s.pages.free = page :: rest) : s.drawPage u j = { s with
    pages := { s.pages with free := rest, reserved := s.pages.reserved - 1 }
    items := put s.items j.slot ((s.items.get j.slot).modRendition j.face j.kind fun r =>
      { r with chain := r.chain ++ [page] })
    units := put s.units u { s.units.get u with undrawn := (s.units.get u).undrawn - 1 } } := by
  rw [State.drawPage, free]
  dsimp only
  rw [State.modPages, PagePool.draw, free]
  rfl

section
variable {b : Byte} (fits : (s.units.get u).length + 1 ≤ s.jobBudget j * 1024)
include fits

theorem placeByte_samePage (within : (s.units.get u).length % 4096 ≠ 0) :
    s.placeByte u j b = some (placed u (s.units.get u) b s) := by
  rw [State.placeByte]
  refine (if_neg (Nat.not_lt_of_le fits)).trans ?_
  rw [if_neg within]
  rfl

theorem placeByte_newPage {page : Nat} {rest : List Nat} (starts : (s.units.get u).length % 4096 = 0)
    (free : s.pages.free = page :: rest) :
    s.placeByte u j b = some (placed u (s.units.get u) b { s with
      pages := { s.pages with free := rest, reserved := s.pages.reserved - 1 }
      items := put s.items j.slot ((s.items.get j.slot).modRendition j.face j.kind fun r =>
        { r with chain := r.chain ++ [page] })
      units := put s.units u { s.units.get u with undrawn := (s.units.get u).undrawn - 1 } }) := by
  rw [State.placeByte]
  refine (if_neg (Nat.not_lt_of_le fits)).trans ?_
  rw [if_pos starts, drawPage_eq free]
  refine congrArg some ?_
  unfold State.modUnit placed
  simp only [Laws.get_put_same]

end

/-! ### The bytes in order -/

theorem placeBytes_stops {bytes : List Byte} (stops : bytes = [] ∨ (s.units.get u).outputBurst.length = 256) :
    State.placeBytes u j bytes s =
      .fitted { s with units := put s.units u { s.units.get u with unplaced := bytes } } := by
  cases bytes with
  | nil => rfl
  | cons b rest =>
    rw [State.placeBytes]
    exact if_pos (stops.resolve_left (List.cons_ne_nil b rest))

section
variable {b : Byte} {rest : List Byte} (short : (s.units.get u).outputBurst.length ≠ 256)
include short

theorem placeBytes_overBudget (refused : s.placeByte u j b = none) :
    State.placeBytes u j (b :: rest) s = .overBudget s := by
  rw [State.placeBytes, if_neg short, refused]

theorem placeBytes_goesOn (taken : s.placeByte u j b = some t) :
    State.placeBytes u j (b :: rest) s = State.placeBytes u j rest t := by
  rw [State.placeBytes, if_neg short, taken]

end

/-! ### The unit goes on -/

theorem runUnit_fitted (n : Nat) (fitted : State.placeBytes u j (s.units.get u).unplaced s = .fitted t) :
    State.runUnit n s u j = t.nextRequest u j := by
  cases n with
  | zero => rw [State.runUnit, fitted]
  | succ n => rw [State.runUnit, fitted]

section
variable (n : Nat) (refused : State.placeBytes u j (s.units.get u).unplaced s = .overBudget t)
include refused

theorem runUnit_stepsDown (more : (t.units.get u).rung + 1 < profileRungs (t.jobRecord j) j.kind) :
    State.runUnit (n + 1) s u j = State.runUnit n (t.stepDown u j) u j := by
  rw [State.runUnit, refused]
  exact if_pos more

theorem runUnit_oversize (last : profileRungs (t.jobRecord j) j.kind ≤ (t.units.get u).rung + 1) :
    State.runUnit (n + 1) s u j = t.failJob u j .oversize := by
  rw [State.runUnit, refused]
  exact if_neg (Nat.not_lt_of_le last)

end

/-! ### The ends of a job and the step-down -/

section
variable {r : Rendition} (named : (s.items.get j.slot).rendition? j.face j.kind = some r)

include named in
theorem failJob_eq (last : RenditionState) : s.failJob u j last =
    State.settle (State.returnStrips { s with
      pages := { pagesReturned s.pages r.chain with
        freeCount := s.pages.freeCount + r.chain.length + (s.units.get u).undrawn
        reserved := s.pages.reserved - (s.units.get u).undrawn }
      items := put s.items j.slot ((s.items.get j.slot).modRendition j.face j.kind fun r =>
        { r with state := last, chain := [] })
      units := put s.units u CodingUnit.idle
      arbiter := (s.arbiter.mark (.cu u) false).forsake (.cu u) } j.slot j.face) j.slot := by
  rw [State.failJob, Settling.unitGivesUp_eq named]
  rfl

theorem doneJob_eq : s.doneJob u j =
    let x := s.units.get u
    let size := outputSize (s.jobRecord j) j.kind x.rung (s.jobWidth j) (s.jobRows j)
    State.settle (State.returnStrips { s with
      pages := { s.pages with
        freeCount := s.pages.freeCount + x.undrawn
        reserved := s.pages.reserved - x.undrawn }
      items := put s.items j.slot ((s.items.get j.slot).modRendition j.face j.kind fun r =>
        { r with state := .done, output := some ⟨size.1, size.2, x.length⟩ })
      units := put s.units u CodingUnit.idle
      arbiter := (s.arbiter.mark (.cu u) false).forsake (.cu u) } j.slot j.face) j.slot := by
  rw [State.doneJob, State.freeUndrawn]
  simp only [State.idleUnit, State.withdraw, State.modArbiter, State.modUnit, State.modRendition, State.modItem,
    State.modPages, Laws.put_put]
  rfl

include named in
theorem stepDown_eq {page : Nat} {rest : List Nat} (free : r.chain.reverse ++ s.pages.free = page :: rest) :
    s.stepDown u j =
      let x := s.units.get u
      let rung := x.rung + 1
      let c := Coder.fresh (s.jobRecord j) j.kind rung (s.jobWidth j)
      { s with
        pages := { s.pages with free := rest, reserved := s.pages.reserved + r.chain.length - 1 }
        items := put s.items j.slot ((s.items.get j.slot).modRendition j.face j.kind fun r =>
          { r with chain := [page], rung := rung })
        units := put s.units u { x with
          rung := rung, length := 16, readRow := 0, undrawn := x.undrawn + r.chain.length - 1
          firstPlace := [], outputBurst := [], coder := c, rowSoFar := []
          unplaced := if s.jobRows j = 0 then c.finish (s.jobRecord j) j.kind else [] }
        arbiter := (s.arbiter.mark (.cu u) false).forsake (.cu u) } := by
  rw [State.stepDown, Settling.jobChain_named named]
  obtain ⟨record, width, rows⟩ := Dispatch.jobReads_modRendition (s := s) (j := j)
    ((((s.withdraw (.cu u)).modPages (·.unstack r.chain)).modRendition j fun x =>
      { x with chain := [], rung := (s.units.get u).rung + 1 }).modUnit u fun x =>
        { x with undrawn := x.undrawn + r.chain.length })
    (fun x => { x with chain := [], rung := (s.units.get u).rung + 1 }) rfl rfl
  dsimp only
  rw [State.startRung, record, width, rows]
  simp only [State.drawPage, State.withdraw, State.modArbiter, State.modUnit, State.modRendition, State.modItem,
    State.modPages, PagePool.unstack, stack, free, Laws.get_put_same, Laws.put_put]
  rw [Settling.modRendition_twice _ _ _ (fun x => { x with chain := [], rung := (s.units.get u).rung + 1 }) _
    fun _ => ⟨rfl, rfl⟩]
  simp only [PagePool.draw, List.nil_append, List.tail_cons]
  rfl

end

/-- Settles O42. -/
theorem codedBytesPlaced : Obligations.CodedBytesPlaced := by
  intro s u j x i within
  refine ⟨fun b => placeByte_overBudget, fun b fits => ⟨placeByte_samePage fits, fun page rest starts free =>
    placeByte_newPage fits starts free⟩, ?_, ?_, ?_, ?_⟩
  · intro bytes kept
    refine ⟨placeBytes_stops, ?_⟩
    rintro b rest rfl short
    exact ⟨placeBytes_overBudget short, fun t => placeBytes_goesOn short⟩
  · intro n t fitted y asks
    rw [runUnit_fitted n fitted]
    exact ⟨Dispatch.nextRequest_write, fun short => ⟨Dispatch.nextRequest_read short, fun rowsOver =>
      ⟨Dispatch.nextRequest_flush short rowsOver, Dispatch.nextRequest_header rowsOver⟩⟩⟩
  · intro n t refused
    exact ⟨runUnit_stepsDown n refused, runUnit_oversize n refused⟩
  · intro r named ended
    exact ⟨failJob_eq named, doneJob_eq, fun page rest => stepDown_eq named⟩

end Sys2Proof.CodedBytes
end

