-- ==== Sys2Proof/Proofs/CodedRows.lean ====
section
/-! PROOF. What a coder makes of a row: runs, despeckling, code bits and bytes, levels (R113, R115 to R123, R195). -/

namespace Sys2Proof.CodedRows
open Sys2Proof.Machine Sys2Proof.Safety

/-! ### Runs -/

section
variable {α : Type}

/-- The row that runs spell. -/
def spelled (rs : List (α × Nat)) : List α := rs.flatMap fun r => List.replicate r.2 r.1

/-- Maximal runs: none is empty and neighbours differ. -/
def Maximal (rs : List (α × Nat)) : Prop := (∀ r ∈ rs, 0 < r.2) ∧ rs.IsChain fun a b => a.1 ≠ b.1

theorem spelled_cons (r : α × Nat) (rs : List (α × Nat)) : spelled (r :: rs) = List.replicate r.2 r.1 ++ spelled rs :=
  List.flatMap_cons

theorem Maximal.tail {r : α × Nat} {rs : List (α × Nat)} (maximal : Maximal (r :: rs)) : Maximal rs :=
  ⟨fun x held => maximal.1 x (List.mem_cons_of_mem _ held), maximal.2.tail⟩

/-- The run after a maximal run starts with another value. -/
theorem Maximal.next {c : α} {m : Nat} {rs : List (α × Nat)} (maximal : Maximal ((c, m) :: rs)) :
    (spelled rs)[0]? ≠ some c := by
  cases rs with
  | nil => simp [spelled]
  | cons r rest =>
    have other : c ≠ r.1 := by
      cases maximal.2 with
      | cons_cons differ _ => exact differ
    have filled : 0 < r.2 := maximal.1 r (by simp)
    rw [spelled_cons, List.getElem?_append_left (by simpa using filled), List.getElem?_replicate, if_pos filled]
    exact fun same => other (Option.some.inj same).symm

variable [DecidableEq α]

theorem runs_cons_same {a : α} {n : Nat} {row : List α} {r : List (α × Nat)} (rest : runs row = (a, n) :: r) :
    runs (a :: row) = (a, n + 1) :: r := by
  rw [runs, rest]
  exact if_pos rfl

theorem runs_cons_other {a b : α} {n : Nat} {row : List α} {r : List (α × Nat)} (rest : runs row = (b, n) :: r)
    (differ : a ≠ b) : runs (a :: row) = (a, 1) :: (b, n) :: r := by
  rw [runs, rest]
  exact if_neg differ

theorem runs_cons_last {a : α} {row : List α} (rest : runs row = []) : runs (a :: row) = [(a, 1)] := by
  rw [runs, rest]

theorem spelled_runs (row : List α) : spelled (runs row) = row := by
  induction row with
  | nil => rfl
  | cons a row ih =>
    cases rest : runs row with
    | nil =>
      rw [rest] at ih
      rw [runs_cons_last rest, ← ih]
      rfl
    | cons x r =>
      obtain ⟨b, n⟩ := x
      rw [rest] at ih
      by_cases same : a = b
      · subst same
        rw [runs_cons_same rest, spelled_cons, List.replicate_succ, List.cons_append]
        exact congrArg _ (by rw [← ih, spelled_cons])
      · rw [runs_cons_other rest same, spelled_cons, ih]
        rfl

theorem runs_maximal (row : List α) : Maximal (runs row) := by
  induction row with
  | nil => exact ⟨by simp [runs], .nil⟩
  | cons a row ih =>
    cases rest : runs row with
    | nil =>
      rw [runs_cons_last rest]
      exact ⟨by simp, .singleton _⟩
    | cons x r =>
      obtain ⟨b, n⟩ := x
      rw [rest] at ih
      by_cases same : a = b
      · subst same
        rw [runs_cons_same rest]
        refine ⟨fun y held => ?_, ?_⟩
        · rcases List.mem_cons.mp held with rfl | held
          · exact Nat.succ_pos n
          · exact ih.1 y (List.mem_cons_of_mem _ held)
        · cases r with
          | nil => exact .singleton _
          | cons y r =>
            cases ih.2 with
            | cons_cons differ chain => exact .cons_cons differ chain
      · rw [runs_cons_other rest same]
        refine ⟨fun y held => ?_, .cons_cons same ih.2⟩
        rcases List.mem_cons.mp held with rfl | held
        · exact Nat.one_pos
        · exact ih.1 y held

end

/-! ### Despeckling -/

/-- Every run of black no longer than the speckle made white (R115). -/
def despeckled (speckle : Nat) (rs : List (Bool × Nat)) : List Bool :=
  rs.flatMap fun r => List.replicate r.2 (r.1 && decide (speckle < r.2))

/-- A place stands in a stretch of black longer than the speckle. -/
def InStretch (speckle : Nat) (row : List Bool) (n : Nat) : Prop :=
  ∃ a b, a ≤ n ∧ n < b ∧ speckle < b - a ∧ ∀ m, a ≤ m → m < b → row[m]? = some true

section
variable {speckle m n : Nat} {c : Bool} {rs : List (Bool × Nat)} (maximal : Maximal ((c, m) :: rs))

theorem spelled_first (within : n < m) : (spelled ((c, m) :: rs))[n]? = some c := by
  rw [spelled_cons, List.getElem?_append_left (by simpa using within), List.getElem?_replicate, if_pos within]

theorem spelled_later (past : m ≤ n) : (spelled ((c, m) :: rs))[n]? = (spelled rs)[n - m]? := by
  rw [spelled_cons, List.getElem?_append_right (by simpa using past), List.length_replicate]

include maximal

/-- No stretch of one value goes over the end of a maximal run. -/
theorem stretch_ends {a b : Nat} (before : a < m) (black : ∀ x, a ≤ x → x < b → (spelled ((c, m) :: rs))[x]? = some true) :
    b ≤ m := by
  by_contra longer
  have last := black (m - 1) (by omega) (by omega)
  have first := black m (by omega) (by omega)
  rw [spelled_first (by omega)] at last
  rw [spelled_later (Nat.le_refl m), Nat.sub_self] at first
  exact maximal.next (first.trans last.symm)

/-- Inside a maximal run a long stretch of black is the run itself. -/
theorem inStretch_first (within : n < m) :
    InStretch speckle (spelled ((c, m) :: rs)) n ↔ c = true ∧ speckle < m := by
  constructor
  · rintro ⟨a, b, low, high, long, black⟩
    have here := black n low high
    rw [spelled_first within] at here
    have ends := stretch_ends maximal (Nat.lt_of_le_of_lt low within) black
    exact ⟨Option.some.inj here, by omega⟩
  · rintro ⟨rfl, long⟩
    exact ⟨0, m, Nat.zero_le n, within, by omega, fun x _ inside => spelled_first inside⟩

/-- After a maximal run a stretch of black lies in the runs behind it. -/
theorem inStretch_later (past : m ≤ n) :
    InStretch speckle (spelled ((c, m) :: rs)) n ↔ InStretch speckle (spelled rs) (n - m) := by
  constructor
  · rintro ⟨a, b, low, high, long, black⟩
    have after : m ≤ a := by
      by_contra before
      have ends := stretch_ends maximal (by omega) black
      omega
    refine ⟨a - m, b - m, by omega, by omega, by omega, fun x from' until' => ?_⟩
    have here := black (x + m) (by omega) (by omega)
    rw [spelled_later (by omega), Nat.add_sub_cancel] at here
    exact here
  · rintro ⟨a, b, low, high, long, black⟩
    refine ⟨a + m, b + m, by omega, by omega, by omega, fun x from' until' => ?_⟩
    rw [spelled_later (by omega)]
    exact black (x - m) (by omega) (by omega)

end

theorem despeckled_iff {speckle n : Nat} {rs : List (Bool × Nat)} (maximal : Maximal rs) :
    (despeckled speckle rs)[n]? = some true ↔ InStretch speckle (spelled rs) n := by
  induction rs generalizing n with
  | nil =>
    refine ⟨fun black => absurd black (by simp [despeckled]), fun ⟨a, b, low, high, _, black⟩ => ?_⟩
    exact absurd (black n low high) (by simp [spelled])
  | cons r rs ih =>
    obtain ⟨c, m⟩ := r
    rw [despeckled, List.flatMap_cons]
    by_cases within : n < m
    · rw [inStretch_first maximal within, List.getElem?_append_left (by simpa using within), List.getElem?_replicate,
        if_pos within]
      simp
    · rw [inStretch_later maximal (by omega), List.getElem?_append_right (by simpa using within), List.length_replicate]
      exact ih maximal.tail

/-! ### Run lengths -/

/-- The alternating colours of run lengths, counted from an even place white and an odd place black (R116). -/
def coloured (lengths : List Nat) (from' : Nat) : List Bool :=
  (lengths.zipIdx from').flatMap fun x => List.replicate x.1 (decide (x.2 % 2 = 1))

theorem coloured_spelled {rs : List (Bool × Nat)} (maximal : Maximal rs) {from' : Nat}
    (colour : ∀ r ∈ rs.head?, r.1 = decide (from' % 2 = 1)) : coloured (rs.map Prod.snd) from' = spelled rs := by
  induction rs generalizing from' with
  | nil => rfl
  | cons r rs ih =>
    have here : r.1 = decide (from' % 2 = 1) := colour r rfl
    have rest : coloured (rs.map Prod.snd) (from' + 1) = spelled rs := by
      refine ih maximal.tail fun x head => ?_
      cases rs with
      | nil => cases head
      | cons y rs =>
        cases head
        cases maximal.2 with
        | cons_cons differ _ =>
          rw [here] at differ
          rw [Bool.eq_not_of_ne (Ne.symm differ), ← decide_not]
          exact decide_eq_decide.mpr (by omega)
    rw [spelled_cons, ← rest, here]
    rfl

theorem sum_snd_eq_length {α : Type} (rs : List (α × Nat)) : (rs.map Prod.snd).sum = (spelled rs).length := by
  induction rs with
  | nil => rfl
  | cons r rs ih => rw [spelled_cons, List.map_cons, List.sum_cons, ih, List.length_append, List.length_replicate]

/-- The run lengths of a row: those of its maximal runs, behind an empty white run when the row starts black (R116). -/
theorem runLengths_cases (row : List Bool) :
    (runLengths row = (runs row).map Prod.snd ∧ ∀ r ∈ (runs row).head?, r.1 = false) ∨
      (runLengths row = 0 :: (runs row).map Prod.snd ∧ ∀ r ∈ (runs row).head?, r.1 = true) := by
  unfold runLengths
  cases runs row with
  | nil => exact .inl ⟨rfl, nofun⟩
  | cons x r =>
    obtain ⟨black, n⟩ := x
    cases black
    · exact .inl ⟨rfl, fun y head => by cases head; rfl⟩
    · exact .inr ⟨rfl, fun y head => by cases head; rfl⟩

theorem runLengths_sum (row : List Bool) : (runLengths row).sum = row.length := by
  have whole : ((runs row).map Prod.snd).sum = row.length := by rw [sum_snd_eq_length, spelled_runs]
  rcases runLengths_cases row with ⟨lengths, _⟩ | ⟨lengths, _⟩
  · rw [lengths, whole]
  · rw [lengths, List.sum_cons, whole, Nat.zero_add]

theorem runLengths_coloured (row : List Bool) : coloured (runLengths row) 0 = row := by
  rcases runLengths_cases row with ⟨lengths, white⟩ | ⟨lengths, black⟩
  · rw [lengths, coloured_spelled (from' := 0) (runs_maximal row) white, spelled_runs]
  · have rest : coloured ((runs row).map Prod.snd) 1 = row := by
      rw [coloured_spelled (from' := 1) (runs_maximal row) black, spelled_runs]
    rw [lengths]
    exact rest

theorem runLengths_tail_pos (row : List Bool) : ∀ n ∈ (runLengths row).tail, 0 < n := by
  have filled : ∀ n ∈ (runs row).map Prod.snd, 0 < n := by
    intro n held
    obtain ⟨r, run, rfl⟩ := List.mem_map.mp held
    exact (runs_maximal row).1 r run
  rcases runLengths_cases row with ⟨lengths, _⟩ | ⟨lengths, _⟩
  · exact fun n held => filled n (List.mem_of_mem_tail (lengths ▸ held))
  · rw [lengths]
    exact filled

/-! ### Bits and bytes -/

/-- The bits of bytes, most significant first (R118, R123). -/
def byteBits (bytes : List Byte) : List Bool := bytes.flatMap fun b => (List.range 8).map fun n => b.getLsbD (7 - n)

theorem byteBits_eight : ∀ a b c d e f g h : Bool,
    ((List.range 8).map fun n => (byteOfBits [a, b, c, d, e, f, g, h]).getLsbD (7 - n)) = [a, b, c, d, e, f, g, h] := by
  decide

theorem packBits_spells (bits : List Bool) :
    byteBits (packBits bits).1 ++ (packBits bits).2 = bits ∧ (packBits bits).2.length < 8 := by
  fun_induction packBits bits with
  | case1 a b c d e f g h rest bytes left packed ih =>
    rw [packed] at ih
    obtain ⟨spells, short⟩ := ih
    refine ⟨?_, short⟩
    rw [byteBits, List.flatMap_cons, byteBits_eight]
    exact congrArg ([a, b, c, d, e, f, g, h] ++ ·) spells
  | case2 bits short =>
    refine ⟨rfl, ?_⟩
    by_contra long
    obtain ⟨front, rest, rfl, length⟩ : ∃ front rest, bits = front ++ rest ∧ front.length = 8 :=
      ⟨bits.take 8, bits.drop 8, (List.take_append_drop 8 bits).symm, List.length_take_of_le (Nat.le_of_not_lt long)⟩
    match front, length with
    | [a, b, c, d, e, f, g, h], _ => exact short a b c d e f g h rest rfl

theorem byteBits_byteOfBits {bits : List Bool} (eight : bits.length = 8) : byteBits [byteOfBits bits] = bits := by
  match bits, eight with
  | [a, b, c, d, e, f, g, h], _ =>
    rw [byteBits, List.flatMap_singleton]
    exact byteBits_eight a b c d e f g h

theorem padBits_spells {bits : List Bool} (short : bits.length < 8) :
    ∃ fill, fill < 8 ∧ byteBits (padBits bits) = bits ++ List.replicate fill false := by
  by_cases empty : bits = []
  · subst empty
    exact ⟨0, by decide, rfl⟩
  · have some : 0 < bits.length := List.length_pos_iff.mpr empty
    refine ⟨8 - bits.length, by omega, ?_⟩
    rw [padBits, if_neg empty, byteBits_byteOfBits (by simp), List.take_append, List.take_of_length_le (by omega),
      List.take_replicate, Nat.min_eq_left (by omega)]

theorem byteBits_append (a b : List Byte) : byteBits (a ++ b) = byteBits a ++ byteBits b := List.flatMap_append

/-! ### Levels -/

/-- The pairs of a run of a level: whole runs of 255, then the rest (R122). -/
def levelPairs (level n : Nat) : List (Byte × Byte) :=
  List.replicate (n / 255) (BitVec.ofNat 8 level, 255#8) ++
    if n % 255 = 0 then [] else [(BitVec.ofNat 8 level, BitVec.ofNat 8 (n % 255))]

theorem runPairs_eq (level n : Nat) : runPairs level n = (levelPairs level n).flatMap fun x => [x.1, x.2] := by
  have whole (k : Nat) : (List.replicate k [BitVec.ofNat 8 level, 255#8]).flatten =
      (List.replicate k ((BitVec.ofNat 8 level, 255#8) : Byte × Byte)).flatMap fun x => [x.1, x.2] := by
    rw [List.flatMap_replicate]
  rw [runPairs, levelPairs, List.flatMap_append, whole]
  split <;> rfl

theorem levelPairs_count {level n : Nat} : ∀ x ∈ levelPairs level n, 1 ≤ x.2.toNat := by
  intro x held
  rcases List.mem_append.mp held with full | rest
  · rw [(List.mem_replicate.mp full).2]
    exact Nat.one_le_iff_ne_zero.mpr (by decide : (255#8).toNat ≠ 0)
  · split at rest
    · cases rest
    · rw [List.mem_singleton.mp rest]
      simp only [BitVec.toNat_ofNat]
      omega

theorem levelPairs_spell {level n : Nat} (byte : level < 256) :
    ((levelPairs level n).flatMap fun x => List.replicate x.2.toNat x.1.toNat) = List.replicate n level := by
  have same : (BitVec.ofNat 8 level).toNat = level := by rw [BitVec.toNat_ofNat, Nat.mod_eq_of_lt byte]
  have full : ((List.replicate (n / 255) ((BitVec.ofNat 8 level, 255#8) : Byte × Byte)).flatMap fun x =>
      List.replicate x.2.toNat x.1.toNat) = List.replicate (n / 255 * 255) level := by
    rw [List.flatMap_replicate, List.flatten_replicate_replicate, same]
    rfl
  have rest : ((if n % 255 = 0 then [] else [((BitVec.ofNat 8 level, BitVec.ofNat 8 (n % 255)) : Byte × Byte)]).flatMap
      fun x => List.replicate x.2.toNat x.1.toNat) = List.replicate (n % 255) level := by
    split
    · next none => rw [none]; rfl
    · rw [List.flatMap_singleton, same, BitVec.toNat_ofNat, Nat.mod_eq_of_lt (by omega : n % 255 < 2 ^ 8)]
  rw [levelPairs, List.flatMap_append, full, rest, List.replicate_append_replicate, Nat.mul_comm, Nat.div_add_mod]

/-- The pairs of an output row spell its levels (R122). -/
theorem levelBytes_pairs {row : List Nat} (bytes : ∀ q ∈ row, q < 256) :
    ∃ pairs : List (Byte × Byte), levelBytes row = pairs.flatMap (fun x => [x.1, x.2]) ∧
      (∀ x ∈ pairs, 1 ≤ x.2.toNat) ∧ (pairs.flatMap fun x => List.replicate x.2.toNat x.1.toNat) = row := by
  refine ⟨(runs row).flatMap fun r => levelPairs r.1 r.2, ?_, ?_, ?_⟩
  · rw [List.flatMap_assoc, levelBytes]
    exact List.flatMap_congr fun r _ => runPairs_eq r.1 r.2
  · intro x held
    obtain ⟨r, _, pair⟩ := List.mem_flatMap.mp held
    exact levelPairs_count x pair
  · have level (r : Nat × Nat) (run : r ∈ runs row) : r.1 < 256 := by
      refine bytes r.1 ?_
      rw [← spelled_runs row]
      exact List.mem_flatMap.mpr ⟨r, run, List.mem_replicate.mpr
        ⟨Nat.ne_of_gt ((runs_maximal row).1 r run), rfl⟩⟩
    rw [List.flatMap_assoc]
    refine (List.flatMap_congr fun r run => levelPairs_spell (level r run)).trans ?_
    exact spelled_runs row

theorem runs_differ {row : List Nat} {n : Nat} {a b : Nat × Nat} (first : (runs row)[n]? = some a)
    (second : (runs row)[n + 1]? = some b) : a.1 ≠ b.1 := by
  obtain ⟨here, rfl⟩ := List.getElem?_eq_some_iff.mp first
  obtain ⟨next, rfl⟩ := List.getElem?_eq_some_iff.mp second
  exact List.isChain_iff_getElem.mp (runs_maximal row).2 n next

/-! ### The code table -/

theorem codeBits_spell (r : List Byte) (e : Nat) : (codeBits r e).length = numAt r (58 + 3 * e) ∧
    ∀ n, n < numAt r (58 + 3 * e) →
      (codeBits r e)[n]? = some ((num16At r (59 + 3 * e)).testBit (numAt r (58 + 3 * e) - 1 - n)) := by
  have length : (codeBits r e).length = numAt r (58 + 3 * e) := by simp [codeBits, codeLength]
  refine ⟨length, fun n within => ?_⟩
  rw [codeBits, List.getElem?_map, codeLength, List.getElem?_range within]
  rfl

theorem finish_spells (c : Coder) (r : List Byte) : ∃ fill, fill < 8 ∧
    byteBits (c.finish r .bitonal) = c.bits ++ codeBits r 97 ++ List.replicate fill false := by
  obtain ⟨spells, short⟩ := packBits_spells (c.bits ++ codeBits r 97)
  obtain ⟨fill, few, padded⟩ := padBits_spells short
  refine ⟨fill, few, ?_⟩
  have finish : c.finish r .bitonal =
      (packBits (c.bits ++ codeBits r 97)).1 ++ padBits (packBits (c.bits ++ codeBits r 97)).2 := rfl
  rw [finish, byteBits_append, padded, ← List.append_assoc, spells]

/-! ### Blocks -/

theorem length_blockSums (f n : Nat) (pixels : List Byte) : (blockSums f n pixels).length = n := by
  induction n generalizing pixels with
  | zero => rfl
  | succ n ih => rw [blockSums, List.length_cons, ih]

theorem blockSums_get {f n m : Nat} {pixels : List Byte} (within : m < n) : (blockSums f n pixels)[m]? =
    some ((((pixels.drop (f * m)).take f).map fun p => p.toNat).sum, ((pixels.drop (f * m)).take f).length) := by
  induction n generalizing pixels m with
  | zero => cases within
  | succ n ih =>
    cases m with
    | zero => rfl
    | succ m =>
      rw [blockSums, List.getElem?_cons_succ, ih (Nat.lt_of_succ_lt_succ within), List.drop_drop, Nat.mul_succ,
        Nat.add_comm]

theorem length_addRow (f : Nat) (sums : List (Nat × Nat)) (pixels : List Byte) :
    (addRow f sums pixels).length = sums.length := by
  rw [addRow, List.length_zipWith, length_blockSums, Nat.min_self]

theorem addRow_get {f n : Nat} {sums : List (Nat × Nat)} {pixels : List Byte} {a : Nat × Nat}
    (held : sums[n]? = some a) : (addRow f sums pixels)[n]? =
      some (a.1 + (((pixels.drop (f * n)).take f).map fun p => p.toNat).sum,
        a.2 + ((pixels.drop (f * n)).take f).length) := by
  obtain ⟨within, _⟩ := List.getElem?_eq_some_iff.mp held
  rw [addRow, List.getElem?_zipWith, held, blockSums_get within]

section
variable {c : Coder} {r : List Byte} {rung : Nat} {last : Bool} {pixels : List Byte}

/-- The sums go on over the rows of a block (R121). -/
theorem codeRow_gray_adds (more : last = false) (rows : c.rowsIn + 1 ≠ numAt r (26 + 2 * rung)) :
    c.codeRow r .gray rung last pixels =
      ({ c with sums := addRow (numAt r (26 + 2 * rung)) c.sums pixels, rowsIn := c.rowsIn + 1 }, []) :=
  if_neg (by rw [more]; exact fun full => rows (decide_eq_true_iff.mp full))

/-- The block's or the face's last row gives the output row (R121). -/
theorem codeRow_gray_emits (full : last = true ∨ c.rowsIn + 1 = numAt r (26 + 2 * rung)) :
    c.codeRow r .gray rung last pixels =
      ({ c with sums := List.replicate c.sums.length (0, 0), rowsIn := 0 },
        levelBytes ((addRow (numAt r (26 + 2 * rung)) c.sums pixels).map fun a =>
          a.1 / a.2 * numAt r (27 + 2 * rung) / 256)) := by
  have cleared : (addRow (numAt r (26 + 2 * rung)) c.sums pixels).map (fun _ => ((0, 0) : Nat × Nat)) =
      List.replicate c.sums.length (0, 0) := by
    rw [List.map_const', length_addRow]
  rw [← cleared]
  exact if_pos (by rw [Bool.or_eq_true, decide_eq_true_iff]; exact full)

end

/-- Settles O43. -/
theorem codedRowsSpellTheRow : Obligations.CodedRowsSpellTheRow := by
  refine ⟨fun speckle row n => ?_, fun row => ⟨runLengths_sum row, runLengths_coloured row, runLengths_tail_pos row⟩,
    packBits_spells, fun row bytes => levelBytes_pairs bytes, fun row => ⟨runs row, spelled_runs row,
      (runs_maximal row).1, fun n a b => runs_differ, rfl⟩, fun r => ⟨codeBits_spell r, fun n => ⟨fun short => ?_,
      fun long => ?_⟩, ?_, ?_, fun c => ⟨rfl, finish_spells c r⟩, ?_⟩⟩
  · have stretch := despeckled_iff (speckle := speckle) (n := n) (runs_maximal row)
    rw [spelled_runs] at stretch
    exact stretch
  · exact if_pos short
  · exact if_neg (Nat.not_lt_of_le long)
  · intro rung w h f
    exact ⟨rfl, rfl, rfl, rfl⟩
  · intro c rung last pixels row packed
    rfl
  · intro c rung last pixels f block
    exact ⟨addRow f c.sums pixels, length_addRow f c.sums pixels, fun n a => addRow_get,
      codeRow_gray_emits, codeRow_gray_adds⟩

end Sys2Proof.CodedRows
end

