-- ==== Sys2Proof/Proofs/CodeTable.lean ====
section
/-! PROOF. A code table is valid exactly when it is free of prefixes (R123, R124). -/

namespace Sys2Proof.CodeTable
open Sys2Proof.Machine Sys2Proof.Safety

/-- The bits of a pattern of a length, most significant first. -/
def spelling (length pattern : Nat) : List Bool :=
  (List.range length).map fun n => pattern.testBit (length - 1 - n)

theorem length_spelling (length pattern : Nat) : (spelling length pattern).length = length := by
  rw [spelling, List.length_map, List.length_range]

/-- A code begins another that is no shorter exactly when the other's first bits are its pattern. -/
theorem spelling_prefix_iff {la lb pa pb : Nat} (shorter : la ≤ lb) (fitsA : pa < 2 ^ la) (fitsB : pb < 2 ^ lb) :
    spelling la pa <+: spelling lb pb ↔ pb / 2 ^ (lb - la) = pa := by
  have first : spelling la pa <+: spelling lb pb ↔ ∀ n, n < la → pa.testBit (la - 1 - n) = pb.testBit (lb - 1 - n) := by
    rw [List.prefix_iff_eq_take, length_spelling, spelling, spelling, ← List.map_take, List.take_range,
      Nat.min_eq_left shorter, List.map_inj_left]
    simp only [List.mem_range]
  rw [first]
  constructor
  · intro same
    refine Nat.eq_of_testBit_eq fun j => ?_
    rw [Nat.testBit_div_two_pow]
    by_cases within : j < la
    · have bit := same (la - 1 - j) (by omega)
      rw [show la - 1 - (la - 1 - j) = j by omega, show lb - 1 - (la - 1 - j) = j + (lb - la) by omega] at bit
      exact bit.symm
    · rw [Nat.testBit_lt_two_pow (lt_of_lt_of_le fitsA (Nat.pow_le_pow_right Nat.two_pos (by omega))),
        Nat.testBit_lt_two_pow (lt_of_lt_of_le fitsB (Nat.pow_le_pow_right Nat.two_pos (by omega)))]
  · intro top n within
    rw [← top, Nat.testBit_div_two_pow, show la - 1 - n + (lb - la) = lb - 1 - n by omega]

/-- Two codes clash when one begins the other (R124). -/
theorem codeClash_iff {a b : Nat × Nat} (fitsA : a.2 < 2 ^ a.1) (fitsB : b.2 < 2 ^ b.1) : codeClash a b = true ↔
    spelling a.1 a.2 <+: spelling b.1 b.2 ∨ spelling b.1 b.2 <+: spelling a.1 a.2 := by
  by_cases shorter : a.1 ≤ b.1
  · rw [codeClash, if_pos shorter, decide_eq_true_iff, ← spelling_prefix_iff shorter fitsA fitsB]
    refine ⟨.inl, fun either => either.elim id fun back => ?_⟩
    have lengths := back.length_le
    rw [length_spelling, length_spelling] at lengths
    have same := back.eq_of_length (by rw [length_spelling, length_spelling]; exact Nat.le_antisymm lengths shorter)
    rw [same]
  · rw [codeClash, if_neg shorter, decide_eq_true_iff, ← spelling_prefix_iff (by omega) fitsB fitsA]
    refine ⟨.inr, fun either => either.elim (fun front => ?_) id⟩
    have lengths := front.length_le
    rw [length_spelling, length_spelling] at lengths
    exact absurd lengths shorter

theorem clashFree_iff (codes : List (Nat × Nat)) :
    clashFree codes = true ↔ codes.Pairwise fun a b => codeClash a b = false := by
  induction codes with
  | nil => exact ⟨fun _ => .nil, fun _ => rfl⟩
  | cons a rest ih =>
    rw [clashFree, Bool.and_eq_true, ih, List.pairwise_cons, List.all_eq_true]
    simp only [Bool.not_eq_true']

/-- The table's entries taken in pairs. -/
theorem clashFree_codeTable (r : List Byte) : clashFree (codeTable r) = true ↔
    ∀ d e, d < e → e < 98 →
      codeClash (codeLength r d, codePattern r d) (codeLength r e, codePattern r e) = false := by
  rw [clashFree_iff, codeTable, List.pairwise_map, List.pairwise_iff_getElem]
  simp only [List.getElem_range, List.length_range]
  exact ⟨fun all d e less last => all d e (by omega) last less, fun all d e _ last less => all d e less last⟩

theorem inRange_codeTable (r : List Byte) :
    (codeTable r).all (fun c => inRange 1 16 c.1 && c.2 < 2 ^ c.1) = true ↔
      ∀ e, e < 98 → 1 ≤ codeLength r e ∧ codeLength r e ≤ 16 ∧ codePattern r e < 2 ^ codeLength r e := by
  simp only [codeTable, List.all_map, List.all_eq_true, List.mem_range, Function.comp_apply, inRange, Bool.and_eq_true,
    decide_eq_true_eq, and_assoc]

/-- Settles O17. -/
theorem codeTableValidIffPrefixFree : Obligations.CodeTableValidIffPrefixFree := by
  intro r
  have bits (e : Nat) : codeBits r e = spelling (codeLength r e) (codePattern r e) := rfl
  rw [codeTableValid, Bool.and_eq_true, inRange_codeTable, clashFree_codeTable]
  refine and_congr_right fun ranges => ?_
  have clash (d e : Nat) (first : d < 98) (second : e < 98) :
      codeClash (codeLength r d, codePattern r d) (codeLength r e, codePattern r e) = true ↔
        codeBits r d <+: codeBits r e ∨ codeBits r e <+: codeBits r d :=
    codeClash_iff (ranges d first).2.2 (ranges e second).2.2
  constructor
  · intro free d e first second differ begins
    rcases Nat.lt_or_gt_of_ne differ with less | more
    · exact Bool.eq_false_iff.mp (free d e less second) ((clash d e first second).mpr (.inl begins))
    · exact Bool.eq_false_iff.mp (free e d more first) ((clash e d second first).mpr (.inr begins))
  · intro free d e less last
    refine Bool.eq_false_iff.mpr fun clashes => ?_
    rcases (clash d e (by omega) last).mp clashes with begins | begins
    · exact free d e (by omega) last (by omega) begins
    · exact free e d last (by omega) (by omega) begins

end Sys2Proof.CodeTable
end

