-- ==== Sys2Proof/Proofs/LinkFrames.lean ====
section
/-! PROOF. Every well-formed message framed is judged to be that message (R191 to R193, Tables 10.3 to 10.5). -/

namespace Sys2Proof.LinkFrames
open Sys2Proof.Machine Sys2Proof.Safety

/-! ### Byte order -/

/-- Two neighbouring parts of a bit vector put together (R191). -/
theorem append_parts {w : Nat} (v : BitVec w) (start low high : Nat) :
    v.extractLsb' (start + low) high ++ v.extractLsb' start low = v.extractLsb' start (high + low) := by
  refine BitVec.eq_of_getLsbD_eq fun i within => ?_
  rw [BitVec.getLsbD_append]
  split
  · simp [*]
  · rename_i past
    simp [BitVec.getLsbD_extractLsb']
    rw [show start + low + (i - low) = start + i by omega]
    simp [show i - low < high by omega, within]

theorem wordOf_bytes (w : Word) : wordOf (hiByte w) (loByte w) = w := by
  unfold wordOf hiByte loByte
  rw [append_parts w 0 8 8]
  exact BitVec.extractLsb'_eq_self

theorem longOf_bytes (v : Long) :
    longOf (v.extractLsb' 24 8) (v.extractLsb' 16 8) (v.extractLsb' 8 8) (v.extractLsb' 0 8) = v := by
  unfold longOf
  rw [append_parts v 16 8 8, append_parts v 0 8 8, append_parts v 0 16 16]
  exact BitVec.extractLsb'_eq_self

/-! ### A frame opened -/

/-- A frame as gathered: it passes the tests common to all types, and fails only for its length (R192). -/
theorem openFrame_frameOf {type : Byte} {contents : List Byte} (short : contents.length < 65536) (most : Nat) :
    openFrame most (frameOf type contents) =
      if most < contents.length + 5 then none else some (type, contents) := by
  have length := Laws.FrameSize.length_frameOf type contents
  have count : (wordOf (hiByte (BitVec.ofNat 16 contents.length)) (loByte (BitVec.ofNat 16 contents.length))).toNat =
      contents.length := by
    rw [wordOf_bytes, BitVec.toNat_ofNat, Nat.mod_eq_of_lt short]
  have frame : frameOf type contents = type :: hiByte (BitVec.ofNat 16 contents.length) ::
      loByte (BitVec.ofNat 16 contents.length) :: (contents ++ wordBytes (crc16 (type ::
        hiByte (BitVec.ofNat 16 contents.length) :: loByte (BitVec.ofNat 16 contents.length) :: contents))) := rfl
  rw [frame] at length ⊢
  unfold openFrame
  dsimp only
  rw [length, count]
  split
  · rfl
  · rw [List.take_left, List.drop_left, if_neg (by simp [wordBytes]), if_neg (by simp)]

section
variable {c : Instr} {type : Byte} {contents : List Byte} (short : contents.length ≤ 2048)
include short

/-- A well-formed message of a scan link is judged by its contents (R192). -/
theorem judgeScanFrame_message {l : Lane} (reads : scanContents l type contents = some c) (wf : c.wellFormed = true) :
    judgeScanFrame l (frameOf type contents) = c := by
  rw [judgeScanFrame, openFrame_frameOf (by omega), if_neg (by unfold scanFrameMost; omega)]
  dsimp only
  rw [reads]
  exact if_pos wf

theorem judgeExchangeFrame_other {p : Port} (other : exchangeContents p type contents = none) :
    judgeExchangeFrame p (frameOf type contents) = .exchangeFailedFrame p := by
  rw [judgeExchangeFrame, openFrame_frameOf (by omega)]
  split
  · rfl
  · next opened =>
    split at opened
    · cases opened
    · cases opened
      rw [other]

/-- A well-formed message of an exchange link is judged by its contents (R192). -/
theorem judgeExchangeFrame_message {p : Port} (fits : contents.length ≤ 1)
    (reads : exchangeContents p type contents = some c) (wf : c.wellFormed = true) :
    judgeExchangeFrame p (frameOf type contents) = c := by
  rw [judgeExchangeFrame, openFrame_frameOf (by omega), if_neg (by unfold exchangeFrameMost; omega)]
  dsimp only
  rw [reads]
  exact if_pos wf

theorem judgeScanFrame_other {l : Lane} (other : scanContents l type contents = none) :
    judgeScanFrame l (frameOf type contents) = .scanFailedFrame l := by
  rw [judgeScanFrame, openFrame_frameOf (by omega)]
  split
  · rfl
  · next opened =>
    split at opened
    · cases opened
    · cases opened
      rw [other]

end

/-! ### The messages -/

/-- What a frame of a scan link's message is judged to be, at either link. -/
theorem scanMessage {c : Instr} {l : Lane} {type : Byte} {contents : List Byte} (short : contents.length ≤ 2048)
    (reads : scanContents l type contents = some c) (wf : c.wellFormed = true)
    (other : ∀ p, exchangeContents p type contents = none)
    (lane : ∀ l' f, scanFrameOf c = some (l', f) → l' = l) (some : scanFrameOf c ≠ none) :
    (∀ l f, scanFrameOf c = Option.some (l, f) → judgeScanFrame l (frameOf type contents) = c ∧
        ∀ p, judgeExchangeFrame p (frameOf type contents) = .exchangeFailedFrame p) ∧
      (scanFrameOf c = none → ∃ p, judgeExchangeFrame p (frameOf type contents) = c ∧
        ∀ l, judgeScanFrame l (frameOf type contents) = .scanFailedFrame l) := by
  refine ⟨fun l' f named => ⟨?_, fun p => judgeExchangeFrame_other short (other p)⟩, fun none => absurd none some⟩
  rw [lane l' f named]
  exact judgeScanFrame_message short reads wf

/-- What a frame of an exchange link's message is judged to be, at either link. -/
theorem exchangeMessage {c : Instr} {p : Port} {type : Byte} {contents : List Byte} (short : contents.length ≤ 1)
    (reads : exchangeContents p type contents = some c) (wf : c.wellFormed = true)
    (other : ∀ l, scanContents l type contents = none) (none : scanFrameOf c = none) :
    (∀ l f, scanFrameOf c = some (l, f) → judgeScanFrame l (frameOf type contents) = c ∧
        ∀ p, judgeExchangeFrame p (frameOf type contents) = .exchangeFailedFrame p) ∧
      (scanFrameOf c = Option.none → ∃ p, judgeExchangeFrame p (frameOf type contents) = c ∧
        ∀ l, judgeScanFrame l (frameOf type contents) = .scanFailedFrame l) := by
  have within : contents.length ≤ 2048 := short.trans (by decide)
  refine ⟨fun l f named => ?_, fun _ => ⟨p, judgeExchangeFrame_message within short reads wf, fun l =>
    judgeScanFrame_other within (other l)⟩⟩
  rw [none] at named
  cases named

/-- The contents of an ITEM OPEN read back (Table 10.4). -/
theorem scanContents_itemOpen (l : Lane) (bundle : Long) (position : Word) (faces : Byte) :
    scanContents l 0x01 (longBytes bundle ++ wordBytes position ++ [faces]) =
      some (.itemOpen l bundle position faces) := by
  have reads : scanContents l 0x01 (longBytes bundle ++ wordBytes position ++ [faces]) = some (.itemOpen l
      (longOf (bundle.extractLsb' 24 8) (bundle.extractLsb' 16 8) (bundle.extractLsb' 8 8) (bundle.extractLsb' 0 8))
      (wordOf (hiByte position) (loByte position)) faces) := rfl
  rw [reads, longOf_bytes, wordOf_bytes]

theorem scanContents_faceOpen (l : Lane) (kind : Byte) (width : Word) :
    scanContents l 0x02 (kind :: wordBytes width) = some (.faceOpen l kind width) := by
  have reads : scanContents l 0x02 (kind :: wordBytes width) =
      some (.faceOpen l kind (wordOf (hiByte width) (loByte width))) := rfl
  rw [reads, wordOf_bytes]

/-- Settles O60. -/
theorem linkFramesRoundTrip : Obligations.LinkFramesRoundTrip := by
  intro c bytes wf framed
  have lane {l : Lane} {f : ScanFrame} (named : scanFrameOf c = some (l, f)) (l' : Lane) (f' : ScanFrame)
      (also : scanFrameOf c = some (l', f')) : l' = l := by
    rw [named] at also
    cases also
    rfl
  cases c with
  | itemOpen l bundle position faces =>
    cases framed
    exact scanMessage (Nat.le_of_ble_eq_true rfl) (scanContents_itemOpen ..) wf (fun _ => rfl) (lane rfl) nofun
  | faceOpen l kind width =>
    cases framed
    exact scanMessage (Nat.le_of_ble_eq_true rfl) (scanContents_faceOpen ..) wf (fun _ => rfl) (lane rfl) nofun
  | row l pixels =>
    cases framed
    have length : 1 ≤ pixels.length ∧ pixels.length ≤ 2048 := by
      simpa [Instr.wellFormed, rowLengthOk] using wf
    exact scanMessage length.2 rfl wf (fun _ => rfl) (lane rfl) nofun
  | faceClose l =>
    cases framed
    exact scanMessage (by decide) rfl wf (fun _ => rfl) (lane rfl) nofun
  | itemClose l =>
    cases framed
    exact scanMessage (by decide) rfl wf (fun _ => rfl) (lane rfl) nofun
  | itemAbandon l reason =>
    cases framed
    exact scanMessage (Nat.one_le_ofNat) rfl wf (fun _ => rfl) (lane rfl) nofun
  | claim p mask =>
    cases framed
    exact exchangeMessage (Nat.le_refl 1) rfl wf (fun _ => rfl) rfl
  | cancel p =>
    cases framed
    exact exchangeMessage (Nat.zero_le 1) rfl wf (fun _ => rfl) rfl
  | hold p =>
    cases framed
    exact exchangeMessage (Nat.zero_le 1) rfl wf (fun _ => rfl) rfl
  | go p =>
    cases framed
    exact exchangeMessage (Nat.zero_le 1) rfl wf (fun _ => rfl) rfl
  | delivered p =>
    cases framed
    exact exchangeMessage (Nat.zero_le 1) rfl wf (fun _ => rfl) rfl
  | returnItem p =>
    cases framed
    exact exchangeMessage (Nat.zero_le 1) rfl wf (fun _ => rfl) rfl
  | _ => cases framed

end Sys2Proof.LinkFrames
end

