-- ==== Sys2Proof/Proofs/Quiet.lean ====
section
/-! PROOF. A machine with no item, frame, job or claim, as every reset leaves it: its invariants (R52, R75, R78, R87, R111,
R149). -/

namespace Sys2Proof.AtReset
open Sys2Proof.Machine Sys2Proof.Safety

/-- Nothing lives: what the three resets share (R187, R189, R190). -/
structure Quiet (s : State) : Prop where
  items : s.items = Vector.replicate 256 Item.empty
  queues : ∀ l, (s.lanes.get l).queue = []
  scan : ∀ l, ∃ kept, s.scan.get l = ScanPort.keeping (s.scan.get l).link kept
  exchange : ∀ p, ∃ kept, s.exchange.get p = ExchangePort.keeping (s.exchange.get p).link (s.exchange.get p).mask kept
  claims : s.claims = []
  jobs : s.jobs = []
  units : s.units = Vector.replicate 2 CodingUnit.idle
  strips : s.strips = List.range Config.strips
  pages : ∃ n, s.pages = PagePool.fresh n

/-! ### The resets are quiet -/

section
variable (s : State)

/-- A property of the four lanes. -/
theorem forall_lane {P : Lane → Prop} (h0 : P 0) (h1 : P 1) (h2 : P 2) (h3 : P 3) (l : Lane) : P l := by
  match l with
  | 0 => exact h0
  | 1 => exact h1
  | 2 => exact h2
  | 3 => exact h3

theorem forall_port {P : Port → Prop} (h0 : P 0) (h1 : P 1) (p : Port) : P p := by
  match p with
  | 0 => exact h0
  | 1 => exact h1

theorem rebuild_quiet (scanKept : Lane → List ScanMsg) (exchangeKept : Port → List ExchangeMsg) :
    Quiet (s.rebuild scanKept exchangeKept) where
  items := by rw [State.rebuild]
  queues := forall_lane rfl rfl rfl rfl
  scan := forall_lane ⟨scanKept 0, rfl⟩ ⟨scanKept 1, rfl⟩ ⟨scanKept 2, rfl⟩ ⟨scanKept 3, rfl⟩
  exchange := forall_port ⟨exchangeKept 0, rfl⟩ ⟨exchangeKept 1, rfl⟩
  claims := by rw [State.rebuild]
  jobs := by rw [State.rebuild]
  units := by rw [State.rebuild]
  strips := by rw [State.rebuild]
  pages := ⟨s.pages.headReserve, by rw [State.rebuild]⟩

theorem softReset_quiet : Quiet s.softReset := by
  obtain ⟨items, queues, scan, exchange, claims, jobs, units, _, pages⟩ := rebuild_quiet s
    (fun l => keepBegun (hasBegun (s.scan.get l).begun (s.free + l.val)) (s.scan.get l).produced)
    (fun p => keepBegun (hasBegun (s.exchange.get p).begun (s.free + 4 + p.val)) (s.exchange.get p).produced)
  exact ⟨items, queues, scan, exchange, claims, jobs, units, by dsimp only [State.softReset, State.rebuild], pages⟩

theorem coldReset_quiet (latch : Bool) (cause : BitVec 3) : Quiet (s.coldReset latch cause) := by
  obtain ⟨items, _, scan, _, claims, jobs, units, _, _⟩ := rebuild_quiet s (fun _ => []) (fun _ => [])
  exact ⟨items, fun l => congrArg LaneRec.queue (Resets.replicate_get 4 LaneRec.reset l), scan,
    forall_port ⟨[], rfl⟩ ⟨[], rfl⟩, claims, jobs, units, by dsimp only [State.coldReset, State.rebuild],
    ⟨Config.resetHeadReserve, by rw [State.coldReset]⟩⟩

theorem reset_quiet : Quiet State.reset where
  items := by rw [State.reset]
  queues l := congrArg LaneRec.queue (Resets.replicate_get 4 LaneRec.reset l)
  scan := forall_lane ⟨[], rfl⟩ ⟨[], rfl⟩ ⟨[], rfl⟩ ⟨[], rfl⟩
  exchange := forall_port ⟨[], rfl⟩ ⟨[], rfl⟩
  claims := by rw [State.reset]
  jobs := by rw [State.reset]
  units := by rw [State.reset]
  strips := by rw [State.reset]
  pages := ⟨Config.resetHeadReserve, by rw [State.reset]⟩

end

/-! ### What a quiet machine keeps to -/

section
variable {s : State} (quiet : Quiet s)
include quiet

theorem item_empty (k : Slot) : s.items.get k = Item.empty := by
  rw [quiet.items]
  exact Resets.replicate_get 256 Item.empty k

theorem unit_idle (u : UnitNo) : s.units.get u = CodingUnit.idle := by
  rw [quiet.units]
  exact Resets.replicate_get 2 CodingUnit.idle u

/-- A scan port with nothing attached, IDLE or DOWN by its link (R52). -/
theorem scan_idle (l : Lane) : (s.scan.get l).attached = none ∧ (s.scan.get l).current = none ∧
    (s.scan.get l).timer = none ∧ (s.scan.get l).state = (if (s.scan.get l).link then .idle else .down) ∧
    ((s.scan.get l).begun = true → (s.scan.get l).produced ≠ []) := by
  obtain ⟨kept, port⟩ := quiet.scan l
  generalize (s.scan.get l).link = link at port ⊢
  rw [port]
  refine ⟨rfl, rfl, rfl, rfl, fun begun => ?_⟩
  have begun : (!kept.isEmpty) = true := begun
  have produced : (ScanPort.keeping link kept).produced = kept := rfl
  rw [produced]
  simpa using begun

/-- An exchange port with no claim, IDLE or DOWN by its link (R149). -/
theorem exchange_idle (p : Port) : (s.exchange.get p).slot = none ∧ (s.exchange.get p).position = none ∧
    (s.exchange.get p).stall = none ∧ (s.exchange.get p).state = (if (s.exchange.get p).link then .idle else .down) ∧
    ((s.exchange.get p).begun = true → (s.exchange.get p).produced ≠ []) := by
  obtain ⟨kept, port⟩ := quiet.exchange p
  generalize (s.exchange.get p).link = link, (s.exchange.get p).mask = mask at port ⊢
  rw [port]
  refine ⟨rfl, rfl, rfl, rfl, fun begun => ?_⟩
  have begun : (!kept.isEmpty) = true := begun
  have produced : (ExchangePort.keeping link mask kept).produced = kept := rfl
  rw [produced]
  simpa using begun

theorem portsAgree : PortsAgree s where
  attached l k := by simp [(scan_idle quiet l).1, item_empty quiet k, Item.empty]
  undecided k := by simp [item_empty quiet k, Item.empty]
  decided k := by simp [item_empty quiet k, Item.empty]
  serving l := by
    obtain ⟨attached, _, _, state, _⟩ := scan_idle quiet l
    rw [attached, state]
    split <;> simp
  facing l := by
    obtain ⟨_, current, _, state, _⟩ := scan_idle quiet l
    rw [current, state]
    split <;> simp
  timing l := by
    obtain ⟨attached, _, timer, _, _⟩ := scan_idle quiet l
    simp [attached, timer]
  claimed p k := by simp [(exchange_idle quiet p).1]
  holding p := by
    obtain ⟨slot, _, _, state, _⟩ := exchange_idle quiet p
    rw [slot, state]
    split <;> simp
  stalling p := by
    obtain ⟨_, _, stall, state, _⟩ := exchange_idle quiet p
    rw [stall, state]
    split <;> simp
  streaming p := by simp [(exchange_idle quiet p).2.1]
  waiting p := by
    obtain ⟨_, _, _, state, _⟩ := exchange_idle quiet p
    rw [state, quiet.claims]
    split <;> simp
  oneClaim := by
    rw [quiet.claims]
    exact .nil
  inReset _ := ⟨fun k => by rw [item_empty quiet k]; rfl, quiet.claims⟩
  scanLink _ l := by
    obtain ⟨_, _, _, state, _⟩ := scan_idle quiet l
    rw [state]
    split <;> simp [*]
  scanBegun l := (scan_idle quiet l).2.2.2.2
  exchangeBegun p := (exchange_idle quiet p).2.2.2.2
  exchangeLink _ p := by
    obtain ⟨_, _, _, state, _⟩ := exchange_idle quiet p
    rw [state]
    split <;> simp [*]

theorem queuesAgree : QueuesAgree s where
  live l k := by simp [quiet.queues l, item_empty quiet k, Item.empty]
  once l := by
    rw [quiet.queues l]
    exact .nil

/-- Nothing is in a chain. -/
theorem held_nil (g : Item → List Nat) (empty : g Item.empty = []) : s.items.toList.flatMap g = [] := by
  rw [quiet.items, Vector.toList_replicate, List.flatMap_replicate, empty]
  exact List.flatten_replicate_nil

omit quiet in
theorem shaped_empty : Shaped Item.empty := by
  constructor <;> simp [Item.empty]

theorem jobRendition_none (j : Job) : jobRendition s j = none := by
  rw [jobRendition, item_empty quiet]
  rfl

theorem poolsAgree : PoolsAgree s := by
  obtain ⟨n, pages⟩ := quiet.pages
  have job (u : UnitNo) : (s.units.get u).job = none := congrArg CodingUnit.job (unit_idle quiet u)
  have undrawn (u : UnitNo) : (s.units.get u).undrawn = 0 := congrArg CodingUnit.undrawn (unit_idle quiet u)
  have noPages : pagesHeld s = [] := held_nil quiet _ rfl
  have noStrips : stripsHeld s = [] := held_nil quiet _ rfl
  exact {
    shaped := fun k => item_empty quiet k ▸ shaped_empty
    landing := fun l k kind attached => by simp [(scan_idle quiet l).1] at attached
    strips := by rw [noStrips, List.append_nil, quiet.strips, Config.strips]
    pages := by rw [noPages, List.append_nil, pages, PagePool.fresh, Config.pages]
    counts := by rw [pages, PagePool.fresh, List.length_range, Nat.add_zero]
    reserved := by rw [undrawn, undrawn, pages, PagePool.fresh]
    queued := fun j => by simp [quiet.jobs, jobRendition_none quiet j]
    once := by rw [quiet.jobs]; exact .nil
    coding := fun j => by simp [job, jobRendition_none quiet j]
    apart := fun j => by simp [job]
    idle := fun u _ => undrawn u
    drawn := fun u j r running => by simp [job] at running }

end

end Sys2Proof.AtReset
end

