-- ==== Sys2Proof/Proofs/StoreSound.lean ====
section
/-! PROOF. What the invariant of the latched profiles says of the store alone and of the items alone, and the invariants right
after power-on (R3, R150, R157, R165, R171). -/

namespace Sys2Proof.StoreSound
open Sys2Proof.Machine Sys2Proof.Safety

/-- The store's part of `ProfilesLatched`: the checks of usable records and the marks of the blocks. -/
structure Sound (st : Store) : Prop where
  checked : ∀ src, st.usable src = true → recordValid (st.record src) = true
  closed : ∀ b, (st.blocks.get b).opened = false →
    (st.blocks.get b).bytes = erasedBytes ∨ recordValid (st.blocks.get b).bytes = true
  opened : ∀ op b, st.operation = some (op, b) → (st.blocks.get b).opened = true
  programming : ∀ b, st.operation = some (.program, b) →
    (st.phase = .programming ∨ st.phase = .verifying) ∧ st.staging.state = .validated

/-- The number of items pinned to a source (R3). -/
def pinned (s : State) (src : Source) : Nat := (s.items.toList.filter fun i => i.source = some src).length

/-- The items' part of `ProfilesLatched`: the pin counts count the items, and a live item has a source. -/
structure Pinned (s : State) : Prop where
  pins : ∀ src, s.store.pinCount src = pinned s src
  latched : ∀ k, (s.items.get k).state ≠ .free → (s.items.get k).source.isSome = true
  emptied : ∀ k, (s.items.get k).state = .free → s.items.get k = Item.empty

theorem profilesLatched_iff (s : State) : ProfilesLatched s ↔ Pinned s ∧ Sound s.store := by
  constructor
  · rintro ⟨pins, stagingPins, latched, emptied, checked, closed, opened, programming⟩
    refine ⟨⟨fun src => ?_, latched, emptied⟩, checked, closed, opened, programming⟩
    cases src with
    | block b => exact pins b
    | staging => exact stagingPins
  · rintro ⟨⟨pins, latched, emptied⟩, checked, closed, opened, programming⟩
    exact ⟨fun b => pins (.block b), pins .staging, latched, emptied, checked, closed, opened, programming⟩

/-! ### After a reset -/

/-- With no item every pin count is 0 (R187, R189). -/
theorem quiet_pinned {s : State} (quiet : AtReset.Quiet s) (pins : ∀ src, s.store.pinCount src = 0) : Pinned s where
  pins src := by
    have none : s.items.toList.filter (fun i => i.source = some src) = [] := by
      rw [quiet.items, Vector.toList_replicate, List.filter_replicate, if_neg]
      simp [Item.empty]
    rw [pins, pinned, none]
    rfl
  latched k live := absurd (congrArg Item.state (AtReset.item_empty quiet k)) live
  emptied k _ := AtReset.item_empty quiet k

theorem started_pins (blocks : Vector Block 8) (latch : Bool) (src : Source) :
    (Store.started blocks latch).pinCount src = 0 := by
  cases src with
  | block b => exact Resets.replicate_get 8 0 b
  | staging => rfl

/-- While the start-up scan runs no source is usable, and no operation is in progress (R171). -/
theorem started_sound {blocks : Vector Block 8} (latch : Bool) (closed : ∀ b, (blocks.get b).opened = false →
    (blocks.get b).bytes = erasedBytes ∨ recordValid (blocks.get b).bytes = true) :
    Sound (Store.started blocks latch) where
  checked src usable := by
    cases src with
    | block b =>
      have usable : decide (((Store.started blocks latch).blocks.get b).state = .valid) = true := usable
      rw [Resets.started_blocks, Resets.map_get] at usable
      cases usable
    | staging => cases usable
  closed b := by
    rw [Resets.started_blocks, Resets.map_get]
    exact closed b
  opened _ _ operating := by cases operating
  programming _ operating := by cases operating

theorem manufactured_closed (b : BlockNo) : ((Vector.replicate 8 Block.manufactured).get b).bytes = erasedBytes :=
  congrArg Block.bytes (Resets.replicate_get 8 Block.manufactured b)

theorem reset_store : State.reset.store = Store.started (Vector.replicate 8 Block.manufactured) false := rfl

theorem reset_inRange : InRange State.reset where
  quota l := by
    have lane : State.reset.lanes.get l = LaneRec.reset := Resets.replicate_get 4 LaneRec.reset l
    rw [lane]
    decide
  headReserve := by
    rw [Resets.reset_pages]
    decide
  stallLimit := by
    have limit : State.reset.stallLimit = 2000 := rfl
    rw [limit]
    omega
  staging := SettingsInRange.erasedBytes_length
  stagingEmpty _ := rfl
  block b := by
    rw [reset_store, Resets.started_blocks, Resets.map_get, manufactured_closed]
    exact SettingsInRange.erasedBytes_length
  readIndex := by decide

theorem reset_sourcesGuarded : SourcesGuarded State.reset :=
  (SourcesGuarded.guarded_iff State.reset).mpr ⟨SourcesGuarded.started_guarded _ _, fun low => by cases low⟩

/-- Settles O59. -/
theorem invariantsAtReset : Obligations.InvariantsAtReset :=
  ⟨Laws.wf_empty, reset_inRange, reset_sourcesGuarded, AtReset.portsAgree AtReset.reset_quiet,
    AtReset.queuesAgree AtReset.reset_quiet,
    (profilesLatched_iff _).mpr ⟨quiet_pinned AtReset.reset_quiet (started_pins _ _),
      started_sound false fun b _ => .inl (manufactured_closed b)⟩,
    AtReset.poolsAgree AtReset.reset_quiet⟩

end Sys2Proof.StoreSound
end

