-- ==== Sys2Proof/Proofs/FramesWait.lean ====
section
/-! PROOF. Frames wait in order of arrival behind a held row, and a frame that is taken leaves those behind it as they wait
(R33). -/

namespace Sys2Proof.FramesWait
open Sys2Proof.Machine Sys2Proof.Safety

variable {s : State} {l : Lane}

/-! ### The arrival of a frame -/

theorem exec_arrives {c : Instr} {f : ScanFrame} (running : Running s) (frame : scanFrameOf c = some (l, f)) :
    exec c s = .next (if (s.scan.get l).state = .down then s
      else if (s.scan.get l).waiting ≠ [] ∨ (f.isRow = false ∧ (s.scan.get l).held.isSome) then
        { s with scan := put s.scan l { s.scan.get l with gathering := [], waiting := (s.scan.get l).waiting ++ [f] } }
      else ({ s with scan := put s.scan l { s.scan.get l with gathering := [] } } : State).takeFrame l f) := by
  rw [Laws.exec_scanFrame s frame, State.frameArrives, Laws.whileRunning_running running]
  refine congrArg Host.Outcome.next ?_
  dsimp only
  split
  · rfl
  · split
    · simp only [State.modScan, Laws.get_put_same, Laws.put_put]
    · rfl

/-- A frame waits when others do, or when it is no ROW and a row is held. -/
theorem waits_iff (f : ScanFrame) :
    ((s.scan.get l).waiting ≠ [] ∨ (f.isRow = false ∧ (s.scan.get l).held.isSome = true)) ↔
      ((s.scan.get l).waiting ≠ [] ∨ ((∀ pixels, f ≠ .row pixels) ∧ (s.scan.get l).held.isSome = true)) := by
  rw [Laws.isRow_false_iff]

theorem emptied_gathering (empty : (s.scan.get l).gathering = []) :
    ({ s with scan := put s.scan l { s.scan.get l with gathering := [] } } : State) = s := by
  have same : { s.scan.get l with gathering := [] } = s.scan.get l := by
    rw [← empty]
  rw [same, Laws.put_get_self]

/-! ### The waiting frames taken -/

/-- A port with other frames waiting. -/
def standing (l : Lane) (behind : List ScanFrame) (s : State) : State :=
  { s with scan := put s.scan l { s.scan.get l with waiting := behind } }

theorem standing_same (same : (s.scan.get l).waiting = behind) : standing l behind s = s := by
  subst same
  exact congrArg (fun v => { s with scan := v }) (Laws.put_get_self s.scan l)

theorem drainWaiting_nil (empty : (s.scan.get l).waiting = []) : s.drainWaiting l = s := by
  rw [State.drainWaiting, empty]
  exact standing_same empty

theorem drainWaiting_waits {f : ScanFrame} {rest : List ScanFrame} (waiting : (s.scan.get l).waiting = f :: rest)
    (other : f.isRow = false) (held : (s.scan.get l).held.isSome = true) : s.drainWaiting l = s := by
  have stops : ¬ (f.isRow || (s.scan.get l).held.isNone) = true := by
    rw [other, Option.isNone_eq_false_iff.mpr held]
    decide
  rw [State.drainWaiting, waiting, State.takeWaiting, if_neg stops]
  exact standing_same waiting

theorem drainWaiting_takes {f : ScanFrame} {rest : List ScanFrame} (waiting : (s.scan.get l).waiting = f :: rest)
    (goes : f.isRow = true ∨ (s.scan.get l).held = none)
    (left : ((standing l rest s).takeFrame l f |>.scan.get l).waiting = rest) :
    s.drainWaiting l = ((standing l rest s).takeFrame l f).drainWaiting l := by
  have goes : (f.isRow || (s.scan.get l).held.isNone) = true := by
    rcases goes with row | free
    · rw [row, Bool.true_or]
    · rw [free, Option.isNone_none, Bool.or_true]
  rw [State.drainWaiting, waiting, State.takeWaiting, if_pos goes, State.drainWaiting, left]
  rfl

/-! ### What waits makes no difference to the frame taken -/

section
variable (l : Lane) (w : List ScanFrame) (s : State)

theorem standing_port (m : Lane) : ∃ v, (standing l w s).scan.get m = { s.scan.get m with waiting := v } := by
  rw [standing, Laws.get_put]
  split
  · next same => exact ⟨w, by rw [same]⟩
  · exact ⟨_, rfl⟩

theorem standing_timer (m : Lane) : ((standing l w s).scan.get m).timer = (s.scan.get m).timer := by
  obtain ⟨_, port⟩ := standing_port l w s m
  rw [port]

theorem standing_held (m : Lane) : ((standing l w s).scan.get m).held = (s.scan.get m).held := by
  obtain ⟨_, port⟩ := standing_port l w s m
  rw [port]

theorem standing_current (m : Lane) : ((standing l w s).scan.get m).current = (s.scan.get m).current := by
  obtain ⟨_, port⟩ := standing_port l w s m
  rw [port]

theorem standing_link (m : Lane) : ((standing l w s).scan.get m).link = (s.scan.get m).link := by
  obtain ⟨_, port⟩ := standing_port l w s m
  rw [port]

/-- Changes of two places of a vector, in either order. -/
theorem put_comm {α : Type} {n : Nat} (v : Vector α n) {i j : Fin n} (differ : i ≠ j) (x y : α) :
    put (put v i x) j y = put (put v j y) i x := by
  refine Laws.vector_ext_get fun k => ?_
  by_cases first : i = k
  · subst first
    rw [Laws.get_put_ne _ _ (Ne.symm differ), Laws.get_put_same, Laws.get_put_same]
  · by_cases second : j = k
    · subst second
      rw [Laws.get_put_same, Laws.get_put_ne _ _ differ, Laws.get_put_same]
    · simp only [Laws.get_put_ne _ _ first, Laws.get_put_ne _ _ second]

/-- A change of a port that leaves what waits alone. -/
theorem standing_modScan (m : Lane) {f : ScanPort → ScanPort}
    (keeps : ∀ p v, f { p with waiting := v } = { f p with waiting := v }) :
    (standing l w s).modScan m f = standing l w (s.modScan m f) := by
  unfold State.modScan standing
  by_cases same : l = m
  · subst same
    simp only [Laws.get_put_same, Laws.put_put]
    rw [keeps]
  · rw [Laws.get_put_ne _ _ same, Laws.get_put_ne _ _ (Ne.symm same), put_comm _ same]

/-- What works behind reception commutes with what waits at a port. -/
theorem standing_behind {F : State → State} (commutes : ∀ v s, F (Laws.replaceScan v s) = Laws.replaceScan v (F s))
    (behind : ∀ s, Laws.Behind s (F s)) : F (standing l w s) = standing l w (F s) := by
  have replaced : standing l w (F s) = Laws.replaceScan (put s.scan l { s.scan.get l with waiting := w }) (F s) := by
    unfold standing
    rw [(behind s).scan]
    rfl
  rw [replaced]
  exact commutes _ s

theorem standing_dispatchAct : (standing l w s).dispatchAct = standing l w s.dispatchAct :=
  standing_behind l w s (F := State.dispatchAct) Laws.replaceScan_dispatchAct fun s => (Laws.Behind.refl s).dispatchAct

theorem standing_rejectRenditions (k : Slot) :
    (standing l w s).rejectRenditions k = standing l w (s.rejectRenditions k) :=
  standing_behind l w s (F := fun s => s.rejectRenditions k) (fun v s => Laws.replaceScan_rejectRenditions v s k)
    fun s => (Laws.Behind.refl s).rejectRenditions k

theorem standing_returnStrips (k : Slot) (face : FaceKind) :
    (standing l w s).returnStrips k face = standing l w (s.returnStrips k face) :=
  standing_behind l w s (F := fun s => s.returnStrips k face) (fun v s => Laws.replaceScan_returnStrips v s k face)
    fun s => (Laws.Behind.refl s).returnStrips k face

theorem standing_returnAllStrips (k : Slot) : (standing l w s).returnAllStrips k = standing l w (s.returnAllStrips k) :=
  standing_behind l w s (F := fun s => s.returnAllStrips k) (fun v s => Laws.replaceScan_returnAllStrips v s k)
    fun s => (Laws.Behind.refl s).returnAllStrips k

theorem standing_settle (k : Slot) : (standing l w s).settle k = standing l w (s.settle k) :=
  standing_behind l w s (F := fun s => s.settle k) (fun v s => Laws.replaceScan_settle v s k)
    fun s => (Laws.Behind.refl s).settle k

/-! The operations of reception, in the order of the model. -/

theorem standing_scanProduce (m : ScanMsg) : (standing l w s).scanProduce l m = standing l w (s.scanProduce l m) := by
  refine standing_modScan l w s l fun p v => ?_
  dsimp only
  split <;> rfl

theorem standing_decidePocket (k : Slot) (p : Pocket) (r : Option FindingKind) :
    (standing l w s).decidePocket k p r = standing l w (s.decidePocket k p r) := by
  unfold State.decidePocket
  dsimp only
  rw [standing_timer]
  exact standing_modScan l w (s.modItem k fun i => { i with
    pocket := p, reason := r, latency := some (elapsed (s.scan.get (s.items.get k).lane).timer) }) _ fun _ _ => rfl

theorem standing_addFinding (k : Slot) (f : Finding) :
    (standing l w s).addFinding k f = standing l w (s.addFinding k f) := by
  have noted : (standing l w s).modItem k (·.addFinding f) = standing l w (s.modItem k (·.addFinding f)) := rfl
  have pocket : ((standing l w (s.modItem k (·.addFinding f))).items.get k).pocket =
      ((s.modItem k (·.addFinding f)).items.get k).pocket := rfl
  unfold State.addFinding
  dsimp only
  rw [noted, pocket]
  split
  · exact standing_decidePocket l w _ k _ _
  · rfl

theorem standing_addFindings (k : Slot) (found : List Finding) :
    found.foldl (fun t f => t.addFinding k f) (standing l w s) =
      standing l w (found.foldl (fun t f => t.addFinding k f) s) := by
  induction found generalizing s with
  | nil => rfl
  | cons f rest ih => rw [List.foldl_cons, List.foldl_cons, standing_addFinding, ih]

theorem standing_withdraw (k : Requester) : (standing l w s).withdraw k = standing l w (s.withdraw k) := rfl

theorem standing_abandonRow (k : Slot) : (standing l w s).abandonRow l k = standing l w (s.abandonRow l k) := by
  unfold State.abandonRow
  dsimp only
  rw [standing_held, standing_current]
  cases (s.scan.get l).held with
  | none => rfl
  | some h =>
    cases (s.scan.get l).current with
    | none => exact standing_modScan l w (s.withdraw (.w l)) l fun _ _ => rfl
    | some face =>
      exact standing_modScan l w ((s.modItem k (·.modFace face Face.loseRow)).withdraw (.w l)) l fun _ _ => rfl

theorem standing_detach (k : Slot) (next : ScanState) :
    (standing l w s).detach l k next = standing l w (s.detach l k next) := by
  unfold State.detach
  dsimp only
  rw [standing_abandonRow]
  exact standing_modScan l w ((s.abandonRow l k).modItem k fun i =>
    { i with state := .settling, faces := i.faces.map Face.cutIfLanding }) l fun _ _ => rfl

theorem standing_endRejected (k : Slot) (next : ScanState) :
    (standing l w s).endRejected l k next = standing l w (s.endRejected l k next) := by
  unfold State.endRejected
  rw [standing_detach, standing_rejectRenditions]

theorem standing_producePocket (k : Slot) : (standing l w s).producePocket l k = standing l w (s.producePocket l k) := by
  unfold State.producePocket
  rw [standing_link]
  split
  · exact congrArg (fun t => t.modItem k fun i => { i with delivered := true }) (standing_scanProduce l w s _)
  · rfl

theorem standing_rejectSent (k : Slot) (f : Finding) (next : ScanState) :
    (standing l w s).rejectSent l k f next = standing l w (s.rejectSent l k f next) := by
  unfold State.rejectSent
  rw [standing_addFinding, standing_producePocket, standing_endRejected]

theorem standing_protocolFault (k : Slot) : (standing l w s).protocolFault l k = standing l w (s.protocolFault l k) :=
  standing_rejectSent l w s k _ _

theorem standing_giveSlot (k : Slot) (src : Source) (bundle : Long) (position : Word) (faces : Byte) :
    (standing l w s).giveSlot l k src bundle position faces = standing l w (s.giveSlot l k src bundle position faces) := by
  have given (t : State) (deadline : Nat) :
      (((standing l w t).scanProduce l (.slotGiven position k)).modScan l fun p =>
        { p with attached := some k, state := .item, current := none, timer := some ⟨deadline, deadline⟩ }) =
      standing l w ((t.scanProduce l (.slotGiven position k)).modScan l fun p =>
        { p with attached := some k, state := .item, current := none, timer := some ⟨deadline, deadline⟩ }) := by
    rw [standing_scanProduce]
    exact standing_modScan l w _ l fun _ _ => rfl
  have placed := given ((((s.modItem k fun _ => newItem s l src bundle position faces).withStamp (s.stamp + 1)).modLane l
    fun r => { r with queue := r.queue ++ [k] }).modStore fun st => st.modPins src (· + 1))
    (profileDeadline (s.store.record src))
  unfold State.giveSlot
  dsimp only
  refine (congrArg (fun t : State => if (s.lanes.get l).queue.isEmpty then t.dispatchAct else t) placed).trans ?_
  split
  · exact standing_dispatchAct l w _
  · rfl

theorem standing_takeAsNew (bundle : Long) (position : Word) (faces : Byte) :
    (standing l w s).takeAsNew l bundle position faces = standing l w (s.takeAsNew l bundle position faces) := by
  have refusal : (standing l w s).slotRefusal l = s.slotRefusal l := rfl
  have free : (standing l w s).freeSlot = s.freeSlot := rfl
  have binding : (standing l w s).store.bindings.get l = s.store.bindings.get l := rfl
  unfold State.takeAsNew
  rw [refusal, free, binding]
  cases s.slotRefusal l with
  | some why =>
    dsimp only
    rw [standing_scanProduce]
    exact standing_modScan l w _ l fun _ _ => rfl
  | none =>
    cases s.freeSlot with
    | none => rfl
    | some k =>
      cases s.store.bindings.get l with
      | none => rfl
      | some src => exact standing_giveSlot l w s k src bundle position faces

theorem standing_openFace (k : Slot) (kind : FaceKind) (width : Nat) :
    (standing l w s).openFace l k kind width = standing l w (s.openFace l k kind width) :=
  standing_modScan l w (s.modItem k fun i => { i with
    faces := i.faces ++ [newFace (s.itemRecord k) kind width]
    renditions := i.renditions ++ newRenditions (s.itemRecord k) kind }) l
    (f := fun p => { p with state := .face, current := some kind }) fun _ _ => rfl

theorem standing_holdRow (position : Nat) (pixels : List Byte) :
    (standing l w s).holdRow l position pixels = standing l w (s.holdRow l position pixels) :=
  congrArg (·.request (.w l)) (standing_modScan l w s l (f := fun p => { p with held := some ⟨position, pixels, 0⟩ })
    fun _ _ => rfl)

theorem standing_landRow (k : Slot) (face : FaceKind) (f : Face) (pixels : List Byte) :
    (standing l w s).landRow l k face f pixels = standing l w (s.landRow l k face f pixels) := by
  unfold State.landRow
  rw [standing_held]
  cases (s.scan.get l).held with
  | some h => exact standing_holdRow l w ((s.loseRow k face).modArbiter (·.forsake (.w l))) h.position pixels
  | none =>
    have strips : (standing l w s).strips = s.strips := rfl
    dsimp only
    split
    · rfl
    · split
      · rw [strips]
        cases s.strips with
        | nil => rfl
        | cons strip rest =>
          exact standing_holdRow l w ((s.withStrips rest).modItem k
            (·.modFace face fun x => { x with strips := x.strips ++ [strip] })) f.rowsLanded pixels
      · exact standing_holdRow l w s f.rowsLanded pixels

theorem standing_takeRow (k : Slot) (face : FaceKind) (pixels : List Byte) :
    (standing l w s).takeRow l k face pixels = standing l w (s.takeRow l k face pixels) := by
  have found : ((standing l w s).items.get k).face? face = (s.items.get k).face? face := rfl
  unfold State.takeRow
  rw [found]
  cases (s.items.get k).face? face with
  | none => rfl
  | some f =>
    dsimp only
    split
    · exact standing_landRow l w s k face f pixels
    · rfl

theorem standing_closeFace (k : Slot) (face : FaceKind) :
    (standing l w s).closeFace l k face = standing l w (s.closeFace l k face) := by
  have found : ((standing l w s).items.get k).face? face = (s.items.get k).face? face := rfl
  have record : (standing l w s).itemRecord k = s.itemRecord k := rfl
  have landed : (((standing l w s).modItem k (·.modFace face fun x => { x with state := .landed, accum := none })).modScan l
      fun p => { p with current := none }) =
      standing l w ((s.modItem k (·.modFace face fun x => { x with state := .landed, accum := none })).modScan l
        fun p => { p with current := none }) :=
    standing_modScan l w (s.modItem k (·.modFace face fun x => { x with state := .landed, accum := none })) l
      fun _ _ => rfl
  unfold State.closeFace
  rw [found, record]
  cases (s.items.get k).face? face with
  | none => rfl
  | some f =>
    dsimp only
    rw [landed, standing_addFindings]
    generalize (evaluate (s.itemRecord k) f (f.accum.getD noAccumulators)).foldl (fun (t : State) f => t.addFinding k f) _ = t
    have pocket : ((standing l w t).items.get k).pocket = (t.items.get k).pocket := rfl
    have queued : ((standing l w t).queueRenditions k face).modScan l (fun p => { p with state := .item }) =
        standing l w ((t.queueRenditions k face).modScan l fun p => { p with state := .item }) :=
      standing_modScan l w (t.queueRenditions k face) l fun _ _ => rfl
    rw [pocket]
    split
    · rw [queued, standing_returnStrips, standing_dispatchAct]
    · rw [standing_producePocket, standing_endRejected]

theorem standing_closeItem (k : Slot) : (standing l w s).closeItem l k = standing l w (s.closeItem l k) := by
  have missing : ((standing l w s).items.get k).missing = (s.items.get k).missing := rfl
  have pocket : ((standing l w s).items.get k).pocket = (s.items.get k).pocket := rfl
  unfold State.closeItem
  dsimp only
  rw [missing, pocket]
  split
  · exact standing_rejectSent l w s k _ _
  · split
    · rw [standing_decidePocket, standing_producePocket, standing_detach, standing_returnAllStrips, standing_settle]
    · rw [standing_producePocket, standing_detach, standing_returnAllStrips, standing_settle]

theorem standing_takeInItem (k : Slot) (f : ScanFrame) :
    (standing l w s).takeInItem l k f = standing l w (s.takeInItem l k f) := by
  unfold State.takeInItem
  cases f with
  | itemOpen bundle position faces =>
    dsimp only
    rw [standing_protocolFault]
    exact standing_takeAsNew l w _ bundle position faces
  | faceOpen kind width =>
    have item : (standing l w s).items.get k = s.items.get k := rfl
    dsimp only
    rw [item]
    split
    · exact standing_openFace l w s k kind width
    · exact standing_protocolFault l w s k
  | row pixels => exact standing_protocolFault l w s k
  | faceClose => exact standing_protocolFault l w s k
  | itemClose => exact standing_closeItem l w s k
  | itemAbandon reason => exact standing_rejectSent l w s k _ _
  | failed => exact standing_rejectSent l w s k _ _

theorem standing_takeInFace (k : Slot) (face : FaceKind) (f : ScanFrame) :
    (standing l w s).takeInFace l k face f = standing l w (s.takeInFace l k face f) := by
  unfold State.takeInFace
  cases f with
  | itemOpen bundle position faces =>
    dsimp only
    rw [standing_protocolFault]
    exact standing_takeAsNew l w _ bundle position faces
  | faceOpen kind width => exact standing_protocolFault l w s k
  | row pixels => exact standing_takeRow l w s k face pixels
  | faceClose => exact standing_closeFace l w s k face
  | itemClose => exact standing_protocolFault l w s k
  | itemAbandon reason => exact standing_rejectSent l w s k _ _
  | failed => exact standing_rejectSent l w s k _ _

theorem standing_takeInIdle (f : ScanFrame) : (standing l w s).takeInIdle l f = standing l w (s.takeInIdle l f) := by
  cases f with
  | itemOpen bundle position faces => exact standing_takeAsNew l w s bundle position faces
  | faceOpen | row | faceClose | itemClose | itemAbandon | failed => rfl

theorem standing_takeInDiscard (f : ScanFrame) :
    (standing l w s).takeInDiscard l f = standing l w (s.takeInDiscard l f) := by
  have idle : (standing l w s).modScan l (fun p => { p with state := .idle }) =
      standing l w (s.modScan l fun p => { p with state := .idle }) := standing_modScan l w s l fun _ _ => rfl
  cases f with
  | itemOpen bundle position faces => exact standing_takeAsNew l w s bundle position faces
  | itemClose => exact idle
  | itemAbandon reason => exact idle
  | faceOpen | row | faceClose | failed => rfl

theorem standing_takeFrame (f : ScanFrame) : (standing l w s).takeFrame l f = standing l w (s.takeFrame l f) := by
  have port : (standing l w s).scan.get l = { s.scan.get l with waiting := w } := by
    rw [standing, Laws.get_put_same]
  unfold State.takeFrame
  dsimp only
  rw [port]
  dsimp only
  cases (s.scan.get l).state with
  | idle => exact standing_takeInIdle l w s f
  | discard => exact standing_takeInDiscard l w s f
  | down => rfl
  | item =>
    cases (s.scan.get l).attached with
    | none => rfl
    | some k => exact standing_takeInItem l w s k f
  | face =>
    cases (s.scan.get l).attached with
    | none => rfl
    | some k =>
      cases (s.scan.get l).current with
      | none => rfl
      | some face => exact standing_takeInFace l w s k face f

theorem standing_waiting : ((standing l w s).scan.get l).waiting = w := by
  rw [standing, Laws.get_put_same]

end

/-- Settles O24. -/
theorem framesWaitInOrder : Obligations.FramesWaitInOrder := by
  refine ⟨fun s c l f running frame => ⟨fun down => ?_, fun up => ⟨fun waits => ?_, fun empty clear => ?_⟩⟩,
    fun s l => ⟨drainWaiting_nil, fun f rest waiting => ⟨fun goes => ?_, fun other held => ?_⟩⟩,
    fun s l f behind => standing_takeFrame l behind s f⟩
  · rw [exec_arrives running frame, if_pos down]
  · rw [exec_arrives running frame, if_neg up, if_pos ((waits_iff f).mpr waits)]
  · have goes : ¬ ((s.scan.get l).waiting ≠ [] ∨ (f.isRow = false ∧ (s.scan.get l).held.isSome = true)) := by
      rintro (some | ⟨other, held⟩)
      · exact some empty
      · rcases clear with row | free
        · rw [(Laws.isRow_iff f).mpr row] at other
          cases other
        · rw [free] at held
          cases held
    have taken : exec c s =
        .next (({ s with scan := put s.scan l { s.scan.get l with gathering := [] } } : State).takeFrame l f) := by
      rw [exec_arrives running frame, if_neg up, if_neg goes]
    refine ⟨taken, fun gathered => ?_⟩
    rw [taken, emptied_gathering gathered]
  · refine drainWaiting_takes waiting (goes.imp_left (Laws.isRow_iff f).mpr) ?_
    rw [standing_takeFrame]
    exact standing_waiting l rest _
  · exact drainWaiting_waits waiting ((Laws.isRow_false_iff f).mpr other) held

end Sys2Proof.FramesWait
end

