-- ==== Sys2Proof/Proofs/Moves.lean ====
section
/-! PROOF. The single changes that the events are made of, with the conditions they are made under. Each event but a reset, a
freeing and a change of the store is a path of them; an invariant is proved of every event by proving it of each change. -/

namespace Sys2Proof.Moves
open Sys2Proof.Machine Sys2Proof.Safety

/-! ### Ports in themselves -/

/-- A scan port holds what its state says it holds (Table 2.2). -/
structure ScanShaped (p : ScanPort) : Prop where
  serving : p.attached.isSome ↔ p.state = .item ∨ p.state = .face
  facing : p.current.isSome ↔ p.state = .face
  timing : p.timer.isSome ↔ p.attached.isSome
  begun : p.begun = true → p.produced ≠ []

/-- An exchange port holds what its state says it holds (Table 7.3). -/
structure PortShaped (x : ExchangePort) : Prop where
  holding : x.slot.isSome ↔ x.state = .sending ∨ x.state = .held ∨ x.state = .await
  stalling : x.stall.isSome ↔ x.state = .held ∨ x.state = .await
  streaming : x.position.isSome → x.slot.isSome
  begun : x.begun = true → x.produced ≠ []

/-- A scan port that serves no item, as it may stand in a state. -/
structure ScanFree (s : State) (p : ScanPort) : Prop where
  attached : p.attached = none
  current : p.current = none
  timer : p.timer = none
  unserving : p.state ≠ .item ∧ p.state ≠ .face
  begun : p.begun = true → p.produced ≠ []
  linked : Running s → (p.link = true ↔ p.state ≠ .down)

/-- An exchange port with no claim, as it may stand in a state. -/
structure PortFree (s : State) (x : ExchangePort) : Prop where
  slot : x.slot = none
  position : x.position = none
  stall : x.stall = none
  unclaimed : x.state = .idle ∨ x.state = .down
  begun : x.begun = true → x.produced ≠ []
  linked : Running s → (x.link = true ↔ x.state ≠ .down)

theorem ScanFree.shaped {s : State} {p : ScanPort} (h : ScanFree s p) : ScanShaped p := by
  obtain ⟨item, face⟩ := h.unserving
  constructor <;> simp [h.attached, h.current, h.timer, item, face]
  exact h.begun

theorem PortFree.shaped {s : State} {x : ExchangePort} (h : PortFree s x) : PortShaped x := by
  constructor
  · rcases h.unclaimed with e | e <;> simp [h.slot, e]
  · rcases h.unclaimed with e | e <;> simp [h.stall, e]
  · simp [h.position]
  · exact h.begun

/-! ### What no invariant of the ports, queues, profiles and pools reads -/

/-- Scan ports that serve the same item and face in the same state. -/
structure ScanAlike (p q : ScanPort) : Prop where
  attached : q.attached = p.attached
  current : q.current = p.current
  state : q.state = p.state
  link : q.link = p.link
  shaped : ScanShaped p → ScanShaped q

/-- Exchange ports that hold the same slot, both WAITING or not, both DOWN or not. -/
structure PortAlike (x y : ExchangePort) : Prop where
  slot : y.slot = x.slot
  waiting : y.state = .waiting ↔ x.state = .waiting
  down : y.state = .down ↔ x.state = .down
  link : y.link = x.link
  shaped : PortShaped x → PortShaped y

/-- Lists of faces of the same kinds, states and strips. -/
def FacesAlike (faces others : List Face) : Prop :=
  ∃ g : Face → Face, others = faces.map g ∧ ∀ f, (g f).kind = f.kind ∧ (g f).state = f.state ∧ (g f).strips = f.strips

/-- Records that differ in measurements, findings, marks and the counts of a decided item only. -/
structure ItemAlike (i j : Item) : Prop where
  state : j.state = i.state
  lane : j.lane = i.lane
  pocket : j.pocket = i.pocket
  holder : j.holder = i.holder
  source : j.source = i.source
  renditions : j.renditions = i.renditions
  faces : FacesAlike i.faces j.faces
  free : i.state = .free → j = i

/-- Units at the same point of the same job. -/
structure UnitAlike (x y : CodingUnit) : Prop where
  job : y.job = x.job
  rung : y.rung = x.rung
  length : y.length = x.length
  undrawn : y.undrawn = x.undrawn

theorem ScanAlike.refl (p : ScanPort) : ScanAlike p p := ⟨rfl, rfl, rfl, rfl, id⟩
theorem PortAlike.refl (x : ExchangePort) : PortAlike x x := ⟨rfl, .rfl, .rfl, rfl, id⟩
theorem FacesAlike.refl (faces : List Face) : FacesAlike faces faces :=
  ⟨id, (List.map_id _).symm, fun _ => ⟨rfl, rfl, rfl⟩⟩
theorem ItemAlike.refl (i : Item) : ItemAlike i i := ⟨rfl, rfl, rfl, rfl, rfl, rfl, .refl _, fun _ => rfl⟩
theorem UnitAlike.refl (x : CodingUnit) : UnitAlike x x := ⟨rfl, rfl, rfl, rfl⟩

/-- States that no invariant tells apart but those of ranges and of memory. -/
structure Alike (s t : State) : Prop where
  low : t.pins.resetLow = s.pins.resetLow
  scan : ∀ l, ScanAlike (s.scan.get l) (t.scan.get l)
  items : ∀ k, ItemAlike (s.items.get k) (t.items.get k)
  queues : ∀ l, (t.lanes.get l).queue = (s.lanes.get l).queue
  strips : t.strips = s.strips
  pages : t.pages.free = s.pages.free ∧ t.pages.freeCount = s.pages.freeCount ∧ t.pages.reserved = s.pages.reserved
  jobs : t.jobs = s.jobs
  units : ∀ u, UnitAlike (s.units.get u) (t.units.get u)
  exchange : ∀ p, PortAlike (s.exchange.get p) (t.exchange.get p)
  claims : t.claims = s.claims
  store : t.store = s.store

/-- The relation of two vectors place by place, when one place of the second has been set. -/
theorem forall_put {α : Type} {n : Nat} {R : α → α → Prop} (refl : ∀ x, R x x) (v : Vector α n) (i : Fin n) {x : α}
    (h : R (v.get i) x) (j : Fin n) : R (v.get j) ((put v i x).get j) := by
  rw [Laws.get_put]
  split
  · rename_i same
    exact same ▸ h
  · exact refl _

section Alike
variable (s : State)

/-- A change of requests, memory, settings, causes, free values or stamps. -/
theorem alike_aside {t : State} (low : t.pins.resetLow = s.pins.resetLow) (scan : t.scan = s.scan := by rfl)
    (items : t.items = s.items := by rfl) (lanes : t.lanes = s.lanes := by rfl) (strips : t.strips = s.strips := by rfl)
    (pages : t.pages = s.pages := by rfl) (jobs : t.jobs = s.jobs := by rfl) (units : t.units = s.units := by rfl)
    (exchange : t.exchange = s.exchange := by rfl) (claims : t.claims = s.claims := by rfl)
    (store : t.store = s.store := by rfl) : Alike s t where
  low := low
  scan l := scan ▸ .refl _
  items k := items ▸ .refl _
  queues l := by rw [lanes]
  strips := strips
  pages := by rw [pages]; exact ⟨rfl, rfl, rfl⟩
  jobs := jobs
  units u := units ▸ .refl _
  exchange p := exchange ▸ .refl _
  claims := claims
  store := store

theorem Alike.refl : Alike s s := alike_aside s rfl

theorem alike_scan (l : Lane) {y : ScanPort} (h : ScanAlike (s.scan.get l) y) :
    Alike s { s with scan := put s.scan l y } :=
  { Alike.refl s with scan := forall_put .refl s.scan l h }

theorem alike_item (k : Slot) {j : Item} (h : ItemAlike (s.items.get k) j) :
    Alike s { s with items := put s.items k j } :=
  { Alike.refl s with items := forall_put .refl s.items k h }

theorem alike_unit (u : UnitNo) {y : CodingUnit} (h : UnitAlike (s.units.get u) y) :
    Alike s { s with units := put s.units u y } :=
  { Alike.refl s with units := forall_put .refl s.units u h }

theorem alike_port (p : Port) {y : ExchangePort} (h : PortAlike (s.exchange.get p) y) :
    Alike s { s with exchange := put s.exchange p y } :=
  { Alike.refl s with exchange := forall_put .refl s.exchange p h }

theorem alike_lane (l : Lane) {r : LaneRec} (h : r.queue = (s.lanes.get l).queue) :
    Alike s { s with lanes := put s.lanes l r } :=
  { Alike.refl s with queues := forall_put (R := fun a b : LaneRec => b.queue = a.queue) (fun _ => rfl) s.lanes l h }

theorem alike_headReserve (n : Nat) : Alike s { s with pages := { s.pages with headReserve := n } } :=
  { Alike.refl s with pages := ⟨rfl, rfl, rfl⟩ }

end Alike

/-! ### The changes -/

/-- How a record changes at the end of its item's landing, its renditions apart. -/
structure ItemLeaves (i j : Item) : Prop where
  state : j.state = .settling
  decided : j.pocket ≠ .pending
  lane : j.lane = i.lane
  holder : j.holder = i.holder
  source : j.source = i.source
  renditions : j.renditions = i.renditions
  faces : ∃ g : Face → Face, j.faces = i.faces.map g ∧
    ∀ f, (g f).kind = f.kind ∧ (g f).strips = f.strips ∧ (f.state = .landed → (g f).state = .landed) ∧
      (g f).state ≠ .landing

/-- How a record changes as a face of it lands and nothing rejects it, its renditions apart. -/
structure FaceLands (kind : FaceKind) (i j : Item) : Prop where
  state : j.state = i.state
  pocket : j.pocket = i.pocket
  lane : j.lane = i.lane
  holder : j.holder = i.holder
  source : j.source = i.source
  renditions : j.renditions = i.renditions
  faces : ∃ g : Face → Face, j.faces = i.faces.map g ∧
    ∀ f, (g f).kind = f.kind ∧ (g f).strips = f.strips ∧ (f.kind = kind → (g f).state = .landed) ∧
      (f.kind ≠ kind → (g f).state = f.state)

/-- The landing of an item over: its record, its port and the requests replaced. -/
def landingOver (s : State) (l : Lane) (k : Slot) (i : Item) (p : ScanPort) (a : Arbiter) : State :=
  { s with items := put s.items k i, scan := put s.scan l p, arbiter := a }

/-- The WAITING renditions of a landed face QUEUED, their jobs appended, and the port in ITEM (R41, R89). -/
def queuedUp (s : State) (l : Lane) (k : Slot) (kind : FaceKind) (i : Item) : State :=
  { s with
    items := put s.items k { i with
      renditions := i.renditions.map fun r => if FaceResults.waitsFor kind r then { r with state := .queued } else r }
    jobs := s.jobs ++ (i.renditions.filter (FaceResults.waitsFor kind)).map fun r => Job.mk k r.face r.kind
    scan := put s.scan l { s.scan.get l with state := .item, current := none } }

/-- A job taken from the queue by an IDLE unit, as far as the start of its first rung (R96). -/
def jobBegun (s : State) (u : UnitNo) (j : Job) : State :=
  ((((s.withJobs (s.jobs.filter (· ≠ j))).modPages (·.reserve (need (s.jobBudget j)))).modRendition j fun r =>
    { r with state := .coding, rung := 0, chain := [] }).modUnit u fun _ =>
      { CodingUnit.idle with job := some j, undrawn := need (s.jobBudget j) }).startRung u j 0

/-- A job ended OVERSIZE or FAULT, as far as its face's strip return (R105). -/
def jobFailed (s : State) (u : UnitNo) (j : Job) (final : RenditionState) : State :=
  (((s.giveUpPages u j).modRendition j fun r => { r with state := final }).idleUnit u).returnStrips j.slot j.face

/-- A job ended DONE, as far as its face's strip return (R105). -/
def jobDone (s : State) (u : UnitNo) (j : Job) (width rows : Nat) : State :=
  (((s.freeUndrawn u).modRendition j fun r =>
    { r with state := .done, output := some ⟨width, rows, (s.units.get u).length⟩ }).idleUnit u).returnStrips j.slot j.face

/-- The pages of a purged READY item returned and its DONE renditions CANCELLED (R26). -/
def donePurged (s : State) (k : Slot) : State :=
  (s.givePagesBack k).modItem k fun i => { i with renditions := i.renditions.map Rendition.cancelDone }

/-- A CLAIMED item READY again at its lane head (R14). -/
def claimBack (s : State) (p : Port) (y : ExchangePort) (k : Slot) (retries : Nat) : State :=
  { s with
    claims := s.claims.filter fun c => c.port ≠ p
    exchange := put s.exchange p y
    items := put s.items k { s.items.get k with state := .ready, holder := none, retries := retries } }

/-- One change, with what holds when it is made. -/
inductive Move (s : State) : State → Prop
  | alike {t : State} (h : Alike s t) : Move s t
  | scanIdle (l : Lane) (p : ScanPort) (before : (s.scan.get l).attached = none) (after : ScanFree s p) :
      Move s { s with scan := put s.scan l p }
  | admitted (l : Lane) (k : Slot) (src : Source) (bundle : Long) (position : Word) (faces : Byte) (running : Running s)
      (before : (s.scan.get l).attached = none) (up : (s.scan.get l).state ≠ .down)
      (free : (s.items.get k).state = .free) (bound : s.store.bindings.get l = some src)
      (usable : s.store.usable src = true) : Move s (FrameResults.admitted s l k src bundle position faces)
  | faceOpened (l : Lane) (k : Slot) (kind : FaceKind) (width : Nat) (attached : Attached s l k)
      (item : (s.scan.get l).state = .item) (accepted : faceOpenAccepted (s.items.get k) kind width = true) :
      Move s (s.openFace l k kind width)
  | stripTaken (l : Lane) (k : Slot) (kind : FaceKind) (strip : Nat) (rest : List Nat) (attached : Attached s l k)
      (current : (s.scan.get l).current = some kind) (strips : s.strips = strip :: rest) :
      Move s ((s.withStrips rest).modItem k (·.modFace kind fun x => { x with strips := x.strips ++ [strip] }))
  | faceLanded (l : Lane) (k : Slot) (kind : FaceKind) (i : Item) (attached : Attached s l k)
      (current : (s.scan.get l).current = some kind) (lands : FaceLands kind (s.items.get k) i) :
      Move s ((queuedUp s l k kind i).returnStrips k kind)
  | landingEnds (l : Lane) (k : Slot) (i : Item) (p : ScanPort) (a : Arbiter) (cancel : Bool) (attached : Attached s l k)
      (leaves : ItemLeaves (s.items.get k) i) (after : ScanFree s p) :
      Move s ((if cancel then (landingOver s l k i p a).cancelRenditions k else landingOver s l k i p a).returnAllStrips k)
  | cancelled (k : Slot) (settling : (s.items.get k).state = .settling) :
      Move s ((s.cancelRenditions k).returnAllStrips k)
  | donePurged (k : Slot) (ready : (s.items.get k).state = .ready) : Move s (donePurged s k)
  | settled (k : Slot) (settles : (s.items.get k).settled = true) :
      Move s (s.modItem k fun i => { i with state := .ready, disposition := some i.judge })
  | granted (k : Slot) (c : Claim) (head : s.chooseHead = some k) (claim : s.chooseClaim k = some c) : Move s (s.grant c k)
  | jobBegun (u : UnitNo) (j : Job) (idle : (s.units.get u).job = none) (queued : j ∈ s.jobs)
      (room : need (s.jobBudget j) ≤ s.pages.freeCount) : Move s (jobBegun s u j)
  | bytePlaced (u : UnitNo) (j : Job) (b : Byte) {t : State} (codes : (s.units.get u).job = some j)
      (placed : s.placeByte u j b = some t) : Move s t
  | steppedDown (u : UnitNo) (j : Job) (codes : (s.units.get u).job = some j) : Move s (s.stepDown u j)
  | jobFailed (u : UnitNo) (j : Job) (final : RenditionState) (failure : final = .oversize ∨ final = .fault)
      (codes : (s.units.get u).job = some j) : Move s (jobFailed s u j final)
  | jobDone (u : UnitNo) (j : Job) (width rows : Nat) (codes : (s.units.get u).job = some j) :
      Move s (jobDone s u j width rows)
  | claimWaits (p : Port) (mask : BitVec 4) (running : Running s) (idle : (s.exchange.get p).state = .idle) :
      Move s { s with
        claims := s.claims ++ [⟨p, mask⟩], exchange := put s.exchange p { s.exchange.get p with state := .waiting } }
  | portFreed (p : Port) (y : ExchangePort) (before : (s.exchange.get p).slot = none) (after : PortFree s y) :
      Move s { s with claims := s.claims.filter fun c => c.port ≠ p, exchange := put s.exchange p y }
  | claimBack (p : Port) (y : ExchangePort) (k : Slot) (retries : Nat) (before : (s.exchange.get p).slot = some k)
      (after : PortFree s y) : Move s (claimBack s p y k retries)

/-- Changes one after another. -/
abbrev Path : State → State → Prop := Relation.ReflTransGen Move

theorem Path.of_move {s t : State} (h : Move s t) : Path s t := .single h
theorem Path.of_alike {s t : State} (h : Alike s t) : Path s t := .single (.alike h)

end Sys2Proof.Moves
end

