-- ==== Sys2Proof/Proofs/PortsKept.lean ====
section
/-! PROOF. Each single change keeps the agreement of ports, claims and items (R9, R10, R13, R16, R131, R133, R190). -/

namespace Sys2Proof.PortsKept
open Sys2Proof.Machine Sys2Proof.Safety Sys2Proof.Moves

/-! ### The agreement in parts -/

/-- Which items the ports and claims stand for, the ports in themselves apart. -/
structure Placed (s : State) : Prop where
  attached : ∀ l k, (s.scan.get l).attached = some k ↔ ((s.items.get k).state = .landing ∧ (s.items.get k).lane = l)
  undecided : ∀ k, (s.items.get k).state = .landing → (s.items.get k).pocket = .pending
  decided : ∀ k, (s.items.get k).state ≠ .landing → (s.items.get k).state ≠ .free → (s.items.get k).pocket ≠ .pending
  claimed : ∀ p k, (s.exchange.get p).slot = some k →
    (s.items.get k).state = .claimed ∧ (s.items.get k).holder = some p
  waiting : ∀ p, (s.exchange.get p).state = .waiting ↔ ∃ c ∈ s.claims, c.port = p
  oneClaim : s.claims.Pairwise (fun a b => a.port ≠ b.port)
  inReset : s.pins.resetLow = true → (∀ k, (s.items.get k).state = .free) ∧ s.claims = []

/-- A port that runs is DOWN exactly while its link is. -/
structure Linked (s : State) : Prop where
  scan : Running s → ∀ l, (s.scan.get l).link = true ↔ (s.scan.get l).state ≠ .down
  exchange : Running s → ∀ p, (s.exchange.get p).link = true ↔ (s.exchange.get p).state ≠ .down

theorem portsAgree_iff (s : State) : PortsAgree s ↔ Placed s ∧ Linked s ∧ (∀ l, ScanShaped (s.scan.get l)) ∧
    ∀ p, PortShaped (s.exchange.get p) := by
  constructor
  · intro h
    exact ⟨⟨h.attached, h.undecided, h.decided, h.claimed, h.waiting, h.oneClaim, h.inReset⟩,
      ⟨h.scanLink, h.exchangeLink⟩, fun l => ⟨h.serving l, h.facing l, h.timing l, h.scanBegun l⟩,
      fun p => ⟨h.holding p, h.stalling p, h.streaming p, h.exchangeBegun p⟩⟩
  · rintro ⟨⟨attached, undecided, decided, claimed, waiting, oneClaim, inReset⟩, ⟨scanLink, exchangeLink⟩, scan, exchange⟩
    exact ⟨attached, undecided, decided, fun l => (scan l).serving, fun l => (scan l).facing, fun l => (scan l).timing,
      claimed, fun p => (exchange p).holding, fun p => (exchange p).stalling, fun p => (exchange p).streaming, waiting,
      oneClaim, inReset, scanLink, fun l => (scan l).begun, fun p => (exchange p).begun, exchangeLink⟩

section Agree
variable {s : State} (agree : PortsAgree s)
include agree

theorem placed : Placed s := ((portsAgree_iff s).mp agree).1
theorem linked : Linked s := ((portsAgree_iff s).mp agree).2.1
theorem scanShaped (l : Lane) : ScanShaped (s.scan.get l) := ((portsAgree_iff s).mp agree).2.2.1 l
theorem portShaped (p : Port) : PortShaped (s.exchange.get p) := ((portsAgree_iff s).mp agree).2.2.2 p

/-- The item a port serves is LANDING in its lane, PENDING. -/
theorem attached_of {l : Lane} {k : Slot} (attached : (s.scan.get l).attached = some k) : Attached s l k := by
  obtain ⟨landing, lane⟩ := (agree.attached l k).mp attached
  exact ⟨attached, lane, landing, agree.undecided k landing⟩

/-- While an item lives or a claim waits RESET_N is high. -/
theorem running_of_live {k : Slot} (live : (s.items.get k).state ≠ .free) : Running s :=
  Bool.eq_false_iff.mpr fun low => live ((agree.inReset low).1 k)

end Agree

/-! ### The ports stand for the same items -/

/-- The items' places unchanged: state, lane, pocket and holder of every item, what each port holds, and the claims. -/
theorem Placed.same {s t : State} (h : Placed s) (low : t.pins.resetLow = s.pins.resetLow)
    (attached : ∀ l, (t.scan.get l).attached = (s.scan.get l).attached)
    (items : ∀ k, (t.items.get k).state = (s.items.get k).state ∧ (t.items.get k).lane = (s.items.get k).lane ∧
      (t.items.get k).pocket = (s.items.get k).pocket ∧ (t.items.get k).holder = (s.items.get k).holder)
    (slots : ∀ p, (t.exchange.get p).slot = (s.exchange.get p).slot)
    (waiting : ∀ p, (t.exchange.get p).state = .waiting ↔ (s.exchange.get p).state = .waiting)
    (claims : t.claims = s.claims) : Placed t where
  attached l k := by
    obtain ⟨state, lane, -, -⟩ := items k
    rw [attached, state, lane]
    exact h.attached l k
  undecided k := by
    obtain ⟨state, -, pocket, -⟩ := items k
    rw [state, pocket]
    exact h.undecided k
  decided k := by
    obtain ⟨state, -, pocket, -⟩ := items k
    rw [state, pocket]
    exact h.decided k
  claimed p k := by
    obtain ⟨state, -, -, holder⟩ := items k
    rw [slots, state, holder]
    exact h.claimed p k
  waiting p := by
    rw [waiting, claims]
    exact h.waiting p
  oneClaim := claims ▸ h.oneClaim
  inReset reset := by
    rw [low] at reset
    obtain ⟨free, none⟩ := h.inReset reset
    exact ⟨fun k => (items k).1.trans (free k), claims.trans none⟩

/-- A predicate of every place of a vector, one of whose places is set. -/
theorem forall_get_put {α : Type} {n : Nat} {P : Fin n → α → Prop} {v : Vector α n} (h : ∀ i, P i (v.get i)) {i : Fin n}
    {x : α} (hx : P i x) (j : Fin n) : P j ((put v i x).get j) := by
  rw [Laws.get_put]
  split
  · rename_i same
    exact same ▸ hx
  · exact h j

theorem modItem_places (s : State) (k : Slot) {j : Item} (state : j.state = (s.items.get k).state)
    (lane : j.lane = (s.items.get k).lane) (pocket : j.pocket = (s.items.get k).pocket)
    (holder : j.holder = (s.items.get k).holder) (m : Slot) :
    ((put s.items k j).get m).state = (s.items.get m).state ∧ ((put s.items k j).get m).lane = (s.items.get m).lane ∧
      ((put s.items k j).get m).pocket = (s.items.get m).pocket ∧
      ((put s.items k j).get m).holder = (s.items.get m).holder :=
  forall_get_put (P := fun m (i : Item) => i.state = (s.items.get m).state ∧ i.lane = (s.items.get m).lane ∧
    i.pocket = (s.items.get m).pocket ∧ i.holder = (s.items.get m).holder)
    (fun _ => ⟨rfl, rfl, rfl, rfl⟩) ⟨state, lane, pocket, holder⟩ m

/-- A record changed without its state, lane, pocket and holder. -/
theorem ports_item {s : State} (agree : PortsAgree s) (k : Slot) {j : Item} (state : j.state = (s.items.get k).state)
    (lane : j.lane = (s.items.get k).lane) (pocket : j.pocket = (s.items.get k).pocket)
    (holder : j.holder = (s.items.get k).holder) : PortsAgree { s with items := put s.items k j } :=
  (portsAgree_iff _).mpr ⟨(placed agree).same rfl (fun _ => rfl) (modItem_places s k state lane pocket holder)
      (fun _ => rfl) (fun _ => .rfl) rfl, ⟨agree.scanLink, agree.exchangeLink⟩, @scanShaped s agree,
    @portShaped s agree⟩

/-- What the agreement does not read is replaced. -/
theorem ports_same {s t : State} (agree : PortsAgree s) (low : t.pins.resetLow = s.pins.resetLow := by rfl)
    (scan : t.scan = s.scan := by rfl) (items : t.items = s.items := by rfl)
    (exchange : t.exchange = s.exchange := by rfl) (claims : t.claims = s.claims := by rfl) : PortsAgree t := by
  have back (running : Running t) : Running s := low.symm.trans running
  refine (portsAgree_iff t).mpr ⟨(placed agree).same low (fun l => by rw [scan])
    (fun k => by rw [items]; exact ⟨rfl, rfl, rfl, rfl⟩) (fun p => by rw [exchange]) (fun p => by rw [exchange]) claims,
    ⟨fun running l => ?_, fun running p => ?_⟩, fun l => ?_, fun p => ?_⟩
  · rw [scan]
    exact agree.scanLink (back running) l
  · rw [exchange]
    exact agree.exchangeLink (back running) p
  · rw [scan]
    exact scanShaped agree l
  · rw [exchange]
    exact portShaped agree p

theorem ports_alike {s t : State} (agree : PortsAgree s) (h : Alike s t) : PortsAgree t := by
  refine (portsAgree_iff t).mpr ⟨(placed agree).same h.low (fun l => (h.scan l).attached) (fun k => ?_)
    (fun p => (h.exchange p).slot) (fun p => (h.exchange p).waiting) h.claims, ⟨fun running l => ?_, fun running p => ?_⟩,
    fun l => (h.scan l).shaped (scanShaped agree l), fun p => (h.exchange p).shaped (portShaped agree p)⟩
  · exact ⟨(h.items k).state, (h.items k).lane, (h.items k).pocket, (h.items k).holder⟩
  · rw [(h.scan l).link, (h.scan l).state]
    exact agree.scanLink (h.low.symm.trans running) l
  · rw [(h.exchange p).link]
    exact (agree.exchangeLink (h.low.symm.trans running) p).trans (not_congr (h.exchange p).down).symm

/-! ### Scan ports -/

/-- A scan port replaced by one that serves the same item, or none as before. -/
theorem ports_scan {s : State} (agree : PortsAgree s) (l : Lane) {q : ScanPort}
    (attached : q.attached = (s.scan.get l).attached) (shaped : ScanShaped q)
    (linked' : Running s → (q.link = true ↔ q.state ≠ .down)) : PortsAgree { s with scan := put s.scan l q } := by
  refine (portsAgree_iff _).mpr ⟨(placed agree).same rfl (fun m => ?_) (fun _ => ⟨rfl, rfl, rfl, rfl⟩)
    (fun _ => rfl) (fun _ => .rfl) rfl, ⟨fun running m => ?_, agree.exchangeLink⟩, fun m => ?_, @portShaped s agree⟩
  · exact forall_get_put (P := fun m (p : ScanPort) => p.attached = (s.scan.get m).attached) (fun _ => rfl) attached m
  · exact forall_get_put (P := fun _ (p : ScanPort) => p.link = true ↔ p.state ≠ .down) (agree.scanLink running)
      (linked' running) m
  · exact forall_get_put (P := fun _ (p : ScanPort) => ScanShaped p) (scanShaped agree) shaped m

/-- A slot given (R9): the port serves the new LANDING item. -/
theorem ports_admitted {s : State} (agree : PortsAgree s) {l : Lane} {k : Slot} {src : Source} {bundle : Long}
    {position : Word} {faces : Byte} (running : Running s) (before : (s.scan.get l).attached = none)
    (up : (s.scan.get l).state ≠ .down) (free : (s.items.get k).state = .free) :
    PortsAgree (FrameResults.admitted s l k src bundle position faces) := by
  unfold FrameResults.admitted
  have unserved (m : Lane) : (s.scan.get m).attached ≠ some k := fun e => by
    have landing := ((agree.attached m k).mp e).1
    rw [free] at landing
    cases landing
  have unheld (p : Port) : (s.exchange.get p).slot ≠ some k := fun e => by
    have claimed := (agree.claimed p k e).1
    rw [free] at claimed
    cases claimed
  have begun : (s.scan.get l).begun = true →
      sentOn (s.scan.get l).link (s.scan.get l).produced (.slotGiven position k) ≠ [] := by
    intro known
    unfold sentOn
    split
    · simp
    · exact agree.scanBegun l known
  refine (portsAgree_iff _).mpr ⟨⟨fun m j => ?_, fun j => ?_, fun j => ?_, fun p j slot => ?_, agree.waiting, agree.oneClaim,
    fun low => ?_⟩, ⟨fun _ m => ?_, agree.exchangeLink⟩, fun m => ?_, @portShaped s agree⟩
  · dsimp only
    rw [Laws.get_put, Laws.get_put]
    by_cases lane : l = m
    · subst lane
      by_cases slot : k = j
      · subst slot
        simp [newItem]
      · rw [if_pos rfl, if_neg slot, ← agree.attached l j, before]
        simp [slot]
    · by_cases slot : k = j
      · subst slot
        rw [if_neg lane, if_pos rfl]
        exact ⟨fun e => absurd e (unserved m), fun e => absurd e.2 lane⟩
      · rw [if_neg lane, if_neg slot]
        exact agree.attached m j
  · exact forall_get_put (P := fun _ (i : Item) => i.state = .landing → i.pocket = .pending) agree.undecided
      (fun _ => rfl) j
  · exact forall_get_put (P := fun _ (i : Item) => i.state ≠ .landing → i.state ≠ .free → i.pocket ≠ .pending)
      agree.decided (fun h => absurd rfl h) j
  · have other : k ≠ j := fun e => unheld p (e ▸ slot)
    dsimp only
    rw [Laws.get_put_ne _ _ other]
    exact agree.claimed p j slot
  · exact absurd (show s.pins.resetLow = true from low) (Bool.eq_false_iff.mp running)
  · refine forall_get_put (P := fun _ (p : ScanPort) => p.link = true ↔ p.state ≠ .down) (agree.scanLink running) ?_ m
    exact ⟨fun _ => nofun, fun _ => (agree.scanLink running l).mpr up⟩
  · refine forall_get_put (P := fun _ (p : ScanPort) => ScanShaped p) (scanShaped agree) ?_ m
    constructor <;> simp
    exact begun

/-- The end of an item's landing (R10): the port serves nothing. -/
theorem ports_landingOver {s : State} (agree : PortsAgree s) {l : Lane} {k : Slot} {i : Item} {q : ScanPort} (a : Arbiter)
    (attached : Attached s l k) (leaves : ItemLeaves (s.items.get k) i) (after : ScanFree s q) :
    PortsAgree (landingOver s l k i q a) := by
  obtain ⟨serves, lane, landing, -⟩ := attached
  have unheld (p : Port) : (s.exchange.get p).slot ≠ some k := fun e => by
    have claimed := (agree.claimed p k e).1
    rw [landing] at claimed
    cases claimed
  unfold landingOver
  refine (portsAgree_iff _).mpr ⟨⟨fun m j => ?_, fun j => ?_, fun j => ?_, fun p j slot => ?_, agree.waiting, agree.oneClaim,
    fun low => ?_⟩, ⟨fun running m => ?_, agree.exchangeLink⟩, fun m => ?_, @portShaped s agree⟩
  · dsimp only
    rw [Laws.get_put, Laws.get_put]
    by_cases slot : k = j
    · subst slot
      have left : ¬ (i.state = .landing ∧ i.lane = m) := by
        rintro ⟨state, -⟩
        rw [leaves.state] at state
        cases state
      rw [if_pos rfl]
      refine ⟨fun e => ?_, fun e => absurd e left⟩
      split at e
      · rw [after.attached] at e
        cases e
      · rename_i other
        exact absurd (lane.symm.trans ((agree.attached m k).mp e).2) other
    · rw [if_neg slot, ← agree.attached m j]
      split
      · rename_i same
        subst same
        rw [after.attached, serves]
        simp [slot]
      · exact .rfl
  · exact forall_get_put (P := fun _ (i : Item) => i.state = .landing → i.pocket = .pending) agree.undecided
      (fun e => by rw [leaves.state] at e; cases e) j
  · exact forall_get_put (P := fun _ (i : Item) => i.state ≠ .landing → i.state ≠ .free → i.pocket ≠ .pending)
      agree.decided (fun _ _ => leaves.decided) j
  · have other : k ≠ j := fun e => unheld p (e ▸ slot)
    dsimp only
    rw [Laws.get_put_ne _ _ other]
    exact agree.claimed p j slot
  · have live : (s.items.get k).state ≠ .free := by rw [landing]; nofun
    exact absurd (show s.pins.resetLow = true from low) (Bool.eq_false_iff.mp (running_of_live agree live))
  · exact forall_get_put (P := fun _ (p : ScanPort) => p.link = true ↔ p.state ≠ .down) (agree.scanLink running)
      (after.linked running) m
  · exact forall_get_put (P := fun _ (p : ScanPort) => ScanShaped p) (scanShaped agree) after.shaped m

/-! ### Exchange ports and claims -/

theorem eq_of_port {claims : List Claim} (one : claims.Pairwise (fun a b => a.port ≠ b.port)) {a b : Claim}
    (ha : a ∈ claims) (hb : b ∈ claims) (port : a.port = b.port) : a = b := by
  by_contra differ
  exact Laws.related_of_pairwise (fun _ _ => Ne.symm) one ha hb differ port

/-- An item behind reception, held by no port but perhaps `p`, is changed. -/
structure Released (s : State) (p : Port) (k : Slot) (i : Item) : Prop where
  before : (s.items.get k).state ≠ .landing ∧ (s.items.get k).state ≠ .free
  after : i.state ≠ .landing
  pocket : i.pocket = (s.items.get k).pocket
  unheld : ∀ q, q ≠ p → (s.exchange.get q).slot ≠ some k

/-- A port, its claim and the item it takes or gives back are changed together. -/
theorem ports_claim {s : State} (agree : PortsAgree s) (p : Port) {y : ExchangePort} {claims : List Claim}
    {items : Vector Item 256} (item : ∀ k, items.get k = s.items.get k ∨ Released s p k (items.get k))
    (holds : ∀ k, y.slot = some k → (items.get k).state = .claimed ∧ (items.get k).holder = some p)
    (shaped : PortShaped y) (linked' : Running s → (y.link = true ↔ y.state ≠ .down))
    (low : s.pins.resetLow = true → items = s.items ∧ claims = s.claims)
    (others : ∀ c : Claim, c.port ≠ p → (c ∈ claims ↔ c ∈ s.claims))
    (waiting : y.state = .waiting ↔ ∃ c ∈ claims, c.port = p)
    (one : claims.Pairwise fun a b => a.port ≠ b.port) :
    PortsAgree { s with claims := claims, exchange := put s.exchange p y, items := items } := by
  refine (portsAgree_iff _).mpr ⟨⟨fun l k => ?_, fun k => ?_, fun k => ?_, fun q k => ?_, fun q => ?_, one, fun reset => ?_⟩,
    ⟨agree.scanLink, fun running q => ?_⟩, @scanShaped s agree, fun q => ?_⟩ <;> dsimp only
  · rcases item k with same | ⟨⟨before, -⟩, after, -, -⟩
    · rw [same]
      exact agree.attached l k
    · rw [agree.attached l k]
      exact ⟨fun h => absurd h.1 before, fun h => absurd h.1 after⟩
  · rcases item k with same | ⟨-, after, -, -⟩
    · rw [same]
      exact agree.undecided k
    · exact fun h => absurd h after
  · rcases item k with same | ⟨⟨before, live⟩, -, pocket, -⟩
    · rw [same]
      exact agree.decided k
    · rw [pocket]
      exact fun _ _ => agree.decided k before live
  · rw [Laws.get_put]
    split
    · rename_i same
      subst same
      exact holds k
    · rename_i other
      intro slot
      rcases item k with same | ⟨-, -, -, unheld⟩
      · rw [same]
        exact agree.claimed q k slot
      · exact absurd slot (unheld q (Ne.symm other))
  · rw [Laws.get_put]
    split
    · rename_i same
      exact same ▸ waiting
    · rename_i other
      rw [agree.waiting q]
      refine exists_congr fun c => ⟨?_, ?_⟩ <;> rintro ⟨h, rfl⟩
      · exact ⟨(others c (Ne.symm other)).mpr h, rfl⟩
      · exact ⟨(others c (Ne.symm other)).mp h, rfl⟩
  · obtain ⟨sameItems, sameClaims⟩ := low reset
    rw [sameItems, sameClaims]
    exact agree.inReset reset
  · exact forall_get_put (P := fun _ (x : ExchangePort) => x.link = true ↔ x.state ≠ .down) (agree.exchangeLink running)
      (linked' running) q
  · exact forall_get_put (P := fun _ (x : ExchangePort) => PortShaped x) (portShaped agree) shaped q

theorem released_put {s : State} {p : Port} {k : Slot} {i : Item} (h : Released s p k i) (j : Slot) :
    (put s.items k i).get j = s.items.get j ∨ Released s p j ((put s.items k i).get j) :=
  forall_get_put (P := fun j (x : Item) => x = s.items.get j ∨ Released s p j x) (fun _ => .inl rfl) (.inr h) j

/-- A grant (R135): the port has its item's claim and waits no longer. -/
theorem ports_granted {s : State} (agree : PortsAgree s) {k : Slot} {c : Claim} (head : s.chooseHead = some k)
    (claim : s.chooseClaim k = some c) : PortsAgree (s.grant c k) := by
  have ready := Laws.Behind.chooseHead_ready head
  have waits : c ∈ s.claims := List.mem_of_find?_eq_some claim
  have waiting : (s.exchange.get c.port).state = .waiting := (agree.waiting c.port).mpr ⟨c, waits, rfl⟩
  have live : (s.items.get k).state ≠ .free := by rw [ready]; nofun
  have running : Running s := running_of_live agree live
  have up : (s.exchange.get c.port).link = true := (agree.exchangeLink running c.port).mpr (by rw [waiting]; nofun)
  have unheld (p : Port) : (s.exchange.get p).slot ≠ some k := fun e => by
    have claimed := (agree.claimed p k e).1
    rw [ready] at claimed
    cases claimed
  have unstalled : (s.exchange.get c.port).stall = none := by
    have idle := agree.stalling c.port
    rw [waiting] at idle
    simpa using idle
  rw [Grants.grant_eq]
  refine ports_claim agree c.port (released_put ⟨⟨by rw [ready]; nofun, live⟩, nofun, rfl, fun p _ => unheld p⟩) ?_ ?_ ?_ ?_ ?_
    ?_ ?_
  · rintro j ⟨⟩
    rw [Laws.get_put_same]
    exact ⟨rfl, rfl⟩
  · constructor
    · simp
    · simp [unstalled]
    · simp
    · intro _
      simp [sentOn, up]
  · exact fun _ => ⟨fun _ => nofun, fun _ => up⟩
  · exact fun low => absurd low (Bool.eq_false_iff.mp running)
  · intro d other
    have differ : d ≠ c := fun e => other (congrArg Claim.port e)
    simp [differ]
  · refine ⟨nofun, ?_⟩
    rintro ⟨d, left, port⟩
    obtain ⟨stays, differ⟩ := List.mem_filter.mp left
    exact absurd (eq_of_port agree.oneClaim stays waits port) (by simpa using differ)
  · exact agree.oneClaim.filter _

/-- A CLAIM that begins to wait (R132). -/
theorem ports_claimWaits {s : State} (agree : PortsAgree s) {p : Port} (mask : BitVec 4) (running : Running s)
    (idle : (s.exchange.get p).state = .idle) : PortsAgree { s with
      claims := s.claims ++ [⟨p, mask⟩], exchange := put s.exchange p { s.exchange.get p with state := .waiting } } := by
  have fresh : ∀ c ∈ s.claims, c.port ≠ p := fun c h port => by
    have waiting := (agree.waiting p).mpr ⟨c, h, port⟩
    rw [idle] at waiting
    cases waiting
  have slot : (s.exchange.get p).slot = none := by
    have holding := agree.holding p
    rw [idle] at holding
    simpa using holding
  have stall : (s.exchange.get p).stall = none := by
    have stalling := agree.stalling p
    rw [idle] at stalling
    simpa using stalling
  refine ports_claim agree p (fun _ => .inl rfl) ?_ ?_ ?_ ?_ ?_ ?_ ?_
  · intro k held
    exact absurd (slot.symm.trans held) nofun
  · exact ⟨by simp [slot], by simp [stall], agree.streaming p, agree.exchangeBegun p⟩
  · exact fun running => ⟨fun _ => nofun, fun _ => (agree.exchangeLink running p).mpr (by rw [idle]; nofun)⟩
  · exact fun low => absurd low (Bool.eq_false_iff.mp running)
  · intro c other
    rw [List.mem_append, List.mem_singleton]
    refine ⟨fun h => h.resolve_right fun e => other (congrArg Claim.port e), .inl⟩
  · exact ⟨fun _ => ⟨⟨p, mask⟩, List.mem_append_right _ (List.mem_singleton_self _), rfl⟩, fun _ => rfl⟩
  · rw [List.pairwise_append]
    refine ⟨agree.oneClaim, List.pairwise_singleton _ _, fun c h d e => ?_⟩
    rw [List.mem_singleton.mp e]
    exact fresh c h

section Freed
variable {s : State} (agree : PortsAgree s) (p : Port) {y : ExchangePort} (after : PortFree s y)
include agree after

/-- A port left with no claim, and perhaps its item given back. -/
theorem ports_unclaimed {items : Vector Item 256} (item : ∀ k, items.get k = s.items.get k ∨ Released s p k (items.get k))
    (low : s.pins.resetLow = true → items = s.items) : PortsAgree { s with
      claims := s.claims.filter fun c => c.port ≠ p, exchange := put s.exchange p y, items := items } := by
  refine ports_claim agree p item ?_ after.shaped after.linked (fun reset => ?_) (fun c other => ?_) ⟨?_, ?_⟩
    (agree.oneClaim.filter _)
  · intro k held
    exact absurd (after.slot.symm.trans held) nofun
  · exact ⟨low reset, by rw [(agree.inReset reset).2]; rfl⟩
  · simp [other]
  · intro waiting
    rcases after.unclaimed with e | e <;> rw [e] at waiting <;> cases waiting
  · rintro ⟨c, left, port⟩
    exact absurd port (by simpa using (List.mem_filter.mp left).2)

theorem ports_freed : PortsAgree { s with
    claims := s.claims.filter fun c => c.port ≠ p, exchange := put s.exchange p y } :=
  ports_unclaimed agree p after (items := s.items) (fun _ => .inl rfl) fun _ => rfl

omit after in
/-- The item of port `p` is held by no other port. -/
theorem released_of_slot {k : Slot} {i : Item} (before : (s.exchange.get p).slot = some k) (state : i.state ≠ .landing)
    (pocket : i.pocket = (s.items.get k).pocket) : Released s p k i := by
  obtain ⟨claimed, holder⟩ := agree.claimed p k before
  refine ⟨by rw [claimed]; exact ⟨nofun, nofun⟩, state, pocket, fun q other held => other ?_⟩
  have holders := (agree.claimed q k held).2
  rw [holder] at holders
  exact (Option.some.inj holders).symm

theorem ports_claimBack {k : Slot} (retries : Nat) (before : (s.exchange.get p).slot = some k) :
    PortsAgree (claimBack s p y k retries) := by
  refine ports_unclaimed agree p after (released_put (released_of_slot agree p before nofun rfl)) fun low => ?_
  have claimed := (agree.claimed p k before).1
  rw [(agree.inReset low).1 k] at claimed
  cases claimed

end Freed

/-! ### Behind reception -/

theorem ports_settled {s : State} (agree : PortsAgree s) {k : Slot} (settles : (s.items.get k).settled = true) :
    PortsAgree (s.modItem k fun i => { i with state := .ready, disposition := some i.judge }) := by
  obtain ⟨settling, decided, -⟩ := (Settling.settled_iff _).mp settles
  have live : (s.items.get k).state ≠ .free := by rw [settling]; nofun
  have unheld (p : Port) : (s.exchange.get p).slot ≠ some k := fun e => by
    have claimed := (agree.claimed p k e).1
    rw [settling] at claimed
    cases claimed
  have item := released_put (s := s) (p := 0) (k := k)
    (i := { s.items.get k with state := .ready, disposition := some (s.items.get k).judge })
    ⟨⟨by rw [settling]; nofun, live⟩, nofun, rfl, fun p _ => unheld p⟩
  have agreed := ports_claim agree 0 (y := s.exchange.get 0) (claims := s.claims) item (fun k' held => ?_) (portShaped agree 0)
    (fun running => agree.exchangeLink running 0) (fun low => absurd low (Bool.eq_false_iff.mp (running_of_live agree live)))
    (fun _ _ => .rfl) (agree.waiting 0) agree.oneClaim
  · rw [Laws.put_get_self] at agreed
    exact agreed
  · have other : k ≠ k' := fun e => unheld 0 (e ▸ held)
    rw [Laws.get_put_ne _ _ other]
    exact agree.claimed 0 k' held

/-- What works behind reception keeps the agreement of ports, claims and items. -/
theorem keptBehind_ports : Keeping.KeptBehind PortsAgree where
  modArbiter _ h := ports_same h
  withStrips _ h := ports_same h
  withJobs _ h := ports_same h
  modPages _ h := ports_same h
  modUnit _ _ h := ports_same h
  faces k _ h := ports_item h k rfl rfl rfl rfl
  renditions k _ h := ports_item h k rfl rfl rfl rfl
  settled _ settles h := ports_settled h settles
  granted _ _ head claim h := ports_granted h head claim

/-! ### Each change -/

/-- A port that goes on serving its item, its state and face changed. -/
theorem ports_serving {s : State} (agree : PortsAgree s) {l : Lane} {k : Slot} (attached : Attached s l k)
    {state : ScanState} {current : Option FaceKind} (serves : state = .item ∨ state = .face)
    (face : current.isSome ↔ state = .face) :
    PortsAgree { s with scan := put s.scan l { s.scan.get l with state := state, current := current } } := by
  have shaped := scanShaped agree l
  have live : (s.items.get k).state ≠ .free := by rw [attached.2.2.1]; nofun
  have running := running_of_live agree live
  have up : (s.scan.get l).link = true := by
    refine (agree.scanLink running l).mpr fun down => ?_
    have serving := (agree.serving l).mp (by rw [attached.1]; rfl)
    rw [down] at serving
    rcases serving with e | e <;> cases e
  have attachedSome : (s.scan.get l).attached.isSome = true := by rw [attached.1]; rfl
  refine ports_scan agree l rfl ⟨iff_of_true attachedSome serves, face, shaped.timing, shaped.begun⟩ fun _ =>
    iff_of_true up ?_
  rcases serves with rfl | rfl <;> nofun

theorem ports_faceOpened {s : State} (agree : PortsAgree s) {l : Lane} {k : Slot} (attached : Attached s l k)
    (kind : FaceKind) (width : Nat) : PortsAgree (s.openFace l k kind width) := by
  have opened := ports_item (j := { s.items.get k with
    faces := (s.items.get k).faces ++ [newFace (s.itemRecord k) kind width]
    renditions := (s.items.get k).renditions ++ newRenditions (s.itemRecord k) kind }) agree k rfl rfl rfl rfl
  refine ports_serving (k := k) (state := .face) (current := some kind) opened ?_ (.inr rfl) (iff_of_true rfl rfl)
  obtain ⟨serves, lane, landing, pending⟩ := attached
  exact ⟨serves, by dsimp only; rwa [Laws.get_put_same], by dsimp only; rwa [Laws.get_put_same], by
    dsimp only; rwa [Laws.get_put_same]⟩

theorem ports_queuedUp {s : State} (agree : PortsAgree s) {l : Lane} {k : Slot} {kind : FaceKind} {i : Item}
    (attached : Attached s l k) (lands : FaceLands kind (s.items.get k) i) : PortsAgree (queuedUp s l k kind i) :=
  have serves := ports_serving (state := .item) (current := none) agree attached (.inl rfl) (iff_of_false nofun nofun)
  ports_same (ports_item serves k (j := { i with
    renditions := i.renditions.map fun r => if FaceResults.waitsFor kind r then { r with state := .queued } else r })
    lands.state lands.lane lands.pocket lands.holder)

/-- No change breaks the agreement of ports, claims and items. -/
theorem move_ports {s t : State} (move : Move s t) (agree : PortsAgree s) : PortsAgree t := by
  have kept := keptBehind_ports
  cases move with
  | alike h => exact ports_alike agree h
  | scanIdle l p before after => exact ports_scan agree l (after.attached.trans before.symm) after.shaped after.linked
  | admitted l k src bundle position faces running before up free => exact ports_admitted agree running before up free
  | faceOpened l k kind width attached => exact ports_faceOpened agree attached kind width
  | stripTaken l k kind strip rest => exact kept.faces k _ (kept.withStrips rest agree)
  | faceLanded l k kind i attached current lands => exact kept.returnStrips (ports_queuedUp agree attached lands) k kind
  | landingEnds l k i p a cancel attached leaves after =>
    have ended := ports_landingOver agree a attached leaves after
    cases cancel with
    | false => exact kept.returnAllStrips ended k
    | true => exact kept.returnAllStrips (kept.cancelRenditions ended k) k
  | cancelled k => exact kept.returnAllStrips (kept.cancelRenditions agree k) k
  | donePurged k => exact kept.renditions k _ (kept.renditions k _ (kept.modPages _ agree))
  | settled k settles => exact ports_settled agree settles
  | granted k c head claim => exact ports_granted agree head claim
  | jobBegun u j =>
    exact kept.startRung (kept.modUnit u _ (kept.modRendition (kept.modPages _ (kept.withJobs _ agree)) j _)) u j 0
  | bytePlaced u j b codes placed => exact kept.placeByte agree placed
  | steppedDown u j => exact kept.stepDown agree u j
  | jobFailed u j final =>
    exact kept.returnStrips (kept.idleUnit (kept.modRendition (kept.giveUpPages agree u j) j _) u) _ _
  | jobDone u j width rows =>
    exact kept.returnStrips (kept.idleUnit (kept.modRendition (kept.freeUndrawn agree u) j _) u) _ _
  | claimWaits p mask running idle => exact ports_claimWaits agree mask running idle
  | portFreed p y before after => exact ports_freed agree p after
  | claimBack p y k retries before after => exact ports_claimBack agree p after retries before

theorem path_ports {s t : State} (path : Path s t) (agree : PortsAgree s) : PortsAgree t := by
  induction path with
  | refl => exact agree
  | tail _ move ih => exact move_ports move ih

end Sys2Proof.PortsKept
end

