-- ==== Sys2Proof/Proofs/Residents.lean ====
section
/-! PROOF. What each single change leaves of the items that live, their lanes' queues and their profile sources: a change but a
slot given leaves them all, and a slot given adds one (R3, R9, R16, R160). -/

namespace Sys2Proof.Residents
open Sys2Proof.Machine Sys2Proof.Safety Sys2Proof.Moves Sys2Proof.StoreSound Sys2Proof.SourcesGuarded

/-- The same items live, in the same lanes, with the same sources, and the queues and the store are as they were. -/
structure Resident (s t : State) : Prop where
  low : t.pins.resetLow = s.pins.resetLow
  queues : ∀ l, (t.lanes.get l).queue = (s.lanes.get l).queue
  store : t.store = s.store
  free : ∀ k, (t.items.get k).state = .free ↔ (s.items.get k).state = .free
  lane : ∀ k, (t.items.get k).lane = (s.items.get k).lane
  source : ∀ k, (t.items.get k).source = (s.items.get k).source
  empty : ∀ k, s.items.get k = Item.empty → t.items.get k = Item.empty

namespace Resident
variable {s t u : State}

theorem refl (s : State) : Resident s s := ⟨rfl, fun _ => rfl, rfl, fun _ => .rfl, fun _ => rfl, fun _ => rfl, fun _ => id⟩

theorem trans (h : Resident s t) (g : Resident t u) : Resident s u where
  low := g.low.trans h.low
  queues l := (g.queues l).trans (h.queues l)
  store := g.store.trans h.store
  free k := (g.free k).trans (h.free k)
  lane k := (g.lane k).trans (h.lane k)
  source k := (g.source k).trans (h.source k)
  empty k e := g.empty k (h.empty k e)

/-- What does not stand in the items, the lanes, the store and RESET_N is replaced. -/
theorem same (h : Resident s t) (low : u.pins = t.pins := by rfl) (lanes : u.lanes = t.lanes := by rfl)
    (store : u.store = t.store := by rfl) (items : u.items = t.items := by rfl) : Resident s u := by
  refine h.trans ⟨by rw [low], fun l => by rw [lanes], store, fun k => ?_, fun k => ?_, fun k => ?_, fun k => ?_⟩ <;>
    rw [items]
  exact id

/-- A record changed that keeps its lane and source and lives on, or is left as it is. -/
theorem item (h : Resident s t) (k : Slot) {j : Item} (free : j.state = .free ↔ (t.items.get k).state = .free)
    (lane : j.lane = (t.items.get k).lane) (source : j.source = (t.items.get k).source)
    (empty : t.items.get k = Item.empty → j = Item.empty) : Resident s { t with items := put t.items k j } := by
  refine h.trans ⟨rfl, fun _ => rfl, rfl, fun m => ?_, fun m => ?_, fun m => ?_, fun m => ?_⟩
  · exact forall_put (R := fun a b : Item => b.state = .free ↔ a.state = .free) (fun _ => .rfl) t.items k free m
  · exact forall_put (R := fun a b : Item => b.lane = a.lane) (fun _ => rfl) t.items k lane m
  · exact forall_put (R := fun a b : Item => b.source = a.source) (fun _ => rfl) t.items k source m
  · exact forall_put (R := fun a b : Item => a = Item.empty → b = Item.empty) (fun _ => id) t.items k empty m

/-- A live record changed that lives on with its lane and source. -/
theorem live (h : Resident s t) {k : Slot} {j : Item} (before : (t.items.get k).state ≠ .free) (after : j.state ≠ .free)
    (lane : j.lane = (t.items.get k).lane) (source : j.source = (t.items.get k).source) :
    Resident s { t with items := put t.items k j } :=
  h.item k (iff_of_false after before) lane source fun e => absurd (congrArg Item.state e) before

end Resident

/-- What works behind reception leaves the items that live in their places. -/
theorem keptBehind_resident (s : State) : Keeping.KeptBehind (Resident s) where
  modArbiter _ h := h.same
  withStrips _ h := h.same
  withJobs _ h := h.same
  modPages _ h := h.same
  modUnit _ _ h := h.same
  faces k f h := h.item k .rfl rfl rfl fun e => by rw [e]; rfl
  renditions k f h := h.item k .rfl rfl rfl fun e => by rw [e]; rfl
  settled k settles h := by
    have settling := ((Settling.settled_iff _).mp settles).1
    exact h.live (by rw [settling]; nofun) nofun rfl rfl
  granted {t} k c head _ h := by
    have ready := Laws.Behind.chooseHead_ready head
    rw [Grants.grant_eq]
    exact (h.live (j := { t.items.get k with state := .claimed, holder := some c.port }) (by rw [ready]; nofun) nofun rfl
      rfl).same

/-- Every change but a slot given leaves the items that live in their places. -/
theorem move_resident {s t : State} (move : Move s t) (agree : PortsAgree s) :
    Resident s t ∨ ∃ l k src bundle position faces, (s.items.get k).state = .free ∧ s.store.bindings.get l = some src ∧
      s.store.usable src = true ∧ t = FrameResults.admitted s l k src bundle position faces := by
  have kept := keptBehind_resident s
  have here := Resident.refl s
  have live {l : Lane} {k : Slot} (attached : Attached s l k) : (s.items.get k).state ≠ .free := by
    rw [attached.2.2.1]
    nofun
  cases move with
  | admitted l k src bundle position faces running before up free bound usable =>
    exact .inr ⟨l, k, src, bundle, position, faces, free, bound, usable, rfl⟩
  | alike h =>
    refine .inl ⟨h.low, h.queues, h.store, fun k => by rw [(h.items k).state], fun k => (h.items k).lane,
      fun k => (h.items k).source, fun k e => ?_⟩
    rw [(h.items k).free (congrArg Item.state e), e]
  | scanIdle | claimWaits | portFreed => exact .inl here.same
  | faceOpened l k kind width attached =>
    exact .inl ((here.live (k := k) (j := { s.items.get k with
      faces := (s.items.get k).faces ++ [newFace (s.itemRecord k) kind width]
      renditions := (s.items.get k).renditions ++ newRenditions (s.itemRecord k) kind }) (live attached) (live attached) rfl
      rfl).same)
  | stripTaken l k kind strip rest => exact .inl (kept.faces k _ (kept.withStrips rest here))
  | faceLanded l k kind i attached current lands =>
    have landed := here.live (k := k) (j := { i with
      renditions := i.renditions.map fun r => if FaceResults.waitsFor kind r then { r with state := .queued } else r })
      (live attached) (fun e => live attached (lands.state.symm.trans e)) lands.lane lands.source
    exact .inl (kept.returnStrips (landed.same (u := queuedUp s l k kind i)) k kind)
  | landingEnds l k i p a cancel attached leaves after =>
    have left := here.live (k := k) (j := i) (live attached) (by rw [leaves.state]; nofun) leaves.lane leaves.source
    have ended : Resident s (landingOver s l k i p a) := left.same
    cases cancel with
    | false => exact .inl (kept.returnAllStrips ended k)
    | true => exact .inl (kept.returnAllStrips (kept.cancelRenditions ended k) k)
  | cancelled k => exact .inl (kept.returnAllStrips (kept.cancelRenditions here k) k)
  | donePurged k => exact .inl (kept.renditions k _ (kept.renditions k _ (kept.modPages _ here)))
  | settled k settles => exact .inl (kept.settled k settles here)
  | granted k c head claim => exact .inl (kept.granted k c head claim here)
  | jobBegun u j =>
    exact .inl (kept.startRung (kept.modUnit u _ (kept.modRendition (kept.modPages _ (kept.withJobs _ here)) j _)) u j 0)
  | bytePlaced u j b codes placed => exact .inl (kept.placeByte here placed)
  | steppedDown u j => exact .inl (kept.stepDown here u j)
  | jobFailed u j final =>
    exact .inl (kept.returnStrips (kept.idleUnit (kept.modRendition (kept.giveUpPages here u j) j _) u) _ _)
  | jobDone u j width rows =>
    exact .inl (kept.returnStrips (kept.idleUnit (kept.modRendition (kept.freeUndrawn here u) j _) u) _ _)
  | claimBack p y k retries before after =>
    have claimed := (agree.claimed p k before).1
    exact .inl ((here.live (k := k) (j := { s.items.get k with state := .ready, holder := none, retries := retries })
      (by rw [claimed]; nofun) nofun rfl rfl).same)

/-! ### Queues -/

/-- A change of the queues that takes no slot out of FREE but at their tails. -/
def QueuesGrow (s t : State) : Prop :=
  ∀ l, ∃ (stays : Slot → Bool) (joined : List Slot),
    (t.lanes.get l).queue = (s.lanes.get l).queue.filter stays ++ joined ∧ ∀ k ∈ joined, (s.items.get k).state = .free

theorem queuesGrow_same {s t : State} (same : ∀ l, (t.lanes.get l).queue = (s.lanes.get l).queue) : QueuesGrow s t :=
  fun l => ⟨fun _ => true, [], by rw [same, List.filter_true, List.append_nil], nofun⟩

theorem queuesGrow_trans {s t u : State} (h : QueuesGrow s t) (g : QueuesGrow t u)
    (unfreed : ∀ k, (t.items.get k).state = .free → (s.items.get k).state = .free) : QueuesGrow s u := by
  intro l
  obtain ⟨stays, joined, e, new⟩ := h l
  obtain ⟨stays', joined', e', new'⟩ := g l
  refine ⟨fun k => stays' k && stays k, joined.filter stays' ++ joined', ?_, fun k mem => ?_⟩
  · rw [e', e, List.filter_append, List.filter_filter, List.append_assoc]
  · rcases List.mem_append.mp mem with mem | mem
    · exact new k (List.mem_filter.mp mem).1
    · exact unfreed k (new' k mem)

theorem queues_resident {s t : State} (agree : QueuesAgree s) (h : Resident s t) : QueuesAgree t where
  live l k := by
    rw [h.queues, h.lane, ne_eq, h.free]
    exact agree.live l k
  once l := by
    rw [h.queues]
    exact agree.once l

section Admitted
variable {s : State} {l : Lane} {k : Slot} {src : Source} {bundle : Long} {position : Word} {faces : Byte}

theorem admitted_queue (m : Lane) : ((FrameResults.admitted s l k src bundle position faces).lanes.get m).queue =
    (s.lanes.get m).queue ++ if l = m then [k] else [] := by
  show ((put s.lanes l _).get m).queue = _
  rw [Laws.get_put]
  split
  · rename_i same
    rw [same]
  · rw [List.append_nil]

theorem admitted_item (m : Slot) : (FrameResults.admitted s l k src bundle position faces).items.get m =
    if k = m then newItem s l src bundle position faces else s.items.get m :=
  Laws.get_put _ _ _ _

theorem queues_admitted (agree : QueuesAgree s) (free : (s.items.get k).state = .free) :
    QueuesAgree (FrameResults.admitted s l k src bundle position faces) := by
  have out (m : Lane) : k ∉ (s.lanes.get m).queue := fun mem => ((agree.live m k).mp mem).1 free
  refine ⟨fun m j => ?_, fun m => ?_⟩
  · rw [admitted_queue, admitted_item, List.mem_append]
    by_cases slot : k = j
    · subst slot
      rw [if_pos rfl]
      have fresh : (newItem s l src bundle position faces).state ≠ .free ∧
          (newItem s l src bundle position faces).lane = l := ⟨nofun, rfl⟩
      rw [fresh.2]
      refine ⟨fun mem => ⟨fresh.1, ?_⟩, fun e => .inr ?_⟩
      · by_contra other
        rw [if_neg other] at mem
        exact mem.elim (out m) List.not_mem_nil
      · rw [if_pos e.2]
        exact List.mem_singleton_self k
    · rw [if_neg slot, ← agree.live m j]
      refine or_iff_left fun mem => slot ?_
      split at mem
      · exact (List.mem_singleton.mp mem).symm
      · exact absurd mem List.not_mem_nil
  · rw [admitted_queue]
    split
    · rw [List.nodup_append]
      exact ⟨agree.once m, List.nodup_singleton k, fun a mem b single e => out m (by
        rw [← List.mem_singleton.mp single, ← e]; exact mem)⟩
    · rw [List.append_nil]
      exact agree.once m

theorem queuesGrow_admitted (free : (s.items.get k).state = .free) :
    QueuesGrow s (FrameResults.admitted s l k src bundle position faces) := fun m =>
  ⟨fun _ => true, if l = m then [k] else [], by rw [admitted_queue, List.filter_true], fun j mem => by
    split at mem
    · rw [List.mem_singleton.mp mem]
      exact free
    · cases mem⟩

end Admitted

/-- No change frees a slot. -/
theorem move_unfreed {s t : State} (move : Move s t) (agree : PortsAgree s) (k : Slot)
    (free : (t.items.get k).state = .free) : (s.items.get k).state = .free := by
  rcases move_resident move agree with h | ⟨l, j, src, bundle, position, faces, free', -, -, rfl⟩
  · exact (h.free k).mp free
  · rw [admitted_item] at free
    split at free
    · cases free
    · exact free

theorem move_queues {s t : State} (move : Move s t) (ports : PortsAgree s) (agree : QueuesAgree s) :
    QueuesAgree t ∧ QueuesGrow s t := by
  rcases move_resident move ports with h | ⟨l, k, src, bundle, position, faces, free, -, -, rfl⟩
  · exact ⟨queues_resident agree h, queuesGrow_same h.queues⟩
  · exact ⟨queues_admitted agree free, queuesGrow_admitted free⟩

theorem path_unfreed {s t : State} (path : Path s t) (agree : PortsAgree s) (k : Slot)
    (free : (t.items.get k).state = .free) : (s.items.get k).state = .free := by
  induction path with
  | refl => exact free
  | tail before move ih => exact ih (move_unfreed move (PortsKept.path_ports before agree) k free)

theorem path_queues {s t : State} (path : Path s t) (ports : PortsAgree s) (agree : QueuesAgree s) :
    QueuesAgree t ∧ QueuesGrow s t := by
  induction path with
  | refl => exact ⟨agree, queuesGrow_same fun _ => rfl⟩
  | tail before move ih =>
    obtain ⟨agreed, grown⟩ := ih
    obtain ⟨agreed', grown'⟩ := move_queues move (PortsKept.path_ports before ports) agreed
    exact ⟨agreed', queuesGrow_trans grown grown' (path_unfreed before ports)⟩

/-! ### Profile sources -/

/-- A record's part in the pin count of a source. -/
def pinMark (src : Source) (i : Item) : List Nat := if i.source = some src then [0] else []

theorem pinned_eq (s : State) (src : Source) : pinned s src = (s.items.toList.flatMap (pinMark src)).length := by
  unfold pinned
  induction s.items.toList with
  | nil => rfl
  | cons i l ih =>
    rw [List.filter_cons, List.flatMap_cons, List.length_append, ← ih, pinMark]
    by_cases here : i.source = some src
    · simp only [here, decide_true, if_true, List.length_cons, List.length_nil]
      omega
    · simp only [here, decide_false, Bool.false_eq_true, if_false, List.length_nil, Nat.zero_add]

/-- A record replaced: its own mark leaves the count and the new one's enters. -/
theorem pinned_put {s t : State} (src : Source) {k : Slot} {j : Item} (items : t.items = put s.items k j) :
    pinned t src + (pinMark src (s.items.get k)).length = pinned s src + (pinMark src j).length := by
  have perm := (Laws.held_modItem (pinMark src) s k fun _ => j).length_eq
  rw [List.length_append, List.length_append] at perm
  rw [pinned_eq, pinned_eq, items]
  exact perm

theorem pinned_congr {s t : State} (src : Source) (same : ∀ k, (t.items.get k).source = (s.items.get k).source) :
    pinned t src = pinned s src := by
  have maps : t.items.toList.map (pinMark src) = s.items.toList.map (pinMark src) := by
    refine List.ext_getElem (by simp) fun n h _ => ?_
    have bound : n < 256 := by simpa using h
    have e : t.items[n].source = s.items[n].source := same ⟨n, bound⟩
    simp [pinMark, e]
  rw [pinned_eq, pinned_eq, List.flatMap_def, List.flatMap_def, maps]

theorem pinned_resident {s t : State} (pinned : Pinned s) (h : Resident s t) : Pinned t where
  pins src := by
    rw [h.store, pinned_congr src h.source]
    exact pinned.pins src
  latched k live := by
    rw [h.source]
    exact pinned.latched k fun free => live ((h.free k).mpr free)
  emptied k free := h.empty k (pinned.emptied k ((h.free k).mp free))

theorem modPins_pinCount (st : Store) (src other : Source) (f : Nat → Nat) :
    (st.modPins src f).pinCount other = if src = other then f (st.pinCount other) else st.pinCount other := by
  cases src with
  | block b =>
    cases other with
    | block c =>
      show (put st.pins b _).get c = _
      rw [Laws.get_put]
      by_cases same : b = c
      · subst same
        rw [if_pos rfl, if_pos rfl]
        rfl
      · rw [if_neg same, if_neg (fun e => same (Source.block.inj e))]
        rfl
    | staging => rfl
  | staging =>
    cases other with
    | block c => rfl
    | staging => rfl

/-- Changes of pin counts leave the rest of the store. -/
theorem modPins_rest (st : Store) (src : Source) (f : Nat → Nat) : st.modPins src f =
    { st with pins := (st.modPins src f).pins, stagingPins := (st.modPins src f).stagingPins } := by
  cases src <;> rfl

section Admitted
variable {s : State} {l : Lane} {k : Slot} {src : Source} {bundle : Long} {position : Word} {faces : Byte}

theorem pinned_admitted (pinned : Pinned s) (free : (s.items.get k).state = .free) :
    Pinned (FrameResults.admitted s l k src bundle position faces) where
  pins other := by
    have count := pinned_put other (s := s) (t := FrameResults.admitted s l k src bundle position faces)
      (k := k) (j := newItem s l src bundle position faces) rfl
    have before : pinMark other (s.items.get k) = [] := by rw [pinned.emptied k free]; rfl
    have after : pinMark other (newItem s l src bundle position faces) = if src = other then [0] else [] := by
      simp only [pinMark, newItem, Option.some.injEq]
    rw [before, after, ← pinned.pins other] at count
    show (s.store.modPins src (· + 1)).pinCount other = _
    rw [modPins_pinCount]
    split at count <;> rename_i same <;> simp only [same, if_true, if_false, List.length_cons, List.length_nil] at count ⊢ <;>
      omega
  latched j live := by
    rw [admitted_item] at live ⊢
    split
    · rfl
    · rename_i other
      rw [if_neg other] at live
      exact pinned.latched j live
  emptied j free' := by
    rw [admitted_item] at free' ⊢
    split
    · rename_i same
      rw [if_pos same] at free'
      cases free'
    · rename_i other
      rw [if_neg other] at free'
      exact pinned.emptied j free'

theorem guarded_admitted (guarded : SourcesGuarded s) (usable : s.store.usable src = true) :
    SourcesGuarded (FrameResults.admitted s l k src bundle position faces) := by
  obtain ⟨⟨used, operating, scanning⟩, low⟩ := (guarded_iff s).mp guarded
  refine (guarded_iff _).mpr ⟨?_, ?_⟩
  · show StoreGuarded (s.store.modPins src (· + 1))
    rw [modPins_rest]
    refine ⟨fun other inUse => ?_, operating, scanning⟩
    have before : s.store.usable other = true := by
      rcases (inUse_iff _ other).mp inUse with counted | bound
      · rw [← modPins_rest, modPins_pinCount] at counted
        by_cases same : src = other
        · exact same ▸ usable
        · rw [if_neg same] at counted
          exact used other ((inUse_iff _ other).mpr (.inl counted))
      · exact used other ((inUse_iff _ other).mpr (.inr bound))
    cases other <;> exact before
  · show s.pins.resetLow = true → (s.store.modPins src (· + 1)).phase = .starting
    rw [modPins_rest]
    exact low

theorem sound_modPins {st : Store} (sound : Sound st) (f : Nat → Nat) : Sound (st.modPins src f) := by
  rw [modPins_rest]
  refine ⟨fun other usable => ?_, sound.closed, sound.opened, sound.programming⟩
  cases other with
  | block b => exact sound.checked (.block b) usable
  | staging => exact sound.checked .staging usable

end Admitted

/-- What the profiles' invariants say together. -/
structure Profiled (s : State) : Prop where
  guarded : SourcesGuarded s
  pinned : Pinned s
  sound : Sound s.store

theorem move_profiled {s t : State} (move : Move s t) (ports : PortsAgree s) (h : Profiled s) : Profiled t := by
  rcases move_resident move ports with same | ⟨l, k, src, bundle, position, faces, free, bound, usable, rfl⟩
  · exact ⟨guarded_of_same h.guarded same.store same.low, pinned_resident h.pinned same, same.store ▸ h.sound⟩
  · exact ⟨guarded_admitted h.guarded usable, pinned_admitted h.pinned free, sound_modPins h.sound _⟩

theorem path_profiled {s t : State} (path : Path s t) (ports : PortsAgree s) (h : Profiled s) : Profiled t := by
  induction path with
  | refl => exact h
  | tail before move ih => exact move_profiled move (PortsKept.path_ports before ports) ih

end Sys2Proof.Residents
end

