-- ==== Sys2Proof/Proofs/WalksBehind.lean ====
section
/-! PROOF. What works behind reception is a path of single changes: grants, settling, coding jobs and the dispatcher, and what
follows the end of a landing (R11, R96 to R108, R134). -/

namespace Sys2Proof.Walks
open Sys2Proof.Machine Sys2Proof.Safety Sys2Proof.Moves

/-! ### A path prolonged -/

section
variable {s t : State} (path : Path s t)
include path

omit path in
theorem Path.of_eq (same : t = s) : Path s t := same ▸ .refl

theorem Path.move {u : State} (move : Move t u) : Path s u := .tail path move
theorem Path.alike {u : State} (alike : Alike t u) : Path s u := .tail path (.alike alike)

/-- A change of requests, memory, settings, causes, free values or stamps. -/
theorem Path.aside {u : State} (low : u.pins.resetLow = t.pins.resetLow := by rfl) (scan : u.scan = t.scan := by rfl)
    (items : u.items = t.items := by rfl) (lanes : u.lanes = t.lanes := by rfl) (strips : u.strips = t.strips := by rfl)
    (pages : u.pages = t.pages := by rfl) (jobs : u.jobs = t.jobs := by rfl) (units : u.units = t.units := by rfl)
    (exchange : u.exchange = t.exchange := by rfl) (claims : u.claims = t.claims := by rfl)
    (store : u.store = t.store := by rfl) : Path s u :=
  Path.alike path (alike_aside t low scan items lanes strips pages jobs units exchange claims store)

theorem Path.setCause (c : Cause) : Path s (t.setCause c) := Path.aside path

theorem Path.scan (l : Lane) {q : ScanPort} (h : ScanAlike (t.scan.get l) q) :
    Path s { t with scan := put t.scan l q } := Path.alike path (alike_scan t l h)
theorem Path.item (k : Slot) {j : Item} (h : ItemAlike (t.items.get k) j) :
    Path s { t with items := put t.items k j } := Path.alike path (alike_item t k h)
theorem Path.unit (u : UnitNo) {y : CodingUnit} (h : UnitAlike (t.units.get u) y) :
    Path s { t with units := put t.units u y } := Path.alike path (alike_unit t u h)
theorem Path.port (p : Port) {y : ExchangePort} (h : PortAlike (t.exchange.get p) y) :
    Path s { t with exchange := put t.exchange p y } := Path.alike path (alike_port t p h)

end

/-! ### The release arbiter and settling -/

theorem grantUpTo_path (n : Nat) (s : State) : Path s (State.grantUpTo n s) := by
  induction n generalizing s with
  | zero => exact .refl
  | succ n ih =>
    unfold State.grantUpTo
    split
    · exact .refl
    · rename_i k head
      split
      · exact .refl
      · rename_i c claim
        exact (Path.of_move (.granted k c head claim)).trans (ih _)

theorem releaseAct_path (s : State) : Path s s.releaseAct := grantUpTo_path _ s

theorem settle_path (s : State) (k : Slot) : Path s (s.settle k) := by
  unfold State.settle
  split
  · rename_i settles
    have settled := Path.of_move (.settled k settles)
    dsimp only
    split
    · exact settled.trans (releaseAct_path _)
    · exact settled
  · exact .refl

/-! ### Coding jobs -/

section Jobs
variable {s t : State} {u : UnitNo} {j : Job}

theorem drawPage_job : ((s.drawPage u j).units.get u).job = (s.units.get u).job := by
  unfold State.drawPage
  split
  · rfl
  · rw [Laws.modUnit_units, Laws.get_put_same]
    rfl

theorem placeByte_job {b : Byte} (placed : s.placeByte u j b = some t) : (t.units.get u).job = (s.units.get u).job := by
  unfold State.placeByte at placed
  dsimp only at placed
  split at placed
  · cases placed
  · obtain rfl := Option.some.inj placed
    rw [Laws.modUnit_units, Laws.get_put_same]
    dsimp only
    split
    · exact drawPage_job
    · rfl

theorem placeBytes_path (bytes : List Byte) (codes : (s.units.get u).job = some j) :
    Path s (Dispatch.placedState (State.placeBytes u j bytes s)) ∧
      ((Dispatch.placedState (State.placeBytes u j bytes s)).units.get u).job = some j := by
  have kept (bytes : List Byte) : Path s (s.modUnit u fun x => { x with unplaced := bytes }) ∧
      ((s.modUnit u fun x => { x with unplaced := bytes }).units.get u).job = some j :=
    ⟨Path.unit .refl u ⟨rfl, rfl, rfl, rfl⟩, by rw [Laws.modUnit_units, Laws.get_put_same]; exact codes⟩
  induction bytes generalizing s with
  | nil => exact kept []
  | cons b bytes ih =>
    unfold State.placeBytes
    split
    · exact kept (b :: bytes)
    · split
      · exact ⟨.refl, codes⟩
      · rename_i t placed
        have codes' := (placeByte_job placed).trans codes
        have first := Path.of_move (.bytePlaced u j b codes placed)
        obtain ⟨path, still⟩ := ih codes' fun bytes =>
          ⟨Path.unit .refl u ⟨rfl, rfl, rfl, rfl⟩, by rw [Laws.modUnit_units, Laws.get_put_same]; exact codes'⟩
        exact ⟨first.trans path, still⟩

/-- A unit that goes on with its job asks for a burst. -/
theorem unitAsks_path {f : CodingUnit → CodingUnit} (same : UnitAlike (s.units.get u) (f (s.units.get u))) :
    Path s ((s.modUnit u f).request (.cu u)) :=
  Path.aside (Path.unit .refl u same)

theorem nextRequest_path : Path s (s.nextRequest u j) := unitAsks_path ⟨rfl, rfl, rfl, rfl⟩

theorem failJob_path {final : RenditionState} (failure : final = .oversize ∨ final = .fault)
    (codes : (s.units.get u).job = some j) : Path s (s.failJob u j final) :=
  (Path.of_move (.jobFailed u j final failure codes)).trans (settle_path _ _)

theorem doneJob_path (codes : (s.units.get u).job = some j) : Path s (s.doneJob u j) :=
  (Path.of_move (.jobDone u j _ _ codes)).trans (settle_path _ _)

theorem startRung_job (rung : Nat) : ((s.startRung u j rung).units.get u).job = (s.units.get u).job := by
  unfold State.startRung
  dsimp only
  rw [drawPage_job, Laws.modUnit_units, Laws.get_put_same]

theorem stepDown_job : ((s.stepDown u j).units.get u).job = (s.units.get u).job := by
  unfold State.stepDown
  dsimp only
  rw [startRung_job, Laws.modUnit_units, Laws.get_put_same]
  rfl

theorem runUnit_path (n : Nat) (codes : (s.units.get u).job = some j) : Path s (State.runUnit n s u j) := by
  induction n generalizing s with
  | zero =>
    unfold State.runUnit
    obtain ⟨path, still⟩ := placeBytes_path (s.units.get u).unplaced codes
    split <;> rename_i t e <;> rw [e] at path still
    · exact path.trans nextRequest_path
    · exact path.trans (failJob_path (.inl rfl) still)
  | succ n ih =>
    unfold State.runUnit
    obtain ⟨path, still⟩ := placeBytes_path (s.units.get u).unplaced codes
    split <;> rename_i t e <;> rw [e] at path still
    · exact path.trans nextRequest_path
    · split
      · exact (Path.move path (.steppedDown u j still)).trans (ih (stepDown_job.trans still))
      · exact path.trans (failJob_path (.inl rfl) still)

theorem startJob_path (idle : (s.units.get u).job = none) (queued : j ∈ s.jobs)
    (room : need (s.jobBudget j) ≤ s.pages.freeCount) : Path s (s.startJob u j) := by
  refine (Path.of_move (.jobBegun u j idle queued room)).trans (runUnit_path maxStepDowns ?_)
  unfold jobBegun
  rw [startRung_job, Laws.modUnit_units, Laws.get_put_same]

theorem idleUnit_some (h : s.idleUnit? = some u) : (s.units.get u).job = none := by
  unfold State.idleUnit? at h
  split at h
  · rename_i idle
    exact Option.some.inj h ▸ idle
  · split at h
    · rename_i idle
      exact Option.some.inj h ▸ idle
    · cases h

/-- The job the dispatcher picks waits in the queue, and its need is free (R93, R94). -/
theorem pickJob_some (h : s.pickJob = some j) : j ∈ s.jobs ∧ need (s.jobBudget j) ≤ s.pages.freeCount := by
  unfold State.pickJob at h
  split at h
  · cases h
  · rename_i head rest jobs
    split at h
    · rename_i room
      obtain rfl := Option.some.inj h
      exact ⟨jobs ▸ List.mem_cons_self, le_trans (Nat.le_add_right _ _) room⟩
    · have fits := List.find?_some h
      rw [Bool.and_eq_true, decide_eq_true_iff] at fits
      exact ⟨List.mem_of_find?_eq_some h, fits.2⟩

theorem startUpTo_path (n : Nat) (s : State) : Path s (State.startUpTo n s) := by
  induction n generalizing s with
  | zero => exact .refl
  | succ n ih =>
    unfold State.startUpTo
    split
    · rename_i u j unit pick
      obtain ⟨queued, room⟩ := pickJob_some pick
      exact (startJob_path (idleUnit_some unit) queued room).trans (ih _)
    · exact .refl

theorem dispatchAct_path (s : State) : Path s s.dispatchAct := startUpTo_path _ s

theorem ifIdleDispatch_path (s : State) (u : UnitNo) : Path s (s.ifIdleDispatch u) := by
  unfold State.ifIdleDispatch
  split
  · exact dispatchAct_path s
  · exact .refl

theorem unitRead_path (s : State) (u : UnitNo) (data : List Byte) : Path s (s.unitRead u data) := by
  unfold State.unitRead
  split
  · exact .refl
  · rename_i j codes
    dsimp only
    split
    · have coded : Path s (s.codeRow u j ((s.units.get u).rowSoFar ++ data)) := Path.unit .refl u ⟨rfl, rfl, rfl, rfl⟩
      refine (coded.trans (runUnit_path _ ?_)).trans (ifIdleDispatch_path _ u)
      unfold State.codeRow
      dsimp only
      rw [Laws.modUnit_units, Laws.get_put_same]
      exact codes
    · exact unitAsks_path ⟨rfl, rfl, rfl, rfl⟩

theorem unitWrote_path (s : State) (u : UnitNo) : Path s (s.unitWrote u) := by
  unfold State.unitWrote
  split
  · exact .refl
  · rename_i j codes
    have emptied : Path s (s.modUnit u fun x => { x with outputBurst := [] }) := Path.unit .refl u ⟨rfl, rfl, rfl, rfl⟩
    have codes' : ((s.modUnit u fun x => { x with outputBurst := [] }).units.get u).job = some j := by
      rw [Laws.modUnit_units, Laws.get_put_same]
      exact codes
    split
    · exact (doneJob_path codes).trans (ifIdleDispatch_path _ u)
    all_goals exact (emptied.trans (runUnit_path _ codes')).trans (ifIdleDispatch_path _ u)

theorem unitFault_path (s : State) (u : UnitNo) : Path s (s.unitFault u) := by
  unfold State.unitFault
  split
  · exact .refl
  · rename_i j codes
    exact ((Path.aside .refl (u := s.setCause .memFault)).trans (failJob_path (.inr rfl) codes)).trans
      (ifIdleDispatch_path _ u)

end Jobs

/-! ### After the end of a landing -/

section Landing
variable {s : State} {l : Lane} {k : Slot} {i : Item} {p : ScanPort} (attached : Attached s l k)
  (leaves : ItemLeaves (s.items.get k) i) (after : ScanFree s p)
include attached leaves after

/-- A rejection (R42, R108): cancellations, strip returns, settling, dispatch. -/
theorem landingOver_rejected (a : Arbiter) : Path s ((landingOver s l k i p a).rejectRenditions k) :=
  ((Path.of_move (.landingEnds l k i p a true attached leaves after)).trans (settle_path _ k)).trans (dispatchAct_path _)

/-- The end of an accepted item's landing (R36, R64): strip returns and settling. -/
theorem landingOver_closed (a : Arbiter) : Path s (((landingOver s l k i p a).returnAllStrips k).settle k) :=
  (Path.of_move (.landingEnds l k i p a false attached leaves after)).trans (settle_path _ k)

end Landing

/-- A PURGE of a SETTLING item, as far as its cancellations go on (R25, R108). -/
theorem rejectRenditions_path (s : State) (k : Slot) (settling : (s.items.get k).state = .settling) :
    Path s (s.rejectRenditions k) :=
  ((Path.of_move (.cancelled k settling)).trans (settle_path _ k)).trans (dispatchAct_path _)

end Sys2Proof.Walks
end

