-- ==== Sys2Proof/Proofs/WalksScan.lean ====
section
/-! PROOF. What the scan ports do is a path of single changes: frames taken in each state of a port, the pocket timer, a PURGE of
a LANDING item, LANE RESET and a change of the link (chapters 2 and 3). -/

namespace Sys2Proof.Walks
open Sys2Proof.Machine Sys2Proof.Safety Sys2Proof.Moves Sys2Proof.PortsKept

/-! ### What a path leaves -/

theorem move_low {s t : State} (move : Move s t) (agree : PortsAgree s) : t.pins.resetLow = s.pins.resetLow := by
  rcases Residents.move_resident move agree with h | ⟨_, _, _, _, _, _, _, _, _, rfl⟩
  · exact h.low
  · rfl

theorem path_running {s t : State} (path : Path s t) (agree : PortsAgree s) (running : Running s) : Running t := by
  induction path with
  | refl => exact running
  | tail before move ih => exact (move_low move (path_ports before agree)).trans ih

/-- A state with its ports agreeing and RESET_N high, as every event of a port finds it. -/
structure Ready (s : State) : Prop where
  agree : PortsAgree s
  running : Running s

theorem Ready.path {s t : State} (h : Ready s) (path : Path s t) : Ready t :=
  ⟨path_ports path h.agree, path_running path h.agree h.running⟩

/-- A path prolonged by what its end does. -/
theorem Ready.then {s t u : State} (h : Ready s) (path : Path s t) (goes : Ready t → Path t u) : Path s u :=
  path.trans (goes (h.path path))

/-! ### Records at the end of landing -/

/-- A record with its pocket decided and its faces measured, while its item is still LANDING. -/
structure Judged (i j : Item) : Prop where
  decided : j.pocket ≠ .pending
  lane : j.lane = i.lane
  holder : j.holder = i.holder
  source : j.source = i.source
  renditions : j.renditions = i.renditions
  faces : ∃ g : Face → Face, j.faces = i.faces.map g ∧
    ∀ f, (g f).kind = f.kind ∧ (g f).strips = f.strips ∧ (f.state = .landed → (g f).state = .landed)

theorem faceEnded_keeps (p : ScanPort) (f : Face) : (faceEnded p f).kind = f.kind ∧
    (faceEnded p f).strips = f.strips ∧ (f.state = .landed → (faceEnded p f).state = .landed) ∧
    (faceEnded p f).state ≠ .landing := by
  unfold faceEnded
  dsimp only
  split
  · rename_i landing
    exact ⟨rfl, rfl, fun landed => (by rw [landing] at landed; cases landed), nofun⟩
  · rename_i other
    exact ⟨rfl, rfl, id, other⟩

theorem Judged.leaves {i j : Item} (h : Judged i j) (p : ScanPort) (delivered : Bool) : ItemLeaves i
    { j with state := .settling, faces := j.faces.map (faceEnded p), delivered := delivered } := by
  obtain ⟨decided, lane, holder, source, renditions, g, faces, keeps⟩ := h
  refine ⟨rfl, decided, lane, holder, source, renditions, fun f => faceEnded p (g f), ?_, fun f => ?_⟩
  · show j.faces.map (faceEnded p) = _
    rw [faces, List.map_map]
    rfl
  · obtain ⟨kind, strips, landed, state⟩ := faceEnded_keeps p (g f)
    obtain ⟨kind', strips', landed'⟩ := keeps f
    exact ⟨kind.trans kind', strips.trans strips', fun h => landed (landed' h), state⟩

/-- A finding changes the findings and the decision of a record alone. -/
def OnlyJudged (i j : Item) : Prop :=
  j = { i with
    findings := j.findings, overflow := j.overflow, pocket := j.pocket, reason := j.reason, latency := j.latency }

theorem findingAdded_only (i : Item) (f : Finding) : OnlyJudged i (findingAdded i f) := by
  unfold findingAdded
  split <;> rfl

theorem findingJudged_only (ms : Nat) (i : Item) (f : Finding) : OnlyJudged i (findingJudged ms i f) := by
  unfold findingJudged findingAdded
  split <;> split <;> rfl

theorem OnlyJudged.trans {i j k : Item} (h : OnlyJudged i j) (g : OnlyJudged j k) : OnlyJudged i k := by
  unfold OnlyJudged at *
  rw [g, h]

theorem findingsJudged_only (ms : Nat) (findings : List Finding) (i : Item) :
    OnlyJudged i (findings.foldl (findingJudged ms) i) := by
  induction findings generalizing i with
  | nil => rfl
  | cons f findings ih => exact (findingJudged_only ms i f).trans (ih _)

theorem OnlyJudged.judged {i j k : Item} (h : OnlyJudged j k) (decided : k.pocket ≠ .pending) (lane : j.lane = i.lane)
    (holder : j.holder = i.holder) (source : j.source = i.source) (renditions : j.renditions = i.renditions)
    (faces : ∃ g : Face → Face, j.faces = i.faces.map g ∧
      ∀ f, (g f).kind = f.kind ∧ (g f).strips = f.strips ∧ (f.state = .landed → (g f).state = .landed)) :
    Judged i k := by
  unfold OnlyJudged at h
  rw [h]
  exact ⟨decided, lane, holder, source, renditions, faces⟩

theorem faces_same (i : Item) : ∃ g : Face → Face, i.faces = i.faces.map g ∧
    ∀ f, (g f).kind = f.kind ∧ (g f).strips = f.strips ∧ (f.state = .landed → (g f).state = .landed) :=
  ⟨id, (List.map_id _).symm, fun _ => ⟨rfl, rfl, id⟩⟩

/-- An item finding of REJECT severity decides a PENDING item. -/
theorem findingJudged_decides {i : Item} (pending : i.pocket = .pending) (ms : Nat) (kind : FindingKind) (v : Nat) :
    (findingJudged ms i ⟨kind, .item, .reject, v⟩).pocket = .reject := by
  unfold findingJudged
  rw [if_pos ⟨rfl, pending⟩]

section Scan
variable {s : State} {l : Lane} {k : Slot}

/-- The port as an item's landing leaves it. -/
theorem portLeft_free (ready : Ready s) (attached : Attached s l k) {next : ScanState}
    (goes : next = .idle ∨ next = .discard) (sent : Bool) (m : ScanMsg) :
    ScanFree s (portLeft (s.scan.get l) next
      (if sent then sentOn (s.scan.get l).link (s.scan.get l).produced m else (s.scan.get l).produced)) := by
  have up : (s.scan.get l).link = true := by
    refine (ready.agree.scanLink ready.running l).mpr fun down => ?_
    have serving := (ready.agree.serving l).mp (by rw [attached.1]; rfl)
    rw [down] at serving
    rcases serving with e | e <;> cases e
  refine ⟨rfl, rfl, rfl, ?_, fun known => ?_, fun _ => iff_of_true up ?_⟩
  · rcases goes with rfl | rfl <;> exact ⟨nofun, nofun⟩
  · have some_ := ready.agree.scanBegun l known
    cases sent with
    | false => exact some_
    | true => simp [portLeft, sentOn, up]
  · rcases goes with rfl | rfl <;> nofun

/-- A landing ended by a decision that rejects the item (R108). -/
theorem landingEnded_path (ready : Ready s) (attached : Attached s l k) {i : Item} (judged : Judged (s.items.get k) i)
    (sent : Bool) {next : ScanState} (goes : next = .idle ∨ next = .discard) :
    Path s ((landingEnded s l k i sent next).rejectRenditions k) :=
  landingOver_rejected attached (judged.leaves (s.scan.get l) (i.delivered || (sent && (s.scan.get l).link)))
    (portLeft_free ready attached goes sent _) _

theorem judged_reject (attached : Attached s l k) (ms : Nat) (kind : FindingKind) (v : Nat) :
    Judged (s.items.get k) (findingJudged ms (s.items.get k) ⟨kind, .item, .reject, v⟩) :=
  (findingJudged_only ms _ _).judged (by rw [findingJudged_decides attached.2.2.2]; nofun) rfl rfl rfl rfl (faces_same _)

theorem rejectSent_path (ready : Ready s) (attached : Attached s l k) (kind : FindingKind) (v : Nat) {next : ScanState}
    (goes : next = .idle ∨ next = .discard) : Path s (s.rejectSent l k (itemFinding kind v) next) := by
  rw [Laws.rejectSent_attached attached]
  exact landingEnded_path ready attached (judged_reject attached _ kind v) true goes

theorem rejectUnsent_path (ready : Ready s) (attached : Attached s l k) (kind : FindingKind) (v : Nat) {next : ScanState}
    (goes : next = .idle ∨ next = .discard) : Path s (s.rejectUnsent l k (itemFinding kind v) next) := by
  rw [Laws.rejectUnsent_attached attached]
  exact landingEnded_path ready attached (judged_reject attached _ kind v) false goes

theorem protocolFault_path (ready : Ready s) (attached : Attached s l k) : Path s (s.protocolFault l k) :=
  rejectSent_path ready attached .protocol 0 (.inl rfl)

/-! ### Admission -/

theorem scanAlike_produced (p : ScanPort) (m : ScanMsg) :
    ScanAlike p { p with produced := sentOn p.link p.produced m } := by
  refine ⟨rfl, rfl, rfl, rfl, fun h => ⟨h.serving, h.facing, h.timing, fun known => ?_⟩⟩
  show sentOn p.link p.produced m ≠ []
  unfold sentOn
  split
  · simp
  · exact h.begun known

theorem detached_of_state (ready : Ready s) (waits : (s.scan.get l).state = .idle ∨ (s.scan.get l).state = .discard) :
    (s.scan.get l).attached = none ∧ (s.scan.get l).current = none ∧ (s.scan.get l).timer = none := by
  have shaped := scanShaped ready.agree l
  have serving := shaped.serving
  have facing := shaped.facing
  have timing := shaped.timing
  rcases waits with e | e <;> rw [e] at serving facing <;> simp at serving facing <;>
    simp [serving] at timing <;> exact ⟨serving, facing, timing⟩

theorem up_of_state (ready : Ready s) (waits : (s.scan.get l).state = .idle ∨ (s.scan.get l).state = .discard) :
    (s.scan.get l).link = true := by
  refine (ready.agree.scanLink ready.running l).mpr fun down => ?_
  rcases waits with e | e <;> rw [e] at down <;> cases down

/-- A port with no item goes to IDLE. -/
theorem scanIdle_path (ready : Ready s) (waits : (s.scan.get l).state = .idle ∨ (s.scan.get l).state = .discard)
    {produced : List ScanMsg} (begun : (s.scan.get l).begun = true → produced ≠ []) :
    Path s { s with scan := put s.scan l { s.scan.get l with state := .idle, produced := produced } } := by
  obtain ⟨attached, current, timer⟩ := detached_of_state ready waits
  exact Path.of_move (.scanIdle l _ attached
    ⟨attached, current, timer, ⟨nofun, nofun⟩, begun, fun _ => iff_of_true (up_of_state ready waits) nofun⟩)

theorem takeAsNew_path (ready : Ready s) (waits : (s.scan.get l).state = .idle ∨ (s.scan.get l).state = .discard)
    (bundle : Long) (position : Word) (faces : Byte) : Path s (s.takeAsNew l bundle position faces) := by
  obtain ⟨attached, -, -⟩ := detached_of_state ready waits
  cases refusal : s.slotRefusal l with
  | some why =>
    rw [FrameResults.takeAsNew_refused refusal]
    exact scanIdle_path ready waits ((scanAlike_produced _ _).shaped (scanShaped ready.agree l)).begun
  | none =>
    unfold State.takeAsNew
    rw [refusal]
    split
    · rename_i k src _ free bound
      have usable : s.store.usable src = true := by
        unfold State.slotRefusal at refusal
        dsimp only at refusal
        split at refusal
        · cases refusal
        · split at refusal
          · cases refusal
          · rename_i usable
            simpa [bound] using usable
      have up : (s.scan.get l).state ≠ .down := by rcases waits with e | e <;> rw [e] <;> nofun
      have admitted := Path.of_move (.admitted l k src bundle position faces ready.running attached up
        ((Laws.freeSlot_eq_some s k).mp free).1 bound usable)
      rw [FrameResults.giveSlot_eq]
      split
      · exact admitted.trans (dispatchAct_path _)
      · exact admitted
    · rename_i why _ _ refused
      cases refused
    · exact .refl

/-- An ITEM OPEN that faults the attached item is then taken as new (R39). -/
theorem faultThenNew_path (ready : Ready s) (attached : Attached s l k) (bundle : Long) (position : Word) (faces : Byte) :
    Path s ((s.protocolFault l k).takeAsNew l bundle position faces) :=
  ready.then (protocolFault_path ready attached) fun ready => takeAsNew_path ready (.inl (by
    rw [FaceResults.protocolFault_attached attached]
    exact (Laws.rejected_port s l k .protocol 0 true .idle).1)) bundle position faces

/-! ### Rows -/

theorem facesAlike_modFace (i : Item) (kind : FaceKind) {f : Face → Face}
    (keeps : ∀ x, (f x).kind = x.kind ∧ (f x).state = x.state ∧ (f x).strips = x.strips) :
    FacesAlike i.faces (i.modFace kind f).faces := by
  refine ⟨_, rfl, fun x => ?_⟩
  split
  · exact keeps x
  · exact ⟨rfl, rfl, rfl⟩

theorem itemAlike_modFace {i : Item} (live : i.state ≠ .free) (kind : FaceKind) {f : Face → Face}
    (keeps : ∀ x, (f x).kind = x.kind ∧ (f x).state = x.state ∧ (f x).strips = x.strips) :
    ItemAlike i (i.modFace kind f) :=
  ⟨rfl, rfl, rfl, rfl, rfl, rfl, facesAlike_modFace i kind keeps, fun e => absurd e live⟩

theorem live_of_attached (attached : Attached s l k) : (s.items.get k).state ≠ .free := by
  rw [attached.2.2.1]
  nofun

theorem loseRow_path (attached : Attached s l k) (kind : FaceKind) : Path s (s.loseRow k kind) :=
  Path.item .refl k (itemAlike_modFace (live_of_attached attached) kind fun _ => ⟨rfl, rfl, rfl⟩)

theorem holdRow_path (s : State) (l : Lane) (position : Nat) (pixels : List Byte) :
    Path s (s.holdRow l position pixels) :=
  Path.aside (Path.scan .refl l (q := { s.scan.get l with held := some ⟨position, pixels, 0⟩ })
    ⟨rfl, rfl, rfl, rfl, fun h => ⟨h.serving, h.facing, h.timing, h.begun⟩⟩)

theorem landRow_path (attached : Attached s l k) {kind : FaceKind} (current : (s.scan.get l).current = some kind) (f : Face)
    (pixels : List Byte) : Path s (s.landRow l k kind f pixels) := by
  unfold State.landRow
  split
  · rename_i h _
    exact (Path.aside (loseRow_path attached kind) (u := (s.loseRow k kind).modArbiter (·.forsake (.w l)))).trans
      (holdRow_path _ l h.position pixels)
  · split
    · exact loseRow_path attached kind
    · split
      · split
        · exact Path.aside (loseRow_path attached kind)
        · rename_i strip rest strips
          exact (Path.of_move (.stripTaken l k kind strip rest attached current strips)).trans (holdRow_path _ l _ pixels)
      · exact holdRow_path s l _ pixels

theorem takeRow_path (attached : Attached s l k) {kind : FaceKind} (current : (s.scan.get l).current = some kind)
    (pixels : List Byte) : Path s (s.takeRow l k kind pixels) := by
  unfold State.takeRow
  split
  · exact .refl
  · rename_i f _
    split
    · exact landRow_path attached current f pixels
    · exact loseRow_path attached kind

/-! ### FACE CLOSE and ITEM CLOSE -/

/-- FACE CLOSE in the words of `faceJudged`, whether the face is measured or not. -/
theorem closeFace_judged {kind : FaceKind} {f : Face} (attached : Attached s l k)
    (found : (s.items.get k).face? kind = some f) : ∃ i, OnlyJudged
      ((s.items.get k).modFace kind fun x => { x with state := .landed, accum := none }) i ∧ s.closeFace l k kind =
        if i.pocket = .pending then
          ((((FaceResults.faceJudged s l k i).queueRenditions k kind).modScan l fun p => { p with state := .item }).returnStrips
            k kind).dispatchAct
        else ((FaceResults.faceJudged s l k i).producePocket l k).endRejected l k .discard := by
  obtain ⟨-, lane, -, pending⟩ := attached
  generalize judgement : evaluate (s.itemRecord k) f (f.accum.getD noAccumulators) = findings
  have added := FaceResults.addFindings_eq (k := k) findings
    (t := (s.modItem k (·.modFace kind fun x => { x with state := .landed, accum := none })).modScan l fun p =>
      { p with current := none })
    (i := (s.items.get k).modFace kind fun x => { x with state := .landed, accum := none })
    (p := { s.scan.get l with current := none }) (by simp) (by simp) lane pending
  refine ⟨findings.foldl (findingJudged (elapsed (s.scan.get l).timer))
    ((s.items.get k).modFace kind fun x => { x with state := .landed, accum := none }), findingsJudged_only _ _ _, ?_⟩
  have result : _ = FaceResults.faceJudged s l k (findings.foldl (findingJudged (elapsed (s.scan.get l).timer))
      ((s.items.get k).modFace kind fun x => { x with state := .landed, accum := none })) := added.trans (by
    simp only [FaceResults.faceJudged, Laws.modScan_items, Laws.modItem_items, Laws.put_put, Laws.modScan_scan,
      Laws.modItem_scan]
    rfl)
  unfold State.closeFace
  rw [found]
  dsimp only
  rw [judgement, result]
  have own (i : Item) : (FaceResults.faceJudged s l k i).items.get k = i := Laws.get_put_same _ _ _
  rw [own]

/-- A landing that ends in a state whose record and port have been judged before. -/
theorem landingEnded_faceJudged (i : Item) (next : ScanState) : ∃ q,
    landingEnded (FaceResults.faceJudged s l k i) l k i true next = landingOver s l k
      { i with
        state := .settling, faces := i.faces.map (faceEnded q), delivered := i.delivered || (true && (s.scan.get l).link) }
      (portLeft (s.scan.get l) next (if true then sentOn (s.scan.get l).link (s.scan.get l).produced
        (.pocket i.position i.pocket i.reason (i.latency.getD 0)) else (s.scan.get l).produced))
      (landingEnded (FaceResults.faceJudged s l k i) l k i true next).arbiter := by
  refine ⟨(FaceResults.faceJudged s l k i).scan.get l, ?_⟩
  have port : ((FaceResults.faceJudged s l k i).scan.get l) = { s.scan.get l with
      current := none, timer := if i.pocket = .pending then (s.scan.get l).timer else none } := Laws.get_put_same _ _ _
  unfold landingEnded landingOver
  rw [port]
  simp only [FaceResults.faceJudged, Laws.put_put, portLeft, if_true]

theorem closeFace_path (ready : Ready s) (attached : Attached s l k) {kind : FaceKind}
    (current : (s.scan.get l).current = some kind) : Path s (s.closeFace l k kind) := by
  cases found : (s.items.get k).face? kind with
  | none =>
    have closed : s.closeFace l k kind = s := by simp only [State.closeFace, found]
    exact Path.of_eq closed
  | some f =>
    obtain ⟨i, only, close⟩ := closeFace_judged attached found
    rw [close]
    split
    · rename_i pending
      rw [FaceResults.faceQueued_eq pending]
      refine (Path.of_move (.faceLanded l k kind i attached current ?_)).trans (dispatchAct_path _)
      unfold OnlyJudged at only
      rw [only]
      refine ⟨rfl, pending.trans attached.2.2.2.symm, rfl, rfl, rfl, rfl, _, rfl, fun f => ?_⟩
      split
      · rename_i here
        exact ⟨rfl, rfl, fun _ => rfl, fun other => absurd here other⟩
      · rename_i other
        exact ⟨rfl, rfl, fun here => absurd here other, fun _ => rfl⟩
    · rename_i decided
      rw [State.endRejected, Laws.producePocket_detach,
        show (FaceResults.faceJudged s l k i).items.get k = i from Laws.get_put_same _ _ _]
      obtain ⟨q, e⟩ := landingEnded_faceJudged (s := s) (l := l) (k := k) i .discard
      rw [e]
      have judged : Judged (s.items.get k) i := only.judged decided rfl rfl rfl rfl
        ⟨_, rfl, fun f => by
          split
          · exact ⟨rfl, rfl, fun _ => rfl⟩
          · exact ⟨rfl, rfl, id⟩⟩
      exact landingOver_rejected attached (judged.leaves q _)
        (portLeft_free ready attached (.inr rfl) true _) _

theorem closeItem_path (ready : Ready s) (attached : Attached s l k) : Path s (s.closeItem l k) := by
  unfold State.closeItem
  dsimp only
  split
  · exact rejectSent_path ready attached .faceMissing _ (.inl rfl)
  · rw [if_pos attached.2.2.2, FaceResults.decidePocket_eq attached.2.1, Laws.producePocket_detach]
    dsimp only
    rw [Laws.get_put_same, Laws.landingEnded_timer]
    have judged : Judged (s.items.get k) { s.items.get k with
        pocket := .accept, reason := none, latency := some (elapsed (s.scan.get l).timer) } :=
      ⟨nofun, rfl, rfl, rfl, rfl, faces_same _⟩
    exact landingOver_closed attached (judged.leaves (s.scan.get l) _)
      (portLeft_free ready attached (.inl rfl) true _) _

/-! ### Frames -/

theorem takeInItem_path (ready : Ready s) (attached : Attached s l k) (item : (s.scan.get l).state = .item)
    (f : ScanFrame) : Path s (s.takeInItem l k f) := by
  cases f with
  | itemOpen bundle position faces => exact faultThenNew_path ready attached bundle position faces
  | faceOpen kind width =>
    show Path s (if faceOpenAccepted (s.items.get k) kind width then s.openFace l k kind width else s.protocolFault l k)
    split
    · rename_i accepted
      exact Path.of_move (Move.faceOpened l k kind width attached item accepted)
    · exact protocolFault_path ready attached
  | row | faceClose => exact protocolFault_path ready attached
  | itemClose => exact closeItem_path ready attached
  | itemAbandon reason => exact rejectSent_path ready attached .abandoned _ (.inl rfl)
  | failed => exact rejectSent_path ready attached .linkError 0 (.inr rfl)

theorem takeInFace_path (ready : Ready s) (attached : Attached s l k) {kind : FaceKind}
    (current : (s.scan.get l).current = some kind) (f : ScanFrame) : Path s (s.takeInFace l k kind f) := by
  cases f with
  | itemOpen bundle position faces => exact faultThenNew_path ready attached bundle position faces
  | faceOpen | itemClose => exact protocolFault_path ready attached
  | row pixels => exact takeRow_path attached current pixels
  | faceClose => exact closeFace_path ready attached current
  | itemAbandon reason => exact rejectSent_path ready attached .abandoned _ (.inl rfl)
  | failed => exact rejectSent_path ready attached .linkError 0 (.inr rfl)

theorem takeFrame_path (ready : Ready s) (l : Lane) (f : ScanFrame) : Path s (s.takeFrame l f) := by
  unfold State.takeFrame
  dsimp only
  split
  · rename_i idle
    cases f with
    | itemOpen bundle position faces => exact takeAsNew_path ready (.inl idle) bundle position faces
    | faceOpen | row | faceClose | itemClose | itemAbandon | failed => exact .refl
  · rename_i discard
    cases f with
    | itemOpen bundle position faces => exact takeAsNew_path ready (.inr discard) bundle position faces
    | itemClose | itemAbandon => exact scanIdle_path ready (.inr discard) (scanShaped ready.agree l).begun
    | faceOpen | row | faceClose | failed => exact .refl
  · rename_i k item attached
    exact takeInItem_path ready (attached_of ready.agree attached) item f
  · rename_i k kind face attached current
    exact takeInFace_path ready (attached_of ready.agree attached) current f
  · exact .refl

/-- A port's buffers changed: what it gathers, what waits, and the held row. -/
theorem buffers_path (s : State) (l : Lane) {f : ScanPort → ScanPort}
    (rest : ∀ p, f p = { p with gathering := (f p).gathering, waiting := (f p).waiting, held := (f p).held }) :
    Path s (s.modScan l f) := by
  refine Path.scan .refl l ?_
  rw [rest]
  exact ⟨rfl, rfl, rfl, rfl, fun h => ⟨h.serving, h.facing, h.timing, h.begun⟩⟩

theorem takeWaiting_path (frames : List ScanFrame) (ready : Ready s) (l : Lane) : Path s (State.takeWaiting l frames s) := by
  induction frames generalizing s with
  | nil => exact buffers_path s l fun _ => rfl
  | cons f rest ih =>
    unfold State.takeWaiting
    split
    · have first : Path s (s.modScan l fun p => { p with waiting := rest }) := buffers_path s l fun _ => rfl
      have taken := ready.then first fun ready => takeFrame_path ready l f
      exact ready.then taken ih
    · exact buffers_path s l fun _ => rfl

theorem drainWaiting_path (ready : Ready s) (l : Lane) : Path s (s.drainWaiting l) := takeWaiting_path _ ready l

theorem writerWrote_path (ready : Ready s) (l : Lane) : Path s (s.writerWrote l) := by
  unfold State.writerWrote
  dsimp only
  split
  · rename_i h k kind held attached current
    split
    · have live := live_of_attached (attached_of ready.agree attached)
      have landed := Path.item (.refl (a := s)) k (itemAlike_modFace live kind (f := fun f => f.landRow h.pixels)
        fun _ => ⟨rfl, rfl, rfl⟩)
      exact ready.then (landed.trans (buffers_path _ l fun _ => rfl)) fun ready => drainWaiting_path ready l
    · exact Path.aside (buffers_path s l (f := fun p => { p with held := some { h with written := h.written + 1 } })
        fun _ => rfl)
  · exact .refl

/-! ### Timers, PURGE, resets and the link -/

theorem expirePocket_path (ready : Ready s) (l : Lane) : Path s (s.expirePocket l) := by
  unfold State.expirePocket
  split
  · rename_i t k timer attached
    have stopped : Path s (s.modScan l fun p => { p with timer := some { t with remaining := 0 } }) :=
      Path.scan .refl l ⟨rfl, rfl, rfl, rfl, fun h => ⟨h.serving, h.facing,
        ⟨fun _ => h.timing.mp (by rw [timer]; rfl), fun _ => rfl⟩, h.begun⟩⟩
    have expired := ready.then stopped fun ready => rejectSent_path ready (l := l) (k := k) (next := .discard)
      (attached_of ready.agree (by rw [Laws.modScan_scan, Laws.get_put_same]; exact attached)) .late t.deadline (.inr rfl)
    exact ready.then expired fun ready => drainWaiting_path ready l
  · exact .refl

theorem purgeLanding_path (ready : Ready s) (k : Slot) (landing : (s.items.get k).state = .landing) :
    Path s (s.purgeLanding k) := by
  have attached := attached_of ready.agree ((ready.agree.attached _ k).mpr ⟨landing, rfl⟩)
  rw [LandingEnds.purgeLanding_attached attached]
  have judged : Judged (s.items.get k) (findingJudged (elapsed (s.scan.get (s.items.get k).lane).timer)
      { s.items.get k with purged := true } (itemFinding .purged 0)) :=
    (findingJudged_only _ _ _).judged (by
      rw [itemFinding, findingJudged_decides (i := { s.items.get k with purged := true }) attached.2.2.2]
      nofun) rfl rfl rfl rfl (faces_same _)
  exact ready.then (landingEnded_path ready attached judged true (.inr rfl)) fun ready => drainWaiting_path ready _

/-- The port a rejection without POCKET leaves. -/
theorem rejectUnsent_port (attached : Attached s l k) (kind : FindingKind) (v : Nat) (next : ScanState) :
    (s.rejectUnsent l k (itemFinding kind v) next).scan.get l =
      portLeft (s.scan.get l) next (s.scan.get l).produced := by
  rw [Laws.rejectUnsent_attached attached, ((Laws.Behind.refl _).rejectRenditions k).scan]
  exact Laws.get_put_same _ _ _

theorem detached_rest (ready : Ready s) (detached : (s.scan.get l).attached = none) :
    (s.scan.get l).current = none ∧ (s.scan.get l).timer = none := by
  have serving := ready.agree.serving l
  simp only [detached, Option.isSome_none, Bool.false_eq_true, false_iff, not_or] at serving
  refine ⟨Option.not_isSome_iff_eq_none.mp fun h => serving.2 ((ready.agree.facing l).mp h),
    Option.not_isSome_iff_eq_none.mp fun h => ?_⟩
  have h := (ready.agree.timing l).mp h
  rw [detached] at h
  cases h

/-- A port that serves nothing goes to IDLE or DOWN by its link (R46). -/
theorem portReset_path (ready : Ready s) (detached : (s.scan.get l).attached = none) {link : Bool}
    (same : (s.scan.get l).link = link) :
    Path s (LandingEnds.portReset s l (if link then .idle else .down)) := by
  obtain ⟨current, timer⟩ := detached_rest ready detached
  refine Path.aside (Path.of_move (.scanIdle l { s.scan.get l with
    held := none, state := if link then .idle else .down } detached
    ⟨detached, current, timer, ?_, ready.agree.scanBegun l, fun _ => ?_⟩))
  · cases link <;> exact ⟨nofun, nofun⟩
  · show (s.scan.get l).link = true ↔ _
    rw [same]
    cases link <;> simp

theorem up_of_attached (ready : Ready s) (attached : (s.scan.get l).attached = some k) : (s.scan.get l).link = true := by
  refine (ready.agree.scanLink ready.running l).mpr fun down => ?_
  have serving := (ready.agree.serving l).mp (by rw [attached]; rfl)
  rw [down] at serving
  rcases serving with e | e <;> cases e

theorem resetLane_path (ready : Ready s) (l : Lane) : Path s (s.resetLane l) := by
  rw [LandingEnds.resetLane_eq]
  have discarded : Path s (LandingEnds.framesDiscarded s l) := buffers_path s l (f := fun p =>
    { p with gathering := [], waiting := [] }) fun _ => rfl
  have port : (LandingEnds.framesDiscarded s l).scan.get l = { s.scan.get l with gathering := [], waiting := [] } :=
    Laws.get_put_same _ _ _
  refine ready.then discarded fun ready => ?_
  cases attached : ((LandingEnds.framesDiscarded s l).scan.get l).attached with
  | none => exact portReset_path ready attached (by rw [port])
  | some k =>
    have here := attached_of ready.agree attached
    have up : (s.scan.get l).link = true := by
      have link := up_of_attached ready attached
      rw [port] at link
      exact link
    have next : (if (s.scan.get l).link then ScanState.idle else .down) = .idle := if_pos up
    have rejects := rejectUnsent_path ready here .laneReset 0 (next := .idle) (.inl rfl)
    have left := rejectUnsent_port here .laneReset 0 .idle
    have resets := ready.then rejects fun ready => portReset_path (link := true) ready (by rw [left]; rfl)
      (by rw [left, port]; exact up)
    rw [up]
    exact resets

/-- The link of a port that serves nothing changes. -/
theorem linkChanged_path (ready : Ready s) (detached : (s.scan.get l).attached = none) (link : Bool) :
    Path s (LandingEnds.linkChanged s l link (if link then .idle else .down)) := by
  obtain ⟨current, timer⟩ := detached_rest ready detached
  refine Path.aside (Path.of_move (.scanIdle l { s.scan.get l with
    link := link, state := if link then .idle else .down, gathering := [], waiting := [], held := none, produced := []
    begun := false } detached ⟨detached, current, timer, ?_, nofun, fun _ => ?_⟩))
  · cases link <;> exact ⟨nofun, nofun⟩
  · cases link <;> simp

theorem linkChanged_eq {v : Vector ScanPort 4} (y : State) (scan : y.scan = v) (link : Bool) (next : ScanState) :
    LandingEnds.linkChanged y l link next = State.setCause (Laws.replaceScan (put v l { v.get l with
      link := link, state := next, gathering := [], waiting := [], held := none, produced := [], begun := false }) y)
      .link := by
  subst scan
  rfl

/-- The end of landing that a lost link brings, with the port DOWN (R45). -/
def cutOff (s : State) (l : Lane) (k : Slot) : State :=
  let i := findingJudged (elapsed (s.scan.get l).timer) (s.items.get k) ⟨.linkLost, .item, .reject, 0⟩
  landingOver s l k
    { i with
      state := .settling, faces := i.faces.map (faceEnded (s.scan.get l))
      delivered := i.delivered || (false && (s.scan.get l).link) }
    { s.scan.get l with
      attached := none, current := none, timer := none, link := false, state := .down, gathering := [], waiting := []
      held := none, produced := [], begun := false }
    (rejected s l k .linkLost 0 false .down).arbiter

theorem cutOff_eq (s : State) (l : Lane) (k : Slot) :
    Laws.replaceScan (put (rejected s l k .linkLost 0 false .down).scan l
      { (rejected s l k .linkLost 0 false .down).scan.get l with
        link := false, state := .down, gathering := [], waiting := [], held := none, produced := [], begun := false })
      (rejected s l k .linkLost 0 false .down) = cutOff s l k := by
  simp only [Laws.replaceScan, rejected, landingEnded, cutOff, landingOver, Laws.get_put_same, Laws.put_put, portLeft]

/-- A link lost while an item lands: the port may go DOWN before what goes on behind it. -/
theorem loseScanLink_moved (attached : Attached s l k) :
    s.loseScanLink l = ((cutOff s l k).rejectRenditions k).setCause .link := by
  rw [LandingEnds.loseScanLink_attached attached,
    linkChanged_eq _ ((Laws.Behind.refl (rejected s l k .linkLost 0 false .down)).rejectRenditions k).scan,
    ← Laws.replaceScan_rejectRenditions, cutOff_eq]

theorem loseScanLink_path (ready : Ready s) (l : Lane) : Path s (s.loseScanLink l) := by
  cases serves : (s.scan.get l).attached with
  | none =>
    rw [LandingEnds.loseScanLink_detached serves]
    exact linkChanged_path ready serves false
  | some k =>
    have attached := attached_of ready.agree serves
    rw [loseScanLink_moved attached]
    refine Path.setCause (landingOver_rejected attached ((judged_reject attached _ .linkLost 0).leaves _ _) ?_ _) .link
    exact ⟨rfl, rfl, rfl, ⟨nofun, nofun⟩, nofun, fun _ => iff_of_false nofun fun up => up rfl⟩

end Scan

end Sys2Proof.Walks
end

