-- ==== Sys2Proof/Proofs/WalksExchange.lean ====
section
/-! PROOF. What the exchange ports do is a path of single changes, but for a DELIVERED, which frees its item (chapter 7). -/

namespace Sys2Proof.Walks
open Sys2Proof.Machine Sys2Proof.Safety Sys2Proof.Moves Sys2Proof.PortsKept

section Exchange
variable {s : State} {p : Port} {k : Slot}

/-! ### Ports that keep what they hold -/

theorem begun_sentOn {α : Type} {begun link : Bool} {produced : List α} (m : α) (h : begun = true → produced ≠ [])
    (known : begun = true) : sentOn link produced m ≠ [] := by
  unfold sentOn
  split
  · simp
  · exact h known

theorem exchangeProduce_path (s : State) (p : Port) (m : ExchangeMsg) : Path s (s.exchangeProduce p m) := by
  rw [ClaimMessages.exchangeProduce_eq]
  exact Path.port .refl p ⟨rfl, .rfl, .rfl, rfl, fun h =>
    ⟨h.holding, h.stalling, h.streaming, begun_sentOn m h.begun⟩⟩

/-- The states of a port that holds an item (Table 7.3). -/
def Holding (state : ExchangeState) : Prop := state = .sending ∨ state = .held ∨ state = .await

theorem Holding.not_free {state : ExchangeState} (h : Holding state) : state ≠ .waiting ∧ state ≠ .down ∧ state ≠ .idle := by
  rcases h with rfl | rfl | rfl <;> exact ⟨nofun, nofun, nofun⟩

theorem holding_of_slot (ready : Ready s) (slot : (s.exchange.get p).slot = some k) : Holding (s.exchange.get p).state :=
  (ready.agree.holding p).mp (by rw [slot]; rfl)

theorem slot_of_holding (ready : Ready s) (holds : Holding (s.exchange.get p).state) :
    (s.exchange.get p).slot.isSome = true := (ready.agree.holding p).mpr holds

/-- A port that goes on holding its item. -/
theorem holds_path (ready : Ready s) (holds : Holding (s.exchange.get p).state) {y : ExchangePort}
    (slot : y.slot = (s.exchange.get p).slot) (link : y.link = (s.exchange.get p).link) (still : Holding y.state)
    (stalling : y.stall.isSome ↔ y.state = .held ∨ y.state = .await) (begun : y.begun = true → y.produced ≠ []) :
    Path s { s with exchange := put s.exchange p y } := by
  have here := slot_of_holding ready holds
  obtain ⟨waiting, down, -⟩ := holds.not_free
  obtain ⟨waiting', down', -⟩ := still.not_free
  refine Path.port .refl p ⟨slot, iff_of_false waiting' waiting, iff_of_false down' down, link, fun _ => ?_⟩
  exact ⟨iff_of_true (by rw [slot]; exact here) still, stalling, fun _ => by rw [slot]; exact here, begun⟩

theorem enterStalled_path (ready : Ready s) (holds : Holding (s.exchange.get p).state) {next : ExchangeState}
    (stalls : next = .held ∨ next = .await) : Path s (s.enterStalled p next) :=
  holds_path ready holds rfl rfl (.inr stalls) (iff_of_true rfl stalls) (ready.agree.exchangeBegun p)

theorem exchangeProduce_state (s : State) (p : Port) (m : ExchangeMsg) :
    ((s.exchangeProduce p m).exchange.get p).state = (s.exchange.get p).state := by
  rw [ClaimMessages.exchangeProduce_eq, Laws.get_put_same]

theorem streamOn_path (ready : Ready s) (holds : Holding (s.exchange.get p).state) : Path s (s.streamOn p) := by
  unfold State.streamOn
  dsimp only
  split
  · exact Path.aside .refl
  · exact ready.then (exchangeProduce_path s p _) fun ready =>
      enterStalled_path ready (by rw [exchangeProduce_state]; exact holds) (.inr rfl)

theorem segmentLeaves_path (ready : Ready s) (p : Port) : Path s (s.segmentLeaves p) := by
  cases leaves : afterStreamFrame (s.exchange.get p).produced with
  | none => exact Path.of_eq (by rw [State.segmentLeaves, leaves])
  | some rest =>
    by_cases boundary : (s.exchange.get p).state = .sending ∧ ∀ m ∈ rest, m.inStream = false
    · obtain ⟨sending, last⟩ := boundary
      rw [StreamGoesOn.segmentLeaves_boundary leaves sending last]
      have reached : Path s (StreamGoesOn.boundaryReached s p rest) :=
        Path.port .refl p ⟨rfl, .rfl, .rfl, rfl, fun h => ⟨h.holding, h.stalling, h.streaming, nofun⟩⟩
      have holds : Holding ((StreamGoesOn.boundaryReached s p rest).exchange.get p).state := by
        rw [StreamGoesOn.boundaryReached, Laws.get_put_same]
        exact .inl sending
      split
      · exact ready.then reached fun ready => enterStalled_path ready holds (.inl rfl)
      · exact ready.then reached fun ready => streamOn_path ready holds
    · rw [StreamGoesOn.segmentLeaves_passes leaves boundary]
      exact Path.port .refl p ⟨rfl, .rfl, .rfl, rfl, fun h => ⟨h.holding, h.stalling, h.streaming, nofun⟩⟩

theorem segmentRead_path (ready : Ready s) (p : Port) (data : List Byte) : Path s (s.segmentRead p data) := by
  have begun := ready.agree.exchangeBegun p
  have stalling := ready.agree.stalling p
  unfold State.segmentRead
  dsimp only
  split
  · rename_i k pos slot position
    have holds := holding_of_slot ready slot
    split
    · have stored := holds_path ready holds (y := { s.exchange.get p with
        store := (s.exchange.get p).store ++ data, position := (s.items.get k).segmentAfter pos
        segments := (s.exchange.get p).segments + 1 }) rfl rfl holds stalling begun
      exact stored.trans (exchangeProduce_path _ p _)
    · exact Path.aside (holds_path ready holds (y := { s.exchange.get p with store := (s.exchange.get p).store ++ data }) rfl
        rfl holds stalling begun)
  · exact .refl

theorem breakStream_path (ready : Ready s) (p : Port) : Path s (s.breakStream p) := by
  cases position : (s.exchange.get p).position with
  | none => exact Path.of_eq (by rw [State.breakStream, position])
  | some pos =>
    have slot := ready.agree.streaming p (by rw [position]; rfl)
    have broken := StreamGoesOn.breakStream_eq (s := s) position
    rw [State.readFault] at broken
    rw [broken]
    exact Path.aside (holds_path ready ((ready.agree.holding p).mp slot) (y := { s.exchange.get p with
        store := [], state := .await, holdPending := false, stall := some s.stallLimit
        produced := sentOn (s.exchange.get p).link (s.exchange.get p).produced (.broken pos.rendition pos.number) })
      rfl rfl (.inr (.inr rfl)) (iff_of_true rfl (.inr rfl)) (begun_sentOn _ (ready.agree.exchangeBegun p)))

/-! ### Claims -/

theorem slot_none (ready : Ready s) (state : ¬ Holding (s.exchange.get p).state) : (s.exchange.get p).slot = none :=
  Option.not_isSome_iff_eq_none.mp fun h => state ((ready.agree.holding p).mp h)

theorem stall_none (ready : Ready s) (state : ¬ Holding (s.exchange.get p).state) : (s.exchange.get p).stall = none :=
  Option.not_isSome_iff_eq_none.mp fun h => state (.inr ((ready.agree.stalling p).mp h))

theorem position_none (ready : Ready s) (slot : (s.exchange.get p).slot = none) : (s.exchange.get p).position = none :=
  Option.not_isSome_iff_eq_none.mp fun h => by
    have some_ := ready.agree.streaming p h
    rw [slot] at some_
    cases some_

/-- No claim of a port that does not wait stands in the arbiter's list (R133). -/
theorem claims_of_other (ready : Ready s) (state : (s.exchange.get p).state ≠ .waiting) :
    (s.claims.filter fun c => c.port ≠ p) = s.claims :=
  List.filter_eq_self.mpr fun c mem => decide_eq_true fun port =>
    state ((ready.agree.waiting p).mpr ⟨c, mem, port⟩)

theorem takeClaim_path (ready : Ready s) (p : Port) (mask : Byte) : Path s (s.takeClaim p mask) := by
  unfold State.takeClaim
  dsimp only
  split
  · exact .refl
  · rename_i idle
    split
    · exact exchangeProduce_path s p _
    · exact (Path.of_move (.claimWaits p _ ready.running idle)).trans (releaseAct_path _)
  all_goals exact exchangeProduce_path s p _

/-- A WAITING port goes back to IDLE (R136). -/
theorem cancel_path (ready : Ready s) (waiting : (s.exchange.get p).state = .waiting) :
    Path s (((s.dropClaim p).exchangeProduce p .cancelled).modExchange p fun x => { x with state := .idle }) := by
  have state : ¬ Holding (s.exchange.get p).state := fun h => h.not_free.1 waiting
  have slot := slot_none ready state
  have up : (s.exchange.get p).link = true := (ready.agree.exchangeLink ready.running p).mpr (by rw [waiting]; nofun)
  have merged : (((s.dropClaim p).exchangeProduce p .cancelled).modExchange p fun x => { x with state := .idle }) =
      { s with
        claims := s.claims.filter fun c => c.port ≠ p
        exchange := put s.exchange p { s.exchange.get p with
          state := .idle, produced := sentOn (s.exchange.get p).link (s.exchange.get p).produced .cancelled } } := by
    rw [ClaimMessages.exchangeProduce_eq]
    simp only [State.dropClaim, State.withClaims, State.modExchange, Laws.get_put_same, Laws.put_put]
  rw [merged]
  exact Path.of_move (.portFreed p _ slot ⟨slot, position_none ready slot, stall_none ready state, .inl rfl,
    begun_sentOn _ (ready.agree.exchangeBegun p), fun _ => iff_of_true up nofun⟩)

theorem go_path (ready : Ready s) (held : (s.exchange.get p).state = .held) :
    Path s ((s.modExchange p fun x => { x with state := .sending, stall := none }).streamOn p) := by
  have sends : Path s (s.modExchange p fun x => { x with state := .sending, stall := none }) :=
    holds_path ready (.inr (.inl held)) rfl rfl (.inl rfl) (iff_of_false nofun nofun) (ready.agree.exchangeBegun p)
  exact ready.then sends fun ready => streamOn_path ready (by
    rw [Laws.modExchange_exchange, Laws.get_put_same]
    exact .inl rfl)

/-! ### The end of a claim -/

/-- A port whose claim has ended stands free. -/
theorem claimEnded_free {y : ExchangePort} {next : ExchangeState} (unclaimed : next = .idle ∨ next = .down)
    (begun : y.begun = true → y.produced ≠ []) (link : Running s → (y.link = true ↔ next ≠ .down)) :
    PortFree s (claimEnded y next) :=
  ⟨rfl, rfl, rfl, unclaimed, begun, link⟩

theorem up_of_holding (ready : Ready s) (holds : Holding (s.exchange.get p).state) : (s.exchange.get p).link = true :=
  (ready.agree.exchangeLink ready.running p).mpr holds.not_free.2.1

theorem streamCut_begun (x : ExchangePort) (begun : Bool) (known : (streamCut x begun).begun = true) :
    (streamCut x begun).produced ≠ [] := by
  unfold streamCut at known ⊢
  dsimp only at known ⊢
  rw [Bool.and_eq_true] at known
  intro empty
  rw [empty] at known
  cases known.2

/-- The item a port held is READY again, and the arbiter acts (R14). -/
theorem itemBack_path (slot : (s.exchange.get p).slot = some k) {y : ExchangePort} (after : PortFree s y)
    (retries : Nat) {t : State} (items : t.items = (claimBack s p y k retries).items)
    (exchange : t.exchange = put s.exchange p y) (claims : t.claims = s.claims.filter fun c => c.port ≠ p)
    (low : t.pins.resetLow = s.pins.resetLow := by rfl) (scan : t.scan = s.scan := by rfl)
    (lanes : t.lanes = s.lanes := by rfl) (strips : t.strips = s.strips := by rfl) (pages : t.pages = s.pages := by rfl)
    (jobs : t.jobs = s.jobs := by rfl) (units : t.units = s.units := by rfl) (store : t.store = s.store := by rfl) :
    Path s t.releaseAct :=
  (Path.aside (Path.of_move (.claimBack p y k retries slot after)) low scan items lanes strips pages jobs units exchange
    claims store).trans (releaseAct_path t)

/-- How the claim of a port ends at an acknowledgement: the port free, and what becomes of its item (R143, R144). -/
theorem taken_cases (ready : Ready s) (p : Port) :
    (Path s (s.takeDelivered p) ∧ Path s (s.takeReturn p)) ∨
      ∃ k y n, (s.exchange.get p).slot = some k ∧ PortFree s (claimEnded y .idle) ∧
        s.takeDelivered p = (ClaimEnds.claimOver s p y n).freeItem k ∧
        s.takeReturn p = (ClaimEnds.claimOver s p y n).returnItem k true := by
  by_cases holds : Holding (s.exchange.get p).state
  · obtain ⟨k, slot⟩ := Option.isSome_iff_exists.mp (slot_of_holding ready holds)
    obtain ⟨y, n, await, other, delivered, returned⟩ := ClaimEnds.taken_eq slot holds
    have up := up_of_holding ready holds
    refine .inr ⟨k, y, n, slot, ?_, delivered, returned⟩
    by_cases waits : (s.exchange.get p).state = .await
    · obtain ⟨rfl, -⟩ := await waits
      exact claimEnded_free (.inl rfl) (ready.agree.exchangeBegun p) fun _ => iff_of_true up nofun
    · obtain ⟨begun, -, rfl⟩ := other waits
      exact claimEnded_free (.inl rfl) (streamCut_begun _ _) fun _ => iff_of_true up nofun
  · refine .inl ?_
    cases state : (s.exchange.get p).state with
    | down =>
      obtain ⟨delivered, returned⟩ := ClaimEnds.taken_down state
      exact ⟨Path.of_eq delivered, Path.of_eq returned⟩
    | idle =>
      obtain ⟨delivered, returned⟩ := ClaimEnds.taken_stale (.inl state)
      rw [delivered, returned]
      exact ⟨exchangeProduce_path s p _, exchangeProduce_path s p _⟩
    | waiting =>
      obtain ⟨delivered, returned⟩ := ClaimEnds.taken_stale (.inr state)
      rw [delivered, returned]
      exact ⟨exchangeProduce_path s p _, exchangeProduce_path s p _⟩
    | sending => exact absurd (.inl state) holds
    | held => exact absurd (.inr (.inl state)) holds
    | await => exact absurd (.inr (.inr state)) holds

theorem takeReturn_path (ready : Ready s) (p : Port) : Path s (s.takeReturn p) := by
  rcases taken_cases ready p with ⟨-, path⟩ | ⟨k, y, n, slot, after, -, returned⟩
  · exact path
  · rw [returned]
    have others := claims_of_other ready (holding_of_slot ready slot).not_free.1
    exact itemBack_path slot after (min 255 ((s.items.get k).retries + 1))
      (t := (ClaimEnds.claimOver s p y n).modItem k fun i =>
        { i with state := .ready, holder := none, retries := min 255 (i.retries + 1) }) rfl rfl others.symm

theorem expireStall_path (ready : Ready s) (p : Port) : Path s (s.expireStall p) := by
  by_cases runs : (s.exchange.get p).stall.isSome = true
  · have holds : Holding (s.exchange.get p).state := .inr ((ready.agree.stalling p).mp runs)
    obtain ⟨k, slot⟩ := Option.isSome_iff_exists.mp (slot_of_holding ready holds)
    rw [ClaimEnds.expireStall_revokes slot runs]
    have others := claims_of_other ready holds.not_free.1
    refine itemBack_path slot ?_ (min 255 ((s.items.get k).retries + 1)) rfl rfl others.symm
    exact ⟨rfl, rfl, rfl, .inl rfl, begun_sentOn _ (ready.agree.exchangeBegun p),
      fun _ => iff_of_true (up_of_holding ready holds) nofun⟩
  · exact Path.of_eq (ClaimEnds.expireStall_stopped (Option.not_isSome_iff_eq_none.mp runs))

/-- A port's claim released, whatever it holds (R14, R146, R147). -/
theorem claimReleased_path {y : ExchangePort} {next : ExchangeState}
    (same : y.slot = (s.exchange.get p).slot) (after : PortFree s (claimEnded y next)) (n : Nat) (causes : BitVec 7) :
    Path s (ExchangeLinks.claimReleased { s with free := n, sup := { s.sup with causes := causes } } p y next) := by
  unfold ExchangeLinks.claimReleased
  cases slot : (s.exchange.get p).slot with
  | none =>
    rw [same, slot]
    exact Path.aside (Path.of_move (.portFreed p _ slot after))
  | some k =>
    rw [same, slot]
    exact itemBack_path slot after (s.items.get k).retries rfl rfl rfl

theorem loseExchangeLink_path (s : State) (p : Port) : Path s (s.loseExchangeLink p) := by
  have released := claimReleased_path (s := s) (p := p) (y := { s.exchange.get p with
    link := false, gathering := [], produced := [], begun := false }) rfl (next := .down)
    (claimEnded_free (.inr rfl) nofun fun _ => iff_of_false nofun fun h => h rfl) s.free (s.sup.causes ||| 4)
  rw [← ExchangeLinks.releaseClaim_eq] at released
  exact released

theorem resetExchange_path (s : State) (p : Port) : Path s (s.resetExchange p) := by
  rw [ExchangeLinks.resetExchange_eq (hasBegun (s.exchange.get p).begun s.free) rfl]
  refine claimReleased_path (by rfl) (claimEnded_free ?_ ?_ fun _ => ?_) (s.free + 1) s.sup.causes
  · split
    · exact .inl rfl
    · exact .inr rfl
  · intro known
    dsimp only at known ⊢
    rw [Bool.and_eq_true] at known
    rw [if_pos known.1]
    intro empty
    rw [List.take_eq_nil_iff] at empty
    rcases empty with e | e
    · cases e
    · rw [e] at known
      cases known.2
  · show (s.exchange.get p).link = true ↔ _
    cases (s.exchange.get p).link <;> simp

theorem exchangeLinkUp_path (ready : Ready s) (down : (s.exchange.get p).state = .down) :
    Path s ((s.modExchange p fun x =>
      { x with link := true, state := .idle, gathering := [], store := [], produced := [], begun := false }).setCause
        .link) := by
  have state : ¬ Holding (s.exchange.get p).state := fun h => h.not_free.2.1 down
  have slot := slot_none ready state
  have freed := Path.of_move (.portFreed p { s.exchange.get p with
    link := true, state := .idle, gathering := [], store := [], produced := [], begun := false } slot
    ⟨slot, position_none ready slot, stall_none ready state, .inl rfl, nofun, fun _ => iff_of_true rfl nofun⟩)
  exact Path.aside freed (claims := (claims_of_other ready (by rw [down]; nofun)).symm)

end Exchange

/-! ### While RESET_N is low -/

section Low
variable {s : State} (agree : PortsAgree s) (low : s.pins.resetLow = true)
include agree low

theorem attached_of_low (l : Lane) : (s.scan.get l).attached = none := by
  refine Option.eq_none_iff_forall_ne_some.mpr fun k e => ?_
  have landing := ((agree.attached l k).mp e).1
  rw [(agree.inReset low).1 k] at landing
  cases landing

theorem slot_of_low (p : Port) : (s.exchange.get p).slot = none := by
  refine Option.eq_none_iff_forall_ne_some.mpr fun k e => ?_
  have claimed := (agree.claimed p k e).1
  rw [(agree.inReset low).1 k] at claimed
  cases claimed

theorem scanLevel_path (l : Lane) (link : Bool) : Path s (s.modScan l fun p => { p with link := link }) := by
  have attached := attached_of_low agree low l
  have serving := agree.serving l
  simp only [attached, Option.isSome_none, Bool.false_eq_true, false_iff, not_or] at serving
  have current : (s.scan.get l).current = none :=
    Option.not_isSome_iff_eq_none.mp fun h => serving.2 ((agree.facing l).mp h)
  have timer : (s.scan.get l).timer = none := Option.not_isSome_iff_eq_none.mp fun h => by
    have h := (agree.timing l).mp h
    rw [attached] at h
    cases h
  exact Path.of_move (.scanIdle l _ attached ⟨attached, current, timer, serving, agree.scanBegun l,
    fun running => absurd low (Bool.eq_false_iff.mp running)⟩)

theorem exchangeLevel_path (p : Port) (link : Bool) : Path s (s.modExchange p fun x => { x with link := link }) := by
  have claims := (agree.inReset low).2
  have slot := slot_of_low agree low p
  have state : ¬ Holding (s.exchange.get p).state := fun h => by
    have held := (agree.holding p).mpr h
    rw [slot] at held
    cases held
  have unwaiting : (s.exchange.get p).state ≠ .waiting := fun h => by
    obtain ⟨c, mem, -⟩ := (agree.waiting p).mp h
    rw [claims] at mem
    cases mem
  have unclaimed : (s.exchange.get p).state = .idle ∨ (s.exchange.get p).state = .down := by
    unfold Holding at state
    cases e : (s.exchange.get p).state <;> simp [e] at state unwaiting ⊢
  have stall : (s.exchange.get p).stall = none :=
    Option.not_isSome_iff_eq_none.mp fun h => state (.inr ((agree.stalling p).mp h))
  have position : (s.exchange.get p).position = none := Option.not_isSome_iff_eq_none.mp fun h => by
    have some_ := agree.streaming p h
    rw [slot] at some_
    cases some_
  have freed := Path.of_move (.portFreed p { s.exchange.get p with link := link } slot
    ⟨slot, position, stall, unclaimed, agree.exchangeBegun p, fun running => absurd low (Bool.eq_false_iff.mp running)⟩)
  exact Path.aside freed (claims := by rw [Laws.modExchange_claims, claims]; rfl)

end Low

end Sys2Proof.Walks
end

