-- ==== Sys2Proof/Proofs/Outcomes.lean ====
section
/-! PROOF. What a step leads to: a path of single changes, the freeing of an item with a path behind it, a path with one move of
the profile store at its end, or a reset. -/

namespace Sys2Proof.Outcomes
open Sys2Proof.Machine Sys2Proof.Safety Sys2Proof.Moves Sys2Proof.Walks Sys2Proof.Access Sys2Proof.LinkEvents

/-- The claim of port `p` ended and its item freed, as far as the dispatcher acts (R15, R143). -/
def freedAt (s : State) (p : Port) (y : ExchangePort) (n : Nat) (k : Slot) : State :=
  ClaimEnds.itemFreed (ClaimEnds.claimOver s p y n) k

/-- What an event leads to. -/
inductive Leads (s : State) : State → Prop
  | goes {t : State} (path : Path s t) : Leads s t
  | freed {t : State} (p : Port) (k : Slot) (y : ExchangePort) (n : Nat) (slot : (s.exchange.get p).slot = some k)
      (after : PortFree s (claimEnded y .idle)) (path : Path (freedAt s p y n k) t)
      (behind : Laws.Behind (freedAt s p y n k) t) : Leads s t
  | stored {u : State} (path : Path s u) (pins : Pins) (st : Store) (sup : Supervisor) (free : Nat)
      (moves : StoreMoves u.store st) (low : pins.resetLow = u.pins.resetLow)
      (high : st.phase = u.store.phase ∨ Running u) :
      Leads s { u with pins := pins, store := st, sup := sup, free := free }
  | reset {t : State} (quiet : AtReset.Quiet t)
      (store : t.store = { s.store with pins := Vector.replicate 8 0, stagingPins := 0, editEnable := false } ∨
        ∃ latch, t.store = Store.started s.store.blocks latch) : Leads s t
  | released (low : s.pins.resetLow = true) : Leads s s.releaseReset

variable {s t : State}

/-! ### The links and the memory -/

theorem freeItem_path (s : State) (k : Slot) : Path (ClaimEnds.itemFreed s k) (s.freeItem k) := by
  rw [ClaimEnds.freeItem_eq]
  split
  · exact (dispatchAct_path _).trans (releaseAct_path _)
  · exact dispatchAct_path _

theorem freeItem_behind (s : State) (k : Slot) : Laws.Behind (ClaimEnds.itemFreed s k) (s.freeItem k) := by
  rw [ClaimEnds.freeItem_eq]
  split
  · exact (Laws.Behind.refl _).dispatchAct.releaseAct
  · exact (Laws.Behind.refl _).dispatchAct

theorem takeDelivered_leads (ready : Ready s) (p : Port) : Leads s (s.takeDelivered p) := by
  rcases taken_cases ready p with ⟨path, -⟩ | ⟨k, y, n, slot, after, delivered, -⟩
  · exact .goes path
  · rw [delivered]
    exact .freed p k y n slot after (freeItem_path _ k) (freeItem_behind _ k)

theorem memoryGrant_path (s : State) : Path s s.memoryGrant := by
  unfold State.memoryGrant
  split
  · exact .refl
  · split
    · exact .refl
    · exact Path.aside .refl

/-- A DOWN port comes up (R45). -/
theorem scanLinkUp_path (ready : Ready s) {l : Lane} (down : (s.scan.get l).state = .down) :
    Path s ((s.modScan l fun p =>
      { p with link := true, state := .idle, gathering := [], waiting := [], held := none, produced := [],
               begun := false }).setCause .link) := by
  refine linkChanged_path (l := l) ready (Option.not_isSome_iff_eq_none.mp fun h => ?_) true
  have serving := (ready.agree.serving l).mp h
  rw [down] at serving
  rcases serving with e | e <;> cases e

theorem linkDoes_leads {c : Instr} (does : LinkDoes c s t) (agree : PortsAgree s) : Leads s t := by
  cases does with
  | nothing => exact .goes .refl
  | frameWaits l f running up => exact .goes (buffers_path s l fun _ => rfl)
  | frameTaken l f running clear =>
    have gathered : Path s (s.modScan l fun p => { p with gathering := [] }) := buffers_path s l fun _ => rfl
    exact .goes (Ready.then ⟨agree, running⟩ gathered fun ready => takeFrame_path ready l f)
  | scanLevel l link low => exact .goes (scanLevel_path agree low l link)
  | scanLinkUp l running down => exact .goes (scanLinkUp_path ⟨agree, running⟩ down)
  | scanLinkLost l running => exact .goes (loseScanLink_path ⟨agree, running⟩ l)
  | pocketExpires l running => exact .goes (expirePocket_path ⟨agree, running⟩ l)
  | memoryGrant => exact .goes (memoryGrant_path s)
  | segmentLeaves p running => exact .goes (segmentLeaves_path ⟨agree, running⟩ p)
  | takeClaim p mask running => exact .goes (takeClaim_path ⟨agree, running⟩ p mask)
  | cancel p running waiting => exact .goes (cancel_path ⟨agree, running⟩ waiting)
  | hold p running =>
    exact .goes (Path.port .refl p ⟨rfl, .rfl, .rfl, rfl, fun h => ⟨h.holding, h.stalling, h.streaming, h.begun⟩⟩)
  | go p running held => exact .goes (go_path ⟨agree, running⟩ held)
  | delivered p running => exact takeDelivered_leads ⟨agree, running⟩ p
  | returned p running => exact .goes (takeReturn_path ⟨agree, running⟩ p)
  | stallExpires p running => exact .goes (expireStall_path ⟨agree, running⟩ p)
  | exchangeLevel p link low => exact .goes (exchangeLevel_path agree low p link)
  | exchangeLinkUp p running down => exact .goes (exchangeLinkUp_path ⟨agree, running⟩ down)
  | exchangeLinkLost p => exact .goes (loseExchangeLink_path s p)

/-! ### Bursts -/

/-- A writer or a reader does nothing while RESET_N is low: nothing is served (R190). -/
theorem portBurst_path (agree : PortsAgree s) {u : State} (path : Ready s → Path s u)
    (still : (∀ l, (s.scan.get l).attached = none) → (∀ p, (s.exchange.get p).slot = none) → u = s) : Path s u := by
  by_cases low : s.pins.resetLow = true
  · exact Path.of_eq (still (attached_of_low agree low) (slot_of_low agree low))
  · exact path ⟨agree, Bool.eq_false_iff.mpr low⟩

theorem wrote_path (agree : PortsAgree s) (r : Requester) : Path s (s.wrote r) := by
  cases r with
  | w l =>
    refine portBurst_path agree (fun ready => writerWrote_path ready l) fun attached _ => ?_
    unfold State.wrote State.writerWrote
    dsimp only
    split
    · rename_i serves _
      rw [attached l] at serves
      cases serves
    · rfl
  | cu u => exact unitWrote_path s u
  | xr p => exact .refl

theorem readDone_path (agree : PortsAgree s) (data : List Byte) (r : Requester) : Path s (s.readDone data r) := by
  cases r with
  | w l => exact .refl
  | cu u => exact unitRead_path s u data
  | xr p =>
    refine portBurst_path agree (fun ready => segmentRead_path ready p data) fun _ slot => ?_
    unfold State.readDone State.segmentRead
    simp only [slot p]

theorem readFault_path (agree : PortsAgree s) (r : Requester) : Path s (s.readFault r) := by
  cases r with
  | w l => exact .refl
  | cu u => exact unitFault_path s u
  | xr p =>
    refine portBurst_path agree (fun ready => breakStream_path ready p) fun _ slot => ?_
    have position : (s.exchange.get p).position = none := Option.not_isSome_iff_eq_none.mp fun h => by
      have held := agree.streaming p h
      rw [slot p] at held
      cases held
    unfold State.readFault State.breakStream
    simp only [position]

theorem burstDoes_path (does : BurstDoes s t) (agree : PortsAgree s) : Path s t := by
  have finished (m : Memory) : Path s (burstOver s m) := Path.aside .refl
  have agreed (m : Memory) : PortsAgree (burstOver s m) := PortsKept.path_ports (finished m) agree
  cases does with
  | nothing => exact .refl
  | discarded m => exact finished m
  | wrote m _ r => exact (finished m).trans (wrote_path (agreed m) r)
  | readFault m _ r => exact (finished m).trans (readFault_path (agreed m) r)
  | readDone m _ data r => exact (finished m).trans (readDone_path (agreed m) data r)

/-! ### The supervisor port -/

theorem purgeSettling_path (agree : PortsAgree s) (k : Slot) (settling : (s.items.get k).state = .settling) :
    Path s (s.purgeSettling k) := by
  have live : (s.items.get k).state ≠ .free := by rw [settling]; nofun
  rw [LandingEnds.purgeSettling_decided (agree.decided k (by rw [settling]; nofun) live)]
  have marked := findingAdded_only { s.items.get k with purged := true } (itemFinding .purged 0)
  have state : (findingAdded { s.items.get k with purged := true } (itemFinding .purged 0)).state = .settling := by
    rw [marked]
    exact settling
  refine (Path.item .refl k ?_).trans (rejectRenditions_path _ k (by dsimp only; rw [Laws.get_put_same]; exact state))
  rw [marked]
  exact ⟨rfl, rfl, Laws.findingAdded_pocket _ _, rfl, rfl, rfl, .refl _, fun free => absurd free live⟩

theorem purgeReady_path (agree : PortsAgree s) (k : Slot) (ready : (s.items.get k).state = .ready) :
    Path s (s.purgeReady k) := by
  have live : (s.items.get k).state ≠ .free := by rw [ready]; nofun
  have decided := agree.decided k (by rw [ready]; nofun) live
  have marked := findingAdded_only { s.items.get k with purged := true } (itemFinding .purged 0)
  generalize record : findingAdded { s.items.get k with purged := true } (itemFinding .purged 0) = i at marked
  have purge : s.purgeReady k = State.dispatchAct ((donePurged { s with items := put s.items k i } k).modItem k fun i =>
      { i with disposition := some i.judge }) := by
    rw [State.purgeReady, LandingEnds.addFinding_purged decided, record]
    rfl
  have own : i.state = .ready ∧ i.pocket = (s.items.get k).pocket := by
    refine ⟨by rw [marked]; exact ready, ?_⟩
    rw [← record]
    exact Laws.findingAdded_pocket _ _
  have listed : Path s { s with items := put s.items k i } := by
    refine Path.item .refl k ?_
    rw [marked]
    exact ⟨rfl, rfl, own.2, rfl, rfl, rfl, .refl _, fun free => absurd free live⟩
  have still : ({ s with items := put s.items k i } : State).items.get k = i := Laws.get_put_same _ _ _
  have gone := Path.move listed (.donePurged k (by rw [still]; exact own.1))
  have state : ((donePurged { s with items := put s.items k i } k).items.get k).state ≠ .free := by
    have same : ((donePurged { s with items := put s.items k i } k).items.get k).state = i.state := by
      unfold donePurged State.givePagesBack
      simp only [Laws.modItem_items, Laws.modPages_items, Laws.get_put_same]
    rw [same, own.1]
    nofun
  rw [purge]
  refine (Path.item gone k ?_).trans (dispatchAct_path _)
  exact ⟨rfl, rfl, rfl, rfl, rfl, rfl, .refl _, fun free => absurd free state⟩

theorem drainedTest_path (s : State) (l : Lane) : Path s (s.drainedTest l) := by
  unfold State.drainedTest
  split
  · exact Path.aside .refl
  · exact .refl

theorem laneChanged_path (s : State) (l : Lane) {f : LaneRec → LaneRec} (queue : (f (s.lanes.get l)).queue = (s.lanes.get l).queue) :
    Path s (s.modLane l f) := Path.of_alike (alike_lane s l queue)

/-- What a command leads to, its answer apart. -/
theorem commandDoes_leads {code : Word} (does : CommandDoes code s t) (ready : Ready s) :
    Path s t ∨ t = s.softReset ∨ ∃ st, StoreMoves s.store st ∧ t = { s with store := st } := by
  cases does with
  | nothing => exact .inl .refl
  | store moves => exact .inr (.inr ⟨_, moves, rfl⟩)
  | laneClose l => exact .inl ((laneChanged_path s l rfl).trans (drainedTest_path _ l))
  | laneOpen l => exact .inl (laneChanged_path s l rfl)
  | setQuota l => exact .inl (laneChanged_path s l rfl)
  | laneReset l => exact .inl (resetLane_path ready l)
  | purgeLanding k landing => exact .inl (purgeLanding_path ready k landing)
  | purgeSettling k settling => exact .inl (purgeSettling_path ready.agree k settling)
  | purgeReady k isReady => exact .inl (purgeReady_path ready.agree k isReady)
  | xportReset p => exact .inl (resetExchange_path s p)
  | setMask p =>
    exact .inl (Path.port .refl p ⟨rfl, .rfl, .rfl, rfl, fun h => ⟨h.holding, h.stalling, h.streaming, h.begun⟩⟩)
  | setStall n => exact .inl (Path.aside .refl)
  | setReserve n => exact .inl ((Path.of_alike (alike_headReserve s n)).trans (dispatchAct_path _))
  | softReset => exact .inr (.inl rfl)

theorem quiet_sup (quiet : AtReset.Quiet s) (sup : Supervisor) (pins : Pins) :
    AtReset.Quiet { s with sup := sup, pins := pins } :=
  ⟨quiet.items, quiet.queues, quiet.scan, quiet.exchange, quiet.claims, quiet.jobs, quiet.units, quiet.strips, quiet.pages⟩

theorem accessDoes_leads {c : Instr} (does : AccessDoes c s t) (agree : PortsAgree s) : Leads s t := by
  cases does with
  | nothing => exact .goes .refl
  | command level code answer u running soft does =>
    have given : Path s (given (s.modPins fun x => { x with storeWe := level }) code) := Path.aside .refl
    have ready := Ready.path ⟨agree, running⟩ given
    rcases commandDoes_leads does ready with path | rfl | ⟨st, moves, rfl⟩
    · exact .goes (Path.aside (given.trans path))
    · exact .reset (quiet_sup (AtReset.softReset_quiet _) _ _) (.inl rfl)
    · exact .stored given _ st _ s.free moves rfl (.inr ready.running)
  | access f g st reset index moves high => exact .stored .refl _ st _ s.free moves (reset _) high
  | powerOn => exact .reset (quiet_sup (AtReset.coldReset_quiet s _ _) _ _) (.inr ⟨_, rfl⟩)
  | pinReset => exact .reset (quiet_sup (AtReset.coldReset_quiet s _ _) _ _) (.inr ⟨_, rfl⟩)
  | releaseReset low => exact .released low

/-! ### A step -/

/-- What a port does in a millisecond is a path (R31, R65, R128, R141). -/
theorem keptByTick_path (s : State) : KeptByTick fun t => Path s t ∧ Ready t where
  sendScan {t} l h := by
    have sent : Path t (t.sendScan l) :=
      Path.scan .refl l ⟨rfl, rfl, rfl, rfl, fun h => ⟨h.serving, h.facing, h.timing, nofun⟩⟩
    exact ⟨h.1.trans sent, h.2.path sent⟩
  sendExchange {t} p rest h := by
    have sent : Path t (t.modExchange p fun x => { x with produced := rest, begun := false }) :=
      Path.port .refl p ⟨rfl, .rfl, .rfl, rfl, fun h => ⟨h.holding, h.stalling, h.streaming, nofun⟩⟩
    exact ⟨h.1.trans sent, h.2.path sent⟩
  pocketFalls {t} l timer runs h := by
    have falls : Path t (t.modScan l fun p => { p with timer := some timer }) :=
      Path.scan .refl l ⟨rfl, rfl, rfl, rfl, fun h => ⟨h.serving, h.facing, iff_of_true rfl (h.timing.mp runs), h.begun⟩⟩
    exact ⟨h.1.trans falls, h.2.path falls⟩
  pocketExpires l h := ⟨h.1.trans (expirePocket_path h.2 l), h.2.path (expirePocket_path h.2 l)⟩
  stallFalls {t} p n runs h := by
    have falls : Path t (t.modExchange p fun x => { x with stall := some n }) :=
      Path.port .refl p ⟨rfl, .rfl, .rfl, rfl, fun h =>
        ⟨h.holding, iff_of_true rfl (h.stalling.mp runs), h.streaming, h.begun⟩⟩
    exact ⟨h.1.trans falls, h.2.path falls⟩
  stallExpires p h := ⟨h.1.trans (expireStall_path h.2 p), h.2.path (expireStall_path h.2 p)⟩

theorem tick_leads (agree : PortsAgree s) : Leads s s.tick := by
  by_cases low : s.pins.resetLow = true
  · have still : s.tick = s := by unfold State.tick; exact Laws.whileRunning_reset low _
    rw [still]
    exact .goes .refl
  · rcases (keptByTick_path s).tick ⟨.refl, agree, Bool.eq_false_iff.mpr low⟩ with same | ⟨u, ⟨path, ready⟩, _, _, ms⟩
    · rw [same]
      exact .goes .refl
    · obtain ⟨causes, st, n, moves, e⟩ := tickStore_eq u
      rw [ms, e]
      exact .stored path u.pins st _ n moves rfl (.inr ready.running)

theorem withPending_alike (s : State) (q : List Instr) : Alike s (s.withPending q) := alike_aside s rfl

/-- What a step leads to, from the state with its front command taken. -/
theorem step_leads (agree : PortsAgree s) (h : step s = .next t) : ∃ q, Leads (s.withPending q) t := by
  rcases step_cases h with ⟨_, rfl⟩ | ⟨c, rest, _, e⟩
  · exact ⟨s.pending, tick_leads agree⟩
  · have agree' := PortsKept.ports_alike agree (withPending_alike s rest)
    refine ⟨rest, ?_⟩
    rcases exec_cases e with links | ⟨upsets, rfl⟩ | does
    · exact linkDoes_leads (exec_linkDoes links e) agree'
    · exact .goes (burstDoes_path (burstComplete_does e) agree')
    · exact accessDoes_leads does agree'

end Sys2Proof.Outcomes
end

