-- ==== Sys2Proof/Proofs/FreedItem.lean ====
section
/-! PROOF. The freeing of an item keeps the agreement of ports and queues and the pin counts (R15, R16, R160). -/

namespace Sys2Proof.FreedItem
open Sys2Proof.Machine Sys2Proof.Safety Sys2Proof.Moves Sys2Proof.PortsKept Sys2Proof.Residents Sys2Proof.StoreSound
open Sys2Proof.SourcesGuarded Sys2Proof.Outcomes

section
variable {s : State} {p : Port} {k : Slot} {y : ExchangePort} {n : Nat}

theorem freedAt_item (m : Slot) : (freedAt s p y n k).items.get m = if k = m then Item.empty else s.items.get m :=
  Laws.get_put _ _ _ _

theorem freedAt_queue (m : Lane) : ((freedAt s p y n k).lanes.get m).queue =
    if (s.items.get k).lane = m then (s.lanes.get m).queue.filter (· ≠ k) else (s.lanes.get m).queue := by
  show ((put s.lanes _ _).get m).queue = _
  rw [Laws.get_put]
  split
  · rename_i same
    rw [same]
    exact (if_pos same).symm
  · rename_i other
    exact (if_neg other).symm

/-- An item freed, and the claim of its port ended. -/
theorem ports_freedAt (agree : PortsAgree s) (slot : (s.exchange.get p).slot = some k)
    (after : PortFree s (claimEnded y .idle)) : PortsAgree (freedAt s p y n k) := by
  obtain ⟨claimed, holder⟩ := agree.claimed p k slot
  have live : (s.items.get k).state ≠ .free := by rw [claimed]; nofun
  have unwaiting : ¬ ∃ c ∈ s.claims, c.port = p := fun waits => by
    have waiting := (agree.waiting p).mpr waits
    have holding := (agree.holding p).mp (by rw [slot]; rfl)
    rw [waiting] at holding
    rcases holding with e | e | e <;> cases e
  have items (m : Slot) : (freedAt s p y n k).items.get m = if k = m then Item.empty else s.items.get m := freedAt_item m
  have exchange (q : Port) : (freedAt s p y n k).exchange.get q =
      if p = q then claimEnded y .idle else s.exchange.get q := Laws.get_put _ _ _ _
  refine (portsAgree_iff _).mpr ⟨⟨fun l j => ?_, fun j => ?_, fun j => ?_, fun q j held => ?_, fun q => ?_, agree.oneClaim,
    fun low => ?_⟩, ⟨agree.scanLink, fun running q => ?_⟩, @scanShaped s agree, fun q => ?_⟩
  · rw [items]
    split
    · rename_i same
      subst same
      have unserved : (s.scan.get l).attached ≠ some k := fun e => by
        have landing := ((agree.attached l k).mp e).1
        rw [claimed] at landing
        cases landing
      exact iff_of_false unserved fun e => nomatch e.1
    · exact agree.attached l j
  · rw [items]
    split
    · exact fun e => nomatch e
    · exact agree.undecided j
  · rw [items]
    split
    · exact fun _ freed => absurd rfl freed
    · exact agree.decided j
  · rw [exchange] at held
    split at held
    · cases held
    · rename_i other
      have differ : k ≠ j := by
        rintro rfl
        have holders := (agree.claimed q k held).2
        rw [holder] at holders
        exact other (Option.some.inj holders)
      rw [items, if_neg differ]
      exact agree.claimed q j held
  · rw [exchange]
    split
    · rename_i same
      subst same
      exact iff_of_false nofun unwaiting
    · exact agree.waiting q
  · exact absurd (show s.pins.resetLow = true from low) (Bool.eq_false_iff.mp (running_of_live agree live))
  · rw [exchange]
    split
    · exact after.linked running
    · exact agree.exchangeLink running q
  · rw [exchange]
    split
    · exact after.shaped
    · exact portShaped agree q

/-! ### Queues -/

theorem queues_freedAt (agree : QueuesAgree s) : QueuesAgree (freedAt s p y n k) := by
  refine ⟨fun m j => ?_, fun m => ?_⟩
  · rw [freedAt_queue, freedAt_item]
    by_cases slot : k = j
    · subst slot
      rw [if_pos rfl]
      refine iff_of_false (fun mem => ?_) fun e => e.1 rfl
      split at mem
      · simpa using (List.mem_filter.mp mem).2
      · rename_i other
        exact other ((agree.live m k).mp mem).2
    · rw [if_neg slot, ← agree.live m j]
      split
      · rw [List.mem_filter]
        exact and_iff_left (decide_eq_true (Ne.symm slot))
      · exact .rfl
  · rw [freedAt_queue]
    split
    · exact (agree.once m).filter _
    · exact agree.once m

theorem queuesGrow_freedAt : QueuesGrow s (freedAt s p y n k) := fun m => by
  refine ⟨fun j => if (s.items.get k).lane = m then decide (j ≠ k) else true, [], ?_, nofun⟩
  rw [freedAt_queue, List.append_nil]
  split
  · rfl
  · rw [List.filter_true]

/-! ### Profile sources -/

theorem unpinned_modPins (st : Store) (src : Source) : ClaimEnds.unpinned st (some src) = st.modPins src (· - 1) := by
  cases src <;> rfl

theorem pinned_freedAt (pinned' : Pinned s) (live : (s.items.get k).state ≠ .free) : Pinned (freedAt s p y n k) := by
  obtain ⟨src, source⟩ := Option.isSome_iff_exists.mp (pinned'.latched k live)
  refine ⟨fun other => ?_, fun m liveM => ?_, fun m free => ?_⟩
  · have count := pinned_put other (s := s) (t := freedAt s p y n k) (k := k) (j := Item.empty) rfl
    have after : pinMark other Item.empty = [] := rfl
    have before : pinMark other (s.items.get k) = if src = other then [0] else [] := by
      simp only [pinMark, source, Option.some.injEq]
    have store : (freedAt s p y n k).store = s.store.modPins src (· - 1) := by
      rw [← unpinned_modPins, ← source]
      rfl
    rw [before, after, ← pinned'.pins other] at count
    rw [store, modPins_pinCount]
    split at count <;> rename_i same <;> simp only [same, if_true, if_false, List.length_cons, List.length_nil] at count ⊢ <;>
      omega
  · rw [freedAt_item] at liveM ⊢
    split
    · rename_i same
      rw [if_pos same] at liveM
      exact absurd rfl liveM
    · rename_i other
      rw [if_neg other] at liveM
      exact pinned'.latched m liveM
  · rw [freedAt_item] at free ⊢
    split
    · rfl
    · rename_i other
      rw [if_neg other] at free
      exact pinned'.emptied m free

theorem sound_freedAt (sound : Sound s.store) : Sound (freedAt s p y n k).store := by
  show Sound (ClaimEnds.unpinned s.store (s.items.get k).source)
  cases source : (s.items.get k).source with
  | none => exact sound
  | some src =>
    rw [unpinned_modPins]
    exact sound_modPins sound _

/-- A pin count that falls takes no source out of use that has a user left. -/
theorem guarded_freedAt (guarded : SourcesGuarded s) : SourcesGuarded (freedAt s p y n k) := by
  obtain ⟨⟨used, operating, scanning⟩, low⟩ := (guarded_iff s).mp guarded
  cases source : (s.items.get k).source with
  | none =>
    have store : (freedAt s p y n k).store = s.store := by
      show ClaimEnds.unpinned s.store (s.items.get k).source = _
      rw [source]
      rfl
    exact guarded_of_same guarded store rfl
  | some src =>
    have store : (freedAt s p y n k).store = s.store.modPins src (· - 1) := by
      rw [← unpinned_modPins, ← source]
      rfl
    refine (guarded_iff _).mpr ⟨?_, ?_⟩
    · rw [store, modPins_rest]
      refine ⟨fun other inUse => ?_, operating, scanning⟩
      have before : s.store.usable other = true := by
        refine used other ((inUse_iff _ other).mpr ?_)
        rcases (inUse_iff _ other).mp inUse with counted | bound
        · rw [← modPins_rest, modPins_pinCount] at counted
          split at counted
          · exact .inl (by omega)
          · exact .inl counted
        · exact .inr bound
      cases other <;> exact before
    · rw [store, modPins_rest]
      exact low

end

/-- What the profiles' invariants say after an item is freed. -/
theorem profiled_freedAt {s : State} {p : Port} {k : Slot} (y : ExchangePort) (n : Nat) (h : Profiled s)
    (live : (s.items.get k).state ≠ .free) : Profiled (freedAt s p y n k) :=
  ⟨guarded_freedAt h.guarded, pinned_freedAt h.pinned live, sound_freedAt h.sound⟩

end Sys2Proof.FreedItem
end

