-- ==== Sys2Proof/Proofs/QueueEvents.lean ====
section
/-! PROOF. No step breaks the agreement of ports, claims and items, or that of queues and items (R9 to R16, R131, R133). -/

namespace Sys2Proof.QueueEvents
open Sys2Proof.Machine Sys2Proof.Safety Sys2Proof.Moves Sys2Proof.PortsKept Sys2Proof.Residents Sys2Proof.Outcomes

variable {s t : State}

/-! ### RESET_N released -/

theorem released_scan (s : State) (l : Lane) : s.releaseReset.scan.get l = ScanPort.fresh (s.scan.get l).link :=
  AtReset.forall_lane (P := fun l => s.releaseReset.scan.get l = ScanPort.fresh (s.scan.get l).link) rfl rfl rfl rfl l

theorem released_exchange (s : State) (p : Port) :
    s.releaseReset.exchange.get p = ExchangePort.fresh (s.exchange.get p).link (s.exchange.get p).mask :=
  AtReset.forall_port (P := fun p => s.releaseReset.exchange.get p = ExchangePort.fresh (s.exchange.get p).link
    (s.exchange.get p).mask) rfl rfl p

/-- RESET_N returns high with no item living: every port fresh (R190). -/
theorem ports_released (agree : PortsAgree s) (low : s.pins.resetLow = true) : PortsAgree s.releaseReset := by
  obtain ⟨free, claims⟩ := agree.inReset low
  have scanFree (l : Lane) : ScanFree s.releaseReset (ScanPort.fresh (s.scan.get l).link) := by
    refine ⟨rfl, rfl, rfl, ?_, nofun, fun _ => ?_⟩ <;> cases link : (s.scan.get l).link <;> simp [ScanPort.fresh]
  have portFree (p : Port) :
      PortFree s.releaseReset (ExchangePort.fresh (s.exchange.get p).link (s.exchange.get p).mask) := by
    refine ⟨rfl, rfl, rfl, ?_, nofun, fun _ => ?_⟩ <;> cases link : (s.exchange.get p).link <;> simp [ExchangePort.fresh]
  refine (portsAgree_iff _).mpr ⟨⟨fun l k => ?_, agree.undecided, agree.decided, fun p k held => ?_, fun p => ?_,
    agree.oneClaim, fun reset => absurd reset Bool.false_ne_true⟩, ⟨fun running l => ?_, fun running p => ?_⟩, fun l => ?_,
    fun p => ?_⟩
  · rw [released_scan]
    refine iff_of_false nofun fun e => ?_
    have landing : (s.items.get k).state = .landing := e.1
    rw [free k] at landing
    cases landing
  · rw [released_exchange] at held
    cases held
  · rw [released_exchange]
    refine iff_of_false (fun e => ?_) ?_
    · rcases (portFree p).unclaimed with f | f <;> rw [f] at e <;> cases e
    · rintro ⟨c, mem, -⟩
      have mem : c ∈ s.claims := mem
      rw [claims] at mem
      cases mem
  · rw [released_scan]
    exact (scanFree l).linked running
  · rw [released_exchange]
    exact (portFree p).linked running
  · rw [released_scan]
    exact (scanFree l).shaped
  · rw [released_exchange]
    exact (portFree p).shaped

/-! ### Steps -/

theorem leads_ports (leads : Leads s t) (agree : PortsAgree s) : PortsAgree t := by
  cases leads with
  | goes path => exact path_ports path agree
  | freed p k y n slot after path => exact path_ports path (FreedItem.ports_freedAt agree slot after)
  | stored path pins st sup free moves low =>
    exact ports_same (path_ports path agree) low
  | reset quiet => exact AtReset.portsAgree quiet
  | released low => exact ports_released agree low

/-- Settles O54, change by change along the path of the step. -/
theorem portsAgreeKept : Obligations.PortsAgreeKept := by
  unfold Obligations.PortsAgreeKept
  intro s t agree h
  obtain ⟨q, leads⟩ := step_leads agree h
  exact leads_ports leads (ports_alike agree (withPending_alike s q))

theorem queues_same (agree : QueuesAgree s) (items : t.items = s.items) (lanes : t.lanes = s.lanes) : QueuesAgree t :=
  ⟨fun l k => by rw [lanes, items]; exact agree.live l k, fun l => by rw [lanes]; exact agree.once l⟩

theorem queuesGrow_behind {u : State} (grown : QueuesGrow s t) (behind : Laws.Behind t u) : QueuesGrow s u := fun l => by
  rw [behind.lanes]
  exact grown l

theorem leads_queues (leads : Leads s t) (ports : PortsAgree s) (agree : QueuesAgree s) :
    QueuesAgree t ∧ QueuesGrow s t := by
  cases leads with
  | goes path => exact path_queues path ports agree
  | freed p k y n slot after path behind =>
    have freed := path_queues path (FreedItem.ports_freedAt ports slot after) (FreedItem.queues_freedAt agree)
    exact ⟨freed.1, queuesGrow_behind FreedItem.queuesGrow_freedAt behind⟩
  | stored path =>
    obtain ⟨agreed, grown⟩ := path_queues path ports agree
    exact ⟨queues_same agreed rfl rfl, grown⟩
  | reset quiet =>
    exact ⟨AtReset.queuesAgree quiet, fun l => ⟨fun _ => false, [], by rw [quiet.queues, List.filter_false]; rfl, nofun⟩⟩
  | released => exact ⟨queues_same agree rfl rfl, queuesGrow_same fun _ => rfl⟩

/-- Settles O55, change by change: only a slot given and an item freed touch a queue. -/
theorem queuesAgreeKept : Obligations.QueuesAgreeKept := by
  unfold Obligations.QueuesAgreeKept
  intro s t ports agree h
  obtain ⟨q, leads⟩ := step_leads ports h
  have both : QueuesAgree t ∧ QueuesGrow (s.withPending q) t :=
    leads_queues leads (ports_alike ports (withPending_alike s q)) (queues_same agree rfl rfl)
  exact both

end Sys2Proof.QueueEvents
end

