-- ==== Sys2Proof/Proofs/StoreMoved.lean ====
section
/-! PROOF. No move of the store makes a source usable whose record fails its checks, or lets a block's mark say what is not so
(R156 to R158, R164 to R167, R171). -/

namespace Sys2Proof.StoreMoved
open Sys2Proof.Machine Sys2Proof.Safety Sys2Proof.Access Sys2Proof.StoreSound Sys2Proof.SettingsInRange
open Sys2Proof.SourcesGuarded

/-! ### The checks read the first 510 bytes alone -/

theorem all_range_congr {bound : Nat} {f g : Nat → Bool} (h : ∀ k, k < bound → f k = g k) :
    (List.range bound).all f = (List.range bound).all g := by
  rw [Bool.eq_iff_iff, List.all_eq_true, List.all_eq_true]
  refine forall₂_congr fun k mem => ?_
  rw [h k (List.mem_range.mp mem)]

section Same
variable {r r' : List Byte} (same : ∀ n, n < 510 → byteAt r' n = byteAt r n)
include same

theorem numAt_same {n : Nat} (inside : n < 510) : numAt r' n = numAt r n := by
  rw [numAt, numAt, same n inside]

theorem wordAt_same {n : Nat} (inside : n < 509) : wordAt r' n = wordAt r n := by
  rw [wordAt, wordAt, same n (by omega), same (n + 1) (by omega)]

theorem num16At_same {n : Nat} (inside : n < 509) : num16At r' n = num16At r n := by
  rw [num16At, num16At, wordAt_same same inside]

theorem profileSelects_same (face : FaceKind) (kind : RenditionKind) :
    profileSelects r' face kind = profileSelects r face kind := by
  unfold profileSelects
  rw [same 10 (by omega)]

theorem profileRungs_same (kind : RenditionKind) : profileRungs r' kind = profileRungs r kind := by
  cases kind
  · exact numAt_same same (n := 16) (by omega)
  · exact numAt_same same (n := 25) (by omega)

theorem rung_same (kind : RenditionKind) {k : Nat} (few : k < 4) :
    rungFirst r' kind k = rungFirst r kind k ∧ rungSecond r' kind k = rungSecond r kind k := by
  cases kind
  · exact ⟨numAt_same same (n := 17 + 2 * k) (by omega), numAt_same same (n := 18 + 2 * k) (by omega)⟩
  · exact ⟨numAt_same same (n := 26 + 2 * k) (by omega), numAt_same same (n := 27 + 2 * k) (by omega)⟩

/-- A ladder of more than four rungs is refused before its rungs are read (Table 8.2). -/
theorem ladderValid_same (kind : RenditionKind) : ladderValid r' kind = ladderValid r kind := by
  rw [ladderValid, ladderValid, profileRungs_same same]
  cases counted : inRange 1 4 (profileRungs r kind) with
  | false => rfl
  | true =>
    have few := ((RecordChecks.inRange_iff _ _ _).mp counted).2
    rw [Bool.true_and, Bool.true_and]
    refine all_range_congr fun k inside => ?_
    obtain ⟨first, second⟩ := rung_same same kind (k := k) (by omega)
    rw [first, second]

theorem codeTable_same : codeTable r' = codeTable r := by
  refine List.map_congr_left fun e mem => ?_
  have few := List.mem_range.mp mem
  rw [codeLength, codeLength, codePattern, codePattern, numAt_same same (n := 58 + 3 * e) (by omega),
    num16At_same same (n := 59 + 3 * e) (by omega)]

theorem recordValid_same (name : r'.take 8 = r.take 8) : recordValid r' = recordValid r := by
  have severities : (List.range 7).all (fun k => decide (numAt r' (49 + k) ≤ 1)) =
      (List.range 7).all fun k => decide (numAt r (49 + k) ≤ 1) :=
    all_range_congr fun k inside => by rw [numAt_same same (n := 49 + k) (by omega)]
  have number {n : Nat} (inside : n < 510) := numAt_same same inside
  have number16 {n : Nat} (inside : n < 509) := num16At_same same inside
  have edition : decide (profileEdition r' ≠ 0) = decide (profileEdition r ≠ 0) := by
    rw [profileEdition, profileEdition, wordAt_same same (n := 8) (by omega)]
  simp only [recordValid, profileName, edition, profileBudget, profileMinWidth, profileMaxWidth, profileMinRows,
    profileMaxRows, profileLightLimit, profileDarkLimit, profileStreakLimit, profileTolerance, profileDeadline,
    codeTableValid, name, profileSelects_same same, ladderValid_same same, codeTable_same same, severities,
    number16 (n := 12) (by omega), number16 (n := 14) (by omega), number16 (n := 34) (by omega),
    number16 (n := 36) (by omega), number16 (n := 38) (by omega), number16 (n := 40) (by omega),
    number16 (n := 42) (by omega), number16 (n := 44) (by omega), number16 (n := 46) (by omega),
    number (n := 48) (by omega), number16 (n := 56) (by omega)]

end Same

/-- PROGRAM writes a record that passes the checks if the staging area's does: only the record check is new (R165). -/
theorem recordValid_programmed {bytes : List Byte} (length : bytes.length = 512) :
    recordValid (programmed bytes) = recordValid bytes := by
  have kept : (bytes.take Config.checkedBytes).length = 510 := by
    rw [List.length_take, length]
    rfl
  refine recordValid_same (fun n inside => ?_) ?_
  · rw [byteAt, byteAt, programmed, List.getD_append _ _ _ _ (by omega), List.getD_eq_getElem?_getD,
      List.getD_eq_getElem?_getD, List.getElem?_take_of_lt (by exact inside)]
  · rw [programmed, List.take_append_of_le_length (by omega), List.take_take]
    rfl

/-! ### The moves -/

theorem storeMoves_pinCount {st st' : Store} (moves : StoreMoves st st') (src : Source) :
    st'.pinCount src = st.pinCount src := by
  cases src <;> cases moves <;> (try rfl)
  all_goals
    unfold Store.endWrite
    split <;> rfl

section Moves
variable {st st' : Store} (sound : Sound st)
include sound

/-- The staging area changed, and no PROGRAM reading it or its state kept. -/
theorem sound_staging (g : Staging) (checked : g.state = .validated → recordValid g.bytes = true)
    (programming : ∀ b, st.operation = some (.program, b) → g.state = .validated) :
    Sound { st with staging := g } where
  checked src usable := by
    cases src with
    | block b => exact sound.checked (.block b) usable
    | staging => exact checked (of_decide_eq_true usable)
  closed := sound.closed
  opened := sound.opened
  programming b operating := ⟨(sound.programming b operating).1, programming b operating⟩

theorem not_programming (notReading : st.readingStaging = false) (b : BlockNo) : st.operation ≠ some (.program, b) := by
  intro operating
  have phase := (sound.programming b operating).1
  unfold Store.readingStaging at notReading
  rw [operating] at notReading
  simp only [Bool.or_eq_false_iff, decide_eq_false_iff_not] at notReading
  exact phase.elim notReading.1 notReading.2

/-- One block changed with the operation, as it starts or ends. -/
theorem sound_block {b : BlockNo} {x : Block} (blocks : st'.blocks = put st.blocks b x)
    (staging : st'.staging = st.staging) (checked : x.state = .valid → recordValid x.bytes = true)
    (closed : x.opened = false → x.bytes = erasedBytes ∨ recordValid x.bytes = true)
    (opened : ∀ op c, st'.operation = some (op, c) → (st'.blocks.get c).opened = true)
    (programming : ∀ c, st'.operation = some (.program, c) →
      (st'.phase = .programming ∨ st'.phase = .verifying) ∧ st'.staging.state = .validated) : Sound st' where
  checked src usable := by
    cases src with
    | staging =>
      have state : st.usable .staging = true := by
        have h : decide (st'.staging.state = .validated) = true := usable
        rw [staging] at h
        exact h
      have valid := sound.checked .staging state
      show recordValid st'.staging.bytes = true
      rw [staging]
      exact valid
    | block c =>
      have state : (st'.blocks.get c).state = .valid := of_decide_eq_true usable
      show recordValid (st'.blocks.get c).bytes = true
      rw [blocks, Laws.get_put] at state ⊢
      split at state <;> rename_i same
      · rw [if_pos same]
        exact checked state
      · rw [if_neg same]
        exact sound.checked (.block c) (decide_eq_true state)
  closed c := by
    rw [blocks, Laws.get_put]
    split
    · exact closed
    · exact sound.closed c
  opened := opened
  programming := programming

theorem written_valid (range : StoreInRange st) {op : StoreOp} {b : BlockNo} (operating : st.operation = some (op, b)) :
    st.written op = erasedBytes ∨ recordValid (st.written op) = true := by
  cases op with
  | erase => exact .inl rfl
  | program =>
    refine .inr ?_
    have staged := (sound.programming b operating).2
    show recordValid (programmed st.staging.bytes) = true
    rw [recordValid_programmed range.staging]
    exact sound.checked .staging (decide_eq_true staged)

/-- The bytes of a block that the start-up scan classifies VALID pass the checks (R171). -/
theorem classify_valid {b : BlockNo} (valid : (st.blocks.get b).classify = .valid) :
    recordValid (st.blocks.get b).bytes = true := by
  unfold Block.classify at valid
  split at valid
  · cases valid
  · rename_i notOpen
    split at valid
    · cases valid
    · rename_i notErased
      exact (sound.closed b (Bool.eq_false_iff.mpr notOpen)).resolve_left notErased

theorem storeMoves_sound (moves : StoreMoves st st') (range : StoreInRange st) (guarded : StoreGuarded st) : Sound st' := by
  cases moves with
  | nothing => exact sound
  | editEnable | bind | phaseLeft =>
    refine ⟨fun src usable => ?_, sound.closed, sound.opened, sound.programming⟩
    cases src with
    | block b => exact sound.checked (.block b) usable
    | staging => exact sound.checked .staging usable
  | load b valid unused notReading =>
    exact sound_staging sound _ (fun _ => sound.checked (.block b) (decide_eq_true valid)) fun _ _ => rfl
  | validate passes => exact sound_staging sound _ (fun _ => passes) fun _ _ => rfl
  | stagingWrite v unused notReading =>
    exact sound_staging sound _ nofun fun b operating => absurd operating (not_programming sound notReading b)
  | stagingAddress a =>
    exact sound_staging sound _ (fun state => sound.checked .staging (decide_eq_true state)) fun b operating =>
      (sound.programming b operating).2
  | start op b idle unused staged =>
    refine sound_block sound (b := b) (x := { st.blocks.get b with state := .busy, opened := true }) rfl rfl nofun nofun ?_ ?_
    · rintro op c ⟨⟩
      exact congrArg Block.opened (Laws.get_put_same _ _ _)
    · rintro c ⟨⟩
      exact ⟨.inl rfl, staged rfl⟩
  | endScan starting =>
    have none := (guarded.scanning starting).1
    have blocks (b : BlockNo) : (st.endScan.blocks.get b) = { st.blocks.get b with state := (st.blocks.get b).classify } :=
      mapBlocks_get st (fun b => { b with state := b.classify }) b
    have operation : st.endScan.operation = st.operation := rfl
    refine ⟨fun src usable => ?_, fun b => ?_, fun op b operating => ?_, fun b operating => ?_⟩
    · cases src with
      | staging => exact sound.checked .staging usable
      | block b =>
        have state : (st.endScan.blocks.get b).state = .valid := of_decide_eq_true usable
        show recordValid (st.endScan.blocks.get b).bytes = true
        rw [blocks] at state ⊢
        exact classify_valid sound state
    · rw [blocks]
      exact sound.closed b
    · rw [operation, none] at operating
      cases operating
    · rw [operation, none] at operating
      cases operating
  | endWrite writing =>
    unfold Store.endWrite
    split
    · exact sound
    · rename_i op b operating
      have isOpen := sound.opened op b operating
      refine sound_block sound (b := b) (x := { st.blocks.get b with bytes := st.written op }) rfl rfl ?_ ?_ ?_ ?_
      · intro valid
        rw [guarded.operating op b operating] at valid
        cases valid
      · intro closed
        rw [isOpen] at closed
        cases closed
      · intro op' c operating'
        have named : st.operation = some (op', c) := operating'
        rw [operating] at named
        obtain ⟨rfl, rfl⟩ := Prod.mk.inj (Option.some.inj named)
        exact (congrArg Block.opened (Laws.get_put_same _ _ _)).trans isOpen
      · intro c operating'
        exact ⟨.inr rfl, (sound.programming c operating').2⟩
  | verifyPassed op b verifying operating =>
    have valid := written_valid sound range operating
    refine sound_block sound (b := b) rfl rfl ?_ (fun _ => valid) nofun nofun
    intro state
    cases op with
    | erase => cases state
    | program =>
      show recordValid (programmed st.staging.bytes) = true
      rw [recordValid_programmed range.staging]
      exact sound.checked .staging (decide_eq_true (sound.programming b operating).2)
  | verifyFailed op b lost verifying operating =>
    refine sound_block sound (b := b) rfl rfl nofun ?_ nofun nofun
    intro closed
    rw [show (st.blocks.get b).opened = true from sound.opened op b operating] at closed
    cases closed

end Moves

end Sys2Proof.StoreMoved
end

