-- ==== Sys2Proof/Proofs/ProfileEvents.lean ====
section
/-! PROOF. No step breaks the counts of pinned items, the checks of usable records, or what the marks of the blocks say (R3,
R150, R157, R160, R165, R171). -/

namespace Sys2Proof.ProfileEvents
open Sys2Proof.Machine Sys2Proof.Safety Sys2Proof.Moves Sys2Proof.PortsKept Sys2Proof.Residents Sys2Proof.StoreSound
open Sys2Proof.SourcesGuarded Sys2Proof.SettingsInRange Sys2Proof.Outcomes

variable {s t : State}

/-! ### The store along a path -/

/-- Pin counts apart, a path leaves the store as it is. -/
def SamePinsApart (st st' : Store) : Prop := st' = { st with pins := st'.pins, stagingPins := st'.stagingPins }

theorem SamePinsApart.trans {st st' st'' : Store} (h : SamePinsApart st st') (g : SamePinsApart st' st'') :
    SamePinsApart st st'' := by
  unfold SamePinsApart at *
  rw [g, h]

theorem path_store (path : Path s t) (agree : PortsAgree s) : SamePinsApart s.store t.store := by
  induction path with
  | refl => rfl
  | tail before move ih =>
    refine ih.trans ?_
    rcases move_resident move (path_ports before agree) with h | ⟨_, _, src, _, _, _, _, _, _, rfl⟩
    · rw [h.store]
      rfl
    · exact modPins_rest _ src _

theorem storeInRange_path (range : StoreInRange s.store) (path : Path s t) (agree : PortsAgree s) :
    StoreInRange t.store := by
  have same := path_store path agree
  unfold SamePinsApart at same
  rw [same]
  exact ⟨range.staging, range.stagingEmpty, range.block⟩

/-! ### Resets -/

theorem softReset_pins (st : Store) (src : Source) :
    Store.pinCount { st with pins := Vector.replicate 8 0, stagingPins := 0, editEnable := false } src = 0 := by
  cases src with
  | block b => exact Resets.replicate_get 8 0 b
  | staging => rfl

theorem softReset_sound {st : Store} (sound : Sound st) :
    Sound { st with pins := Vector.replicate 8 0, stagingPins := 0, editEnable := false } := by
  refine ⟨fun src usable => ?_, sound.closed, sound.opened, sound.programming⟩
  cases src with
  | block b => exact sound.checked (.block b) usable
  | staging => exact sound.checked .staging usable

theorem released_block (s : State) (b : BlockNo) :
    s.releaseReset.store.blocks.get b = { s.store.blocks.get b with state := .busy } :=
  mapBlocks_get s.store (fun x => { x with state := .busy }) b

/-- The start-up scan begins with no operation in progress (R171, R190). -/
theorem released_sound (h : Profiled s) (low : s.pins.resetLow = true) : Sound s.releaseReset.store := by
  have none : s.store.operation = none := (h.guarded.scanning (h.guarded.inReset low)).1
  have operation : s.releaseReset.store.operation = s.store.operation := rfl
  refine ⟨fun src usable => ?_, fun b => ?_, fun op b operating => ?_, fun b operating => ?_⟩
  · cases src with
    | staging => exact h.sound.checked .staging usable
    | block b =>
      have state : (s.releaseReset.store.blocks.get b).state = .valid := of_decide_eq_true usable
      rw [released_block] at state
      cases state
  · rw [released_block]
    exact h.sound.closed b
  · rw [operation, none] at operating
    cases operating
  · rw [operation, none] at operating
    cases operating

/-! ### Steps -/

theorem pinned_same (pinned' : Pinned s) (items : t.items = s.items)
    (store : ∀ src, t.store.pinCount src = s.store.pinCount src) : Pinned t where
  pins src := by
    rw [store, pinned, items]
    exact pinned'.pins src
  latched := items ▸ pinned'.latched
  emptied := items ▸ pinned'.emptied

theorem leads_latched (leads : Leads s t) (range : StoreInRange s.store) (agree : PortsAgree s) (h : Profiled s) :
    Pinned t ∧ Sound t.store := by
  cases leads with
  | goes path =>
    have profiled := path_profiled path agree h
    exact ⟨profiled.pinned, profiled.sound⟩
  | freed p k y n slot after path =>
    have live : (s.items.get k).state ≠ .free := by
      rw [(agree.claimed p k slot).1]
      nofun
    have profiled := path_profiled path (FreedItem.ports_freedAt agree slot after) (FreedItem.profiled_freedAt y n h live)
    exact ⟨profiled.pinned, profiled.sound⟩
  | stored path pins st sup free moves =>
    have profiled := path_profiled path agree h
    exact ⟨pinned_same profiled.pinned rfl (StoreMoved.storeMoves_pinCount moves), StoreMoved.storeMoves_sound profiled.sound
      moves (storeInRange_path range path agree) ((guarded_iff _).mp profiled.guarded).1⟩
  | reset quiet store =>
    rcases store with soft | ⟨latch, cold⟩
    · exact ⟨quiet_pinned quiet fun src => by rw [soft]; exact softReset_pins _ src,
        by rw [soft]; exact softReset_sound h.sound⟩
    · exact ⟨quiet_pinned quiet fun src => by rw [cold]; exact started_pins _ latch src,
        by rw [cold]; exact started_sound latch h.sound.closed⟩
  | released low =>
    refine ⟨pinned_same h.pinned rfl fun src => ?_, released_sound h low⟩
    cases src <;> rfl

/-- Settles O56: a path changes pin counts alone, with its items; one move of the store may follow it. -/
theorem profilesLatchedKept : Obligations.ProfilesLatchedKept := by
  unfold Obligations.ProfilesLatchedKept
  intro s t range agree guarded latched h
  obtain ⟨q, leads⟩ := step_leads agree h
  obtain ⟨pinned, sound⟩ := (profilesLatched_iff s).mp latched
  obtain ⟨-, -, -, store, -⟩ := (inRange_iff s).mp range
  exact (profilesLatched_iff t).mpr (leads_latched leads store (ports_alike agree (withPending_alike s q))
    ⟨guarded_of_same guarded rfl rfl, pinned_same pinned rfl fun _ => rfl, sound⟩)

end Sys2Proof.ProfileEvents
end

