-- ==== Sys2Proof/Proofs/JobsHeld.lean ====
section
/-! PROOF. The job queue and the coding units against the renditions' states, for whatever gives each job its rendition: what
each change of one rendition, with the queue and the units, keeps (R78 to R82, R88 to R90). -/

namespace Sys2Proof.JobsHeld
open Sys2Proof.Machine Sys2Proof.Safety

/-- A unit's job as far as it has drawn and placed (R79, R80, R99, R100). -/
structure Drawn (x : CodingUnit) (r : Rendition) : Prop where
  need : r.chain.length + x.undrawn = (r.budget + 3) / 4
  chain : r.chain.length = (x.length + 4095) / 4096
  some_ : 1 ≤ x.length
  within : x.length ≤ r.budget * 1024
  rung : r.rung = x.rung

/-- The queue names each QUEUED rendition once and the units each CODING rendition once, each as far as it is drawn. -/
structure JobsAgree (R : Job → Option Rendition) (jobs : List Job) (units : Vector CodingUnit 2) : Prop where
  queued : ∀ j, j ∈ jobs ↔ ∃ r, R j = some r ∧ r.state = .queued
  once : jobs.Nodup
  coding : ∀ j, (∃ u, (units.get u).job = some j) ↔ ∃ r, R j = some r ∧ r.state = .coding
  apart : ∀ u v j, (units.get u).job = some j → (units.get v).job = some j → u = v
  idle : ∀ u, (units.get u).job = none → (units.get u).undrawn = 0
  drawn : ∀ u j r, (units.get u).job = some j → R j = some r → Drawn (units.get u) r

/-- One rendition replaced. -/
def replaced (R : Job → Option Rendition) (j : Job) (r : Rendition) : Job → Option Rendition :=
  fun i => if i = j then some r else R i

theorem replaced_same (R : Job → Option Rendition) (j : Job) (r : Rendition) : replaced R j r j = some r := if_pos rfl

theorem replaced_other {R : Job → Option Rendition} {i j : Job} {r : Rendition} (other : i ≠ j) :
    replaced R j r i = R i := if_neg other

/-- Whether a rendition is QUEUED or CODING. -/
def Active (r : Rendition) : Prop := r.state = .queued ∨ r.state = .coding

section
variable {R R' : Job → Option Rendition} {jobs : List Job} {units : Vector CodingUnit 2} (h : JobsAgree R jobs units)
  {u : UnitNo} {j : Job} {r r' : Rendition} {x : CodingUnit}
include h

/-- The rendition of a unit's job is CODING. -/
theorem coding_of_unit (codes : (units.get u).job = some j) :
    ∃ r, R j = some r ∧ r.state = .coding ∧ Drawn (units.get u) r := by
  obtain ⟨r, named, coding⟩ := (h.coding j).mp ⟨u, codes⟩
  exact ⟨r, named, coding, h.drawn u j r codes named⟩

/-- Only what is QUEUED or CODING matters. -/
theorem JobsAgree.congr (same : ∀ i q, Active q → (R' i = some q ↔ R i = some q)) : JobsAgree R' jobs units where
  queued i := by
    rw [h.queued i]
    exact exists_congr fun q => and_congr_left fun state => (same i q (.inl state)).symm
  once := h.once
  coding i := by
    rw [h.coding i]
    exact exists_congr fun q => and_congr_left fun state => (same i q (.inr state)).symm
  apart := h.apart
  idle := h.idle
  drawn v i q codes named := by
    obtain ⟨q', named', coding', drawn⟩ := coding_of_unit h codes
    rw [(same i q' (.inr coding')).mpr named'] at named
    exact Option.some.inj named ▸ drawn

/-- A rendition neither QUEUED nor CODING before and after. -/
theorem JobsAgree.passive (named : R j = some r) (before : ¬ Active r) (after : ¬ Active r') :
    JobsAgree (replaced R j r') jobs units := by
  refine h.congr fun i q active => ?_
  by_cases same : i = j
  · subst same
    rw [replaced_same, named]
    exact iff_of_false (fun e => after (Option.some.inj e ▸ active)) fun e => before (Option.some.inj e ▸ active)
  · rw [replaced_other same]

/-- A QUEUED rendition leaves the queue and is given up (R106). -/
theorem JobsAgree.unqueued (named : R j = some r) (before : r.state = .queued) (after : ¬ Active r') :
    JobsAgree (replaced R j r') (jobs.filter (· ≠ j)) units where
  queued i := by
    rw [List.mem_filter, decide_eq_true_iff]
    by_cases same : i = j
    · subst same
      rw [replaced_same]
      refine iff_of_false (fun mem => mem.2 rfl) ?_
      rintro ⟨q, e, state⟩
      exact after (Option.some.inj e ▸ .inl state)
    · rw [replaced_other same, and_iff_left same]
      exact h.queued i
  once := h.once.filter _
  coding i := by
    rw [h.coding i]
    by_cases same : i = j
    · subst same
      rw [replaced_same, named]
      refine iff_of_false ?_ ?_
      · rintro ⟨q, e, state⟩
        rw [← Option.some.inj e, before] at state
        cases state
      · rintro ⟨q, e, state⟩
        exact after (Option.some.inj e ▸ .inr state)
    · rw [replaced_other same]
  apart := h.apart
  idle := h.idle
  drawn v i q codes named' := by
    have other : i ≠ j := by
      rintro rfl
      obtain ⟨q', e, state, -⟩ := coding_of_unit h codes
      rw [named] at e
      rw [← Option.some.inj e, before] at state
      cases state
    rw [replaced_other other] at named'
    exact h.drawn v i q codes named'

omit h in
theorem put_job_same (v : Vector CodingUnit 2) : ((put v u x).get u).job = x.job := by rw [Laws.get_put_same]

/-- A job begins at an IDLE unit (R96). -/
theorem JobsAgree.started (named : R j = some r) (before : r.state = .queued) (after : r'.state = .coding)
    (idle : (units.get u).job = none) (codes : x.job = some j) (drawn : Drawn x r') :
    JobsAgree (replaced R j r') (jobs.filter (· ≠ j)) (put units u x) := by
  have uncoded (v : UnitNo) : (units.get v).job ≠ some j := fun e => by
    obtain ⟨q, named', state, -⟩ := coding_of_unit h e
    rw [named] at named'
    rw [← Option.some.inj named', before] at state
    cases state
  refine ⟨fun i => ?_, h.once.filter _, fun i => ?_, fun v w i cv cw => ?_, fun v none => ?_, fun v i q cv named' => ?_⟩
  · rw [List.mem_filter, decide_eq_true_iff]
    by_cases same : i = j
    · subst same
      rw [replaced_same]
      refine iff_of_false (fun mem => mem.2 rfl) ?_
      rintro ⟨q, e, state⟩
      rw [← Option.some.inj e, after] at state
      cases state
    · rw [replaced_other same, and_iff_left same]
      exact h.queued i
  · by_cases same : i = j
    · subst same
      rw [replaced_same]
      exact iff_of_true ⟨u, (put_job_same _).trans codes⟩ ⟨r', rfl, after⟩
    · rw [replaced_other same, ← h.coding i]
      constructor
      · rintro ⟨v, cv⟩
        rw [Laws.get_put] at cv
        split at cv
        · rw [codes] at cv
          exact absurd (Option.some.inj cv).symm same
        · exact ⟨v, cv⟩
      · rintro ⟨v, cv⟩
        have other : u ≠ v := by
          rintro rfl
          rw [idle] at cv
          cases cv
        exact ⟨v, by rw [Laws.get_put_ne _ _ other]; exact cv⟩
  · rw [Laws.get_put] at cv cw
    split at cv <;> split at cw <;> rename_i hv hw
    · exact hv.symm.trans hw
    · rw [codes] at cv
      exact absurd (cw.trans cv.symm) (uncoded w)
    · rw [codes] at cw
      exact absurd (cv.trans cw.symm) (uncoded v)
    · exact h.apart v w i cv cw
  · rw [Laws.get_put] at none ⊢
    split at none <;> rename_i same
    · rw [codes] at none
      cases none
    · rw [if_neg same]
      exact h.idle v none
  · rw [Laws.get_put] at cv ⊢
    split at cv <;> rename_i same
    · rw [codes] at cv
      obtain rfl := Option.some.inj cv
      rw [replaced_same] at named'
      rw [if_pos same, ← Option.some.inj named']
      exact drawn
    · have other : i ≠ j := fun e => uncoded v (e ▸ cv)
      rw [replaced_other other] at named'
      rw [if_neg same]
      exact h.drawn v i q cv named'

/-- A unit goes on with its job (R80, R81, R100). -/
theorem JobsAgree.goesOn (before : (units.get u).job = some j) (codes : x.job = some j) (after : r'.state = .coding)
    (drawn : Drawn x r') : JobsAgree (replaced R j r') jobs (put units u x) := by
  obtain ⟨r, named, coding, -⟩ := coding_of_unit h before
  have job (v : UnitNo) : ((put units u x).get v).job = (units.get v).job := by
    rw [Laws.get_put]
    split
    · rename_i same
      rw [codes, ← same, before]
    · rfl
  refine ⟨fun i => ?_, h.once, fun i => ?_, fun v w i => ?_, fun v none => ?_, fun v i q cv named' => ?_⟩
  · by_cases same : i = j
    · subst same
      rw [h.queued i, replaced_same, named]
      refine iff_of_false ?_ ?_ <;> rintro ⟨q, e, state⟩ <;> rw [← Option.some.inj e] at state
      · rw [coding] at state
        cases state
      · rw [after] at state
        cases state
    · rw [replaced_other same]
      exact h.queued i
  · simp only [job]
    by_cases same : i = j
    · subst same
      rw [replaced_same]
      exact iff_of_true ⟨u, before⟩ ⟨r', rfl, after⟩
    · rw [replaced_other same]
      exact h.coding i
  · rw [job, job]
    exact h.apart v w i
  · rw [job] at none
    have other : u ≠ v := by
      rintro rfl
      rw [before] at none
      cases none
    rw [Laws.get_put_ne _ _ other]
    exact h.idle v none
  · rw [job] at cv
    rw [Laws.get_put]
    split <;> rename_i same
    · subst same
      rw [before] at cv
      obtain rfl := Option.some.inj cv
      rw [replaced_same] at named'
      exact Option.some.inj named' ▸ drawn
    · have other : i ≠ j := by
        rintro rfl
        exact same (h.apart u v i before cv)
      rw [replaced_other other] at named'
      exact h.drawn v i q cv named'

/-- A unit's job ends (R82, R105, R107). -/
theorem JobsAgree.ended (before : (units.get u).job = some j) (idle : x.job = none) (undrawn : x.undrawn = 0)
    (after : ¬ Active r') : JobsAgree (replaced R j r') jobs (put units u x) := by
  obtain ⟨r, named, coding, -⟩ := coding_of_unit h before
  have job (v : UnitNo) (i : Job) :
      ((put units u x).get v).job = some i ↔ (units.get v).job = some i ∧ i ≠ j := by
    rw [Laws.get_put]
    split
    · rename_i same
      subst same
      rw [idle, before]
      exact iff_of_false nofun fun e => e.2 (Option.some.inj e.1).symm
    · rename_i other
      refine (and_iff_left_of_imp fun cv => ?_).symm
      rintro rfl
      exact other (h.apart u v i before cv)
  refine ⟨fun i => ?_, h.once, fun i => ?_, fun v w i cv cw => ?_, fun v none => ?_, fun v i q cv named' => ?_⟩
  · by_cases same : i = j
    · subst same
      rw [h.queued i, replaced_same, named]
      refine iff_of_false ?_ ?_ <;> rintro ⟨q, e, state⟩
      · rw [← Option.some.inj e, coding] at state
        cases state
      · exact after (Option.some.inj e ▸ .inl state)
    · rw [replaced_other same]
      exact h.queued i
  · simp only [job]
    by_cases same : i = j
    · subst same
      rw [replaced_same]
      refine iff_of_false ?_ ?_
      · rintro ⟨v, -, other⟩
        exact other rfl
      · rintro ⟨q, e, state⟩
        exact after (Option.some.inj e ▸ .inr state)
    · rw [replaced_other same, ← h.coding i]
      exact exists_congr fun v => and_iff_left same
  · exact h.apart v w i ((job v i).mp cv).1 ((job w i).mp cw).1
  · rw [Laws.get_put] at none ⊢
    split at none <;> rename_i same
    · rw [if_pos same]
      exact undrawn
    · rw [if_neg same]
      exact h.idle v none
  · obtain ⟨cv', other⟩ := (job v i).mp cv
    have differ : u ≠ v := by
      rintro rfl
      rw [before] at cv'
      exact other (Option.some.inj cv').symm
    rw [Laws.get_put_ne _ _ differ]
    rw [replaced_other other] at named'
    exact h.drawn v i q cv' named'

/-- The WAITING renditions of a landed face join the queue (R89). -/
theorem JobsAgree.joined {js : List Job} (nodup : js.Nodup)
    (waiting : ∀ i ∈ js, ∃ q, R i = some q ∧ q.state = .waiting ∧ R' i = some { q with state := .queued })
    (others : ∀ i, i ∉ js → R' i = R i) : JobsAgree R' (jobs ++ js) units where
  queued i := by
    rw [List.mem_append, h.queued i]
    by_cases mem : i ∈ js
    · obtain ⟨q, -, -, after⟩ := waiting i mem
      exact iff_of_true (.inr mem) ⟨_, after, rfl⟩
    · rw [others i mem, or_iff_left mem]
  once := by
    refine List.nodup_append.mpr ⟨h.once, nodup, fun a mem b mem' e => ?_⟩
    subst e
    obtain ⟨q, named, state, -⟩ := waiting a mem'
    obtain ⟨q', named', state'⟩ := (h.queued a).mp mem
    rw [named] at named'
    rw [← Option.some.inj named', state] at state'
    cases state'
  coding i := by
    rw [h.coding i]
    by_cases mem : i ∈ js
    · obtain ⟨q, named, state, after⟩ := waiting i mem
      rw [named, after]
      refine iff_of_false ?_ ?_ <;> rintro ⟨q', e, state'⟩ <;> rw [← Option.some.inj e] at state'
      · rw [state] at state'
        cases state'
      · cases state'
    · rw [others i mem]
  apart := h.apart
  idle := h.idle
  drawn v i q codes named := by
    have out : i ∉ js := fun mem => by
      obtain ⟨q', named', state, -⟩ := waiting i mem
      obtain ⟨q'', named'', state', -⟩ := coding_of_unit h codes
      rw [named'] at named''
      rw [← Option.some.inj named'', state] at state'
      cases state'
    rw [others i out] at named
    exact h.drawn v i q codes named

end

end Sys2Proof.JobsHeld
end

