-- ==== Sys2Proof/Proofs/Records.lean ====
section
/-! PROOF. The faces and renditions inside an item record: what a change of one of them keeps of its form, and of the strips and
pages it holds (R4, R7, R11, R41, R77 to R82). -/

namespace Sys2Proof.Records
open Sys2Proof.Machine Sys2Proof.Safety Sys2Proof.JobsHeld

/-- `Shaped` but for the strip chains. -/
structure Formed (i : Item) : Prop where
  faces : i.faces.Pairwise fun f g => f.kind ≠ g.kind
  renditions : i.renditions.Pairwise fun r q => r.face ≠ q.face ∨ r.kind ≠ q.kind
  faced : ∀ r ∈ i.renditions, ∃ f ∈ i.faces, f.kind = r.face
  landing : ∀ f ∈ i.faces, f.state = .landing → i.state = .landing
  landed : ∀ r ∈ i.renditions, Active r → ∀ f ∈ i.faces, f.kind = r.face → f.state = .landed
  chains : ∀ r ∈ i.renditions, r.chain ≠ [] → r.state = .coding ∨ r.state = .done
  done : ∀ r ∈ i.renditions, r.state = .done →
    ∃ o, r.output = some o ∧ r.chain.length = (o.length + 4095) / 4096
  budgets : ∀ r ∈ i.renditions, 1 ≤ r.budget
  final : i.state = .ready ∨ i.state = .claimed → ∀ r ∈ i.renditions, r.state.final = true
  free : i.state = .free → i.faces = [] ∧ i.renditions = []

/-- A face holds strips only while it is LANDING or has a QUEUED or CODING rendition, but for the faces of kinds that are let
off, whose strip return is still to come (R77). -/
def Stripped (loose : FaceKind → Bool) (i : Item) : Prop :=
  ∀ f ∈ i.faces, loose f.kind = false → f.strips ≠ [] →
    f.state = .landing ∨ ∃ r ∈ i.renditions, r.face = f.kind ∧ Active r

theorem shaped_iff (i : Item) : Shaped i ↔ Formed i ∧ Stripped (fun _ => false) i :=
  ⟨fun h => ⟨⟨h.faces, h.renditions, h.faced, h.landing, h.landed, h.chains, h.done, h.budgets, h.final, h.free⟩,
    fun f mem _ => h.strips f mem⟩,
  fun ⟨h, strips⟩ => ⟨h.faces, h.renditions, h.faced, h.landing, h.landed, fun f mem => strips f mem rfl, h.chains, h.done,
    h.budgets, h.final, h.free⟩⟩

theorem not_active_of_final {r : Rendition} (final : r.state.final = true) : ¬ Active r := by
  rintro (e | e) <;> rw [e] at final <;> cases final

variable {i j : Item}

/-! ### A record by its key -/

theorem rendition_iff (h : Formed i) {face : FaceKind} {kind : RenditionKind} {r : Rendition} :
    i.rendition? face kind = some r ↔ r ∈ i.renditions ∧ r.face = face ∧ r.kind = kind := by
  refine ⟨Laws.rendition_mem, ?_⟩
  rintro ⟨mem, rfl, rfl⟩
  refine Laws.find_of_mem mem (by simp) fun q hq hk => ?_
  have keys : q.face = r.face ∧ q.kind = r.kind := by simpa using hk
  by_contra differ
  rcases Laws.related_of_pairwise (fun _ _ h => h.imp Ne.symm Ne.symm) h.renditions hq mem differ with e | e
  · exact e keys.1
  · exact e keys.2

theorem face_iff (h : Formed i) {kind : FaceKind} {f : Face} :
    i.face? kind = some f ↔ f ∈ i.faces ∧ f.kind = kind := by
  refine ⟨Laws.face_mem, ?_⟩
  rintro ⟨mem, rfl⟩
  refine Laws.find_of_mem mem (by simp) fun g hg hk => ?_
  by_contra differ
  exact Laws.related_of_pairwise (fun _ _ => Ne.symm) h.faces hg mem differ (by simpa using hk)

/-- Faces measured or decided keep their kinds, so a face is found where it was. -/
theorem face_map {g : Face → Face} (faces : j.faces = i.faces.map g) (kinds : ∀ f, (g f).kind = f.kind)
    (kind : FaceKind) : j.face? kind = (i.face? kind).map g := by
  rw [Item.face?, Item.face?, faces]
  exact Laws.find_map_of_test _ fun f => by rw [kinds]

/-! ### Faces changed -/

/-- Faces that keep their kinds and stay LANDED, in an item whose state allows them. -/
theorem formed_faces (h : Formed i) {g : Face → Face} (renditions : j.renditions = i.renditions)
    (faces : j.faces = i.faces.map g) (kinds : ∀ f, (g f).kind = f.kind)
    (landing : ∀ f ∈ i.faces, (g f).state = .landing → j.state = .landing)
    (landed : ∀ f ∈ i.faces, f.state = .landed → (g f).state = .landed)
    (final : j.state = .ready ∨ j.state = .claimed → i.state = .ready ∨ i.state = .claimed)
    (free : j.state = .free → i.state = .free) : Formed j where
  faces := by
    rw [faces, List.pairwise_map]
    exact h.faces.imp fun differ => by rwa [kinds, kinds]
  renditions := renditions ▸ h.renditions
  faced r mem := by
    rw [renditions] at mem
    obtain ⟨f, memF, kind⟩ := h.faced r mem
    exact ⟨g f, by rw [faces]; exact List.mem_map_of_mem memF, (kinds f).trans kind⟩
  landing f mem := by
    rw [faces] at mem
    obtain ⟨f', mem', rfl⟩ := List.mem_map.mp mem
    exact landing f' mem'
  landed r mem active f memF := by
    rw [renditions] at mem
    rw [faces] at memF
    obtain ⟨f', mem', rfl⟩ := List.mem_map.mp memF
    rw [kinds]
    exact fun kind => landed f' mem' (h.landed r mem active f' mem' kind)
  chains r mem := h.chains r (renditions ▸ mem)
  done r mem := h.done r (renditions ▸ mem)
  budgets r mem := h.budgets r (renditions ▸ mem)
  final state r mem := h.final (final state) r (renditions ▸ mem)
  free state := by
    obtain ⟨none, none'⟩ := h.free (free state)
    rw [faces, renditions, none, none']
    exact ⟨rfl, rfl⟩

/-- Faces that keep their strips, and stay LANDING where strips need it. -/
theorem stripped_faces {loose loose' : FaceKind → Bool} (h : Stripped loose i) {g : Face → Face}
    (renditions : j.renditions = i.renditions) (faces : j.faces = i.faces.map g) (kinds : ∀ f, (g f).kind = f.kind)
    (lets : ∀ kind, loose' kind = false → loose kind = false)
    (strips : ∀ f ∈ i.faces, loose' f.kind = false → (g f).strips ≠ [] → f.strips ≠ [])
    (landing : ∀ f ∈ i.faces, loose' f.kind = false → (g f).strips ≠ [] → f.state = .landing → (g f).state = .landing) :
    Stripped loose' j := by
  intro f mem tight some_
  rw [faces] at mem
  obtain ⟨f', mem', rfl⟩ := List.mem_map.mp mem
  rw [kinds] at tight ⊢
  rw [renditions]
  exact (h f' mem' (lets _ tight) (strips f' mem' tight some_)).imp_left (landing f' mem' tight some_)

/-! ### One rendition changed -/

section Rendition
variable {face : FaceKind} {kind : RenditionKind} {r : Rendition} {f : Rendition → Rendition}

theorem mem_modRendition (h : Formed i) (named : i.rendition? face kind = some r) {q : Rendition}
    (mem : q ∈ (i.modRendition face kind f).renditions) :
    q = f r ∨ (q ∈ i.renditions ∧ ¬ (q.face = face ∧ q.kind = kind)) := by
  obtain ⟨q', mem', rfl⟩ := List.mem_map.mp mem
  split
  · rename_i keys
    have found := (rendition_iff h).mpr ⟨mem', keys⟩
    rw [named] at found
    exact .inl (congrArg f (Option.some.inj found).symm)
  · rename_i keys
    exact .inr ⟨mem', keys⟩

theorem formed_modRendition (h : Formed i) (named : i.rendition? face kind = some r)
    (keeps : ∀ x, (f x).face = x.face ∧ (f x).kind = x.kind ∧ (f x).budget = x.budget)
    (landed : Active (f r) → Active r) (chains : (f r).chain ≠ [] → (f r).state = .coding ∨ (f r).state = .done)
    (done : (f r).state = .done → ∃ o, (f r).output = some o ∧ (f r).chain.length = (o.length + 4095) / 4096)
    (final : r.state.final = true → (f r).state.final = true) : Formed (i.modRendition face kind f) := by
  obtain ⟨memR, faceR, kindR⟩ := Laws.rendition_mem named
  have keys (x : Rendition) : (if x.face = face ∧ x.kind = kind then f x else x).face = x.face ∧
      (if x.face = face ∧ x.kind = kind then f x else x).kind = x.kind := by
    split
    · exact ⟨(keeps x).1, (keeps x).2.1⟩
    · exact ⟨rfl, rfl⟩
  refine ⟨h.faces, ?_, fun q mem => ?_, h.landing, fun q mem active => ?_, fun q mem => ?_, fun q mem => ?_, fun q mem => ?_,
    fun state q mem => ?_, fun state => ?_⟩
  · refine List.pairwise_map.mpr (h.renditions.imp fun differ => ?_)
    rw [(keys _).1, (keys _).1, (keys _).2, (keys _).2]
    exact differ
  · rcases mem_modRendition h named mem with rfl | ⟨mem', -⟩
    · rw [(keeps r).1]
      exact h.faced r memR
    · exact h.faced q mem'
  · rcases mem_modRendition h named mem with rfl | ⟨mem', -⟩
    · rw [(keeps r).1]
      exact h.landed r memR (landed active)
    · exact h.landed q mem' active
  · rcases mem_modRendition h named mem with rfl | ⟨mem', -⟩
    · exact chains
    · exact h.chains q mem'
  · rcases mem_modRendition h named mem with rfl | ⟨mem', -⟩
    · exact done
    · exact h.done q mem'
  · rcases mem_modRendition h named mem with rfl | ⟨mem', -⟩
    · rw [(keeps r).2.2]
      exact h.budgets r memR
    · exact h.budgets q mem'
  · rcases mem_modRendition h named mem with rfl | ⟨mem', -⟩
    · exact final (h.final state r memR)
    · exact h.final state q mem'
  · have none := (h.free state).2
    rw [none] at memR
    cases memR

/-- A rendition given up leaves its face's strips to a return that is still to come. -/
theorem stripped_modRendition {loose : FaceKind → Bool} (h : Stripped loose i)
    (keeps : ∀ x, (f x).face = x.face)
    (goesOn : ∀ x ∈ i.renditions, x.face = face → x.kind = kind → Active x → Active (f x) ∨ loose face = true) :
    Stripped loose (i.modRendition face kind f) := by
  intro g mem tight some_
  refine (h g mem tight some_).imp_right ?_
  rintro ⟨q, memQ, faceQ, active⟩
  by_cases keys : q.face = face ∧ q.kind = kind
  · refine ⟨f q, ?_, (keeps q).trans faceQ, ?_⟩
    · exact List.mem_map.mpr ⟨q, memQ, if_pos keys⟩
    · refine (goesOn q memQ keys.1 keys.2 active).resolve_right fun lets => ?_
      rw [← keys.1, faceQ, tight] at lets
      cases lets
  · exact ⟨q, List.mem_map.mpr ⟨q, memQ, if_neg keys⟩, faceQ, active⟩

end Rendition

/-! ### What records hold -/

/-- One member of a list replaced, all holdings counted. -/
theorem flatMap_map_once {α : Type} (holds : α → List Nat) {p : α → Prop} [DecidablePred p] {l : List α}
    (once : l.Pairwise fun a b => ¬ (p a ∧ p b)) {x : α} (mem : x ∈ l) (px : p x) (f : α → α) :
    ((l.map fun y => if p y then f y else y).flatMap holds ++ holds x).Perm (l.flatMap holds ++ holds (f x)) := by
  induction l with
  | nil => cases mem
  | cons a l ih =>
    obtain ⟨first, rest⟩ := List.pairwise_cons.mp once
    rw [List.map_cons, List.flatMap_cons, List.flatMap_cons]
    by_cases pa : p a
    · have same : x = a := by
        rcases List.mem_cons.mp mem with e | mem'
        · exact e
        · exact absurd ⟨pa, px⟩ (first x mem')
      have others : (l.map fun y => if p y then f y else y) = l := by
        refine (List.map_congr_left fun y my => if_neg fun py => first y my ⟨pa, py⟩).trans (List.map_id' l)
      rw [others, if_pos pa, same]
      refine List.perm_iff_count.mpr fun n => ?_
      simp only [List.count_append]
      omega
    · have mem' : x ∈ l := by
        rcases List.mem_cons.mp mem with e | mem'
        · exact absurd (e ▸ px) pa
        · exact mem'
      rw [if_neg pa, List.append_assoc, List.append_assoc]
      exact (ih rest mem').append_left _

/-- The strips of an item's chains, and the pages. -/
def stripsOf (i : Item) : List Nat := i.faces.flatMap Face.strips
def pagesOf (i : Item) : List Nat := i.renditions.flatMap Rendition.chain

theorem pagesOf_modRendition (h : Formed i) {face : FaceKind} {kind : RenditionKind} {r : Rendition}
    (named : i.rendition? face kind = some r) (f : Rendition → Rendition) :
    (pagesOf (i.modRendition face kind f) ++ r.chain).Perm (pagesOf i ++ (f r).chain) := by
  obtain ⟨mem, keys⟩ := Laws.rendition_mem named
  refine flatMap_map_once Rendition.chain (p := fun r => r.face = face ∧ r.kind = kind) ?_ mem keys f
  refine h.renditions.imp ?_
  rintro a b (e | e) ⟨⟨fa, ka⟩, fb, kb⟩
  · exact e (fa.trans fb.symm)
  · exact e (ka.trans kb.symm)

theorem stripsOf_modFace (h : Formed i) {kind : FaceKind} {x : Face} (named : i.face? kind = some x)
    (f : Face → Face) : (stripsOf (i.modFace kind f) ++ x.strips).Perm (stripsOf i ++ (f x).strips) := by
  obtain ⟨mem, key⟩ := Laws.face_mem named
  refine flatMap_map_once Face.strips (p := fun f => f.kind = kind) ?_ mem key f
  exact h.faces.imp fun differ ⟨ka, kb⟩ => differ (ka.trans kb.symm)

/-- Faces that keep their strips. -/
theorem stripsOf_faces {g : Face → Face} (faces : j.faces = i.faces.map g) (strips : ∀ f, (g f).strips = f.strips) :
    stripsOf j = stripsOf i := by
  rw [stripsOf, stripsOf, faces, List.flatMap_map]
  exact List.flatMap_congr fun f _ => strips f

end Sys2Proof.Records
end

