-- ==== Sys2Proof/Proofs/PoolParts.lean ====
section
/-! PROOF. The agreement of strips, pages, jobs and coding units in parts, with faces let off whose strip return is still to
come, and what a change of one item's record asks for (R35, R75, R78 to R82, R88 to R90). -/

namespace Sys2Proof.PoolParts
open Sys2Proof.Machine Sys2Proof.Safety Sys2Proof.Moves Sys2Proof.JobsHeld Sys2Proof.Records

/-- The face a port receives is LANDING. -/
def Receives (s : State) : Prop := ∀ l k kind, (s.scan.get l).attached = some k → (s.scan.get l).current = some kind →
  ∃ f, (s.items.get k).face? kind = some f ∧ f.state = .landing

/-- The free and the reserved pages add up (R78, R79). -/
structure Counted (s : State) : Prop where
  counts : s.pages.freeCount + s.pages.reserved = s.pages.free.length
  reserved : s.pages.reserved = (s.units.get 0).undrawn + (s.units.get 1).undrawn

/-- `PoolsAgree` with faces let off. -/
structure PoolsBut (loose : Slot → FaceKind → Bool) (s : State) : Prop where
  formed : ∀ k, Formed (s.items.get k)
  stripped : ∀ k, Stripped (loose k) (s.items.get k)
  receives : Receives s
  strips : (s.strips ++ stripsHeld s).Perm (List.range 2048)
  pages : (s.pages.free ++ pagesHeld s).Perm (List.range 8192)
  counted : Counted s
  jobs : JobsAgree (jobRendition s) s.jobs s.units

/-- No face let off. -/
def tight : Slot → FaceKind → Bool := fun _ _ => false

theorem unit_cases (u v : UnitNo) (differ : u ≠ v) : (u = 0 ∧ v = 1) ∨ (u = 1 ∧ v = 0) := by
  revert differ
  revert u v
  decide

theorem poolsAgree_iff (s : State) : PoolsAgree s ↔ PoolsBut tight s := by
  constructor
  · intro h
    refine ⟨fun k => ((shaped_iff _).mp (h.shaped k)).1, fun k => ((shaped_iff _).mp (h.shaped k)).2, h.landing, h.strips,
      h.pages, ⟨h.counts, h.reserved⟩, h.queued, h.once, h.coding, fun u v j cu cv => ?_, h.idle, fun u j r codes named => ?_⟩
    · by_contra differ
      rcases unit_cases u v differ with ⟨rfl, rfl⟩ | ⟨rfl, rfl⟩
      · exact h.apart j cu cv
      · exact h.apart j cv cu
    · obtain ⟨need, chain, some_, within, rung⟩ := h.drawn u j r codes named
      exact ⟨need, chain, some_, within, rung⟩
  · intro h
    refine ⟨fun k => (shaped_iff _).mpr ⟨h.formed k, h.stripped k⟩, h.receives, h.strips, h.pages, h.counted.counts,
      h.counted.reserved, h.jobs.queued, h.jobs.once, h.jobs.coding, fun j c0 c1 => ?_, h.jobs.idle, fun u j r codes named => ?_⟩
    · exact absurd (h.jobs.apart 0 1 j c0 c1) (by decide)
    · obtain ⟨need, chain, some_, within, rung⟩ := h.jobs.drawn u j r codes named
      exact ⟨need, chain, some_, within, rung⟩

/-- More faces let off. -/
theorem PoolsBut.looser {s : State} {loose loose' : Slot → FaceKind → Bool} (h : PoolsBut loose s)
    (lets : ∀ k kind, loose' k kind = false → loose k kind = false) : PoolsBut loose' s :=
  { h with stripped := fun k f mem free => h.stripped k f mem (lets k f.kind free) }

/-! ### One record replaced -/

section Put
variable {s t : State} {k : Slot} {i : Item}

theorem jobRendition_put (items : t.items = put s.items k i) (j : Job) :
    jobRendition t j = if k = j.slot then i.rendition? j.face j.kind else jobRendition s j := by
  unfold jobRendition
  rw [items, Laws.get_put]
  split <;> rfl

/-- The holdings of all items, one of them replaced, with what is free besides. -/
theorem held_put (holds : Item → List Nat) {free free' : List Nat} {n : Nat} (items : t.items = put s.items k i)
    (before : (free ++ s.items.toList.flatMap holds).Perm (List.range n))
    (own : (free' ++ holds i).Perm (free ++ holds (s.items.get k))) :
    (free' ++ t.items.toList.flatMap holds).Perm (List.range n) := by
  have all := Laws.held_modItem holds s k fun _ => i
  have same : (s.modItem k fun _ => i).items = t.items := items.symm
  rw [same] at all
  refine List.perm_iff_count.mpr fun a => ?_
  have c1 := List.perm_iff_count.mp all a
  have c2 := List.perm_iff_count.mp own a
  have c3 := List.perm_iff_count.mp before a
  simp only [List.count_append] at c1 c2 c3 ⊢
  omega

theorem receives_put (h : Receives s) (items : t.items = put s.items k i) (scan : t.scan = s.scan)
    (own : ∀ kind f, (s.items.get k).face? kind = some f → f.state = .landing →
      ∃ g, i.face? kind = some g ∧ g.state = .landing) : Receives t := by
  intro l m kind attached current
  rw [scan] at attached current
  obtain ⟨f, named, state⟩ := h l m kind attached current
  rw [items, Laws.get_put]
  split
  · rename_i same
    subst same
    exact own kind f named state
  · exact ⟨f, named, state⟩

theorem forall_items {P : Slot → Item → Prop} (items : t.items = put s.items k i) (own : P k i)
    (others : ∀ m, k ≠ m → P m (s.items.get m)) (m : Slot) : P m (t.items.get m) := by
  rw [items, Laws.get_put]
  split
  · rename_i same
    exact same ▸ own
  · rename_i differ
    exact others m differ

/-- One record and the pools replaced. -/
theorem pools_put {loose loose' : Slot → FaceKind → Bool} (h : PoolsBut loose s) (items : t.items = put s.items k i)
    (formed : Formed i) (stripped : Stripped (loose' k) i)
    (others : ∀ m, k ≠ m → ∀ kind, loose' m kind = false → loose m kind = false) (receives : Receives t)
    (strips : (t.strips ++ stripsOf i).Perm (s.strips ++ stripsOf (s.items.get k)))
    (pages : (t.pages.free ++ pagesOf i).Perm (s.pages.free ++ pagesOf (s.items.get k))) (counted : Counted t)
    (jobs : JobsAgree (jobRendition t) t.jobs t.units) : PoolsBut loose' t where
  formed := forall_items items formed fun m _ => h.formed m
  stripped := forall_items (P := fun m i => Stripped (loose' m) i) items stripped fun m differ f mem free =>
    h.stripped m f mem (others m differ f.kind free)
  receives := receives
  strips := held_put stripsOf items h.strips strips
  pages := held_put pagesOf items h.pages pages
  counted := counted
  jobs := jobs

end Put

/-! ### What no invariant reads -/

theorem held_congr (holds : Item → List Nat) {s t : State} (same : ∀ k, holds (t.items.get k) = holds (s.items.get k)) :
    t.items.toList.flatMap holds = s.items.toList.flatMap holds := by
  rw [List.flatMap_def, List.flatMap_def]
  congr 1
  refine List.ext_getElem (by simp) fun n h _ => ?_
  have bound : n < 256 := by simpa using h
  have e : holds t.items[n] = holds s.items[n] := same ⟨n, bound⟩
  simp [e]

theorem JobsHeld.JobsAgree.alike {R : Job → Option Rendition} {jobs : List Job} {units units' : Vector CodingUnit 2}
    (h : JobsAgree R jobs units) (alike : ∀ u, UnitAlike (units.get u) (units'.get u)) : JobsAgree R jobs units' where
  queued := h.queued
  once := h.once
  coding i := by simp only [fun u => (alike u).job]; exact h.coding i
  apart u v i := by rw [(alike u).job, (alike v).job]; exact h.apart u v i
  idle u := by rw [(alike u).job, (alike u).undrawn]; exact h.idle u
  drawn u i r := by
    rw [(alike u).job]
    intro codes named
    obtain ⟨need, chain, some_, within, rung⟩ := h.drawn u i r codes named
    refine ⟨?_, ?_, ?_, ?_, ?_⟩
    · rwa [(alike u).undrawn]
    · rwa [(alike u).length]
    · rwa [(alike u).length]
    · rwa [(alike u).length]
    · rwa [(alike u).rung]

theorem pools_alike {s t : State} {loose : Slot → FaceKind → Bool} (h : PoolsBut loose s) (a : Alike s t) :
    PoolsBut loose t := by
  have renditions (k : Slot) := (a.items k).renditions
  have named : jobRendition t = jobRendition s := by
    funext j
    unfold jobRendition Item.rendition?
    rw [renditions]
  obtain ⟨free, freeCount, reserved⟩ := a.pages
  refine ⟨fun k => ?_, fun k => ?_, fun l k kind attached current => ?_, ?_, ?_, ⟨?_, ?_⟩, ?_⟩
  · obtain ⟨g, faces, keeps⟩ := (a.items k).faces
    have state := (a.items k).state
    exact formed_faces (h.formed k) (renditions k) faces (fun f => (keeps f).1)
      (fun f mem landing => by rw [state]; exact (h.formed k).landing f mem ((keeps f).2.1 ▸ landing))
      (fun f _ landed => (keeps f).2.1.trans landed) (fun e => by rwa [state] at e) fun e => by rwa [state] at e
  · obtain ⟨g, faces, keeps⟩ := (a.items k).faces
    exact stripped_faces (h.stripped k) (renditions k) faces (fun f => (keeps f).1) (fun _ => id)
      (fun f _ _ some_ => by rwa [(keeps f).2.2] at some_) fun f _ _ _ landing => (keeps f).2.1.trans landing
  · rw [(a.scan l).attached] at attached
    rw [(a.scan l).current] at current
    obtain ⟨f, found, landing⟩ := h.receives l k kind attached current
    obtain ⟨g, faces, keeps⟩ := (a.items k).faces
    rw [face_map faces (fun f => (keeps f).1), found]
    exact ⟨g f, rfl, (keeps f).2.1.trans landing⟩
  · have held : stripsHeld t = stripsHeld s := held_congr stripsOf fun k => by
      obtain ⟨g, faces, keeps⟩ := (a.items k).faces
      exact stripsOf_faces faces fun f => (keeps f).2.2
    rw [a.strips, held]
    exact h.strips
  · have held : pagesHeld t = pagesHeld s := held_congr pagesOf fun k => by rw [pagesOf, pagesOf, renditions]
    rw [free, held]
    exact h.pages
  · rw [free, freeCount, reserved]
    exact h.counted.counts
  · rw [reserved, (a.units 0).undrawn, (a.units 1).undrawn]
    exact h.counted.reserved
  · rw [named, a.jobs]
    exact JobsHeld.JobsAgree.alike h.jobs a.units

end Sys2Proof.PoolParts
end

