-- ==== Sys2Proof/Proofs/RenditionTurns.lean ====
section
/-! PROOF. One rendition changed with the pools and the coding unit of its job: pages drawn, given up and kept, and the strips
of its face returned (R77, R80 to R82, R105 to R108). -/

namespace Sys2Proof.RenditionTurns
open Sys2Proof.Machine Sys2Proof.Safety Sys2Proof.Moves Sys2Proof.JobsHeld Sys2Proof.Records Sys2Proof.PoolParts

/-- What a change of a rendition must keep of its form. -/
structure Turn (r r' : Rendition) : Prop where
  landed : Active r' → Active r
  chains : r'.chain ≠ [] → r'.state = .coding ∨ r'.state = .done
  done : r'.state = .done → ∃ o, r'.output = some o ∧ r'.chain.length = (o.length + 4095) / 4096
  final : r.state.final = true → r'.state.final = true

/-- A change of rendition records that keeps the key and the budget. -/
def Keyed (f : Rendition → Rendition) : Prop :=
  ∀ x, (f x).face = x.face ∧ (f x).kind = x.kind ∧ (f x).budget = x.budget

section
variable {s t : State} {loose loose' : Slot → FaceKind → Bool} {j : Job} {r : Rendition} {f : Rendition → Rendition}

theorem jobRendition_turned (named : jobRendition s j = some r) (keyed : Keyed f)
    (items : t.items = put s.items j.slot ((s.items.get j.slot).modRendition j.face j.kind f)) :
    jobRendition t = replaced (jobRendition s) j (f r) := by
  funext i
  rw [jobRendition_put items]
  have keys (x : Rendition) : (f x).face = x.face ∧ (f x).kind = x.kind := ⟨(keyed x).1, (keyed x).2.1⟩
  by_cases same : i = j
  · subst same
    rw [if_pos rfl, Laws.rendition_modRendition_same _ _ _ _ keys, replaced_same]
    exact congrArg (Option.map f) named
  · rw [replaced_other same]
    split
    · rename_i slot
      have differ : i.face ≠ j.face ∨ i.kind ≠ j.kind := by
        by_contra both
        obtain ⟨face, kind⟩ := not_or.mp both
        exact same (Job.mk.injEq .. ▸ ⟨slot.symm, not_not.mp face, not_not.mp kind⟩)
      rw [Laws.rendition_modRendition_ne _ _ keys differ, slot]
      rfl
    · rfl

/-- One rendition changed, with the pages and the unit. -/
theorem pools_rendition (h : PoolsBut loose s) (named : jobRendition s j = some r) (keyed : Keyed f) (turn : Turn r (f r))
    (looser : ∀ k kind, loose' k kind = false → loose k kind = false)
    (busy : Active r → Active (f r) ∨ loose' j.slot j.face = true)
    (items : t.items = put s.items j.slot ((s.items.get j.slot).modRendition j.face j.kind f))
    (scan : t.scan = s.scan) (strips : t.strips = s.strips)
    (pages : (t.pages.free ++ (f r).chain).Perm (s.pages.free ++ r.chain)) (counted : Counted t)
    (jobs : JobsAgree (replaced (jobRendition s) j (f r)) t.jobs t.units) : PoolsBut loose' t := by
  have formed := h.formed j.slot
  have only {x : Rendition} (mem : x ∈ (s.items.get j.slot).renditions) (face : x.face = j.face) (kind : x.kind = j.kind) :
      x = r := Option.some.inj (((rendition_iff formed).mpr ⟨mem, face, kind⟩).symm.trans named)
  refine pools_put h items (formed_modRendition formed named keyed turn.landed turn.chains turn.done turn.final)
    (stripped_modRendition (fun x mem tight => h.stripped j.slot x mem (looser _ _ tight)) (fun x => (keyed x).1)
      fun x mem face kind active => ?_) (fun m _ => looser m) ?_ (strips ▸ .refl _) ?_ counted ?_
  · obtain rfl := only mem face kind
    exact busy active
  · exact receives_put h.receives items scan fun kind g found state => ⟨g, found, state⟩
  · have own := pagesOf_modRendition formed named f
    refine List.perm_iff_count.mpr fun n => ?_
    have c1 := List.perm_iff_count.mp own n
    have c2 := List.perm_iff_count.mp pages n
    simp only [List.count_append] at c1 c2 ⊢
    omega
  · rw [jobRendition_turned named keyed items]
    exact jobs

end

/-! ### The undrawn pages of the units -/

theorem unit_cases : ∀ u : UnitNo, u = 0 ∨ u = 1 := by decide

theorem undrawn_put (v : Vector CodingUnit 2) (u : UnitNo) (x : CodingUnit) :
    ((put v u x).get 0).undrawn + ((put v u x).get 1).undrawn + (v.get u).undrawn =
      (v.get 0).undrawn + (v.get 1).undrawn + x.undrawn := by
  have apart : (0 : UnitNo) ≠ 1 := by decide
  rcases unit_cases u with rfl | rfl
  · rw [Laws.get_put_same, Laws.get_put_ne _ _ apart]
    omega
  · rw [Laws.get_put_same, Laws.get_put_ne _ _ apart.symm]
    omega

end Sys2Proof.RenditionTurns
end

