-- ==== Sys2Proof/Proofs/UnitPools.lean ====
section
/-! PROOF. What a coding unit does to the pools: a job begun, a page drawn, a byte placed, a step-down, a job ended (R79 to R82,
R96, R99 to R107). -/

namespace Sys2Proof.UnitPools
open Sys2Proof.Machine Sys2Proof.Safety Sys2Proof.Moves Sys2Proof.JobsHeld Sys2Proof.Records Sys2Proof.PoolParts
  Sys2Proof.RenditionTurns

section
variable {s t : State} {loose loose' : Slot → FaceKind → Bool} {u : UnitNo} {j : Job} {r : Rendition} {x : CodingUnit}

theorem jobBudget_named (named : jobRendition s j = some r) : s.jobBudget j = r.budget := by
  rw [State.jobBudget, show (s.items.get j.slot).rendition? j.face j.kind = some r from named]
  rfl

theorem mem_of_named (named : jobRendition s j = some r) : r ∈ (s.items.get j.slot).renditions :=
  (Laws.rendition_mem named).1

/-- The unit of a CODING rendition (R90). -/
theorem unitOf_coding (h : JobsAgree (jobRendition s) s.jobs s.units) (named : jobRendition s j = some r)
    (coding : r.state = .coding) : ∃ u, (s.units.get u).job = some j ∧ s.unitOf j = some u := by
  obtain ⟨u, codes⟩ := (h.coding j).mpr ⟨r, named, coding⟩
  unfold State.unitOf
  by_cases first : (s.units.get 0).job = some j
  · exact ⟨0, first, if_pos first⟩
  · rcases RenditionTurns.unit_cases u with rfl | rfl
    · exact absurd codes first
    · exact ⟨1, codes, by rw [if_neg first, if_pos codes]⟩

/-- The pages a unit has reserved are on the free list. -/
theorem undrawn_le (counted : Counted s) (u : UnitNo) :
    (s.units.get u).undrawn ≤ s.pages.reserved ∧ s.pages.reserved ≤ s.pages.free.length := by
  obtain ⟨counts, reserved⟩ := counted
  rcases RenditionTurns.unit_cases u with rfl | rfl <;> omega

theorem exists_page {free : List Nat} (some_ : 1 ≤ free.length) : ∃ page rest, free = page :: rest :=
  List.exists_cons_of_ne_nil (List.ne_nil_of_length_pos some_)

/-- The counts when one unit's reservation changes. -/
theorem counted_put (counted : Counted s) (units : t.units = put s.units u x)
    (reserved : t.pages.reserved + (s.units.get u).undrawn = s.pages.reserved + x.undrawn)
    (counts : t.pages.freeCount + t.pages.reserved = t.pages.free.length) : Counted t := by
  refine ⟨counts, ?_⟩
  have sum := undrawn_put s.units u x
  have before := counted.reserved
  rw [units]
  omega

/-! ### A job begins and goes on -/

/-- A CODING rendition is well formed whatever it holds. -/
theorem turn_coding {r' : Rendition} (active : Active r) (coding : r'.state = .coding) : Turn r r' where
  landed _ := active
  chains _ := .inl coding
  done e := by rw [coding] at e; cases e
  final e := absurd active (not_active_of_final e)

/-- A unit goes on with its job. -/
theorem pools_goesOn {f : Rendition → Rendition} (h : PoolsBut loose s) (codes : (s.units.get u).job = some j)
    (named : jobRendition s j = some r) (coding : r.state = .coding) (keyed : Keyed f) (state : (f r).state = r.state)
    (items : t.items = put s.items j.slot ((s.items.get j.slot).modRendition j.face j.kind f))
    (scan : t.scan = s.scan) (strips : t.strips = s.strips) (jobs : t.jobs = s.jobs)
    (pages : (t.pages.free ++ (f r).chain).Perm (s.pages.free ++ r.chain)) (units : t.units = put s.units u x)
    (job : x.job = some j) (drawn : Drawn x (f r))
    (reserved : t.pages.reserved + (s.units.get u).undrawn = s.pages.reserved + x.undrawn)
    (counts : t.pages.freeCount + t.pages.reserved = t.pages.free.length) : PoolsBut loose t := by
  have codes' := state.trans coding
  refine pools_rendition h named keyed (turn_coding (.inr coding) codes') (fun _ _ => id) (fun _ => .inl (.inr codes')) items
    scan strips pages (counted_put h.counted units reserved counts) ?_
  rw [jobs, units]
  exact h.jobs.goesOn codes job codes' drawn

/-- A change that leaves renditions as they are. -/
theorem modRendition_id (i : Item) (face : FaceKind) (kind : RenditionKind) : i.modRendition face kind (fun x => x) = i := by
  unfold Item.modRendition
  simp only [ite_self, List.map_id']

/-- A coded byte placed, a page drawn first at a multiple of 4,096 (R80, R99, R100). -/
theorem pools_bytePlaced {b : Byte} (h : PoolsBut loose s) (codes : (s.units.get u).job = some j)
    (places : s.placeByte u j b = some t) : PoolsBut loose t := by
  obtain ⟨r, named, coding, drawn⟩ := coding_of_unit h.jobs codes
  obtain ⟨need, chain, some_, within, rung⟩ := drawn
  obtain ⟨counts, reserved⟩ := h.counted
  have budget := jobBudget_named named
  have fits : (s.units.get u).length + 1 ≤ s.jobBudget j * 1024 := by
    by_contra exceeds
    rw [CodedBytes.placeByte_overBudget (Nat.lt_of_not_le exceeds)] at places
    cases places
  by_cases starts : (s.units.get u).length % 4096 = 0
  · have room := undrawn_le h.counted u
    have pages : 1 ≤ s.pages.free.length := by omega
    obtain ⟨page, rest, free⟩ := exists_page pages
    have length := congrArg List.length free
    rw [List.length_cons] at length
    rw [CodedBytes.placeByte_newPage fits starts free] at places
    obtain rfl := Option.some.inj places
    refine pools_goesOn h codes named coding (f := fun r => { r with chain := r.chain ++ [page] })
      (fun _ => ⟨rfl, rfl, rfl⟩) rfl rfl rfl rfl rfl ?_ (Laws.put_put _ _ _ _) ?_ ?_ ?_ ?_
    · rw [free]
      refine List.perm_iff_count.mpr fun n => ?_
      simp only [CodedBytes.placed, List.count_append, List.count_cons, List.count_nil]
      omega
    · rw [Laws.get_put_same]
      exact codes
    · rw [Laws.get_put_same]
      refine ⟨?_, ?_, Nat.le_add_left 1 _, budget ▸ fits, rung⟩ <;>
        simp only [List.length_append, List.length_cons, List.length_nil] <;> omega
    · simp only [CodedBytes.placed, Laws.get_put_same]
      omega
    · simp only [CodedBytes.placed]
      omega
  · rw [CodedBytes.placeByte_samePage fits starts] at places
    obtain rfl := Option.some.inj places
    refine pools_goesOn h codes named coding (f := fun r => r) (fun _ => ⟨rfl, rfl, rfl⟩) rfl ?_ rfl rfl rfl (.refl _) rfl
      codes ?_ rfl counts
    · rw [modRendition_id, Laws.put_get_self]
      rfl
    · refine ⟨need, ?_, ?_, ?_, rung⟩
      · show r.chain.length = ((s.units.get u).length + 1 + 4095) / 4096
        omega
      · exact Nat.le_add_left 1 _
      · exact budget ▸ fits

/-- A step-down (R81, R101). -/
theorem pools_steppedDown (h : PoolsBut loose s) (codes : (s.units.get u).job = some j) :
    PoolsBut loose (s.stepDown u j) := by
  obtain ⟨r, named, coding, drawn⟩ := coding_of_unit h.jobs codes
  obtain ⟨need, chain, some_, within, rung⟩ := drawn
  obtain ⟨counts, reserved⟩ := h.counted
  have budget := (h.formed j.slot).budgets r (mem_of_named named)
  have pages : 1 ≤ (r.chain.reverse ++ s.pages.free).length := by
    rw [List.length_append, List.length_reverse]
    omega
  obtain ⟨page, rest, free⟩ := exists_page pages
  have length := congrArg List.length free
  rw [List.length_append, List.length_reverse, List.length_cons] at length
  rw [CodedBytes.stepDown_eq named free]
  refine pools_goesOn h codes named coding
    (f := fun x => { x with chain := [page], rung := (s.units.get u).rung + 1 }) (fun _ => ⟨rfl, rfl, rfl⟩) rfl rfl rfl rfl
    rfl ?_ rfl codes ?_ ?_ ?_
  · refine List.perm_iff_count.mpr fun n => ?_
    have count := congrArg (List.count n) free
    simp only [List.count_append, List.count_reverse, List.count_cons, List.count_nil] at count ⊢
    omega
  · refine ⟨?_, ?_, ?_, ?_, rfl⟩ <;> simp only [List.length_cons, List.length_nil] <;> omega
  · dsimp only
    omega
  · dsimp only
    omega

/-- A job begins: its need reserved, its first page drawn (R79, R80, R96). -/
theorem pools_jobBegun (h : PoolsBut loose s) (idle : (s.units.get u).job = none) (queued : j ∈ s.jobs)
    (room : need (s.jobBudget j) ≤ s.pages.freeCount) : PoolsBut loose (jobBegun s u j) := by
  obtain ⟨r, named, waits⟩ := (h.jobs.queued j).mp queued
  obtain ⟨counts, reserved⟩ := h.counted
  have formed := h.formed j.slot
  have mem := mem_of_named named
  have budget := formed.budgets r mem
  have chain : r.chain = [] := by
    by_contra some_
    rcases formed.chains r mem some_ with e | e <;> rw [waits] at e <;> cases e
  have undrawn := h.jobs.idle u idle
  have needs : need (s.jobBudget j) = (r.budget + 3) / 4 := by rw [jobBudget_named named, need]
  have pages : 1 ≤ s.pages.free.length := by omega
  obtain ⟨page, rest, free⟩ := exists_page pages
  have length := congrArg List.length free
  rw [List.length_cons] at length
  rw [jobBegun, Dispatch.begin_eq free]
  refine pools_rendition h named (f := fun x => { x with state := .coding, rung := 0, chain := [page] })
    (fun _ => ⟨rfl, rfl, rfl⟩) (turn_coding (.inl waits) rfl) (fun _ _ => id) (fun _ => .inl (.inr rfl)) rfl rfl rfl ?_ ?_ ?_
  · rw [free, chain]
    exact (List.perm_append_singleton page rest).trans (by rw [List.append_nil])
  · refine counted_put h.counted rfl ?_ ?_ <;> simp only [Dispatch.jobStarted] <;> omega
  · refine h.jobs.started named waits rfl idle rfl ⟨?_, ?_, ?_, ?_, rfl⟩ <;>
      simp only [List.length_cons, List.length_nil] <;> omega

/-! ### A job ends -/

/-- A unit's job ended without output, its face let off (R82, R102, R104, R107). -/
theorem pools_givesUp {last : RenditionState} {a : Arbiter} (h : PoolsBut loose s) (codes : (s.units.get u).job = some j)
    (named : jobRendition s j = some r) (final : last.final = true) (failure : last ≠ .done)
    (looser : ∀ k kind, loose' k kind = false → loose k kind = false) (off : loose' j.slot j.face = true) :
    PoolsBut loose' { s with
      items := put s.items j.slot ((s.items.get j.slot).modRendition j.face j.kind fun x =>
        { x with state := last, chain := [] })
      pages := { pagesReturned s.pages r.chain with
        freeCount := s.pages.freeCount + r.chain.length + (s.units.get u).undrawn
        reserved := s.pages.reserved - (s.units.get u).undrawn }
      units := put s.units u CodingUnit.idle
      arbiter := a } := by
  obtain ⟨counts, reserved⟩ := h.counted
  have room := undrawn_le h.counted u
  have final_ : ¬ Active ({ r with state := last, chain := [] } : Rendition) := not_active_of_final final
  refine pools_rendition h named (f := fun x => { x with state := last, chain := [] }) (fun _ => ⟨rfl, rfl, rfl⟩)
    ⟨fun active => absurd active final_, fun e => absurd rfl e, fun e => absurd e failure, fun _ => final⟩ looser
    (fun _ => .inr off) rfl rfl rfl ?_ ?_ (h.jobs.ended codes rfl rfl final_)
  · refine List.perm_iff_count.mpr fun n => ?_
    simp only [pagesReturned, List.count_append, List.count_reverse, List.count_nil]
    omega
  · refine counted_put h.counted rfl ?_ ?_ <;>
      simp only [pagesReturned, List.length_append, List.length_reverse, CodingUnit.idle] <;> omega

/-- A job ended DONE, its face let off (R82, R103, R105). -/
theorem pools_done {width rows : Nat} (h : PoolsBut loose s) (codes : (s.units.get u).job = some j)
    (looser : ∀ k kind, loose' k kind = false → loose k kind = false) (off : loose' j.slot j.face = true) :
    PoolsBut loose' (((s.freeUndrawn u).modRendition j fun r =>
      { r with state := .done, output := some ⟨width, rows, (s.units.get u).length⟩ }).idleUnit u) := by
  obtain ⟨r, named, coding, drawn⟩ := coding_of_unit h.jobs codes
  obtain ⟨counts, reserved⟩ := h.counted
  have room := undrawn_le h.counted u
  have final_ : ¬ Active ({ r with state := .done, output := some ⟨width, rows, (s.units.get u).length⟩ } : Rendition) :=
    not_active_of_final rfl
  have units : (((s.freeUndrawn u).modRendition j fun r =>
      { r with state := .done, output := some ⟨width, rows, (s.units.get u).length⟩ }).idleUnit u).units =
      put s.units u CodingUnit.idle := Laws.put_put _ _ _ _
  refine pools_rendition h named
    (f := fun x => { x with state := .done, output := some ⟨width, rows, (s.units.get u).length⟩ }) (fun _ => ⟨rfl, rfl, rfl⟩)
    ⟨fun active => absurd active final_, fun _ => .inr rfl, fun _ => ⟨_, rfl, drawn.chain⟩, fun _ => rfl⟩ looser
    (fun _ => .inr off) rfl rfl rfl (.refl _) ?_ ?_
  · refine counted_put h.counted units ?_ ?_
    · change s.pages.reserved - (s.units.get u).undrawn + (s.units.get u).undrawn = s.pages.reserved + 0
      omega
    · change s.pages.freeCount + (s.units.get u).undrawn + (s.pages.reserved - (s.units.get u).undrawn) =
        s.pages.free.length
      omega
  · rw [units]
    exact h.jobs.ended codes rfl rfl final_

end

end Sys2Proof.UnitPools
end

