-- ==== Sys2Proof/Proofs/StripReturns.lean ====
section
/-! PROOF. Strip return closes what a landing, a cancellation or the end of a job has let off (R77, R105, R106 to R108). -/

namespace Sys2Proof.StripReturns
open Sys2Proof.Machine Sys2Proof.Safety Sys2Proof.Moves Sys2Proof.JobsHeld Sys2Proof.Records Sys2Proof.PoolParts
  Sys2Proof.RenditionTurns Sys2Proof.UnitPools

/-- Faces of one item let off. -/
def facesOff (k : Slot) (kinds : List FaceKind) : Slot → FaceKind → Bool := fun m kind => decide (m = k ∧ kind ∈ kinds)

/-- All faces of one item let off. -/
def allOff (k : Slot) : Slot → FaceKind → Bool := fun m _ => decide (m = k)

theorem facesOff_nil (k : Slot) : facesOff k [] = tight := by
  funext m kind
  simp [facesOff, tight]

variable {s : State} {k : Slot}

theorem pools_allOff {kinds : List FaceKind} (h : PoolsBut (allOff k) s)
    (all : ∀ f ∈ (s.items.get k).faces, f.kind ∈ kinds) : PoolsBut (facesOff k kinds) s := by
  refine { h with stripped := fun m f mem held => ?_ }
  have other : m ≠ k := by
    rintro rfl
    exact absurd ⟨rfl, all f mem⟩ (of_decide_eq_false held)
  exact h.stripped m f mem (decide_eq_false other)

/-! ### Strip return -/

/-- The strip return test of a face done, it needs letting off no more (R77). -/
theorem pools_returnStrips {kind : FaceKind} {kinds : List FaceKind} (h : PoolsBut (facesOff k (kind :: kinds)) s) :
    PoolsBut (facesOff k kinds) (s.returnStrips k kind) := by
  have lets (m : Slot) (other : FaceKind) (held : facesOff k kinds m other = false) (differ : ¬ (m = k ∧ other = kind)) :
      facesOff k (kind :: kinds) m other = false := by
    refine decide_eq_false ?_
    rintro ⟨same, mem⟩
    rcases List.mem_cons.mp mem with e | mem'
    · exact differ ⟨same, e⟩
    · exact of_decide_eq_false held ⟨same, mem'⟩
  have formed := h.formed k
  cases named : (s.items.get k).face? kind with
  | none =>
    rw [State.returnStrips, named]
    refine { h with stripped := fun m f mem held => h.stripped m f mem (lets m _ held ?_) }
    rintro ⟨rfl, same⟩
    exact Laws.face_none named f mem same
  | some f =>
    by_cases returns : f.state ≠ .landing ∧ (s.items.get k).faceIdle kind = true
    · obtain ⟨ended, idle⟩ := returns
      have strips := stripsOf_modFace formed named fun x => { x with strips := [] }
      have key (x : Face) : (if x.kind = kind then ({ x with strips := [] } : Face) else x).kind = x.kind ∧
          (if x.kind = kind then ({ x with strips := [] } : Face) else x).state = x.state := by
        split <;> exact ⟨rfl, rfl⟩
      rw [Settling.returnStrips_returns named ended idle]
      refine pools_put h rfl
        (formed_faces formed rfl rfl (fun x => (key x).1)
          (fun x mem landing => formed.landing x mem ((key x).2 ▸ landing)) (fun x _ landed => (key x).2.trans landed) id id)
        ?_ (fun m differ other held => lets m other held fun e => differ e.1.symm) ?_ ?_ (.refl _)
        ⟨h.counted.counts, h.counted.reserved⟩ ?_
      · intro g mem held some_
        obtain ⟨x, mem', rfl⟩ := List.mem_map.mp mem
        by_cases same : x.kind = kind
        · rw [if_pos same] at some_
          exact absurd rfl some_
        · rw [if_neg same] at held some_ ⊢
          exact h.stripped k x mem' (lets k _ held fun e => same e.2) some_
      · refine receives_put h.receives rfl rfl fun other x found landing => ?_
        rw [face_map rfl fun x => (key x).1, found]
        exact ⟨_, rfl, (key x).2.trans landing⟩
      · refine List.perm_iff_count.mpr fun n => ?_
        have c := List.perm_iff_count.mp strips n
        simp only [List.count_append, List.count_reverse, List.count_nil] at c ⊢
        omega
      · refine h.jobs.congr fun j q _ => ?_
        rw [jobRendition_put (s := s) rfl]
        split
        · rename_i same
          rw [same]
          exact .rfl
        · exact .rfl
    · rw [Settling.returnStrips_waits named returns]
      refine { h with stripped := fun m g mem held some_ => ?_ }
      by_cases differ : m = k ∧ g.kind = kind
      · obtain ⟨rfl, same⟩ := differ
        have found := (face_iff formed).mpr ⟨mem, same⟩
        rw [named] at found
        obtain rfl := Option.some.inj found
        by_cases landing : f.state = .landing
        · exact .inl landing
        · have busy : ¬ (s.items.get m).faceIdle kind = true := fun idle => returns ⟨landing, idle⟩
          rw [Settling.faceIdle_iff, not_not] at busy
          rw [same]
          exact .inr busy
      · exact h.stripped m g mem (lets m _ held differ) some_

theorem pools_returnStrips_once {kind : FaceKind} (h : PoolsBut (facesOff k [kind]) s) :
    PoolsBut tight (s.returnStrips k kind) :=
  facesOff_nil k ▸ pools_returnStrips h

theorem pools_returnAllStrips (h : PoolsBut (allOff k) s) : PoolsBut tight (s.returnAllStrips k) := by
  have off := pools_allOff (kinds := (s.items.get k).faces.map (·.kind)) h fun f mem => List.mem_map_of_mem mem
  unfold State.returnAllStrips
  generalize (s.items.get k).faces.map (·.kind) = kinds at off ⊢
  clear h
  induction kinds generalizing s with
  | nil => exact facesOff_nil k ▸ off
  | cons kind kinds ih => exact ih (pools_returnStrips off)

/-! ### Cancellation -/

/-- One rendition of an item whose faces are let off, dealt with by a REJECT or PURGE (R106, R107). -/
theorem pools_cancelRendition (j : Job) (h : PoolsBut (allOff j.slot) s) :
    PoolsBut (allOff j.slot) (s.cancelRendition j) := by
  have off : allOff j.slot j.slot j.face = true := decide_eq_true rfl
  cases named : (s.items.get j.slot).rendition? j.face j.kind with
  | none =>
    rw [State.cancelRendition, named]
    exact h
  | some r =>
    have formed := h.formed j.slot
    have mem := mem_of_named named
    have cancelled : ¬ Active ({ r with state := .cancelled } : Rendition) := not_active_of_final rfl
    have turn (unchained : r.state = .waiting ∨ r.state = .queued) : Turn r { r with state := .cancelled } := by
      refine ⟨fun active => absurd active cancelled, fun some_ => ?_, nofun, fun _ => rfl⟩
      rcases unchained with state | state <;> rcases formed.chains r mem some_ with e | e <;> rw [state] at e <;> cases e
    cases state : r.state with
    | waiting =>
      rw [Settling.cancelRendition_waiting named state]
      exact pools_rendition h named (f := fun x => { x with state := .cancelled }) (fun _ => ⟨rfl, rfl, rfl⟩)
        (turn (.inl state)) (fun _ _ => id) (fun _ => .inr off) rfl rfl rfl (.refl _) ⟨h.counted.counts, h.counted.reserved⟩
        (h.jobs.passive named (by rintro (e | e) <;> rw [state] at e <;> cases e) cancelled)
    | queued =>
      rw [Settling.cancelRendition_queued named state]
      exact pools_rendition h named (f := fun x => { x with state := .cancelled }) (fun _ => ⟨rfl, rfl, rfl⟩)
        (turn (.inr state)) (fun _ _ => id) (fun _ => .inr off) rfl rfl rfl (.refl _) ⟨h.counted.counts, h.counted.reserved⟩ (h.jobs.unqueued named state cancelled)
    | coding =>
      obtain ⟨u, codes, named'⟩ := unitOf_coding h.jobs named state
      rw [Settling.cancelRendition_coding named state named']
      exact pools_givesUp h codes named rfl nofun (fun _ _ => id) off
    | done | oversize | fault | cancelled =>
      rw [Settling.cancelRendition_final named (by rw [state]; rfl)]
      exact h

/-- Every rendition of an item dealt with (R108). -/
theorem pools_cancelRenditions (h : PoolsBut (allOff k) s) : PoolsBut (allOff k) (s.cancelRenditions k) := by
  unfold State.cancelRenditions Item.jobs
  generalize (s.items.get k).renditions = renditions
  induction renditions generalizing s with
  | nil => exact h
  | cons r rest ih => exact ih (pools_cancelRendition ⟨k, r.face, r.kind⟩ h)

end Sys2Proof.StripReturns
end

