-- ==== Sys2Proof/Proofs/RecordMoves.lean ====
section
/-! PROOF. What the changes of faces and records do to the pools: slots given, faces opened and landed, strips taken, landings
ended, items settled, granted and purged (R9 to R14, R26, R35, R41, R75). -/

namespace Sys2Proof.RecordMoves
open Sys2Proof.Machine Sys2Proof.Safety Sys2Proof.Moves Sys2Proof.JobsHeld Sys2Proof.Records Sys2Proof.PoolParts
  Sys2Proof.StripReturns

/-! ### Forms -/

section
variable {i j : Item}

/-- A settled record whose state alone, or nothing of its form, changes. -/
theorem formed_state (h : Formed i) (faces : j.faces = i.faces) (renditions : j.renditions = i.renditions)
    (landed : i.state ≠ .landing) (final : ∀ r ∈ i.renditions, r.state.final = true) (live : j.state ≠ .free) : Formed j where
  faces := faces ▸ h.faces
  renditions := renditions ▸ h.renditions
  faced := by rw [faces, renditions]; exact h.faced
  landing f mem landing := absurd (h.landing f (faces ▸ mem) landing) landed
  landed := by rw [faces, renditions]; exact h.landed
  chains := renditions ▸ h.chains
  done := renditions ▸ h.done
  budgets := renditions ▸ h.budgets
  final _ := renditions ▸ final
  free e := absurd e live

/-- Renditions that keep their keys and budgets. -/
theorem formed_mapped (h : Formed i) {g : Rendition → Rendition} (faces : j.faces = i.faces) (state : j.state = i.state)
    (renditions : j.renditions = i.renditions.map g) (keyed : RenditionTurns.Keyed g)
    (landed : ∀ r ∈ i.renditions, Active (g r) → ∀ f ∈ i.faces, f.kind = r.face → f.state = .landed)
    (chains : ∀ r ∈ i.renditions, (g r).chain ≠ [] → (g r).state = .coding ∨ (g r).state = .done)
    (done : ∀ r ∈ i.renditions, (g r).state = .done →
      ∃ o, (g r).output = some o ∧ (g r).chain.length = (o.length + 4095) / 4096)
    (final : ∀ r ∈ i.renditions, r.state.final = true → (g r).state.final = true) : Formed j := by
  have each {P : Rendition → Prop} (all : ∀ r ∈ i.renditions, P (g r)) : ∀ r ∈ j.renditions, P r := by
    rw [renditions]
    exact List.forall_mem_map.mpr all
  refine ⟨faces ▸ h.faces, ?_, each fun r mem => ?_, fun f mem => ?_, each fun r mem active f memF => ?_, each chains,
    each done, each fun r mem => ?_, fun ended => each fun r mem => ?_, fun free => ?_⟩
  · rw [renditions, List.pairwise_map]
    refine h.renditions.imp fun {a b} differ => ?_
    rwa [(keyed a).1, (keyed b).1, (keyed a).2.1, (keyed b).2.1]
  · rw [(keyed r).1, faces]
    exact h.faced r mem
  · rw [state]
    exact h.landing f (faces ▸ mem)
  · rw [(keyed r).1]
    exact landed r mem active f (faces ▸ memF)
  · rw [(keyed r).2.2]
    exact h.budgets r mem
  · rw [state] at ended
    exact final r mem (h.final ended r mem)
  · rw [state] at free
    obtain ⟨noFace, noRendition⟩ := h.free free
    rw [faces, renditions, noFace, noRendition]
    exact ⟨rfl, rfl⟩

theorem stripped_same {loose : FaceKind → Bool} (h : Stripped loose i) (faces : j.faces = i.faces)
    (renditions : j.renditions = i.renditions) : Stripped loose j := by
  intro f mem
  rw [renditions]
  exact h f (faces ▸ mem)

/-- No rendition QUEUED or CODING and no face LANDING: no strip is held. -/
theorem strips_empty (h : Formed i) (stripped : Stripped (fun _ => false) i) (landed : i.state ≠ .landing)
    (final : ∀ r ∈ i.renditions, r.state.final = true) : ∀ f ∈ i.faces, f.strips = [] := by
  intro f mem
  by_contra some_
  rcases stripped f mem rfl some_ with landing | ⟨r, memR, -, active⟩
  · exact landed (h.landing f mem landing)
  · exact not_active_of_final (final r memR) active

end

section
variable {s t : State} {loose loose' : Slot → FaceKind → Bool} {l : Lane} {k : Slot} {i : Item} {q : ScanPort}

/-- Jobs name QUEUED and CODING renditions only. -/
theorem jobs_put (h : PoolsBut loose s) (items : t.items = put s.items k i) (formed : Formed i)
    (same : ∀ r, Active r → (r ∈ i.renditions ↔ r ∈ (s.items.get k).renditions)) (jobs : t.jobs = s.jobs)
    (units : t.units = s.units) : JobsAgree (jobRendition t) t.jobs t.units := by
  rw [jobs, units]
  refine h.jobs.congr fun j r active => ?_
  rw [jobRendition_put items]
  split
  · rename_i slot
    rw [jobRendition, ← slot, rendition_iff formed, rendition_iff (h.formed k), same r active]
  · exact .rfl

theorem landing_of_attached (attached : Attached s l k) : (s.items.get k).state = .landing := by
  obtain ⟨-, -, landing, -⟩ := attached
  exact landing

/-- A lane serves no item that stands elsewhere. -/
theorem unserved_elsewhere (agree : PortsAgree s) (attached : Attached s l k) (m : Lane) (other : l ≠ m) :
    (s.scan.get m).attached ≠ some k := by
  obtain ⟨-, lane, -⟩ := attached
  exact fun e => other (lane.symm.trans ((agree.attached m k).mp e).2)

theorem unserved_free (agree : PortsAgree s) (free : (s.items.get k).state = .free) (m : Lane) (_ : l ≠ m) :
    (s.scan.get m).attached ≠ some k := fun e => by
  have landing := ((agree.attached m k).mp e).1
  rw [free] at landing
  cases landing

/-- A record and its lane's port replaced. -/
theorem receives_port (h : Receives s) (items : t.items = put s.items k i) (scan : t.scan = put s.scan l q)
    (elsewhere : ∀ m, l ≠ m → (s.scan.get m).attached ≠ some k)
    (own : ∀ m kind, q.attached = some m → q.current = some kind → m = k ∧ ∃ f, i.face? kind = some f ∧ f.state = .landing) :
    Receives t := by
  intro m n kind attached current
  rw [scan, Laws.get_put] at attached current
  rw [items, Laws.get_put]
  split at attached <;> rename_i lane
  · rw [if_pos lane] at current
    obtain ⟨rfl, landing⟩ := own n kind attached current
    rw [if_pos rfl]
    exact landing
  · rw [if_neg lane] at current
    have differ : k ≠ n := by
      rintro rfl
      exact elsewhere m lane attached
    rw [if_neg differ]
    exact h m n kind attached current

/-- A record of which faces, renditions and holdings stay. -/
theorem pools_record (h : PoolsBut loose s) (items : t.items = put s.items k i) (formed : Formed i)
    (faces : i.faces = (s.items.get k).faces) (renditions : i.renditions = (s.items.get k).renditions)
    (scan : t.scan = s.scan) (strips : t.strips = s.strips) (pages : t.pages = s.pages) (jobs : t.jobs = s.jobs)
    (units : t.units = s.units) : PoolsBut loose t := by
  refine pools_put h items formed (stripped_same (h.stripped k) faces renditions) (fun _ _ _ => id) ?_ ?_ ?_ ?_
    (jobs_put h items formed (fun r _ => by rw [renditions]) jobs units)
  · refine receives_put h.receives items scan fun kind f found landing => ⟨f, ?_, landing⟩
    rw [Item.face?, faces]
    exact found
  · rw [strips, stripsOf, faces]
    exact .refl _
  · rw [pages, pagesOf, renditions]
    exact .refl _
  · exact ⟨pages ▸ h.counted.counts, by rw [pages, units]; exact h.counted.reserved⟩

/-! ### Slots given and faces opened -/

theorem pools_scanIdle (h : PoolsBut loose s) (after : ScanFree s q) : PoolsBut loose { s with scan := put s.scan l q } := by
  refine ⟨h.formed, h.stripped, fun m k kind attached current => ?_, h.strips, h.pages, ⟨h.counted.counts, h.counted.reserved⟩,
    h.jobs⟩
  dsimp only at attached current
  rw [Laws.get_put] at attached current
  split at attached <;> rename_i lane
  · rw [after.attached] at attached
    cases attached
  · rw [if_neg lane] at current
    exact h.receives m k kind attached current

theorem pools_admitted {src : Source} {bundle : Long} {position : Word} {faces : Byte} (h : PoolsBut loose s)
    (agree : PortsAgree s) (free : (s.items.get k).state = .free) :
    PoolsBut loose (FrameResults.admitted s l k src bundle position faces) := by
  have formed := h.formed k
  obtain ⟨noFace, noRendition⟩ := formed.free free
  have noFace' : (newItem s l src bundle position faces).faces = [] := rfl
  have noRendition' : (newItem s l src bundle position faces).renditions = [] := rfl
  have formed' : Formed (newItem s l src bundle position faces) := by
    refine ⟨.nil, .nil, nofun, nofun, nofun, nofun, nofun, nofun, fun e => ?_, nofun⟩
    rcases e with e | e <;> cases e
  refine pools_put h rfl formed' nofun (fun _ _ _ => id)
    (receives_port h.receives rfl rfl (unserved_free agree free) fun _ _ _ current => nomatch current) ?_ ?_
    ⟨h.counted.counts, h.counted.reserved⟩ (jobs_put h rfl formed' (fun r _ => by rw [noRendition', noRendition]) rfl rfl)
  · rw [stripsOf, stripsOf, noFace, noFace']
    exact .refl _
  · rw [pagesOf, pagesOf, noRendition, noRendition']
    exact .refl _

theorem mem_newRenditions {record : List Byte} {kind : FaceKind} {r : Rendition} (mem : r ∈ newRenditions record kind) :
    r.face = kind ∧ r.state = .waiting ∧ r.chain = [] ∧ r.budget = profileBudget record r.kind := by
  obtain ⟨other, -, rfl⟩ := List.mem_map.mp mem
  exact ⟨rfl, rfl, rfl, rfl⟩

theorem newRenditions_apart (record : List Byte) (kind : FaceKind) :
    (newRenditions record kind).Pairwise fun r q => r.face ≠ q.face ∨ r.kind ≠ q.kind := by
  refine List.pairwise_map.mpr (List.Pairwise.imp (R := fun a b => a ≠ b) Or.inr ?_)
  exact List.Pairwise.filter _ (by decide)

theorem formed_opened {record : List Byte} {kind : FaceKind} {width : Nat} (h : Formed i) (landing : i.state = .landing)
    (unopened : i.face? kind = none) (budgets : ∀ other, 1 ≤ profileBudget record other) :
    Formed { i with
      faces := i.faces ++ [newFace record kind width], renditions := i.renditions ++ newRenditions record kind } := by
  have opened := Laws.face_none unopened
  have each {P : Rendition → Prop} (old : ∀ r ∈ i.renditions, P r) (new : ∀ r ∈ newRenditions record kind, P r) :
      ∀ r ∈ i.renditions ++ newRenditions record kind, P r :=
    fun r mem => (List.mem_append.mp mem).elim (old r) (new r)
  have other (r : Rendition) (mem : r ∈ i.renditions) : r.face ≠ kind := by
    obtain ⟨f, memF, same⟩ := h.faced r mem
    exact same ▸ opened f memF
  refine ⟨?_, ?_, each (fun r mem => ?_) fun r mem => ?_, fun _ _ _ => landing, each (fun r mem active f memF => ?_) fun r mem =>
    ?_, each h.chains fun r mem => ?_, each h.done fun r mem => ?_, each h.budgets fun r mem => ?_, fun e => ?_, fun e => ?_⟩
  · refine List.pairwise_append.mpr ⟨h.faces, List.pairwise_singleton _ _, fun f mem g memG => ?_⟩
    rw [List.mem_singleton.mp memG]
    exact opened f mem
  · refine List.pairwise_append.mpr ⟨h.renditions, newRenditions_apart record kind, fun r mem q memQ => .inl ?_⟩
    rw [(mem_newRenditions memQ).1]
    exact other r mem
  · obtain ⟨f, memF, same⟩ := h.faced r mem
    exact ⟨f, List.mem_append_left _ memF, same⟩
  · exact ⟨newFace record kind width, List.mem_append_right _ (List.mem_singleton.mpr rfl), (mem_newRenditions mem).1.symm⟩
  · rcases List.mem_append.mp memF with old | new
    · exact h.landed r mem active f old
    · rw [List.mem_singleton.mp new]
      exact fun same => absurd same.symm (other r mem)
  · obtain ⟨-, waits, -⟩ := mem_newRenditions mem
    rintro (e | e) <;> rw [waits] at e <;> cases e
  · exact fun some_ => absurd (mem_newRenditions mem).2.2.1 some_
  · intro e
    rw [(mem_newRenditions mem).2.1] at e
    cases e
  · rw [(mem_newRenditions mem).2.2.2]
    exact budgets r.kind
  · dsimp only at e
    rw [landing] at e
    rcases e with e | e <;> cases e
  · dsimp only at e
    rw [landing] at e
    cases e

theorem pools_faceOpened {kind : FaceKind} {width : Nat} (h : PoolsBut tight s) (agree : PortsAgree s)
    (attached : Attached s l k) (unopened : (s.items.get k).face? kind = none)
    (budgets : ∀ other, 1 ≤ profileBudget (s.itemRecord k) other) : PoolsBut tight (s.openFace l k kind width) := by
  have formed := formed_opened (width := width) (h.formed k) (landing_of_attached attached) unopened budgets
  refine pools_put (loose' := tight) h (k := k) (i := { s.items.get k with
      faces := (s.items.get k).faces ++ [newFace (s.itemRecord k) kind width]
      renditions := (s.items.get k).renditions ++ newRenditions (s.itemRecord k) kind }) rfl formed ?_ (fun _ _ _ => id)
    (receives_port (l := l)
      (q := { s.scan.get l with state := .face, current := some kind }) h.receives rfl rfl
      (unserved_elsewhere agree attached) fun m other serves current => ?_) ?_ ?_ ⟨h.counted.counts, h.counted.reserved⟩
    (jobs_put h rfl formed (fun r active => ?_) rfl rfl)
  · intro f mem _ some_
    rcases List.mem_append.mp mem with old | new
    · refine (h.stripped k f old rfl some_).imp_right ?_
      rintro ⟨r, memR, rest⟩
      exact ⟨r, List.mem_append_left _ memR, rest⟩
    · rw [List.mem_singleton.mp new]
      exact .inl rfl
  · have same : m = k := (Option.some.inj (attached.1.symm.trans serves)).symm
    obtain rfl : kind = other := Option.some.inj current
    exact ⟨same, newFace (s.itemRecord k) kind width, (face_iff formed).mpr
      ⟨List.mem_append_right _ (List.mem_singleton.mpr rfl), rfl⟩, rfl⟩
  · rw [stripsOf, stripsOf, List.flatMap_append]
    exact (List.append_nil _).symm ▸ .refl _
  · have empty : (newRenditions (s.itemRecord k) kind).flatMap Rendition.chain = [] :=
      List.flatMap_eq_nil_iff.mpr fun r mem => (mem_newRenditions mem).2.2.1
    rw [pagesOf, pagesOf, List.flatMap_append, empty, List.append_nil]
    exact .refl _
  · refine List.mem_append.trans (or_iff_left fun mem => ?_)
    obtain ⟨-, waits, -⟩ := mem_newRenditions mem
    rcases active with e | e <;> rw [waits] at e <;> cases e

theorem pools_stripTaken {kind : FaceKind} {strip : Nat} {rest : List Nat} (h : PoolsBut tight s)
    (attached : Attached s l k) (current : (s.scan.get l).current = some kind) (strips : s.strips = strip :: rest) :
    PoolsBut tight ((s.withStrips rest).modItem k (·.modFace kind fun x => { x with strips := x.strips ++ [strip] })) := by
  obtain ⟨f, named, landing⟩ := h.receives l k kind attached.1 current
  have formed := h.formed k
  have held := stripsOf_modFace formed named fun x => { x with strips := x.strips ++ [strip] }
  have key (x : Face) : (if x.kind = kind then ({ x with strips := x.strips ++ [strip] } : Face) else x).kind = x.kind ∧
      (if x.kind = kind then ({ x with strips := x.strips ++ [strip] } : Face) else x).state = x.state := by
    split <;> exact ⟨rfl, rfl⟩
  have formed' : Formed ((s.items.get k).modFace kind fun x => { x with strips := x.strips ++ [strip] }) :=
    formed_faces formed rfl rfl (fun x => (key x).1) (fun x mem landing => formed.landing x mem ((key x).2 ▸ landing))
      (fun x _ landed => (key x).2.trans landed) id id
  refine pools_put h rfl formed' ?_ (fun _ _ _ => id) ?_ ?_ (.refl _) ⟨h.counted.counts, h.counted.reserved⟩
    (jobs_put h rfl formed' (fun _ _ => .rfl) rfl rfl)
  · intro g mem _ some_
    obtain ⟨x, mem', rfl⟩ := List.mem_map.mp mem
    by_cases same : x.kind = kind
    · have found := (face_iff formed).mpr ⟨mem', same⟩
      rw [named] at found
      obtain rfl := Option.some.inj found
      exact .inl ((key f).2.trans landing)
    · rw [if_neg same] at some_ ⊢
      exact h.stripped k x mem' rfl some_
  · refine receives_put h.receives rfl rfl fun other x found state => ?_
    exact ⟨_, (face_map rfl (fun x => (key x).1) other).trans (congrArg (Option.map _) found), (key x).2.trans state⟩
  · refine List.perm_iff_count.mpr fun n => ?_
    have count := List.perm_iff_count.mp held n
    simp only [State.modItem, State.withStrips, strips, List.count_append, List.count_cons, List.count_nil] at count ⊢
    omega

end

end Sys2Proof.RecordMoves
end

