-- ==== Sys2Proof/Proofs/LandingMoves.lean ====
section
/-! PROOF. What the end of a face's or of an item's landing, a grant, a claim given up, a PURGE and a freeing do to the pools
(R10 to R15, R26, R41, R77, R89). -/

namespace Sys2Proof.LandingMoves
open Sys2Proof.Machine Sys2Proof.Safety Sys2Proof.Moves Sys2Proof.JobsHeld Sys2Proof.Records Sys2Proof.PoolParts
  Sys2Proof.StripReturns Sys2Proof.RecordMoves Sys2Proof.FaceResults

/-! ### A face landed -/

/-- A WAITING rendition of a landed face QUEUED (R89). -/
def queueOf (kind : FaceKind) (r : Rendition) : Rendition := if waitsFor kind r then { r with state := .queued } else r

theorem waitsFor_iff {kind : FaceKind} {r : Rendition} : waitsFor kind r = true ↔ r.face = kind ∧ r.state = .waiting := by
  rw [waitsFor, Bool.and_eq_true, decide_eq_true_iff, decide_eq_true_iff]

theorem queueOf_waits {kind : FaceKind} {r : Rendition} (waits : waitsFor kind r = true) :
    queueOf kind r = { r with state := .queued } := if_pos waits

theorem queueOf_stays {kind : FaceKind} {r : Rendition} (stays : ¬ waitsFor kind r = true) : queueOf kind r = r := if_neg stays

theorem queueOf_keyed (kind : FaceKind) : RenditionTurns.Keyed (queueOf kind) := fun r => by
  unfold queueOf
  split <;> exact ⟨rfl, rfl, rfl⟩

theorem queueOf_chain (kind : FaceKind) (r : Rendition) : (queueOf kind r).chain = r.chain := by
  unfold queueOf
  split <;> rfl

section
variable {i j : Item} {kind : FaceKind}

theorem formed_queued (h : Formed i) (landed : ∀ f ∈ i.faces, f.kind = kind → f.state = .landed)
    (faces : j.faces = i.faces) (state : j.state = i.state) (renditions : j.renditions = i.renditions.map (queueOf kind)) :
    Formed j := by
  refine formed_mapped h faces state renditions (queueOf_keyed kind)
    (fun r mem active f memF same => ?_) (fun r mem some_ => ?_) (fun r mem ended => ?_) fun r mem final => ?_ <;>
    by_cases waits : waitsFor kind r = true
  · exact landed f memF (same.trans (waitsFor_iff.mp waits).1)
  · rw [queueOf_stays waits] at active
    exact h.landed r mem active f memF same
  · rw [queueOf_waits waits] at some_
    have state := (waitsFor_iff.mp waits).2
    rcases h.chains r mem some_ with e | e <;> rw [state] at e <;> cases e
  · rw [queueOf_stays waits] at some_ ⊢
    exact h.chains r mem some_
  · rw [queueOf_waits waits] at ended
    cases ended
  · rw [queueOf_stays waits] at ended ⊢
    exact h.done r mem ended
  · rw [(waitsFor_iff.mp waits).2] at final
    cases final
  · rw [queueOf_stays waits]
    exact final

theorem rendition_queued (renditions : j.renditions = i.renditions.map (queueOf kind)) (face : FaceKind)
    (other : RenditionKind) : j.rendition? face other = (i.rendition? face other).map (queueOf kind) := by
  rw [Item.rendition?, Item.rendition?, renditions]
  refine Laws.find_map_of_test _ fun r => ?_
  obtain ⟨face, kind, -⟩ := queueOf_keyed kind r
  rw [face, kind]

end

section
variable {s t : State} {loose : Slot → FaceKind → Bool} {l : Lane} {k : Slot} {i : Item} {kind : FaceKind}

/-- The jobs of the WAITING renditions of a face (R89). -/
def jobsOf (k : Slot) (kind : FaceKind) (renditions : List Rendition) : List Job :=
  (renditions.filter (waitsFor kind)).map fun r => Job.mk k r.face r.kind

theorem mem_jobsOf {renditions : List Rendition} {j : Job} : j ∈ jobsOf k kind renditions ↔
    ∃ r ∈ renditions, waitsFor kind r = true ∧ j = ⟨k, r.face, r.kind⟩ := by
  simp only [jobsOf, List.mem_map, List.mem_filter, and_assoc, eq_comm]

theorem jobs_queuedUp (h : PoolsBut loose s) (renditions : i.renditions = (s.items.get k).renditions)
    {j : Item} (queued : j.renditions = i.renditions.map (queueOf kind)) (items : t.items = put s.items k j)
    (jobs : t.jobs = s.jobs ++ jobsOf k kind i.renditions) (units : t.units = s.units) :
    JobsAgree (jobRendition t) t.jobs t.units := by
  have formed := h.formed k
  have named (face : FaceKind) (other : RenditionKind) :
      j.rendition? face other = ((s.items.get k).rendition? face other).map (queueOf kind) :=
    rendition_queued (queued.trans (by rw [renditions])) face other
  rw [jobs, units]
  refine h.jobs.joined ?_ (fun job mem => ?_) fun job out => ?_
  · rw [renditions]
    refine List.pairwise_map.mpr ((formed.renditions.filter _).imp ?_)
    rintro a b (e | e) same
    · exact e (Job.mk.inj same).2.1
    · exact e (Job.mk.inj same).2.2
  · obtain ⟨r, memR, waits, rfl⟩ := mem_jobsOf.mp mem
    rw [renditions] at memR
    have found := (rendition_iff formed).mpr ⟨memR, rfl, rfl⟩
    refine ⟨r, found, (waitsFor_iff.mp waits).2, ?_⟩
    rw [jobRendition_put items, if_pos rfl, named, found, Option.map_some, queueOf_waits waits]
  · rw [jobRendition_put items]
    split
    · rename_i slot
      rw [named, jobRendition, ← slot]
      cases found : (s.items.get k).rendition? job.face job.kind with
      | none => rfl
      | some r =>
        obtain ⟨memR, face, other⟩ := Laws.rendition_mem found
        have stays : ¬ waitsFor kind r = true := fun waits => out
          (mem_jobsOf.mpr ⟨r, renditions ▸ memR, waits, by rw [slot, face, other]⟩)
        rw [Option.map_some, queueOf_stays stays]
    · rfl

theorem pools_faceLanded (h : PoolsBut tight s) (agree : PortsAgree s) (attached : Attached s l k)
    (lands : FaceLands kind (s.items.get k) i) : PoolsBut tight ((queuedUp s l k kind i).returnStrips k kind) := by
  refine pools_returnStrips_once ?_
  obtain ⟨state, -, -, -, -, renditions, g, faces, keeps⟩ := lands
  have formed := h.formed k
  have landing := landing_of_attached attached
  have formedI : Formed i := by
    refine formed_faces formed renditions faces (fun f => (keeps f).1) (fun _ _ _ => state.trans landing)
      (fun f _ landed => ?_) (fun e => state ▸ e) fun e => state ▸ e
    by_cases same : f.kind = kind
    · exact (keeps f).2.2.1 same
    · exact ((keeps f).2.2.2 same).trans landed
  have landed : ∀ f ∈ i.faces, f.kind = kind → f.state = .landed := by
    rw [faces]
    exact List.forall_mem_map.mpr fun f _ same => (keeps f).2.2.1 ((keeps f).1.symm.trans same)
  refine pools_put (k := k) h rfl (formed_queued formedI landed rfl rfl rfl) ?_ (fun _ _ _ _ => rfl)
    (receives_port (l := l) h.receives rfl rfl (unserved_elsewhere agree attached) fun _ _ _ current => nomatch current) ?_ ?_
    ⟨h.counted.counts, h.counted.reserved⟩ (jobs_queuedUp h renditions rfl rfl rfl rfl)
  · intro f mem held some_
    have memI : f ∈ i.faces := mem
    rw [faces] at memI
    obtain ⟨x, memX, rfl⟩ := List.mem_map.mp memI
    have other : x.kind ≠ kind := fun same => by
      refine of_decide_eq_false held ⟨rfl, ?_⟩
      rw [(keeps x).1, same]
      exact List.mem_singleton.mpr rfl
    rw [(keeps x).2.1] at some_
    rw [(keeps x).1, (keeps x).2.2.2 other]
    refine (h.stripped k x memX rfl some_).imp_right ?_
    rintro ⟨r, memR, face, active⟩
    have stays : ¬ waitsFor kind r = true := fun waits => other (face.symm.trans (waitsFor_iff.mp waits).1)
    refine ⟨r, List.mem_map.mpr ⟨r, renditions ▸ memR, queueOf_stays stays⟩, face, active⟩
  · have held : stripsOf { i with renditions := i.renditions.map (queueOf kind) } = stripsOf (s.items.get k) :=
      stripsOf_faces faces fun f => (keeps f).2.1
    exact held ▸ .refl _
  · have held : pagesOf { i with renditions := i.renditions.map (queueOf kind) } = pagesOf (s.items.get k) := by
      rw [pagesOf, pagesOf, List.flatMap_map, renditions]
      exact List.flatMap_congr fun r _ => queueOf_chain kind r
    exact held ▸ .refl _

/-! ### An item's landing ended, its renditions cancelled -/

theorem pools_landingOver {p : ScanPort} {a : Arbiter} (h : PoolsBut tight s) (agree : PortsAgree s)
    (attached : Attached s l k) (leaves : ItemLeaves (s.items.get k) i) (after : ScanFree s p) :
    PoolsBut (allOff k) (landingOver s l k i p a) := by
  obtain ⟨state, -, -, -, -, renditions, g, faces, keeps⟩ := leaves
  have formed : Formed i := by
    refine formed_faces (h.formed k) renditions faces (fun f => (keeps f).1) (fun f _ landing => absurd landing (keeps f).2.2.2)
      (fun f _ => (keeps f).2.2.1) (fun e => ?_) fun e => ?_ <;> rw [state] at e
    · rcases e with e | e <;> cases e
    · cases e
  refine pools_put h rfl formed (fun _ _ held => ?_) (fun _ _ _ _ => rfl)
    (receives_port h.receives rfl rfl (unserved_elsewhere agree attached) fun m _ serves => ?_) ?_ ?_
    ⟨h.counted.counts, h.counted.reserved⟩ (jobs_put h rfl formed (fun r _ => by rw [renditions]) rfl rfl)
  · exact absurd rfl (of_decide_eq_false held)
  · rw [after.attached] at serves
    cases serves
  · exact stripsOf_faces faces (fun f => (keeps f).2.1) ▸ .refl _
  · rw [pagesOf, pagesOf, renditions]
    exact .refl _

theorem pools_landingEnds {p : ScanPort} {a : Arbiter} (cancel : Bool) (h : PoolsBut tight s) (agree : PortsAgree s)
    (attached : Attached s l k) (leaves : ItemLeaves (s.items.get k) i) (after : ScanFree s p) :
    PoolsBut tight ((if cancel then (landingOver s l k i p a).cancelRenditions k
      else landingOver s l k i p a).returnAllStrips k) := by
  have ended := pools_landingOver (a := a) h agree attached leaves after
  refine pools_returnAllStrips ?_
  split
  · exact pools_cancelRenditions ended
  · exact ended

theorem pools_cancelled (h : PoolsBut tight s) : PoolsBut tight ((s.cancelRenditions k).returnAllStrips k) :=
  pools_returnAllStrips (pools_cancelRenditions (h.looser fun _ _ _ => rfl))

/-! ### Pages given back -/

theorem pagesOf_flatten (i : Item) : (i.renditions.map fun r => r.chain).flatten = pagesOf i := List.flatMap_def.symm

theorem cancelDone_state (r : Rendition) (final : r.state.final = true) : (Rendition.cancelDone r).state.final = true ∧
    (Rendition.cancelDone r).state ≠ .done := by
  unfold Rendition.cancelDone
  split
  · exact ⟨rfl, nofun⟩
  · rename_i other
    exact ⟨final, other⟩

/-- What PURGE leaves of a rendition of a READY item (R26). -/
def purgedOf (r : Rendition) : Rendition := Rendition.cancelDone { r with chain := [] }

theorem purgedOf_keyed : RenditionTurns.Keyed purgedOf := fun r => by
  unfold purgedOf Rendition.cancelDone
  split <;> exact ⟨rfl, rfl, rfl⟩

theorem purgedOf_chain (r : Rendition) : (purgedOf r).chain = [] := by
  unfold purgedOf Rendition.cancelDone
  split <;> rfl

theorem donePurged_eq (s : State) (k : Slot) : donePurged s k = { s with
    pages := pagesReturned s.pages (pagesOf (s.items.get k))
    items := put s.items k { s.items.get k with renditions := (s.items.get k).renditions.map purgedOf } } := by
  rw [donePurged, LandingEnds.givePagesBack_eq, pagesOf_flatten]
  simp only [State.modItem, Laws.get_put_same, Laws.put_put, List.map_map]
  rfl

theorem pools_donePurged (h : PoolsBut tight s) (ready : (s.items.get k).state = .ready) :
    PoolsBut tight (donePurged s k) := by
  have formed := h.formed k
  have final := formed.final (.inl ready)
  have ended (r : Rendition) (mem : r ∈ (s.items.get k).renditions) :=
    cancelDone_state { r with chain := [] } (final r mem)
  have landed : (s.items.get k).state ≠ .landing := by rw [ready]; nofun
  have empty := strips_empty formed (h.stripped k) landed final
  obtain ⟨counts, reserved⟩ := h.counted
  have formed' : Formed { s.items.get k with renditions := (s.items.get k).renditions.map purgedOf } := by
    refine formed_mapped formed rfl rfl rfl purgedOf_keyed
      (fun r mem active => absurd active (not_active_of_final (ended r mem).1))
      (fun r _ some_ => absurd (purgedOf_chain r) some_) (fun r mem done => absurd done (ended r mem).2)
      fun r mem _ => (ended r mem).1
  rw [donePurged_eq]
  refine pools_put h rfl formed' (fun f mem _ some_ => absurd (empty f mem) some_) (fun _ _ _ => id)
    (receives_put h.receives rfl rfl fun kind f found landing => ⟨f, found, landing⟩) (.refl _) ?_ ⟨?_, reserved⟩
    (jobs_put h rfl formed' (fun r active => ?_) rfl rfl)
  · have held : pagesOf { s.items.get k with renditions := (s.items.get k).renditions.map purgedOf } = [] := by
      rw [pagesOf, List.flatMap_eq_nil_iff]
      exact List.forall_mem_map.mpr fun r _ => purgedOf_chain r
    rw [held, List.append_nil]
    exact ((List.reverse_perm _).append_right _).trans List.perm_append_comm
  · simp only [pagesReturned, List.length_append, List.length_reverse]
    omega
  · refine iff_of_false (fun mem => ?_) fun mem => not_active_of_final (final r mem) active
    obtain ⟨x, memX, rfl⟩ := List.mem_map.mp mem
    exact not_active_of_final (ended x memX).1 active

/-! ### Settled items -/

theorem pools_settled (h : PoolsBut tight s) (settles : (s.items.get k).settled = true) :
    PoolsBut tight (s.modItem k fun i => { i with state := .ready, disposition := some i.judge }) := by
  obtain ⟨settling, -, ended⟩ := (Settling.settled_iff _).mp settles
  have formed := formed_state (j := { s.items.get k with state := .ready, disposition := some (s.items.get k).judge })
    (h.formed k) rfl rfl (by rw [settling]; nofun) (fun r mem => (Settling.final_iff _).mpr (ended r mem)) nofun
  exact pools_record h rfl formed rfl rfl rfl rfl rfl rfl rfl

theorem pools_granted {c : Claim} (h : PoolsBut tight s) (head : s.chooseHead = some k) : PoolsBut tight (s.grant c k) := by
  have ready := Laws.Behind.chooseHead_ready head
  rw [Grants.grant_eq]
  have formed := formed_state (j := { s.items.get k with state := .claimed, holder := some c.port }) (h.formed k) rfl rfl
    (by rw [ready]; nofun) ((h.formed k).final (.inl ready)) nofun
  exact pools_record h rfl formed rfl rfl rfl rfl rfl rfl rfl

theorem pools_claimBack {p : Port} {y : ExchangePort} {retries : Nat} (h : PoolsBut tight s)
    (claimed : (s.items.get k).state = .claimed) : PoolsBut tight (claimBack s p y k retries) := by
  have formed := formed_state (j := { s.items.get k with state := .ready, holder := none, retries := retries }) (h.formed k)
    rfl rfl (by rw [claimed]; nofun) ((h.formed k).final (.inr claimed)) nofun
  exact pools_record h rfl formed rfl rfl rfl rfl rfl rfl rfl

/-- Claims and exchange ports stand apart from the pools. -/
theorem pools_claims (h : PoolsBut tight s) (claims : List Claim) (exchange : Vector ExchangePort 2) :
    PoolsBut tight { s with claims := claims, exchange := exchange } :=
  ⟨h.formed, h.stripped, h.receives, h.strips, h.pages, ⟨h.counted.counts, h.counted.reserved⟩, h.jobs⟩

/-- An item freed: it held no strip, and its pages are free again (R15, R83). -/
theorem pools_freedAt {p : Port} {y : ExchangePort} {n : Nat} (h : PoolsBut tight s)
    (claimed : (s.items.get k).state = .claimed) : PoolsBut tight (Outcomes.freedAt s p y n k) := by
  have formed := h.formed k
  have final := formed.final (.inr claimed)
  have landed : (s.items.get k).state ≠ .landing := by rw [claimed]; nofun
  have empty := strips_empty formed (h.stripped k) landed final
  obtain ⟨counts, reserved⟩ := h.counted
  have formed' : Formed Item.empty := by
    refine ⟨.nil, .nil, nofun, nofun, nofun, nofun, nofun, nofun, fun e => ?_, fun _ => ⟨rfl, rfl⟩⟩
    rcases e with e | e <;> cases e
  have returned : (Outcomes.freedAt s p y n k).pages = pagesReturned s.pages (pagesOf (s.items.get k)) :=
    congrArg (pagesReturned s.pages) (pagesOf_flatten (s.items.get k))
  refine pools_put h (k := k) (i := Item.empty) rfl formed' nofun (fun _ _ _ => id)
    (receives_put h.receives rfl rfl fun kind f found landing => ?_) ?_ ?_ ⟨?_, ?_⟩
    (jobs_put h rfl formed' (fun r active => ?_) rfl rfl)
  · exact absurd (formed.landing f (Laws.face_mem found).1 landing) landed
  · have held : stripsOf (s.items.get k) = [] := List.flatMap_eq_nil_iff.mpr empty
    rw [held]
    exact .refl _
  · rw [returned]
    exact (List.append_nil _).symm ▸ ((List.reverse_perm _).append_right _).trans List.perm_append_comm
  · rw [returned]
    simp only [pagesReturned, List.length_append, List.length_reverse]
    omega
  · rw [returned]
    exact reserved
  · exact iff_of_false nofun fun mem => not_active_of_final (final r mem) active

end

end Sys2Proof.LandingMoves
end

