-- ==== Sys2Proof/Proofs/PoolEvents.lean ====
section
/-! PROOF. No step breaks the agreement of strips, pages, jobs and coding units with the records (R35, R75, R78 to R82, R88 to
R90, R99, R100). -/

namespace Sys2Proof.PoolEvents
open Sys2Proof.Machine Sys2Proof.Safety Sys2Proof.Moves Sys2Proof.PortsKept Sys2Proof.Residents Sys2Proof.PoolParts
  Sys2Proof.StripReturns Sys2Proof.RecordMoves Sys2Proof.LandingMoves Sys2Proof.UnitPools Sys2Proof.Outcomes

variable {s t : State}

/-! ### The profile of a live item -/

/-- A source that passed its checks has budgets of at least 1 KiB (R157). -/
theorem budgets_of_valid {record : List Byte} (valid : recordValid record = true) (kind : RenditionKind) :
    1 ≤ profileBudget record kind := by
  simp only [recordValid, inRange, Bool.and_eq_true, decide_eq_true_eq] at valid
  cases kind <;> omega

/-- The latched source of a live item is pinned, so it is usable, so its record is sound (R150, R157, R160). -/
theorem record_of_live (h : Profiled s) {k : Slot} (live : (s.items.get k).state ≠ .free) :
    recordValid (s.itemRecord k) = true := by
  obtain ⟨src, source⟩ := Option.isSome_iff_exists.mp (h.pinned.latched k live)
  have member : s.items.get k ∈ s.items.toList := Vector.mem_toList_iff.mpr (Vector.getElem_mem k.isLt)
  have counted : 0 < s.store.pinCount src := by
    rw [h.pinned.pins src]
    exact List.length_pos_of_mem (List.mem_filter.mpr ⟨member, decide_eq_true source⟩)
  have usable := h.guarded.used src ((SourcesGuarded.inUse_iff _ src).mpr (.inl counted))
  rw [State.itemRecord, source]
  exact h.sound.checked src usable

/-! ### Changes -/

/-- A face whose last job has ended returns its strips. -/
theorem pools_jobFailed {u : UnitNo} {j : Job} {final : RenditionState} (h : PoolsBut tight s)
    (failure : final = .oversize ∨ final = .fault) (codes : (s.units.get u).job = some j) :
    PoolsBut tight (jobFailed s u j final) := by
  obtain ⟨r, named, -⟩ := JobsHeld.coding_of_unit h.jobs codes
  refine pools_returnStrips_once ?_
  rw [Settling.unitGivesUp_eq named]
  have off : facesOff j.slot [j.face] j.slot j.face = true := decide_eq_true ⟨rfl, List.mem_singleton.mpr rfl⟩
  rcases failure with rfl | rfl <;> exact pools_givesUp h codes named rfl nofun (fun _ _ _ => rfl) off

theorem pools_jobDone {u : UnitNo} {j : Job} {width rows : Nat} (h : PoolsBut tight s)
    (codes : (s.units.get u).job = some j) : PoolsBut tight (jobDone s u j width rows) :=
  pools_returnStrips_once
    (pools_done h codes (fun _ _ _ => rfl) (decide_eq_true ⟨rfl, List.mem_singleton.mpr rfl⟩))

theorem move_pools (move : Move s t) (ports : PortsAgree s) (profiled : Profiled s) (h : PoolsBut tight s) :
    PoolsBut tight t := by
  cases move with
  | alike a => exact pools_alike h a
  | scanIdle l p before after => exact pools_scanIdle h after
  | admitted l k src bundle position faces running before up free => exact pools_admitted h ports free
  | faceOpened l k kind width attached item accepted =>
    have live : (s.items.get k).state ≠ .free := by rw [landing_of_attached attached]; nofun
    obtain ⟨-, -, unopened, -⟩ := (FaceResults.faceOpenAccepted_iff _ kind width).mp accepted
    exact pools_faceOpened h ports attached (Option.isNone_iff_eq_none.mp ((FaceResults.face_isNone_iff _ kind).mpr unopened))
      (budgets_of_valid (record_of_live profiled live))
  | stripTaken l k kind strip rest attached current strips => exact pools_stripTaken h attached current strips
  | faceLanded l k kind i attached current lands => exact pools_faceLanded h ports attached lands
  | landingEnds l k i p a cancel attached leaves after => exact pools_landingEnds cancel h ports attached leaves after
  | cancelled k settling => exact pools_cancelled h
  | donePurged k ready => exact pools_donePurged h ready
  | settled k settles => exact pools_settled h settles
  | granted k c head claim => exact pools_granted h head
  | jobBegun u j idle queued room => exact pools_jobBegun h idle queued room
  | bytePlaced u j b codes placed => exact pools_bytePlaced h codes placed
  | steppedDown u j codes => exact pools_steppedDown h codes
  | jobFailed u j final failure codes => exact pools_jobFailed h failure codes
  | jobDone u j width rows codes => exact pools_jobDone h codes
  | claimWaits p mask running idle => exact pools_claims h _ _
  | portFreed p y before after => exact pools_claims h _ _
  | claimBack p y k retries before after => exact pools_claimBack h (ports.claimed p k before).1

theorem path_pools (path : Path s t) (ports : PortsAgree s) (profiled : Profiled s) (h : PoolsBut tight s) :
    PoolsBut tight t := by
  induction path with
  | refl => exact h
  | tail before move ih => exact move_pools move (path_ports before ports) (path_profiled before ports profiled) ih

/-! ### Steps -/

theorem pools_elsewhere (h : PoolsBut tight s) (pins : Pins) (st : Store) (sup : Supervisor) (free : Nat) :
    PoolsBut tight { s with pins := pins, store := st, sup := sup, free := free } :=
  ⟨h.formed, h.stripped, h.receives, h.strips, h.pages, ⟨h.counted.counts, h.counted.reserved⟩, h.jobs⟩

/-- RESET_N returns high: the ports serve nothing, the pools stand as the reset left them (R190). -/
theorem pools_released (h : PoolsBut tight s) : PoolsBut tight s.releaseReset := by
  refine ⟨h.formed, h.stripped, fun l k kind attached => ?_, h.strips, h.pages, ⟨h.counted.counts, h.counted.reserved⟩, h.jobs⟩
  rw [QueueEvents.released_scan] at attached
  cases attached

theorem leads_pools (leads : Leads s t) (ports : PortsAgree s) (profiled : Profiled s) (h : PoolsBut tight s) :
    PoolsBut tight t := by
  cases leads with
  | goes path => exact path_pools path ports profiled h
  | freed p k y n slot after path =>
    have claimed := (ports.claimed p k slot).1
    have live : (s.items.get k).state ≠ .free := by rw [claimed]; nofun
    exact path_pools path (FreedItem.ports_freedAt ports slot after) (FreedItem.profiled_freedAt y n profiled live)
      (pools_freedAt h claimed)
  | stored path pins st sup free => exact pools_elsewhere (path_pools path ports profiled h) pins st sup free
  | reset quiet => exact (poolsAgree_iff t).mp (AtReset.poolsAgree quiet)
  | released => exact pools_released h

/-- Settles O57: each change of a path draws, returns or moves strips, pages and jobs together with the records they stand in;
a face whose strips are still to return is let off until its strip return. -/
theorem poolsAgreeKept : Obligations.PoolsAgreeKept := by
  unfold Obligations.PoolsAgreeKept
  intro s t ports guarded latched agree h
  obtain ⟨q, leads⟩ := step_leads ports h
  obtain ⟨pinned, sound⟩ := (StoreSound.profilesLatched_iff s).mp latched
  have same : Alike s (s.withPending q) := withPending_alike s q
  have profiled : Profiled (s.withPending q) :=
    ⟨SourcesGuarded.guarded_of_same guarded rfl rfl, ProfileEvents.pinned_same pinned rfl fun _ => rfl, sound⟩
  exact (poolsAgree_iff t).mpr
    (leads_pools leads (ports_alike ports same) profiled (pools_alike ((poolsAgree_iff s).mp agree) same))

end Sys2Proof.PoolEvents
end
